-- ==== Sys2Proof/Word.lean ====
section
/-! DEFINITION. The words of the messages (11_message_formats.md, R194, R195): bytes and little-endian words. -/

namespace Sys2Proof

/-- One byte of a message. -/
abbrev Byte := BitVec 8
/-- Two bytes: light levels, rasters, offsets, generations. -/
abbrev Word16 := BitVec 16
/-- Four bytes: positions, deltas, sequence numbers. -/
abbrev Word32 := BitVec 32

end Sys2Proof
end

