-- ==== Sys2Proof/Syntax.lean ====
section
/-! DEFINITION. The commands the part takes: one constructor for each row of spec/opcode_table.json, with the operands
the rule of that row names. A request carries the port it arrives on and its payload fields as they stand on the wire
(R196), so that its own meaning judges every encoding. -/

namespace Sys2Proof

/-- The Control Port (system controller) and the Frame Port (picture processor). -/
inductive Port | control | frame
  deriving DecidableEq, Repr

/-- The lens-shift axes, V vertical and H horizontal. -/
inductive Axis | v | h
  deriving DecidableEq, Repr

/-- The three fans. -/
inductive Fan | intake | exhaust | blower
  deriving DecidableEq, Repr

/-- The end stops of an axis: LO at the - end of travel, HI at the + end. -/
inductive EndStop | lo | hi
  deriving DecidableEq, Repr

/-- What the TMON finds on the Probe Bus before a transaction (R100): the two line levels, and the number of the recovery
pulse after which PB_SDA was found high (none: it stayed low). -/
structure BusSample where
  scl : Bool
  sda : Bool
  freedAfter : Option Nat
  deriving DecidableEq, Repr

/-- Where a slot transaction timed out (R98, R99): how many of its eight parts were made, and the Probe Bus as the next
transaction finds it. -/
structure TimedOut where
  parts : Nat
  bus : BusSample
  deriving DecidableEq, Repr

/-- What the end of hard reset finds at the ports (R180): the level of CP_ASEL, and whether a transaction that carries a
request is under way at that moment on the Control Port, on the Frame Port. -/
structure PortsFound where
  cpAsel : Bool
  controlBusy : Bool
  frameBusy : Bool
  deriving DecidableEq, Repr

/-- How a slot transaction that did not time out ends (R98, R99). -/
inductive ReadResult
  | data (high low : Byte)
  | noAckAddr
  | noAckPtr
  | noAckRead
  deriving DecidableEq, Repr

/-- The commands, in the order of the opcode table. Times are microseconds of the part's clock. -/
inductive Instr
  | readInstall (port : Port) (reserve : Byte)
  | writeInstall (port : Port) (presence orientation kv kh : Byte) (targetV targetH : Word32)
      (speed conditional : Byte)
  | jog (port : Port) (axis : Byte) (delta : Word32) (speed conditional : Byte)
  | readAxis (port : Port) (axis : Byte)
  | readThermal (port : Port)
  | readLight (port : Port)
  | readWarp (port : Port)
  | readPreset (port : Port) (slot : Byte)
  | getEvents (port : Port)
  | setEventMask (port : Port) (mask : BitVec 24)
  | attach (port : Port) (width height : Word16)
  | detach (port : Port)
  | lightRequest (port : Port) (level : Word16)
  | abortMotion (port : Port) (axes : Byte)
  | home (port : Port) (axes : Byte)
  | axisRecover (port : Port) (axes : Byte)
  | storePreset (port : Port) (slot source includeKeystone : Byte) (targetV targetH : Word32)
      (kv kh : Byte)
  | recallPreset (port : Port) (slot speed conditional : Byte)
  | clearPreset (port : Port) (slot : Byte)
  | lightOn (port : Port)
  | lightOff (port : Port)
  | setLightMode (port : Port) (mode : Byte)
  | setQuiet (port : Port) (quiet : Byte)
  | clearLightFault (port : Port)
  | setParamAxis (port : Port) (param index : Byte) (value : Word32)
  | setParam (port : Port) (param index : Byte) (value : Word32)
  | getParam (port : Port) (param index : Byte)
  | beginLoad (port : Port) (table : Byte) (total : Word16)
  | loadSegment (port : Port) (offset : Word16) (data : List Byte)
  | endLoad (port : Port)
  | readTable (port : Port) (table : Byte) (offset : Word16)
  | restart (port : Port)
  /-- The bytes of a frame that fails the frame checks of R166. -/
  | malformedRequest (port : Port) (bytes : List Byte)
  | responseFormed (port : Port)
  /-- RESET_N was held low for this many nanoseconds, or none: power-on (R180). -/
  | hardReset (lowNs : Option Nat)
  /-- The end of hard reset: what it finds at the ports, and the Probe Bus as the first scan finds it. -/
  | hardResetEnd (ports : PortsFound) (bus : BusSample)
  /-- A rising edge of FMARK at a time. -/
  | fmark (time : Nat)
  | lapseWindowExpiry
  | stepTimerExpiry (axis : Axis)
  /-- An end-stop line going active (true) or inactive (false). -/
  | endStopEdge (axis : Axis) (stop : EndStop) (active : Bool)
  /-- A rising (true) or falling (false) edge of REF_MK. -/
  | refMkEdge (axis : Axis) (rising : Bool)
  /-- DRV_FLT going active (true) or inactive (false). -/
  | drvFlt (axis : Axis) (active : Bool)
  | holdTimerExpiry (axis : Axis)
  | computationComplete
  /-- A scan starts; the Probe Bus as its first transaction finds it. -/
  | scanStart (bus : BusSample)
  /-- The transaction of the present slot ends; the Probe Bus as the next transaction finds it. -/
  | slotReadDone (result : ReadResult) (bus : BusSample)
  /-- The transaction of the present slot times out. -/
  | probeBusTimeout (timedOut : TimedOut)
  | criticalDwellExpiry
  | kickExpiry (fan : Fan)
  /-- A tach line fell at a time and then stayed low for this many microseconds. -/
  | tachEdgeAccepted (fan : Fan) (fall low : Nat)
  | graceTimerExpiry (fan : Fan)
  | edgeTimerExpiry (fan : Fan)
  | lightOkRise (time : Nat)
  | lightOkFall (time : Nat)
  /-- LIGHT_FLT going active (true) or inactive (false) at a time. -/
  | lightFlt (active : Bool) (time : Nat)
  | ignitionTimerExpiry
  | cooldownMinExpiry
  | coolMax
  | slewTimerExpiry
  deriving DecidableEq, Repr

end Sys2Proof
end

