-- ==== Sys2Proof/Config.lean ====
section
/-! DEFINITION. What the part fixes once (its timing constants) and the FREE VALUES: constants with no body, for what
the spec leaves open. Nothing can be proved of a free value but what its type says. -/

namespace Sys2Proof.Config

/-- FREE VALUE (notes/assumptions/6.md): the count an axis holds after a change that leaves signed 32 bits, as a
function of the axis and of how often that has happened to it. -/
opaque positionBeyondRange : Axis → Nat → Word32

/-- FREE VALUE (notes/assumptions/7.md): whether a RESET_N pulse between 1 and 2 microseconds resets the part, as a
function of how many such pulses there have been (R180). -/
opaque shortPulseResets : Nat → Bool

/-- FREE VALUE (notes/assumptions/8.md): the bytes of a position that does not apply, in a response whose layout the
spec does not give (R195 gives positions no absent value). -/
opaque absentPosition : Word32

/-- FREE VALUE (notes/assumptions/8.md): the byte of a keystone code that does not apply (R195 gives none). -/
opaque absentKeystone : Byte

/-- FREE VALUE (notes/assumptions/9.md): the byte that carries a leg number above 255 (R199). -/
opaque legNumberByte : Nat → Byte

/-- A scan starts every 100 ms (R103). -/
def scanInterval : Nat := 100000
/-- A spin-up kick lasts 1000 ms (R128). -/
def kickTime : Nat := 1000000
/-- Grace after a fan's output leaves 0 (R133). -/
def graceTime : Nat := 1000000
/-- A fan with no accepted edge for 500 ms is not turning (R133). -/
def edgeTime : Nat := 500000
/-- The drive rises once every 10 ms (R160). -/
def slewTime : Nat := 10000
/-- Full light drive. -/
def fullLight : Nat := 16383

end Sys2Proof.Config
end

