-- ==== Sys2Proof/Machine/State.lean ====
section
/-! DEFINITION. The state of the part, block by block (00_scope.md, "Block diagram"), as plain data, and its values at the
end of hard reset. Times are microseconds of the part's clock; a timer is the time of its expiry, or none while stopped. -/

namespace Sys2Proof.Machine

/-! ### Enumerations (R195) -/

/-- How the projector is mounted (R1). -/
inductive Orientation | floor | ceiling
  deriving DecidableEq, Repr

/-- The speed class of a queue entry (R7). -/
inductive SpeedClass | slow | normal | fast
  deriving DecidableEq, Repr

/-- A direction on an axis: - or +. -/
inductive Dir | minus | plus
  deriving DecidableEq, Repr

/-- The five axis states (R23). -/
inductive AxisMode | idle | running | stopping | homing | fault
  deriving DecidableEq, Repr

/-- How far the counted position is believed (R45). -/
inductive Trust | unhomed | homed | unsure
  deriving DecidableEq, Repr

/-- The kind of a queue entry (R24). -/
inductive EntryKind | absolute | relative
  deriving DecidableEq, Repr

/-- The origin of a queue entry (R24). -/
inductive Origin | control | frame | preset
  deriving DecidableEq, Repr

/-- What a write did to an axis's queue (R11). -/
inductive QueueAction | none | appended | replaced
  deriving DecidableEq, Repr

/-- Who made an installation change (R3). -/
inductive Originator | control | frame | part
  deriving DecidableEq, Repr

/-- The current phase of an axis's coils (R40). -/
inductive Phase | run | hold | rest | off
  deriving DecidableEq, Repr

/-- The kind of a leg (R29). -/
inductive LegKind | overshoot | final
  deriving DecidableEq, Repr

/-- What HOME did with an axis (R47). -/
inductive HomeAction | started | pending
  deriving DecidableEq, Repr

/-- The phases of a homing run (R49 to R51). -/
inductive HomingPhase | clear | approach | backoff
  deriving DecidableEq, Repr

/-- Why an active entry left the queue (R27). -/
inductive DoneReason | complete | aborted | thermal | trip | restart | limit | fault
  deriving DecidableEq, Repr

/-- Why a homing run or a pending home failed (R52, R53). -/
inductive HomeCause | noContact | stuckLo | endHi | cancelled
  deriving DecidableEq, Repr

/-- The motion an end-stop contact halted (R62). -/
inductive Halted | move | stop
  deriving DecidableEq, Repr

/-- The six zones (R105). -/
inductive Zone | src | panel | lens | supply | intake | exhaust
  deriving DecidableEq, Repr

/-- What an event or the trip names: a zone, the fans, or no contribution (R111, R113). -/
inductive Source | zone (z : Zone) | fans | none
  deriving DecidableEq, Repr

inductive ZoneStatus | live | lost | absent | unmonitored
  deriving DecidableEq, Repr

inductive SlotStatus | pending | live | lost
  deriving DecidableEq, Repr

/-- The cause of a failed read (R99, R100, R101). -/
inductive ReadCause | noAckAddr | noAckPtr | noAckRead | timeout | busStuck | range
  deriving DecidableEq, Repr

/-- A zone's state and the device thermal state, in order of severity (R110). -/
inductive Thermal | normal | warm | hot | critical
  deriving DecidableEq, Repr

/-- The bus condition of a scan (R100). -/
inductive BusCondition | clear | recovered | stuck
  deriving DecidableEq, Repr

inductive TripCause | absolute | dwell
  deriving DecidableEq, Repr

inductive TachState | off | starting | turning | stalled
  deriving DecidableEq, Repr

inductive Session | standby | ignition | lit | cooldown | tripped
  deriving DecidableEq, Repr

inductive SessionCause | lightOn | lightOk | lightOff | fault | cooled | coolMax | trip
  deriving DecidableEq, Repr

inductive FaultReason | noLight | driver
  deriving DecidableEq, Repr

inductive LightMode | eco | normal | bright
  deriving DecidableEq, Repr

inductive LapseState | disarmed | armed | lapsed
  deriving DecidableEq, Repr

/-- The cause of a publication or of the end of a lapse (R88, R96). -/
inductive FrameCause | fmark | attach | detach
  deriving DecidableEq, Repr

/-- The four tables a processor may load (R182). -/
inductive Table | keystone | curves | zones | scan
  deriving DecidableEq, Repr

/-- The causes of a load error (R183, R185). -/
inductive LoadCause | sequence | overrun | field | short | content
  deriving DecidableEq, Repr

/-- The causes of a BAD_REQUEST (R166). -/
inductive BadCause | unknownKind | length | count | field
  deriving DecidableEq, Repr

/-- The status codes (R170). -/
inductive Status
  | ok | accepted | clamped
  | notReady | badRequest | outOfRange | notPermitted | busy | stale | notHomed | queueFull | thermalHold | empty
  | cooling | faulted | tripped | tableInvalid | noLoad
  deriving DecidableEq, Repr

/-- The 18 event kinds, in the order of their codes (R174, R202). -/
inductive EventKind
  | installChanged | lensDone | lensFault | limitHit | positionSlip | homeDone | homeFail | warpNew | lapse | lapseEnd
  | thermalState | trip | sensorLost | sensorBack | fanStall | fanRecover | lightState | lightFault
  deriving DecidableEq, Repr

/-- An event with its detail (R202). -/
inductive Event
  | installChanged (generation : Word16) (originator : Originator)
  | lensDone (axis : Axis) (position : Int) (reason : DoneReason)
  | lensFault (axis : Axis) (position : Int) (before : AxisMode)
  | limitHit (axis : Axis) (stop : EndStop) (count : Int) (motion : Halted)
  | positionSlip (axis : Axis) (d position : Int)
  | homeDone (axis : Axis) (position contact : Int)
  | homeFail (axis : Axis) (position : Int) (cause : HomeCause)
  | warpNew (seq : Word32) (generation : Word16) (cause : FrameCause)
  | lapse (window : Nat)
  | lapseEnd (cause : FrameCause) (length : Nat)
  | thermalState (new old : Thermal) (source : Source)
  | trip (cause : TripCause) (zone : Source) (temperature : Option Int)
  | sensorLost (slot : Nat) (zone : Zone) (cause : Option ReadCause)
  | sensorBack (slot : Nat) (zone : Zone) (value : Int)
  | fanStall (fan : Fan) (duty rpm : Nat) (was : TachState)
  | fanRecover (fan : Fan) (rpm stalledMs : Nat)
  | lightState (new old : Session) (cause : SessionCause)
  | lightFault (reason : FaultReason) (session : Session) (drive timeMs : Nat)
  deriving DecidableEq, Repr

/-! ### Families indexed by axis, fan and zone -/

/-- One value for each fan. -/
structure PerFan (α : Type) where
  intake : α
  exhaust : α
  blower : α
  deriving DecidableEq, Repr

/-- One value for each zone. -/
structure PerZone (α : Type) where
  src : α
  panel : α
  lens : α
  supply : α
  intake : α
  exhaust : α
  deriving DecidableEq, Repr

/-! ### Ports (09_ports_requests_and_events.md) -/

/-- A response slot (R167). A PENDING slot holds the answer already, since the response describes the state as the
request left it (R166); only its event summary waits for the response to be formed (R168). -/
inductive Slot
  | empty
  | pending (kind : Byte) (status : Status) (body : List Byte)
  | full (kind : Byte) (status : Status) (payload : List Byte)
  deriving DecidableEq, Repr

/-- An entry of an event set: the latest raising of its kind and the number of raisings, 1..15 (R173). -/
structure SetEntry where
  event : Event
  count : Nat
  deriving DecidableEq, Repr

/-- What both port interfaces hold (R167, R173, R175, R92). The mark crossing says that a transaction which was under way
when hard reset ended, and which carries a request, has not ended yet (R180; notes/assumptions/44.md). -/
structure PortState where
  slot : Slot
  events : List SetEntry
  mask : BitVec 18
  lastWarp : Option Word32
  crossing : Bool
  deriving DecidableEq, Repr

/-- An open table load (R183). -/
structure Load where
  table : Table
  total : Nat
  received : Nat
  image : List Byte
  firstError : Option (LoadCause × Nat)
  deriving DecidableEq, Repr

/-- The Control Port Interface. -/
structure Cpi where
  port : PortState
  address : BitVec 7
  load : Option Load
  deriving DecidableEq, Repr

/-- The Frame Port Interface. -/
structure Fpi where
  port : PortState
  attached : Bool
  width : Nat
  height : Nat
  latched : Option Nat
  deriving DecidableEq, Repr

/-! ### Installation Record Manager (01) -/

/-- A FILLED preset slot (R17); the codes are present when keystone is. -/
structure Preset where
  targetV : Int
  targetH : Int
  keystone : Option (Int × Int)
  deriving DecidableEq, Repr

/-- The IRM: the installation record (R1), the two reservations (R5), the preset table (R17). -/
structure Irm where
  orientation : Orientation
  kv : Int
  kh : Int
  targetV : Int
  targetH : Int
  generation : Word16
  reserveControl : Option Word16
  reserveFrame : Option Word16
  presets : List (Option Preset)
  deriving DecidableEq, Repr

/-! ### Lens Motion Controller (02, 03) -/

/-- The parameters of one axis (R21); the gravity level is held for axis V alone. -/
structure AxisParams where
  travel : Nat
  centre : Nat
  kspan : Nat
  pStart : Nat
  pRunSlow : Nat
  pRunNormal : Nat
  pRunFast : Nat
  nRamp : Nat
  backlash : Nat
  preload : Dir
  pHome : Nat
  backoff : Nat
  refPos : Nat
  refTol : Nat
  iRun : Nat
  iHold : Nat
  iIdle : Nat
  tHold : Nat
  iGrav : Option Nat
  deriving DecidableEq, Repr

/-- An entry of a motion queue (R24). -/
structure Entry where
  kind : EntryKind
  origin : Origin
  target : Int
  speed : SpeedClass
  active : Bool
  deriving DecidableEq, Repr

/-- The running leg (R29 to R31, R44); lastRamp is the ramp index of the last microstep issued (R30). -/
structure Leg where
  number : Nat
  kind : LegKind
  dir : Dir
  endPoint : Int
  n : Nat
  nAcc : Nat
  issued : Nat
  pRun : Nat
  lastRamp : Nat
  deriving DecidableEq, Repr

/-- A decelerating stop (R35): of an active entry, or of an abandoned homing run. -/
structure Stop where
  position : Int
  remaining : Nat
  dir : Dir
  reason : DoneReason
  pRun : Nat
  abandoned : Bool
  deriving DecidableEq, Repr

/-- A homing run (R49 to R51): microsteps taken and to take in its phase, and the contact count of R50. -/
structure Homing where
  phase : HomingPhase
  taken : Nat
  limit : Nat
  contact : Int
  deriving DecidableEq, Repr

/-- The axis state (R23) with the data each state carries. -/
inductive Motion
  | idle
  | running (leg : Leg)
  | stopping (stop : Stop)
  | homing (run : Homing)
  | fault
  deriving DecidableEq, Repr

/-- One axis (R21 to R62). -/
structure AxisState where
  params : AxisParams
  motion : Motion
  trust : Trust
  position : Int
  index : BitVec 6
  queue : List Entry
  pendingHome : Bool
  phase : Phase
  stepTimer : Option Nat
  holdTimer : Option Nat
  lastStepAt : Nat
  flagLo : Bool
  flagHi : Bool
  endLo : Bool
  endHi : Bool
  drvFlt : Bool
  refMk : Bool
  freeCount : Nat
  deriving DecidableEq, Repr

/-- The LMC: its two axes. -/
structure Lmc where
  v : AxisState
  h : AxisState
  deriving DecidableEq, Repr

/-! ### Geometry Engine (04, 05) -/

/-- The inputs a computation latches (R67). -/
structure GeoInputs where
  kv : Int
  kh : Int
  orientation : Orientation
  generation : Word16
  posV : Int
  posH : Int
  trustV : Trust
  trustH : Trust
  centreV : Nat
  centreH : Nat
  kspanV : Nat
  kspanH : Nat
  width : Nat
  height : Nat
  tk : List Nat
  flim : Nat
  deriving DecidableEq, Repr

/-- A corner inset in pixels (R75). -/
structure Corner where
  dx : Nat
  dy : Nat
  deriving DecidableEq, Repr

/-- The flags of a warp record (R77). -/
structure WarpFlags where
  clampedV : Bool
  clampedH : Bool
  unsureV : Bool
  unsureH : Bool
  inverted : Bool
  deriving DecidableEq, Repr

/-- A warp record (R78). -/
structure WarpRecord where
  seq : Word32
  tl : Corner
  tr : Corner
  bl : Corner
  br : Corner
  flags : WarpFlags
  kv : Int
  kh : Int
  aV : Int
  aH : Int
  fV : Nat
  fH : Nat
  width : Nat
  height : Nat
  generation : Word16
  deriving DecidableEq, Repr

/-- A computation in flight: its latched inputs, and whether it is marked for publication (R82). -/
structure Computation where
  inputs : GeoInputs
  marked : Bool
  deriving DecidableEq, Repr

/-- The GE (R63, R65, R80, R82, R84). -/
structure Ge where
  tk : List Nat
  tkCount : Word16
  flim : Nat
  q : Nat
  staged : WarpRecord
  live : WarpRecord
  inFlight : Option Computation
  pendingMark : Bool
  refV : Int
  refH : Int
  attachMark : Bool
  deriving DecidableEq, Repr

/-! ### Frame Monitor (05) -/

/-- The FMON (R93, R95, R96); windowLength is the length in ms the running window was started with. -/
structure Fmon where
  state : LapseState
  window : Option Nat
  windowLength : Nat
  lapseStart : Option Nat
  lastMark : Option Nat
  period : Nat
  lapseWindow : Nat
  deriving DecidableEq, Repr

/-! ### Thermal Monitor (06) -/

/-- A slot of the scan table (R102). -/
structure ScanSlot where
  enabled : Bool
  address : Nat
  pointer : Nat
  zone : Zone
  offset : Int
  deriving DecidableEq, Repr

/-- A slot record (R104). -/
structure SlotRecord where
  status : SlotStatus
  value : Option Int
  failures : Nat
  lastCause : Option ReadCause
  deriving DecidableEq, Repr

/-- A zone record (R105). -/
structure ZoneRecord where
  status : ZoneStatus
  temperature : Option Int
  state : Thermal
  deriving DecidableEq, Repr

/-- The thresholds of a zone (R107). -/
structure Thresholds where
  warm : Int
  hot : Int
  crit : Int
  abs : Int
  hysteresis : Nat
  lHot : Nat
  deriving DecidableEq, Repr

/-- A scan in flight: the slots still to be read, the one being read first, and the worst bus condition met (R100, R103). -/
structure Scan where
  slots : List Nat
  bus : BusCondition
  deriving DecidableEq, Repr

/-- The set trip latch (R114). -/
structure TripRecord where
  cause : TripCause
  zone : Source
  temperature : Option Int
  deriving DecidableEq, Repr

/-- The TMON (R116). -/
structure Tmon where
  table : List ScanSlot
  tableCount : Word16
  newTable : Bool
  latched : List ScanSlot
  scan : Option Scan
  nextScan : Option Nat
  slots : List SlotRecord
  zones : PerZone ZoneRecord
  thresholds : PerZone Thresholds
  thresholdsCount : Word16
  device : Thermal
  stalled : PerFan Bool
  dwell : Option Nat
  dwellSeconds : Nat
  trip : Option TripRecord
  ready : Bool
  scanNumber : Word16
  bus : BusCondition
  deriving DecidableEq, Repr

/-! ### Airflow Controller (07) -/

/-- A fan curve: five points and a zone mask, bit n for zone code n (R121, R203). -/
structure Curve where
  points : List (Int × Nat)
  mask : BitVec 6
  deriving DecidableEq, Repr

/-- A fan record (R119). A STARTING fan with its edge timer stopped is one whose expiry is remembered (R133). drivenFrom is
the time the output last left 0, none while it is 0, since a fall made at output 0 is not accepted (R131). stalledAt is the time the fan last became STALLED, none once it
has recovered, from which R140 measures: the model's own (notes/assumptions/46.md). -/
structure FanRecord where
  demand : Nat
  selected : Nat
  output : Nat
  kick : Option Nat
  tach : TachState
  grace : Option Nat
  edge : Option Nat
  lastEdge : Option Nat
  period : Nat
  rpm : Nat
  recovery : Nat
  stalledAt : Option Nat
  drivenFrom : Option Nat
  deriving DecidableEq, Repr

/-- The AFC (R119, R124, R127, R131). The glitch filter is the list of its settings, newest first, each with the time it
was made, since a fall is judged by the width in force when it began (R131). -/
structure Afc where
  floorCurves : PerFan Curve
  ceilingCurves : PerFan Curve
  curvesCount : Word16
  fans : PerFan FanRecord
  quiet : Bool
  excess : Nat
  zones : PerZone ZoneRecord
  inUse : Orientation
  quietCap : PerFan Nat
  coolDuty : PerFan Nat
  startDuty : Nat
  glitch : List (Nat × Nat)
  deriving DecidableEq, Repr

/-! ### Light Allowance Unit (08) -/

/-- The cool-down minimum timer (R148). -/
inductive CoolMin | stopped | running (expiry : Nat) | elapsed
  deriving DecidableEq, Repr

/-- The set light fault latch (R146). -/
structure LightFault where
  reason : FaultReason
  timeMs : Nat
  deriving DecidableEq, Repr

/-- The allowance components as last formed (R152). -/
structure Components where
  modeCeiling : Nat
  lTh : Nat
  stallCapped : Bool
  lAc : Nat
  lapseApplies : Bool
  ignApplies : Bool
  deriving DecidableEq, Repr

/-- What the LAU holds of other blocks (R141). -/
structure LauInputs where
  zones : PerZone ZoneRecord
  thresholds : PerZone Thresholds
  device : Thermal
  anyStalled : Bool
  ready : Bool
  excess : Nat
  attached : Bool
  lapse : LapseState
  deriving DecidableEq, Repr

/-- The parameters of the LAU (R192). -/
structure LauParams where
  lLapse : Nat
  lIgn : Nat
  lStall : Nat
  lCrit : Nat
  lAcFloor : Nat
  acStep : Nat
  slew : Nat
  ignTimeout : Nat
  coolMin : Nat
  coolMax : Nat
  tCool : Int
  deriving DecidableEq, Repr

/-- The LAU (R141). The time of the last entry to IGNITION, which R146 measures from and the table of R141 does not list, is a
field of the model (notes/assumptions/45.md). -/
structure Lau where
  session : Session
  mode : LightMode
  fault : Option LightFault
  ignition : Option Nat
  ignitionStart : Option Nat
  coolMin : CoolMin
  coolMax : Option Nat
  applied : Option Nat
  components : Components
  allowance : Nat
  drive : Nat
  slew : Option Nat
  held : LauInputs
  params : LauParams
  lightOk : Bool
  lightFlt : Bool
  deriving DecidableEq, Repr

/-! ### The whole part -/

structure State where
  now : Nat
  inReset : Bool
  resetPulses : Nat
  cpi : Cpi
  fpi : Fpi
  irm : Irm
  lmc : Lmc
  ge : Ge
  fmon : Fmon
  tmon : Tmon
  afc : Afc
  lau : Lau
  pending : List Instr
  deriving DecidableEq, Repr

/-- The spec gives the part no fault that stops it: no command raises one. -/
inductive Fault
  deriving DecidableEq, Repr

/-- Why a command has no meaning. -/
inductive Refusal
  /-- The command has no meaning in the model yet. Raised by no arm of exec. Safe: a refusal stops the run. -/
  | notModelled (mnemonic : String)
  deriving DecidableEq, Repr

/-! ### Hard-reset values -/

/-- Axis parameters after hard reset (R21). -/
def AxisParams.default : Axis → AxisParams
  | .v =>
    { travel := 48000, centre := 24000, kspan := 16000, pStart := 800, pRunSlow := 200, pRunNormal := 100,
      pRunFast := 60, nRamp := 256, backlash := 96, preload := .minus, pHome := 300, backoff := 800, refPos := 24000,
      refTol := 24, iRun := 200, iHold := 120, iIdle := 40, tHold := 500, iGrav := some 64 }
  | .h =>
    { travel := 19200, centre := 9600, kspan := 16000, pStart := 800, pRunSlow := 200, pRunNormal := 100,
      pRunFast := 60, nRamp := 256, backlash := 64, preload := .minus, pHome := 300, backoff := 800, refPos := 9600,
      refTol := 24, iRun := 200, iHold := 120, iIdle := 40, tHold := 500, iGrav := none }

/-- An axis after hard reset (R42, R45, R48, R54). -/
def AxisState.reset (a : Axis) : AxisState :=
  { params := .default a, motion := .idle, trust := .unhomed, position := (AxisParams.default a).centre, index := 0,
    queue := [], pendingHome := false, phase := .rest, stepTimer := none, holdTimer := none, lastStepAt := 0,
    flagLo := false, flagHi := false, endLo := false, endHi := false, drvFlt := false, refMk := false, freeCount := 0 }

/-- A port after hard reset (R181). -/
def PortState.reset : PortState :=
  { slot := .empty, events := [], mask := BitVec.allOnes 18, lastWarp := none, crossing := false }

/-- The CPI after hard reset, its address by CP_ASEL (R164, R181, R183). -/
def Cpi.reset (asel : Bool) : Cpi :=
  { port := .reset, address := if asel then 0x3B else 0x3A, load := none }

/-- The FPI after hard reset (R181, R89, R157). -/
def Fpi.reset : Fpi :=
  { port := .reset, attached := false, width := 3840, height := 2160, latched := none }

/-- The IRM after hard reset (R1, R5, R17). -/
def Irm.reset : Irm :=
  { orientation := .floor, kv := 0, kh := 0, targetV := 24000, targetH := 9600, generation := 0,
    reserveControl := none, reserveFrame := none, presets := List.replicate 8 none }

/-- The reset record (R80). -/
def WarpRecord.reset : WarpRecord :=
  { seq := 0, tl := ⟨0, 0⟩, tr := ⟨0, 0⟩, bl := ⟨0, 0⟩, br := ⟨0, 0⟩,
    flags := { clampedV := false, clampedH := false, unsureV := true, unsureH := true, inverted := false },
    kv := 0, kh := 0, aV := 0, aH := 0, fV := 0, fH := 0, width := 3840, height := 2160, generation := 0 }

/-- The GE after hard reset (R63, R65, R80, R82, R84). -/
def Ge.reset : Ge :=
  { tk := (List.range 31).map (440 * ·), tkCount := 0, flim := 13107, q := 64, staged := .reset, live := .reset,
    inFlight := none, pendingMark := false, refV := 24000, refH := 9600, attachMark := false }

/-- The FMON after hard reset (R93, R96). -/
def Fmon.reset : Fmon :=
  { state := .disarmed, window := none, windowLength := 0, lapseStart := none, lastMark := none, period := 0,
    lapseWindow := 100 }

/-- The scan table after hard reset (R102). -/
def ScanSlot.defaults : List ScanSlot :=
  [⟨true, 0x48, 0, .src, 0⟩, ⟨true, 0x49, 0, .panel, 0⟩, ⟨true, 0x4A, 0, .lens, 0⟩, ⟨true, 0x4B, 0, .supply, 0⟩,
   ⟨true, 0x4C, 0, .intake, 0⟩, ⟨true, 0x4D, 0, .exhaust, 0⟩, ⟨false, 0x4E, 0, .src, 0⟩, ⟨false, 0x4F, 0, .src, 0⟩]

/-- A slot record after hard reset (R104). -/
def SlotRecord.reset : SlotRecord :=
  { status := .pending, value := none, failures := 0, lastCause := none }

/-- A zone record after hard reset: every zone has an enabled slot in the default table (R105). -/
def ZoneRecord.reset : ZoneRecord :=
  { status := .absent, temperature := none, state := .normal }

/-- The same value for every zone. -/
def PerZone.same {α : Type} (x : α) : PerZone α := ⟨x, x, x, x, x, x⟩

/-- The same value for every fan. -/
def PerFan.same {α : Type} (x : α) : PerFan α := ⟨x, x, x⟩

/-- The ZONES table after hard reset (R107). -/
def Thresholds.defaults : PerZone Thresholds :=
  { src := ⟨240, 280, 320, 360, 8, 8192⟩, panel := ⟨200, 232, 260, 288, 8, 12288⟩, lens := ⟨180, 208, 240, 272, 8, 12288⟩,
    supply := ⟨260, 300, 340, 380, 8, 12288⟩, intake := ⟨140, 160, 180, 200, 8, 12288⟩,
    exhaust := ⟨220, 260, 300, 340, 8, 12288⟩ }

/-- The TMON after hard reset, with no scan yet started (R116). -/
def Tmon.reset : Tmon :=
  { table := ScanSlot.defaults, tableCount := 0, newTable := false, latched := ScanSlot.defaults, scan := none,
    nextScan := none, slots := List.replicate 8 .reset, zones := .same .reset, thresholds := Thresholds.defaults,
    thresholdsCount := 0, device := .normal, stalled := .same false, dwell := none, dwellSeconds := 10, trip := none,
    ready := false, scanNumber := 0, bus := .clear }

/-- A fan after hard reset (R119). It holds no time of a stall (notes/assumptions/46.md) and none from which it is driven
(notes/assumptions/26.md). -/
def FanRecord.reset : FanRecord :=
  { demand := 63, selected := 0, output := 0, kick := none, tach := .off, grace := none, edge := none, lastEdge := none,
    period := 0, rpm := 0, recovery := 0, stalledAt := none, drivenFrom := none }

/-- The AFC after hard reset (R119, R121, R124, R127, R131). -/
def Afc.reset : Afc :=
  let low : List Int := [120, 160, 200, 240, 280]
  let high : List Int := [160, 200, 240, 280, 320]
  let floorAir : Curve := ⟨low.zip [12, 24, 36, 50, 63], 63⟩
  let ceilingAir : Curve := ⟨low.zip [16, 28, 40, 54, 63], 63⟩
  { floorCurves := ⟨floorAir, floorAir, ⟨high.zip [16, 28, 40, 54, 63], 3⟩⟩,
    ceilingCurves := ⟨ceilingAir, ceilingAir, ⟨high.zip [20, 32, 44, 58, 63], 3⟩⟩,
    curvesCount := 0, fans := .same .reset, quiet := false, excess := 0, zones := .same .reset, inUse := .floor,
    quietCap := ⟨30, 30, 36⟩, coolDuty := .same 40, startDuty := 40, glitch := [(0, 200)] }

/-- The LAU after hard reset (R141, R192). It holds no time of an entry to IGNITION (notes/assumptions/45.md). -/
def Lau.reset : Lau :=
  { session := .standby, mode := .normal, fault := none, ignition := none, ignitionStart := none, coolMin := .stopped,
    coolMax := none, applied := none,
    components := { modeCeiling := 13107, lTh := 16383, stallCapped := false, lAc := 16383, lapseApplies := true,
                    ignApplies := false },
    allowance := 1638, drive := 0, slew := none,
    held := { zones := .same .reset, thresholds := Thresholds.defaults, device := .normal, anyStalled := false,
              ready := false, excess := 0, attached := false, lapse := .disarmed },
    params := { lLapse := 1638, lIgn := 4096, lStall := 8192, lCrit := 2048, lAcFloor := 6553, acStep := 512, slew := 256,
                ignTimeout := 3000, coolMin := 20, coolMax := 180, tCool := 180 },
    lightOk := false, lightFlt := false }

/-- The part right after reset: the end of hard reset with CP_ASEL low, every input line inactive and the Probe Bus free,
so that the first scan is at its first slot (R180, R181, R103; notes/assumptions/4.md). -/
def State.reset : State :=
  { now := 0, inReset := false, resetPulses := 0, cpi := .reset false, fpi := .reset, irm := .reset,
    lmc := { v := .reset .v, h := .reset .h }, ge := .reset, fmon := .reset,
    tmon := { Tmon.reset with scan := some { slots := [0, 1, 2, 3, 4, 5], bus := .clear },
                              nextScan := some Config.scanInterval },
    afc := .reset, lau := .reset, pending := [] }

end Sys2Proof.Machine
end

