-- ==== Sys2Proof/Machine/Bytes.lean ====
section
/-! DEFINITION. Field encodings (R195): how a quantity stands in a payload, little-endian, with its absent value. -/

namespace Sys2Proof.Machine

/-- One unsigned byte. -/
def u8 (n : Nat) : List Byte := [BitVec.ofNat 8 n]

/-- The two bytes of a word, low byte first. -/
def le16 (w : Word16) : List Byte := [w.extractLsb' 0 8, w.extractLsb' 8 8]

/-- The four bytes of a word, low byte first. -/
def le32 (w : Word32) : List Byte :=
  [w.extractLsb' 0 8, w.extractLsb' 8 8, w.extractLsb' 16 8, w.extractLsb' 24 8]

/-- The three bytes of an event mask (R202). Bits 18 to 23 name no kind and are 0 in every mask that SET_EVENT_MASK stores
(R177). In the mask that hard reset leaves the spec gives them no value, and 0 is the model's choice (notes/assumptions/49.md). -/
def le24 (m : BitVec 18) : List Byte :=
  [m.extractLsb' 0 8, m.extractLsb' 8 8, m.extractLsb' 16 8]

/-- Two unsigned bytes. -/
def u16 (n : Nat) : List Byte := le16 (BitVec.ofNat 16 n)
/-- Four unsigned bytes. -/
def u32 (n : Nat) : List Byte := le32 (BitVec.ofNat 32 n)
/-- One signed byte. -/
def s8 (x : Int) : List Byte := [BitVec.ofInt 8 x]
/-- Two signed bytes. -/
def s16 (x : Int) : List Byte := le16 (BitVec.ofInt 16 x)
/-- Four signed bytes. -/
def s32 (x : Int) : List Byte := le32 (BitVec.ofInt 32 x)

/-- A flag is 1 when set and 0 when clear. -/
def flag (b : Bool) : List Byte := [if b then 1 else 0]

/-- A one-byte quantity, or its absent value 0xFF. -/
def opt8 : Option Nat → List Byte
  | some n => u8 n
  | none => [0xFF]

/-- A light level, or its absent value 0xFFFF. -/
def optLevel : Option Nat → List Byte
  | some n => u16 n
  | none => [0xFF, 0xFF]

/-- A temperature, or its absent value -32768. -/
def optTemp : Option Int → List Byte
  | some t => s16 t
  | none => s16 (-32768)

/-- A remaining time in ms, or its absent value 0xFFFFFFFF. -/
def optTime : Option Nat → List Byte
  | some ms => u32 ms
  | none => [0xFF, 0xFF, 0xFF, 0xFF]

/-- Zero bytes after a list, up to a length (R202, R199). -/
def padTo (n : Nat) (bs : List Byte) : List Byte := bs ++ List.replicate (n - bs.length) 0

/-- The value of bytes taken low byte first. -/
def leNat : List Byte → Nat
  | [] => 0
  | b :: bs => b.toNat + 256 * leNat bs

/-- The value of bytes taken low byte first, as a signed number of their width. -/
def leInt (bs : List Byte) : Int :=
  if 2 * leNat bs < 256 ^ bs.length then leNat bs else (leNat bs : Int) - 256 ^ bs.length

/-- Whole milliseconds of a length of time in microseconds, rounded down (notes/assumptions/16.md). -/
def wholeMs (us : Nat) : Nat := us / 1000

/-- A duration in ms saturates at 65535 (R195). -/
def durationMs (us : Nat) : Nat := min 65535 (wholeMs us)

/-- The time remaining of a timer in ms: a running timer reports at least 1 (R201; notes/assumptions/16.md). -/
def remainingMs (now : Nat) (timer : Option Nat) : Option Nat :=
  timer.map fun e => max 1 (wholeMs (e - now))

end Sys2Proof.Machine
end

