-- ==== Sys2Proof/Machine/Codes.lean ====
section
/-! DEFINITION. The codes of the enumerations (R195), the request kinds (R196), the status codes (R197) and the event kinds
(R202), and the readings of the codes that requests carry. -/

namespace Sys2Proof.Machine

def axisCode : Axis → Nat
  | .v => 0
  | .h => 1

def fanCode : Fan → Nat
  | .intake => 0
  | .exhaust => 1
  | .blower => 2

def orientationCode : Orientation → Nat
  | .floor => 0
  | .ceiling => 1

def speedCode : SpeedClass → Nat
  | .slow => 0
  | .normal => 1
  | .fast => 2

def modeCode : AxisMode → Nat
  | .idle => 0
  | .running => 1
  | .stopping => 2
  | .homing => 3
  | .fault => 4

def trustCode : Trust → Nat
  | .unhomed => 0
  | .homed => 1
  | .unsure => 2

def entryKindCode : EntryKind → Nat
  | .absolute => 0
  | .relative => 1

def originCode : Origin → Nat
  | .control => 0
  | .frame => 1
  | .preset => 2

def actionCode : QueueAction → Nat
  | .none => 0
  | .appended => 1
  | .replaced => 2

def originatorCode : Originator → Nat
  | .control => 0
  | .frame => 1
  | .part => 2

def phaseCode : Phase → Nat
  | .run => 0
  | .hold => 1
  | .rest => 2
  | .off => 3

def legKindCode : LegKind → Nat
  | .overshoot => 0
  | .final => 1

def dirCode : Dir → Nat
  | .minus => 0
  | .plus => 1

def homeActionCode : HomeAction → Nat
  | .started => 0
  | .pending => 1

def doneCode : DoneReason → Nat
  | .complete => 0
  | .aborted => 1
  | .thermal => 2
  | .trip => 3
  | .restart => 4
  | .limit => 5
  | .fault => 6

def homeCauseCode : HomeCause → Nat
  | .noContact => 0
  | .stuckLo => 1
  | .endHi => 2
  | .cancelled => 3

def haltedCode : Halted → Nat
  | .move => 0
  | .stop => 1

def endStopCode : EndStop → Nat
  | .lo => 0
  | .hi => 1

def zoneCode : Zone → Nat
  | .src => 0
  | .panel => 1
  | .lens => 2
  | .supply => 3
  | .intake => 4
  | .exhaust => 5

def sourceCode : Source → Nat
  | .zone z => zoneCode z
  | .fans => 6
  | .none => 7

def zoneStatusCode : ZoneStatus → Nat
  | .live => 0
  | .lost => 1
  | .absent => 2
  | .unmonitored => 3

def slotStatusCode : SlotStatus → Nat
  | .pending => 0
  | .live => 1
  | .lost => 2

def causeCode : Option ReadCause → Nat
  | none => 0
  | some .noAckAddr => 1
  | some .noAckPtr => 2
  | some .noAckRead => 3
  | some .timeout => 4
  | some .busStuck => 5
  | some .range => 6

def thermalCode : Thermal → Nat
  | .normal => 0
  | .warm => 1
  | .hot => 2
  | .critical => 3

def busCode : BusCondition → Nat
  | .clear => 0
  | .recovered => 1
  | .stuck => 2

def tripCauseCode : TripCause → Nat
  | .absolute => 0
  | .dwell => 1

def tachCode : TachState → Nat
  | .off => 0
  | .starting => 1
  | .turning => 2
  | .stalled => 3

def sessionCode : Session → Nat
  | .standby => 0
  | .ignition => 1
  | .lit => 2
  | .cooldown => 3
  | .tripped => 4

def sessionCauseCode : SessionCause → Nat
  | .lightOn => 0
  | .lightOk => 1
  | .lightOff => 2
  | .fault => 3
  | .cooled => 4
  | .coolMax => 5
  | .trip => 6

def faultReasonCode : FaultReason → Nat
  | .noLight => 0
  | .driver => 1

/-- The code of LINE, which only a LIGHT_ON refusal carries. -/
def lineReasonCode : Nat := 2

def lightModeCode : LightMode → Nat
  | .eco => 0
  | .normal => 1
  | .bright => 2

def lapseCode : LapseState → Nat
  | .disarmed => 0
  | .armed => 1
  | .lapsed => 2

def frameCauseCode : FrameCause → Nat
  | .fmark => 0
  | .attach => 1
  | .detach => 2

def tableCode : Table → Nat
  | .keystone => 0
  | .curves => 1
  | .zones => 2
  | .scan => 3

def loadCauseCode : LoadCause → Nat
  | .sequence => 0
  | .overrun => 1
  | .field => 2
  | .short => 3
  | .content => 4

def badCauseCode : BadCause → Nat
  | .unknownKind => 0
  | .length => 1
  | .count => 2
  | .field => 3

/-- Status codes (R197). -/
def statusCode : Status → Nat
  | .ok => 0x00
  | .accepted => 0x01
  | .clamped => 0x02
  | .notReady => 0x10
  | .badRequest => 0x11
  | .outOfRange => 0x12
  | .notPermitted => 0x13
  | .busy => 0x14
  | .stale => 0x15
  | .notHomed => 0x16
  | .queueFull => 0x17
  | .thermalHold => 0x18
  | .empty => 0x19
  | .cooling => 0x1A
  | .faulted => 0x1B
  | .tripped => 0x1C
  | .tableInvalid => 0x1D
  | .noLoad => 0x1E

/-- Event kind codes (R202). -/
def kindCode : EventKind → Nat
  | .installChanged => 0
  | .lensDone => 1
  | .lensFault => 2
  | .limitHit => 3
  | .positionSlip => 4
  | .homeDone => 5
  | .homeFail => 6
  | .warpNew => 7
  | .lapse => 8
  | .lapseEnd => 9
  | .thermalState => 10
  | .trip => 11
  | .sensorLost => 12
  | .sensorBack => 13
  | .fanStall => 14
  | .fanRecover => 15
  | .lightState => 16
  | .lightFault => 17

/-! Readings of the codes that requests carry: none is a code outside the list. -/

def readFlag (b : Byte) : Option Bool :=
  if b = 0 then some false else if b = 1 then some true else none

def readAxis (b : Byte) : Option Axis :=
  if b = 0 then some .v else if b = 1 then some .h else none

/-- An axes field: V, H or BOTH, as whether V and whether H is named. -/
def readAxes (b : Byte) : Option (Bool × Bool) :=
  if b = 0 then some (true, false) else if b = 1 then some (false, true) else if b = 2 then some (true, true) else none

def readOrientation (b : Byte) : Option Orientation :=
  if b = 0 then some .floor else if b = 1 then some .ceiling else none

def readSpeed (b : Byte) : Option SpeedClass :=
  if b = 0 then some .slow else if b = 1 then some .normal else if b = 2 then some .fast else none

def readMode (b : Byte) : Option LightMode :=
  if b = 0 then some .eco else if b = 1 then some .normal else if b = 2 then some .bright else none

def readFan (b : Byte) : Option Fan :=
  if b = 0 then some .intake else if b = 1 then some .exhaust else if b = 2 then some .blower else none

def readTableCode (b : Byte) : Option Table :=
  if b = 0 then some .keystone else if b = 1 then some .curves else if b = 2 then some .zones
  else if b = 3 then some .scan else none

/-- A zone code of a SCAN image; any other byte is read as EXHAUST, and no installed table holds one (R191). -/
def readZone (n : Nat) : Zone :=
  match n with
  | 0 => .src
  | 1 => .panel
  | 2 => .lens
  | 3 => .supply
  | 4 => .intake
  | _ => .exhaust

end Sys2Proof.Machine
end

