-- ==== Sys2Proof/Decode.lean ====
section
/-! DEFINITION. Reading a request frame (R166, R194, R196) and, for the host, the commands that the opcode table's bits spell:
none, since spec/opcode_table.json gives no row any bits. -/

namespace Sys2Proof

open Sys2Proof.Machine (BadCause le16 le32 u8)

/-- No row of the opcode table has bits, so no word spells a command. -/
def decodeTableWord (_nbits _w : Nat) : Option Instr := none

/-- The kind byte of a request (R196); none for a command that is no request. -/
def kindByte : Instr → Option Byte
  | .readInstall .. => some 0x01
  | .writeInstall .. => some 0x02
  | .jog .. => some 0x03
  | .readAxis .. => some 0x04
  | .readThermal .. => some 0x05
  | .readLight .. => some 0x06
  | .readWarp .. => some 0x07
  | .readPreset .. => some 0x08
  | .getEvents .. => some 0x09
  | .setEventMask .. => some 0x0A
  | .attach .. => some 0x10
  | .detach .. => some 0x11
  | .lightRequest .. => some 0x12
  | .abortMotion .. => some 0x20
  | .home .. => some 0x21
  | .axisRecover .. => some 0x22
  | .storePreset .. => some 0x28
  | .recallPreset .. => some 0x29
  | .clearPreset .. => some 0x2A
  | .lightOn .. => some 0x30
  | .lightOff .. => some 0x31
  | .setLightMode .. => some 0x32
  | .setQuiet .. => some 0x33
  | .clearLightFault .. => some 0x34
  | .setParamAxis .. => some 0x40
  | .setParam .. => some 0x40
  | .getParam .. => some 0x41
  | .beginLoad .. => some 0x48
  | .loadSegment .. => some 0x49
  | .endLoad .. => some 0x4A
  | .readTable .. => some 0x4B
  | .restart .. => some 0x7F
  | .malformedRequest .. | .responseFormed .. | .hardReset .. | .hardResetEnd .. | .fmark .. | .lapseWindowExpiry
  | .stepTimerExpiry .. | .endStopEdge .. | .refMkEdge .. | .drvFlt .. | .holdTimerExpiry .. | .computationComplete
  | .scanStart .. | .slotReadDone .. | .probeBusTimeout .. | .criticalDwellExpiry | .kickExpiry .. | .tachEdgeAccepted ..
  | .graceTimerExpiry .. | .edgeTimerExpiry .. | .lightOkRise .. | .lightOkFall .. | .lightFlt .. | .ignitionTimerExpiry
  | .cooldownMinExpiry | .coolMax | .slewTimerExpiry => none

/-- The least and greatest length each request kind allows (R196); none for a byte that names no kind. -/
def kindLengths (kind : Nat) : Option (Nat × Nat) :=
  match kind with
  | 0x01 | 0x04 | 0x08 | 0x20 | 0x21 | 0x22 | 0x2A | 0x32 | 0x33 => some (1, 1)
  | 0x05 | 0x06 | 0x07 | 0x09 | 0x11 | 0x30 | 0x31 | 0x34 | 0x4A | 0x7F => some (0, 0)
  | 0x02 => some (14, 14)
  | 0x03 => some (7, 7)
  | 0x0A | 0x29 | 0x48 | 0x4B => some (3, 3)
  | 0x10 => some (4, 4)
  | 0x12 | 0x41 => some (2, 2)
  | 0x28 => some (13, 13)
  | 0x40 => some (6, 6)
  | 0x49 => some (3, 58)
  | _ => none

/-- A parameter code of an axis parameter (R196). -/
def isAxisParam (param : Byte) : Bool := 0x01 ≤ param.toNat && param.toNat ≤ 0x13

/-- The request that a payload of a kind carries, its fields at the offsets of R196. -/
def readPayload (p : Port) (kind : Nat) (payload : List Byte) : Option Instr :=
  match kind, payload with
  | 0x01, [reserve] => some (.readInstall p reserve)
  | 0x02, [presence, orientation, kv, kh, v0, v1, v2, v3, h0, h1, h2, h3, speed, conditional] =>
    some (.writeInstall p presence orientation kv kh (v3 ++ v2 ++ v1 ++ v0) (h3 ++ h2 ++ h1 ++ h0) speed conditional)
  | 0x03, [axis, d0, d1, d2, d3, speed, conditional] => some (.jog p axis (d3 ++ d2 ++ d1 ++ d0) speed conditional)
  | 0x04, [axis] => some (.readAxis p axis)
  | 0x05, [] => some (.readThermal p)
  | 0x06, [] => some (.readLight p)
  | 0x07, [] => some (.readWarp p)
  | 0x08, [slot] => some (.readPreset p slot)
  | 0x09, [] => some (.getEvents p)
  | 0x0A, [m0, m1, m2] => some (.setEventMask p (m2 ++ m1 ++ m0))
  | 0x10, [w0, w1, h0, h1] => some (.attach p (w1 ++ w0) (h1 ++ h0))
  | 0x11, [] => some (.detach p)
  | 0x12, [l0, l1] => some (.lightRequest p (l1 ++ l0))
  | 0x20, [axes] => some (.abortMotion p axes)
  | 0x21, [axes] => some (.home p axes)
  | 0x22, [axes] => some (.axisRecover p axes)
  | 0x28, [slot, source, include_, v0, v1, v2, v3, h0, h1, h2, h3, kv, kh] =>
    some (.storePreset p slot source include_ (v3 ++ v2 ++ v1 ++ v0) (h3 ++ h2 ++ h1 ++ h0) kv kh)
  | 0x29, [slot, speed, conditional] => some (.recallPreset p slot speed conditional)
  | 0x2A, [slot] => some (.clearPreset p slot)
  | 0x30, [] => some (.lightOn p)
  | 0x31, [] => some (.lightOff p)
  | 0x32, [mode] => some (.setLightMode p mode)
  | 0x33, [quiet] => some (.setQuiet p quiet)
  | 0x34, [] => some (.clearLightFault p)
  | 0x40, [param, index, x0, x1, x2, x3] =>
    if isAxisParam param then some (.setParamAxis p param index (x3 ++ x2 ++ x1 ++ x0))
    else some (.setParam p param index (x3 ++ x2 ++ x1 ++ x0))
  | 0x41, [param, index] => some (.getParam p param index)
  | 0x48, [table, t0, t1] => some (.beginLoad p table (t1 ++ t0))
  | 0x49, o0 :: o1 :: data => some (.loadSegment p (o1 ++ o0) data)
  | 0x4A, [] => some (.endLoad p)
  | 0x4B, [table, o0, o1] => some (.readTable p table (o1 ++ o0))
  | 0x7F, [] => some (.restart p)
  | _, _ => none

/-- What a frame is: nothing at all, a malformed request with its kind byte and cause, or a request. -/
inductive FrameRead
  | nothing
  | malformed (kind : Byte) (cause : BadCause)
  | request (i : Instr)
  deriving DecidableEq, Repr

/-- The frame checks of R166, in their order: UNKNOWN_KIND, LENGTH, COUNT. A transaction with no byte carries no request
(R164, R165). -/
def readFrame (p : Port) : List Byte → FrameRead
  | [] => .nothing
  | kind :: rest =>
    match kindLengths kind.toNat with
    | none => .malformed kind .unknownKind
    | some (least, most) =>
      match rest with
      | [] => .malformed kind .count
      | length :: payload =>
        if 60 < length.toNat ∨ length.toNat < least ∨ most < length.toNat then .malformed kind .length
        else if payload.length ≠ length.toNat then .malformed kind .count
        else match readPayload p kind.toNat payload with
          | some i => .request i
          | none => .malformed kind .length

/-- The payload bytes of a request (R196). -/
def payloadOf : Instr → List Byte
  | .readInstall _ reserve => [reserve]
  | .writeInstall _ presence orientation kv kh tV tH speed conditional =>
    [presence, orientation, kv, kh] ++ le32 tV ++ le32 tH ++ [speed, conditional]
  | .jog _ axis delta speed conditional => [axis] ++ le32 delta ++ [speed, conditional]
  | .readAxis _ axis => [axis]
  | .readPreset _ slot => [slot]
  | .setEventMask _ mask => [mask.extractLsb' 0 8, mask.extractLsb' 8 8, mask.extractLsb' 16 8]
  | .attach _ w h => le16 w ++ le16 h
  | .lightRequest _ level => le16 level
  | .abortMotion _ axes => [axes]
  | .home _ axes => [axes]
  | .axisRecover _ axes => [axes]
  | .storePreset _ slot source inc tV tH kv kh => [slot, source, inc] ++ le32 tV ++ le32 tH ++ [kv, kh]
  | .recallPreset _ slot speed conditional => [slot, speed, conditional]
  | .clearPreset _ slot => [slot]
  | .setLightMode _ mode => [mode]
  | .setQuiet _ quiet => [quiet]
  | .setParamAxis _ param index value => [param, index] ++ le32 value
  | .setParam _ param index value => [param, index] ++ le32 value
  | .getParam _ param index => [param, index]
  | .beginLoad _ table total => [table] ++ le16 total
  | .loadSegment _ offset data => le16 offset ++ data
  | .readTable _ table offset => [table] ++ le16 offset
  | .readThermal _ | .readLight _ | .readWarp _ | .getEvents _ | .detach _ | .lightOn _ | .lightOff _ | .clearLightFault _
  | .endLoad _ | .restart _ => []
  | .malformedRequest .. | .responseFormed .. | .hardReset .. | .hardResetEnd .. | .fmark .. | .lapseWindowExpiry
  | .stepTimerExpiry .. | .endStopEdge .. | .refMkEdge .. | .drvFlt .. | .holdTimerExpiry .. | .computationComplete
  | .scanStart .. | .slotReadDone .. | .probeBusTimeout .. | .criticalDwellExpiry | .kickExpiry .. | .tachEdgeAccepted ..
  | .graceTimerExpiry .. | .edgeTimerExpiry .. | .lightOkRise .. | .lightOkFall .. | .lightFlt .. | .ignitionTimerExpiry
  | .cooldownMinExpiry | .coolMax | .slewTimerExpiry => []

/-- The port a request arrives on; none for a command that is no request. -/
def portOf : Instr → Option Port
  | .readInstall p _ | .writeInstall p .. | .jog p .. | .readAxis p _ | .readThermal p | .readLight p | .readWarp p
  | .readPreset p _ | .getEvents p | .setEventMask p _ | .attach p .. | .detach p | .lightRequest p _ | .abortMotion p _
  | .home p _ | .axisRecover p _ | .storePreset p .. | .recallPreset p .. | .clearPreset p _ | .lightOn p | .lightOff p
  | .setLightMode p _ | .setQuiet p _ | .clearLightFault p | .setParamAxis p .. | .setParam p .. | .getParam p ..
  | .beginLoad p .. | .loadSegment p .. | .endLoad p | .readTable p .. | .restart p => some p
  | .malformedRequest .. | .responseFormed .. | .hardReset .. | .hardResetEnd .. | .fmark .. | .lapseWindowExpiry
  | .stepTimerExpiry .. | .endStopEdge .. | .refMkEdge .. | .drvFlt .. | .holdTimerExpiry .. | .computationComplete
  | .scanStart .. | .slotReadDone .. | .probeBusTimeout .. | .criticalDwellExpiry | .kickExpiry .. | .tachEdgeAccepted ..
  | .graceTimerExpiry .. | .edgeTimerExpiry .. | .lightOkRise .. | .lightOkFall .. | .lightFlt .. | .ignitionTimerExpiry
  | .cooldownMinExpiry | .coolMax | .slewTimerExpiry => none

/-- The request frame of a request: kind, length, payload (R194). -/
def writeFrame (i : Instr) : Option (List Byte) :=
  (kindByte i).map fun kind => kind :: u8 (payloadOf i).length ++ payloadOf i

end Sys2Proof
end

