-- ==== Sys2Proof/Machine/Ops.lean ====
section
/-! DEFINITION. The named operations over the part's records: families by axis, fan and zone; the clock; the event sets;
the installation change; the recompute trigger; taking and answering a request. -/

namespace Sys2Proof.Machine

/-- The outcome of a command. -/
abbrev Outcome := Host.Outcome State Fault Refusal

/-! ### Families -/

def PerFan.get {α : Type} (x : PerFan α) : Fan → α
  | .intake => x.intake
  | .exhaust => x.exhaust
  | .blower => x.blower

def PerFan.set {α : Type} (x : PerFan α) (f : Fan) (y : α) : PerFan α :=
  match f with
  | .intake => { x with intake := y }
  | .exhaust => { x with exhaust := y }
  | .blower => { x with blower := y }

/-- A new family made fan by fan. -/
def PerFan.build {α : Type} (f : Fan → α) : PerFan α := ⟨f .intake, f .exhaust, f .blower⟩

def PerZone.get {α : Type} (x : PerZone α) : Zone → α
  | .src => x.src
  | .panel => x.panel
  | .lens => x.lens
  | .supply => x.supply
  | .intake => x.intake
  | .exhaust => x.exhaust

/-- A new family made zone by zone. -/
def PerZone.build {α : Type} (f : Zone → α) : PerZone α :=
  ⟨f .src, f .panel, f .lens, f .supply, f .intake, f .exhaust⟩

/-- The fans in code order. -/
def allFans : List Fan := [.intake, .exhaust, .blower]

/-- The zones in code order, which is also the source order of R111. -/
def allZones : List Zone := [.src, .panel, .lens, .supply, .intake, .exhaust]

def State.axis (s : State) : Axis → AxisState
  | .v => s.lmc.v
  | .h => s.lmc.h

def State.setAxis (s : State) (a : Axis) (x : AxisState) : State :=
  match a with
  | .v => { s with lmc := { s.lmc with v := x } }
  | .h => { s with lmc := { s.lmc with h := x } }

def State.port (s : State) : Port → PortState
  | .control => s.cpi.port
  | .frame => s.fpi.port

def State.setPort (s : State) (p : Port) (x : PortState) : State :=
  match p with
  | .control => { s with cpi := { s.cpi with port := x } }
  | .frame => { s with fpi := { s.fpi with port := x } }

/-- The axis state of R23. -/
def Motion.mode : Motion → AxisMode
  | .idle => .idle
  | .running _ => .running
  | .stopping _ => .stopping
  | .homing _ => .homing
  | .fault => .fault

/-- An axis that is RUNNING, STOPPING or HOMING. -/
def AxisState.moving (x : AxisState) : Bool :=
  match x.motion with
  | .running _ | .stopping _ | .homing _ => true
  | .idle | .fault => false

/-- The severity of a thermal level (R110). -/
def Thermal.rank (t : Thermal) : Nat := thermalCode t

/-- The more severe of two levels. -/
def Thermal.max (a b : Thermal) : Thermal := if a.rank < b.rank then b else a

/-- HOT or CRITICAL. -/
def Thermal.isHot : Thermal → Bool
  | .hot | .critical => true
  | .normal | .warm => false

/-- The zones of a record family that are in use (R105). -/
def ZoneRecord.inUse (z : ZoneRecord) : Bool :=
  match z.status with
  | .live | .lost => true
  | .absent | .unmonitored => false

/-! ### The clock -/

/-- The clock moves to a time, never back (notes/assumptions/2.md, notes/assumptions/3.md). -/
def State.at_ (s : State) (time : Nat) : State := { s with now := max s.now time }

/-! ### Event sets (R173, R174, R175) -/

def Event.kind : Event → EventKind
  | .installChanged .. => .installChanged
  | .lensDone .. => .lensDone
  | .lensFault .. => .lensFault
  | .limitHit .. => .limitHit
  | .positionSlip .. => .positionSlip
  | .homeDone .. => .homeDone
  | .homeFail .. => .homeFail
  | .warpNew .. => .warpNew
  | .lapse .. => .lapse
  | .lapseEnd .. => .lapseEnd
  | .thermalState .. => .thermalState
  | .trip .. => .trip
  | .sensorLost .. => .sensorLost
  | .sensorBack .. => .sensorBack
  | .fanStall .. => .fanStall
  | .fanRecover .. => .fanRecover
  | .lightState .. => .lightState
  | .lightFault .. => .lightFault

/-- The routing of R174. -/
def routed : Port → EventKind → Bool
  | .control, .warpNew => false
  | .frame, .lapse | .frame, .lapseEnd | .frame, .sensorLost | .frame, .sensorBack | .frame, .fanStall
  | .frame, .fanRecover => false
  | _, _ => true

/-- R173: a kind already in the set takes the new detail and one more count, up to 15, in its place; a kind not in it
joins at the tail with count 1. -/
def placeEvent (e : Event) : List SetEntry → List SetEntry
  | [] => [⟨e, 1⟩]
  | x :: xs => if x.event.kind = e.kind then ⟨e, min 15 (x.count + 1)⟩ :: xs else x :: placeEvent e xs

/-- A port's interface places an event that is routed to its processor. -/
def PortState.place (p : Port) (x : PortState) (e : Event) : PortState :=
  if routed p e.kind then { x with events := placeEvent e x.events } else x

/-- Raising an event (R174). -/
def State.raise (s : State) (e : Event) : State :=
  { s with cpi := { s.cpi with port := s.cpi.port.place .control e },
           fpi := { s.fpi with port := s.fpi.port.place .frame e } }

/-- Raising events in order. -/
def State.raiseAll (s : State) (es : List Event) : State := es.foldl State.raise s

/-! ### The installation record (R2, R3) -/

/-- The drain position of an axis (R2), given the target held while it is HOMING. -/
def AxisState.drain (x : AxisState) (held : Int) : Int :=
  match x.queue.getLast? with
  | some e => e.target
  | none =>
    match x.motion with
    | .homing _ => held
    | .stopping st => st.position
    | .idle | .running _ | .fault => x.position

def Irm.target (r : Irm) : Axis → Int
  | .v => r.targetV
  | .h => r.targetH

/-- The drain position of an axis of the part. -/
def State.drain (s : State) (a : Axis) : Int := (s.axis a).drain (s.irm.target a)

def Irm.reservation (r : Irm) : Port → Option Word16
  | .control => r.reserveControl
  | .frame => r.reserveFrame

def Irm.setReservation (r : Irm) (p : Port) (g : Option Word16) : Irm :=
  match p with
  | .control => { r with reserveControl := g }
  | .frame => { r with reserveFrame := g }

/-- The originator of a change accepted from a port (R3). -/
def portOriginator : Port → Originator
  | .control => .control
  | .frame => .frame

/-- An installation change (R3): the generation counts on, both reservations become INVALID, INSTALL_CHANGED is raised. -/
def State.installChange (s : State) (o : Originator) : State :=
  let g := s.irm.generation + 1
  let s := { s with irm := { s.irm with generation := g, reserveControl := none, reserveFrame := none } }
  s.raise (.installChanged g o)

/-- A part-originated change (R14): one change that sets each affected target; none when it affects no axis. -/
def State.partChange (s : State) (newV newH : Option Int) : State :=
  match newV, newH with
  | none, none => s
  | _, _ =>
    let irm := { s.irm with targetV := newV.getD s.irm.targetV, targetH := newH.getD s.irm.targetH }
    State.installChange { s with irm := irm } .part

/-! ### The recompute trigger (R67, R85) -/

/-- The inputs a computation latches, as they stand (R67). -/
def State.geoInputs (s : State) : GeoInputs :=
  { kv := s.irm.kv, kh := s.irm.kh, orientation := s.irm.orientation, generation := s.irm.generation,
    posV := s.lmc.v.position, posH := s.lmc.h.position, trustV := s.lmc.v.trust, trustH := s.lmc.h.trust,
    centreV := s.lmc.v.params.centre, centreH := s.lmc.h.params.centre, kspanV := s.lmc.v.params.kspan,
    kspanH := s.lmc.h.params.kspan, width := s.fpi.width, height := s.fpi.height, tk := s.ge.tk, flim := s.ge.flim }

/-- A computation starts (R85): it latches its inputs, the references take the latched positions, and it takes the attach
publication mark. -/
def State.startComputation (s : State) : State :=
  { s with ge := { s.ge with inFlight := some ⟨s.geoInputs, s.ge.attachMark⟩, refV := s.lmc.v.position,
                             refH := s.lmc.h.position, attachMark := false } }

/-- The GE takes a recompute trigger (R85). -/
def State.recompute (s : State) : State :=
  match s.ge.inFlight with
  | none => s.startComputation
  | some _ => { s with ge := { s.ge with pendingMark := true } }

/-- The triggers that one event hands on are taken as one (R83). -/
def State.recomputeIf (s : State) (wanted : Bool) : State := if wanted then s.recompute else s

/-! ### Requests (R166, R167, R169) -/

/-- The answer to a request: its status and its response payload less the event summary. -/
structure Answer where
  status : Status
  body : List Byte
  deriving DecidableEq, Repr

/-- A port's slot takes a value. -/
def State.setSlot (s : State) (p : Port) (slot : Slot) : State := s.setPort p { s.port p with slot := slot }

/-- The mark of a transaction that runs on past the end of hard reset (R180). -/
def State.setCrossing (s : State) (p : Port) (b : Bool) : State := s.setPort p { s.port p with crossing := b }

/-- A request of a kind is taken on a port (R166, R167): the owning block applies it whole, and the port's slot becomes
PENDING for it. In hard reset neither port takes a transaction, and the request of a transaction that was under way when
hard reset ended is ignored with it, its end clearing the mark (R180; notes/assumptions/44.md). -/
def takeRequest (p : Port) (kind : Byte) (s : State) (apply : State → State × Answer) : Outcome :=
  if s.inReset then .next s
  else if (s.port p).crossing then .next (s.setCrossing p false)
  else
    let (t, a) := apply s
    .next (t.setSlot p (.pending kind a.status a.body))

/-- A BAD_REQUEST answer carries the cause and the offset of the field at fault (R197). -/
def badRequest (cause : BadCause) (offset : Nat) : Answer :=
  ⟨.badRequest, u8 (badCauseCode cause) ++ u8 offset⟩

/-- The first field at fault, given the fields a request uses with their offsets and whether each is well encoded
(R166; notes/assumptions/15.md). -/
def firstFault : List (Nat × Bool) → Option Nat
  | [] => none
  | (offset, good) :: rest => if good then firstFault rest else some offset

/-- The first check that fails gives the status (R169). -/
def firstFail : List (Bool × Status) → Option Status
  | [] => none
  | (passes, status) :: rest => if passes then firstFail rest else some status

/-- Check 3 of R169 for a kind that only the Control Port takes (R171). -/
def controlOnly (p : Port) : Bool × Status := (p = .control, .notPermitted)

/-- Check 3 of R169 for a kind that only the Frame Port takes (R171). -/
def frameOnly (p : Port) : Bool × Status := (p = .frame, .notPermitted)

/-- A request with its field encodings and its checks: BAD_REQUEST for the first field at fault, then the first failing
status with the body of a refusal, then the effect (R169). -/
def judge (fields : List (Nat × Bool)) (checks : List (Bool × Status)) (refuse : State → List Byte)
    (effect : State → State × Answer) (s : State) : State × Answer :=
  match firstFault fields with
  | some offset => (s, badRequest .field offset)
  | none =>
    match firstFail checks with
    | some status => (s, ⟨status, refuse s⟩)
    | none => effect s

/-- A command that hard reset suppresses: while the part is in hard reset every block holds its reset values (R180). -/
def unlessReset (s : State) (effect : State → State) : Outcome := .next (if s.inReset then s else effect s)

end Sys2Proof.Machine
end

