-- ==== Sys2Proof/Machine/Flags.lean ====
section
/-! DEFINITION. The flags the part computes: the attention lines (R175), the event summary (R194), the presence bits of
WRITE_INSTALL (R196), the flag byte of a warp record (R198), the line bytes of READ_AXIS and READ_LIGHT (R199, R201). -/

namespace Sys2Proof.Machine

/-- Whether a mask enables a kind (R175, R202). -/
def enabled (mask : BitVec 18) (k : EventKind) : Bool := mask.getLsbD (kindCode k)

/-- The attention line is asserted while the set holds an entry whose kind is enabled (R175). -/
def PortState.attention (x : PortState) : Bool := x.events.any fun e => enabled x.mask e.event.kind

/-- The event summary (R194): entries in bits 0 to 4, the attention line in bit 7. -/
def PortState.summary (x : PortState) : Byte :=
  BitVec.ofNat 8 (x.events.length % 32 + if x.attention then 128 else 0)

/-- Bits given from bit 0 up, as a byte; the bits above them are 0. The spec says so of the warp flags alone (R198). In the
present and lines bytes of READ_AXIS, the stalled byte of READ_THERMAL, the lines byte of READ_LIGHT and the computing byte of
READ_WARP it gives the bits with no name no value, and 0 is the model's choice (notes/assumptions/49.md). -/
def bits (bs : List Bool) : Byte :=
  BitVec.ofNat 8 (bs.foldr (fun b n => (if b then 1 else 0) + 2 * n) 0)

/-- Bit n of a byte. -/
def bit (b : Byte) (n : Nat) : Bool := b.getLsbD n

/-- The presence byte names at least one field and no field that does not exist (R196). -/
def presenceFits (b : Byte) : Bool := b.toNat % 32 ≠ 0 && b.toNat < 32

/-- The flag byte of a warp record, with 0 in bits 5 to 7 (R198). -/
def WarpFlags.byte (f : WarpFlags) : Byte := bits [f.clampedV, f.clampedH, f.unsureV, f.unsureH, f.inverted]

/-- The line byte of READ_AXIS (R199); 0 in bits 3 to 7 is the model's choice (notes/assumptions/49.md). -/
def AxisState.lines (x : AxisState) : Byte := bits [x.endLo, x.endHi, x.drvFlt]

/-- LIGHT_EN is active in IGNITION and LIT (R161). -/
def Session.lightEn : Session → Bool
  | .ignition | .lit => true
  | .standby | .cooldown | .tripped => false

/-- The line byte of READ_LIGHT (R201); 0 in bits 3 to 7 is the model's choice (notes/assumptions/49.md). -/
def Lau.lines (l : Lau) : Byte := bits [l.session.lightEn, l.lightOk, l.lightFlt]

/-- The stalled-fan byte: bit n for fan code n (R200); 0 in bits 3 to 7 is the model's choice (notes/assumptions/49.md). -/
def stalledByte (x : PerFan Bool) : Byte := bits [x.intake, x.exhaust, x.blower]

end Sys2Proof.Machine
end

