-- ==== Sys2Proof/Machine/Operands.lean ====
section
/-! DEFINITION. Operand forms: clamps and saturations (R10), the axes a request names (R34, R47, R61), present fields (R7),
the parameters of SET_PARAM and GET_PARAM (R21, R22, R192, R196) with their ranges and defaults. -/

namespace Sys2Proof.Machine

/-- x held to lo..hi. -/
def clamp (lo hi x : Int) : Int := max lo (min hi x)

/-- Saturation to signed 32 bits (R10). -/
def saturate (x : Int) : Int := clamp (-2147483648) 2147483647 x

/-- A field that a presence bit marks. -/
def present {α : Type} (b : Bool) (x : α) : Option α := if b then some x else none

/-- A field that must be well encoded when it is present. -/
def goodIf {α : Type} (b : Bool) (x : Option α) : Bool := !b || x.isSome

/-- An axis parameter, in the row order of R21: code 0x01 is travel (R196). -/
inductive AxisParam
  | travel | centre | kspan | pStart | pRunSlow | pRunNormal | pRunFast | nRamp | backlash | preload | pHome | backoff
  | refPos | refTol | iRun | iHold | iIdle | tHold | iGrav
  deriving DecidableEq, Repr

/-- A parameter of R192, in its row order: code 0x20 is Q (R196). -/
inductive BlockParam
  | q | flim | lapseWindow | lLapse | lIgn | lStall | lCrit | lAcFloor | acStep | slew | ignTimeout | coolMin | coolMax
  | tCool | dwell | quietCap (f : Fan) | coolDuty (f : Fan) | startDuty | glitch
  deriving DecidableEq, Repr

/-- The axis parameter of a code (R196). -/
def axisParamOf (code : Byte) : Option AxisParam :=
  match code.toNat with
  | 0x01 => some .travel
  | 0x02 => some .centre
  | 0x03 => some .kspan
  | 0x04 => some .pStart
  | 0x05 => some .pRunSlow
  | 0x06 => some .pRunNormal
  | 0x07 => some .pRunFast
  | 0x08 => some .nRamp
  | 0x09 => some .backlash
  | 0x0A => some .preload
  | 0x0B => some .pHome
  | 0x0C => some .backoff
  | 0x0D => some .refPos
  | 0x0E => some .refTol
  | 0x0F => some .iRun
  | 0x10 => some .iHold
  | 0x11 => some .iIdle
  | 0x12 => some .tHold
  | 0x13 => some .iGrav
  | _ => none

/-- The index of a per-fan parameter names a fan; of any other it is 0xFF (R196). -/
def fanIndexed (index : Byte) (p : Fan → BlockParam) : Except Nat BlockParam :=
  match readFan index with
  | some f => .ok (p f)
  | none => .error 1

/-- A parameter held once takes the index 0xFF (R196). -/
def unindexed (index : Byte) (p : BlockParam) : Except Nat BlockParam :=
  if index = 0xFF then .ok p else .error 1

/-- The parameter of R192 that a code and an index name, or the offset of the field at fault (R192, R196). -/
def blockParamOf (code index : Byte) : Except Nat BlockParam :=
  match code.toNat with
  | 0x20 => unindexed index .q
  | 0x21 => unindexed index .flim
  | 0x22 => unindexed index .lapseWindow
  | 0x23 => unindexed index .lLapse
  | 0x24 => unindexed index .lIgn
  | 0x25 => unindexed index .lStall
  | 0x26 => unindexed index .lCrit
  | 0x27 => unindexed index .lAcFloor
  | 0x28 => unindexed index .acStep
  | 0x29 => unindexed index .slew
  | 0x2A => unindexed index .ignTimeout
  | 0x2B => unindexed index .coolMin
  | 0x2C => unindexed index .coolMax
  | 0x2D => unindexed index .tCool
  | 0x2E => unindexed index .dwell
  | 0x2F => fanIndexed index .quietCap
  | 0x30 => fanIndexed index .coolDuty
  | 0x31 => unindexed index .startDuty
  | 0x32 => unindexed index .glitch
  | _ => .error 0

/-- A parameter that a code and an index name. -/
inductive ParamName
  | axis (a : Axis) (p : AxisParam)
  | block (p : BlockParam)
  deriving DecidableEq, Repr

/-- The parameter that a SET_PARAM or GET_PARAM names, or the offset of the field at fault (R22, R192, R193, R196). -/
def paramOf (code index : Byte) : Except Nat ParamName :=
  match axisParamOf code with
  | some p =>
    match readAxis index with
    | some a => if p = .iGrav ∧ a = .h then .error 1 else .ok (.axis a p)
    | none => .error 1
  | none => (blockParamOf code index).map .block

/-- The value of the preload parameter: 0 for -, 1 for + (R196). -/
def Dir.value : Dir → Int
  | .minus => 0
  | .plus => 1

/-- The value an axis parameter holds (R21). -/
def AxisParams.value (x : AxisParams) : AxisParam → Int
  | .travel => x.travel
  | .centre => x.centre
  | .kspan => x.kspan
  | .pStart => x.pStart
  | .pRunSlow => x.pRunSlow
  | .pRunNormal => x.pRunNormal
  | .pRunFast => x.pRunFast
  | .nRamp => x.nRamp
  | .backlash => x.backlash
  | .preload => x.preload.value
  | .pHome => x.pHome
  | .backoff => x.backoff
  | .refPos => x.refPos
  | .refTol => x.refTol
  | .iRun => x.iRun
  | .iHold => x.iHold
  | .iIdle => x.iIdle
  | .tHold => x.tHold
  | .iGrav => (x.iGrav.getD 0 : Nat)

/-- The parameter set with one value replaced. -/
def AxisParams.replace (x : AxisParams) (p : AxisParam) (value : Int) : AxisParams :=
  let n := value.toNat
  match p with
  | .travel => { x with travel := n }
  | .centre => { x with centre := n }
  | .kspan => { x with kspan := n }
  | .pStart => { x with pStart := n }
  | .pRunSlow => { x with pRunSlow := n }
  | .pRunNormal => { x with pRunNormal := n }
  | .pRunFast => { x with pRunFast := n }
  | .nRamp => { x with nRamp := n }
  | .backlash => { x with backlash := n }
  | .preload => { x with preload := if n = 0 then .minus else .plus }
  | .pHome => { x with pHome := n }
  | .backoff => { x with backoff := n }
  | .refPos => { x with refPos := n }
  | .refTol => { x with refTol := n }
  | .iRun => { x with iRun := n }
  | .iHold => { x with iHold := n }
  | .iIdle => { x with iIdle := n }
  | .tHold => { x with tHold := n }
  | .iGrav => { x with iGrav := x.iGrav.map fun _ => n }

/-- The range of an axis parameter (R21), with the bounds that follow other parameters as they stand (R193). -/
def AxisParams.range (x : AxisParams) : AxisParam → Int × Int
  | .travel => (1000, 60000)
  | .centre => (0, x.travel)
  | .kspan => (1000, 32000)
  | .pStart => (100, 5000)
  | .pRunSlow => (20, x.pStart)
  | .pRunNormal => (20, x.pStart)
  | .pRunFast => (20, x.pStart)
  | .nRamp => (1, 4096)
  | .backlash => (0, 1024)
  | .preload => (0, 1)
  | .pHome => (100, 5000)
  | .backoff => (0, 4000)
  | .refPos => (0, x.travel)
  | .refTol => (1, 255)
  | .iRun => (0, 255)
  | .iHold => (0, 255)
  | .iIdle => (0, 255)
  | .tHold => (0, 5000)
  | .iGrav => (0, 255)

/-- x lies in a range. -/
def within (x : Int) (r : Int × Int) : Bool := r.1 ≤ x && x ≤ r.2

/-- Check 3 of R22, of a parameter set as it would stand after the change. -/
def AxisParams.consistent (x : AxisParams) (trust : Trust) (position : Int) : Bool :=
  x.pRunSlow ≤ x.pStart && x.pRunNormal ≤ x.pStart && x.pRunFast ≤ x.pStart && x.centre ≤ x.travel &&
    x.refPos ≤ x.travel && (trust != .homed || decide (position ≤ x.travel))

/-- The range of a parameter of R192. -/
def BlockParam.range : BlockParam → Int × Int
  | .q => (1, 4096)
  | .flim => (0, 16384)
  | .lapseWindow => (20, 1000)
  | .lLapse => (0, 4096)
  | .lIgn => (0, 16383)
  | .lStall => (0, 16383)
  | .lCrit => (0, 16383)
  | .lAcFloor => (0, 16383)
  | .acStep => (0, 2048)
  | .slew => (1, 16383)
  | .ignTimeout => (500, 10000)
  | .coolMin => (0, 120)
  | .coolMax => (10, 600)
  | .tCool => (-160, 600)
  | .dwell => (1, 60)
  | .quietCap _ => (0, 63)
  | .coolDuty _ => (0, 63)
  | .startDuty => (0, 63)
  | .glitch => (0, 800)

/-- A value in the range of a parameter of R192; the glitch filter takes only its four values. -/
def BlockParam.admits (p : BlockParam) (x : Int) : Bool :=
  match p with
  | .glitch => x = 0 || x = 50 || x = 200 || x = 800
  | _ => within x p.range

/-- The default of a parameter of R192. -/
def BlockParam.default : BlockParam → Int
  | .q => 64
  | .flim => 13107
  | .lapseWindow => 100
  | .lLapse => 1638
  | .lIgn => 4096
  | .lStall => 8192
  | .lCrit => 2048
  | .lAcFloor => 6553
  | .acStep => 512
  | .slew => 256
  | .ignTimeout => 3000
  | .coolMin => 20
  | .coolMax => 180
  | .tCool => 180
  | .dwell => 10
  | .quietCap .blower => 36
  | .quietCap _ => 30
  | .coolDuty _ => 40
  | .startDuty => 40
  | .glitch => 200

/-- The glitch filter width in force for a fall at a time, from the settings made, newest first (R131). -/
def glitchAt (time : Nat) : List (Nat × Nat) → Nat
  | [] => 0
  | (_, w) :: [] => w
  | (since, w) :: rest => if since ≤ time then w else glitchAt time rest

/-- The glitch filter as last set. -/
def Afc.glitchNow (a : Afc) : Nat := (a.glitch.head?.map Prod.snd).getD 0

/-- The value a parameter of R192 holds. -/
def State.blockValue (s : State) : BlockParam → Int
  | .q => s.ge.q
  | .flim => s.ge.flim
  | .lapseWindow => s.fmon.lapseWindow
  | .lLapse => s.lau.params.lLapse
  | .lIgn => s.lau.params.lIgn
  | .lStall => s.lau.params.lStall
  | .lCrit => s.lau.params.lCrit
  | .lAcFloor => s.lau.params.lAcFloor
  | .acStep => s.lau.params.acStep
  | .slew => s.lau.params.slew
  | .ignTimeout => s.lau.params.ignTimeout
  | .coolMin => s.lau.params.coolMin
  | .coolMax => s.lau.params.coolMax
  | .tCool => s.lau.params.tCool
  | .dwell => s.tmon.dwellSeconds
  | .quietCap f => s.afc.quietCap.get f
  | .coolDuty f => s.afc.coolDuty.get f
  | .startDuty => s.afc.startDuty
  | .glitch => s.afc.glitchNow

/-- A parameter of R192 replaced, with no further effect. -/
def State.storeBlock (s : State) (p : BlockParam) (value : Int) : State :=
  let n := value.toNat
  match p with
  | .q => { s with ge := { s.ge with q := n } }
  | .flim => { s with ge := { s.ge with flim := n } }
  | .lapseWindow => { s with fmon := { s.fmon with lapseWindow := n } }
  | .lLapse => { s with lau := { s.lau with params := { s.lau.params with lLapse := n } } }
  | .lIgn => { s with lau := { s.lau with params := { s.lau.params with lIgn := n } } }
  | .lStall => { s with lau := { s.lau with params := { s.lau.params with lStall := n } } }
  | .lCrit => { s with lau := { s.lau with params := { s.lau.params with lCrit := n } } }
  | .lAcFloor => { s with lau := { s.lau with params := { s.lau.params with lAcFloor := n } } }
  | .acStep => { s with lau := { s.lau with params := { s.lau.params with acStep := n } } }
  | .slew => { s with lau := { s.lau with params := { s.lau.params with slew := n } } }
  | .ignTimeout => { s with lau := { s.lau with params := { s.lau.params with ignTimeout := n } } }
  | .coolMin => { s with lau := { s.lau with params := { s.lau.params with coolMin := n } } }
  | .coolMax => { s with lau := { s.lau with params := { s.lau.params with coolMax := n } } }
  | .tCool => { s with lau := { s.lau with params := { s.lau.params with tCool := value } } }
  | .dwell => { s with tmon := { s.tmon with dwellSeconds := n } }
  | .quietCap f => { s with afc := { s.afc with quietCap := s.afc.quietCap.set f n } }
  | .coolDuty f => { s with afc := { s.afc with coolDuty := s.afc.coolDuty.set f n } }
  | .startDuty => { s with afc := { s.afc with startDuty := n } }
  | .glitch => { s with afc := { s.afc with glitch := (s.now, n) :: s.afc.glitch } }

end Sys2Proof.Machine
end

