-- ==== Sys2Proof/Machine/Air.lean ====
section
/-! DEFINITION. The Airflow Controller's own operations (07_airflow.md): curves, demands, duties, kicks, acoustic excess,
tach. Every operation here acts on the AFC's record alone. -/

namespace Sys2Proof.Machine

/-- The value between points, from the point below on (R122). -/
def curveFrom (t : Int) : Int × Nat → List (Int × Nat) → Nat
  | (_, d0), [] => d0
  | (t0, d0), (t1, d1) :: rest =>
    if t < t1 then d0 + ((t - t0) * ((d1 : Int) - d0) / (t1 - t0)).toNat else curveFrom t (t1, d1) rest

/-- The value of a curve at a temperature (R122). -/
def Curve.value (c : Curve) (t : Int) : Nat :=
  match c.points with
  | [] => 0
  | (t0, d0) :: rest => if t ≤ t0 then d0 else curveFrom t (t0, d0) rest

/-- duty_4, the last duty of a curve (R123). -/
def Curve.last (c : Curve) : Nat := (c.points.getLast?.map Prod.snd).getD 0

/-- A curve's mask names a zone. -/
def Curve.names (c : Curve) (z : Zone) : Bool := c.mask.getLsbD (zoneCode z)

/-- The temperatures of the usable zones of a curve (R123). -/
def Curve.usable (c : Curve) (records : PerZone ZoneRecord) : List Int :=
  allZones.filterMap fun z => if c.names z ∧ (records.get z).inUse then (records.get z).temperature else none

/-- The demand of a curve on the held zone records (R123). -/
def Curve.demand (c : Curve) (records : PerZone ZoneRecord) : Nat :=
  match c.usable records with
  | [] => c.last
  | t :: ts => ((t :: ts).map c.value).foldl max 0

/-- The curve set of an orientation (R121). -/
def Afc.curves (a : Afc) : Orientation → PerFan Curve
  | .floor => a.floorCurves
  | .ceiling => a.ceilingCurves

/-- The demands of an AFC evaluation (R123, stages 1 to 3). -/
def Afc.evaluate (a : Afc) (o : Orientation) (records : PerZone ZoneRecord) : Afc :=
  { a with
    zones := records, inUse := o,
    fans := PerFan.build fun f => { a.fans.get f with demand := ((a.curves o).get f).demand records } }

/-- What a selection reads of other blocks (R125). -/
structure AirInputs where
  now : Nat
  tripped : Bool
  device : Thermal
  session : Session
  deriving DecidableEq, Repr

/-- Quiet's caps apply in a lit session below HOT (R124 line 5, R130). -/
def AirInputs.capped (i : AirInputs) (quiet : Bool) : Bool :=
  quiet && !i.tripped && !i.device.isHot && i.session.lightEn

/-- The selected duty: the first line of R124 that holds. -/
def AirInputs.duty (i : AirInputs) (quiet : Bool) (demand cap cool : Nat) : Nat :=
  if i.tripped then 63
  else if i.device.isHot then 63
  else if i.session = .cooldown then max cool demand
  else if i.session = .standby ∧ i.device = .normal then 0
  else if quiet ∧ i.session.lightEn then min demand cap
  else demand

/-- A fan's output leaves 0 for a selected duty (R128, R131, R133). -/
def FanRecord.start (now startDuty : Nat) (x : FanRecord) (d : Nat) : FanRecord :=
  let kicked := d < startDuty
  { x with selected := d, output := if kicked then startDuty else d,
           kick := if kicked then some (now + Config.kickTime) else none, tach := .starting,
           grace := some (now + Config.graceTime), edge := some (now + Config.edgeTime), drivenFrom := some now }

/-- A fan's output goes to 0 (R129, R131, R132, R133; notes/assumptions/33.md). -/
def FanRecord.halt (x : FanRecord) : FanRecord :=
  { x with selected := 0, output := 0, kick := none, tach := .off, grace := none, edge := none, lastEdge := none,
           period := 0, rpm := 0, recovery := 0, drivenFrom := none }

/-- A selected duty reaches the output (R125, R128, R129). A running kick holds the duty it began with until a selection
reaches that duty. -/
def FanRecord.select (now startDuty : Nat) (x : FanRecord) (d : Nat) : FanRecord :=
  if d = 0 then if x.selected = 0 then x else x.halt
  else if x.selected = 0 then x.start now startDuty d
  else
    match x.kick with
    | some _ => if d < x.output then { x with selected := d } else { x with selected := d, output := d, kick := none }
    | none => { x with selected := d, output := d }

/-- The acoustic excess (R130). -/
def Afc.formExcess (a : Afc) (i : AirInputs) : Nat :=
  if i.capped a.quiet then (allFans.map fun f => (a.fans.get f).demand - a.quietCap.get f).foldl max 0 else 0

/-- A selection of all three duties, and the acoustic excess (R125). -/
def Afc.select (a : Afc) (i : AirInputs) : Afc :=
  { a with
    excess := a.formExcess i,
    fans := PerFan.build fun f =>
      let x := a.fans.get f
      x.select i.now a.startDuty (i.duty a.quiet x.demand (a.quietCap.get f) (a.coolDuty.get f)) }

/-- The period and rpm an accepted edge captures (R132). -/
def FanRecord.capture (x : FanRecord) (fall : Nat) : FanRecord :=
  match x.lastEdge with
  | none => { x with lastEdge := some fall }
  | some t0 =>
    let p := max 1 (min 65535 (fall - t0))
    { x with lastEdge := some fall, period := p, rpm := 30000000 / p }

/-- What an accepted edge does to the tach state (R133, R135): the record, and whether the fan has recovered. -/
def FanRecord.edgeSeen (x : FanRecord) (fall : Nat) : FanRecord × Bool :=
  let y := { x.capture fall with edge := some (fall + Config.edgeTime) }
  match x.tach with
  | .off => (x, false)
  | .starting | .turning => (y, false)
  | .stalled =>
    if x.recovery = 0 then ({ y with recovery := 1 }, false) else ({ y with tach := .turning, recovery := 0 }, true)

/-- A fan becomes STALLED (R134, step 1), and holds from when (notes/assumptions/46.md). -/
def FanRecord.stall (now : Nat) (x : FanRecord) : FanRecord :=
  { x with tach := .stalled, grace := none, edge := none, recovery := 0, stalledAt := some now }

/-- The kick timer expires (R129). -/
def FanRecord.kickEnds (x : FanRecord) : FanRecord := { x with kick := none, output := x.selected }

end Sys2Proof.Machine
end

