-- ==== Sys2Proof/Machine/Geometry.lean ====
section
/-! DEFINITION. The keystone computation, stage by stage (04_keystone_geometry.md). Division of Int by a positive divisor is
floor. -/

namespace Sys2Proof.Machine

/-- D_s, the offset of the lens from its centre in the screen frame (R69). -/
def screenOffset (o : Orientation) (pos : Int) (centre : Nat) : Int :=
  match o with
  | .floor => pos - centre
  | .ceiling => -(pos - centre)

/-- A, the axis offset in half-pictures times 16384, after its clamp (R70). -/
def axisOffset (ds : Int) (kspan : Nat) : Int :=
  max (-32768) (min 32768 ((2 * ds * 16384 + kspan) / (2 * kspan)))

/-- The sign of a code. -/
def codeSign (k : Int) : Int := if 0 < k then 1 else if k < 0 then -1 else 0

/-- The unclamped inset fraction of a code k with table entry g and axis offset a (R71, R72). -/
def insetFraction (k : Int) (g : Nat) (a : Int) : Nat :=
  if k = 0 then 0
  else
    let p : Int := 16384 + codeSign k * a
    let den : Int := 1073741824 + g * p
    ((2 * g * 1073741824 + den / 2) / den).toNat

/-- The fraction after the clamp by FLIM, and the CLAMPED flag (R73). -/
def clampFraction (flim f : Nat) : Nat × Bool := if flim < f then (flim, true) else (f, false)

/-- An inset in pixels: a fraction of half a raster dimension, rounded half up (R74). -/
def pixelInset (size f : Nat) : Nat := (size * f + 65536) / 131072

/-- The corners of a frame. -/
structure Corners where
  tl : Corner
  tr : Corner
  bl : Corner
  br : Corner
  deriving DecidableEq, Repr

/-- The corners in the screen frame (R75). -/
def screenCorners (kv kh : Int) (d e : Nat) : Corners :=
  let top := if 0 < kv then d else 0
  let bottom := if kv < 0 then d else 0
  let right := if 0 < kh then e else 0
  let left := if kh < 0 then e else 0
  { tl := ⟨top, left⟩, tr := ⟨top, right⟩, bl := ⟨bottom, left⟩, br := ⟨bottom, right⟩ }

/-- The panel-frame corners (R76): in CEILING each takes the pair of the opposite screen corner. -/
def panelCorners (o : Orientation) (c : Corners) : Corners :=
  match o with
  | .floor => c
  | .ceiling => { tl := c.br, tr := c.bl, bl := c.tr, br := c.tl }

/-- Stages 1 to 3 for one axis: A, F and the CLAMPED flag (R69 to R73). -/
def axisStages (o : Orientation) (pos : Int) (centre kspan : Nat) (k : Int) (tk : List Nat) (flim : Nat) :
    Int × Nat × Bool :=
  let a := axisOffset (screenOffset o pos centre) kspan
  let f := clampFraction flim (insetFraction k (tk.getD k.natAbs 0) a)
  (a, f.1, f.2)

/-- One computation, from its latched inputs to a whole record with a given sequence number (R66, R78). -/
def compute (i : GeoInputs) (seq : Word32) : WarpRecord :=
  let v := axisStages i.orientation i.posV i.centreV i.kspanV i.kv i.tk i.flim
  let h := axisStages i.orientation i.posH i.centreH i.kspanH i.kh i.tk i.flim
  let c := panelCorners i.orientation
    (screenCorners i.kv i.kh (pixelInset i.width v.2.1) (pixelInset i.height h.2.1))
  { seq := seq, tl := c.tl, tr := c.tr, bl := c.bl, br := c.br,
    flags := { clampedV := v.2.2, clampedH := h.2.2, unsureV := i.trustV ≠ .homed, unsureH := i.trustH ≠ .homed,
               inverted := i.orientation = .ceiling },
    kv := i.kv, kh := i.kh, aV := v.1, aH := h.1, fV := v.2.1, fH := h.2.1, width := i.width, height := i.height,
    generation := i.generation }

/-- a is greater than b in the order of sequence numbers (R79). -/
def seqGreater (a b : Word32) : Bool := 1 ≤ (a - b).toNat && (a - b).toNat ≤ 2147483647

/-- The live record becomes the staged one, and WARP_NEW is raised (R87, R88). -/
def State.publish (s : State) (cause : FrameCause) : State :=
  let r := s.ge.staged
  State.raise { s with ge := { s.ge with live := r } } (.warpNew r.seq r.generation cause)

/-- The completion of the computation in flight (R86). -/
def State.completeComputation (s : State) (c : Computation) : State :=
  let staged := compute c.inputs (s.ge.staged.seq + 1)
  let s := { s with ge := { s.ge with staged := staged, inFlight := none } }
  let s := if c.marked then s.publish .attach else s
  if s.ge.pendingMark then State.startComputation { s with ge := { s.ge with pendingMark := false } } else s

/-- The GE's work at a frame mark (R87). -/
def State.promote (s : State) : State :=
  if seqGreater s.ge.staged.seq s.ge.live.seq then s.publish .fmark else s

end Sys2Proof.Machine
end

