-- ==== Sys2Proof/Machine/Coils.lean ====
section
/-! DEFINITION. The coil outputs of an axis (R39 to R41), computed from its microstep index, its current phase, its
parameters and the orientation. -/

namespace Sys2Proof.Machine

/-- The quarter-wave table C (R39). -/
def quarterWave : List Nat := [255, 254, 250, 244, 236, 225, 212, 197, 180, 162, 142, 120, 98, 74, 50, 25, 0]

/-- The quarter-wave entry C[j]. -/
def quarter (j : Nat) : Nat := quarterWave.getD j 0

/-- A signed coil value: its sign (true for +) and its magnitude. A magnitude of 0 keeps the sign of its quadrant
(R39; notes/assumptions/21.md). -/
structure Coil where
  positive : Bool
  magnitude : Nat
  deriving DecidableEq, Repr

/-- The value as a number. -/
def Coil.value (c : Coil) : Int := if c.positive then c.magnitude else -c.magnitude

/-- Coil A at a microstep index (R39). -/
def coilA (i : BitVec 6) : Coil :=
  let j := i.toNat % 16
  match i.toNat / 16 with
  | 0 => ⟨true, quarter j⟩
  | 1 => ⟨false, quarter (16 - j)⟩
  | 2 => ⟨false, quarter j⟩
  | _ => ⟨true, quarter (16 - j)⟩

/-- Coil B at a microstep index (R39). -/
def coilB (i : BitVec 6) : Coil :=
  let j := i.toNat % 16
  match i.toNat / 16 with
  | 0 => ⟨true, quarter (16 - j)⟩
  | 1 => ⟨true, quarter j⟩
  | 2 => ⟨false, quarter (16 - j)⟩
  | _ => ⟨false, quarter j⟩

/-- The level of a phase before the gravity floor (R40). -/
def AxisParams.phaseLevel (x : AxisParams) : Phase → Nat
  | .run => x.iRun
  | .hold => x.iHold
  | .rest => x.iIdle
  | .off => 0

/-- The current level I of an axis (R40): for V in CEILING at least I_grav, but in OFF. -/
def currentLevel (a : Axis) (o : Orientation) (x : AxisState) : Nat :=
  match a, o, x.phase with
  | .v, .ceiling, .off => 0
  | .v, .ceiling, ph => max (x.params.phaseLevel ph) (x.params.iGrav.getD 0)
  | _, _, ph => x.params.phaseLevel ph

/-- The level a coil's output carries (R39). -/
def Coil.level (c : Coil) (i : Nat) : Nat := c.magnitude * i / 255

end Sys2Proof.Machine
end

