-- ==== Sys2Proof/Machine/Motion.lean ====
section
/-! DEFINITION. The motion of one axis (02_lens_shift_motion.md, 03_homing_and_position_trust.md): legs, ramps, stops, homing
runs, end-stop contacts, the reference mark, driver faults. Every operation here acts on the record of one axis and reports
what the other blocks must do: the events to raise, the part-originated change, the recompute trigger. -/

namespace Sys2Proof.Machine

/-- What an axis reads of the rest of the part while it acts. -/
structure AxisEnv where
  axis : Axis
  now : Nat
  orientation : Orientation
  hot : Bool
  canRun : Bool
  ref : Int
  q : Nat
  deriving DecidableEq, Repr

/-- What one axis did: its record, the events raised before the part-originated change, the new target of that change, the
events raised after it, and whether a recompute trigger is handed on. -/
structure LensOut where
  axis : AxisState
  events : List Event := []
  change : Option Int := none
  later : List Event := []
  trigger : Bool := false
  deriving DecidableEq, Repr

/-- One action of an axis followed by another that makes no part-originated change of its own. -/
def LensOut.andThen (o : LensOut) (f : AxisState → LensOut) : LensOut :=
  let r := f o.axis
  { axis := r.axis, events := o.events, change := o.change, later := o.later ++ r.events ++ r.later,
    trigger := o.trigger || r.trigger }

/-! ### Counts and directions -/

/-- The signed unit of a direction. -/
def Dir.sign : Dir → Int
  | .minus => -1
  | .plus => 1

def Dir.opposite : Dir → Dir
  | .minus => .plus
  | .plus => .minus

/-- A count fits signed 32 bits. -/
def fitsCount (x : Int) : Bool := -2147483648 ≤ x && x ≤ 2147483647

/-- The position becomes a count; one that leaves signed 32 bits is a free value (notes/assumptions/6.md). -/
def AxisState.countTo (a : Axis) (x : AxisState) (p : Int) : AxisState :=
  if fitsCount p then { x with position := p }
  else { x with position := (Config.positionBeyondRange a x.freeCount).toInt, freeCount := x.freeCount + 1 }

/-- One microstep of position and index (R32). -/
def AxisState.microstep (a : Axis) (x : AxisState) (d : Dir) : AxisState :=
  let y := x.countTo a (x.position + d.sign)
  { y with index := match d with | .plus => x.index + 1 | .minus => x.index - 1 }

/-- The comparison of a new position with the quantum reference (R84). -/
def AxisEnv.meetsQuantum (env : AxisEnv) (p : Int) : Bool := env.q ≤ (p - env.ref).natAbs

/-- The preload direction of an axis (R28). -/
def preloadOf (a : Axis) (o : Orientation) (x : AxisParams) : Dir :=
  match a, o with
  | .v, .ceiling => x.preload.opposite
  | _, _ => x.preload

/-- Both edge flags clear (R54). -/
def AxisState.clearFlags (x : AxisState) : AxisState := { x with flagLo := false, flagHi := false }

/-- The step timer is loaded with a period from now (R32). -/
def AxisState.loadTimer (env : AxisEnv) (x : AxisState) (period : Nat) : AxisState :=
  { x with stepTimer := some (env.now + period), lastStepAt := env.now }

/-- The HOLD phase begins with its timer; with t_hold = 0 it ends as it begins (R40). -/
def AxisState.enterHold (env : AxisEnv) (x : AxisState) : AxisState :=
  if x.params.tHold = 0 then { x with phase := .rest, holdTimer := none }
  else { x with phase := .hold, holdTimer := some (env.now + 1000 * x.params.tHold) }

/-- The RUN phase begins; any hold timer is cancelled (R25, R49). -/
def AxisState.enterRun (x : AxisState) : AxisState := { x with phase := .run, holdTimer := none }

/-! ### Legs (R29 to R31) -/

/-- P(j) for a run period (R30). -/
def AxisParams.rampPeriod (x : AxisParams) (pRun j : Nat) : Nat := x.pStart - j * (x.pStart - pRun) / x.nRamp

/-- The run period of a speed class. -/
def AxisParams.runPeriod (x : AxisParams) : SpeedClass → Nat
  | .slow => x.pRunSlow
  | .normal => x.pRunNormal
  | .fast => x.pRunFast

/-- The effective run period of a leg that starts now (R31). -/
def AxisEnv.effectiveRun (env : AxisEnv) (x : AxisParams) (c : SpeedClass) : Nat :=
  if env.hot then max (x.runPeriod c) x.pRunSlow else x.runPeriod c

/-- The ramp index of microstep k of a leg; an index below n_acc is a ramp microstep, n_acc is a cruising one (R30, R58). -/
def Leg.rampIndex (l : Leg) (k : Nat) : Nat := min (min k (l.n - 1 - k)) l.nAcc

/-- The period of microstep k of a leg (R30, R58). -/
def Leg.period (l : Leg) (x : AxisParams) (k : Nat) : Nat :=
  if l.rampIndex k < l.nAcc then x.rampPeriod l.pRun (l.rampIndex k) else l.pRun

/-- A leg from the position to an end point, with its ramps (R30). -/
def AxisEnv.makeLeg (env : AxisEnv) (x : AxisState) (c : SpeedClass) (number : Nat) (kind : LegKind) (endPoint : Int) :
    Leg :=
  let n := (endPoint - x.position).natAbs
  { number := number, kind := kind, dir := if x.position < endPoint then .plus else .minus, endPoint := endPoint, n := n,
    nAcc := min x.params.nRamp (n / 2), issued := 0, pRun := env.effectiveRun x.params c, lastRamp := 0 }

/-- The overshoot point of a target approached in direction u (R29). -/
def AxisState.overshoot (x : AxisState) (u : Dir) (target : Int) : Int :=
  let p := target + u.sign * x.params.backlash
  if x.trust = .homed then clamp 0 x.params.travel p else p

/-- The plan of the next leg towards an entry's target; none when the position is the target (R29). -/
def AxisEnv.planLeg (env : AxisEnv) (x : AxisState) (e : Entry) (number : Nat) : Option Leg :=
  if x.position = e.target then none
  else
    let u : Dir := if x.position < e.target then .plus else .minus
    if x.params.backlash = 0 ∨ u = preloadOf env.axis env.orientation x.params ∨ x.overshoot u e.target = e.target then
      some (env.makeLeg x e.speed number .final e.target)
    else some (env.makeLeg x e.speed number .overshoot (x.overshoot u e.target))

/-- A leg starts: flags cleared, its first microstep timed (R29, R30, R54). -/
def AxisState.beginLeg (env : AxisEnv) (x : AxisState) (l : Leg) : AxisState :=
  let y := x.clearFlags.loadTimer env (l.period x.params 0)
  { y with motion := .running l }

/-- What a stationary axis does with its queue (R25, R26): the head entry starts; an entry with no leg completes at once; an
axis with nothing to start enters HOLD. -/
def AxisState.settle (env : AxisEnv) (x : AxisState) : List Entry → LensOut
  | [] => { axis := ({ x with queue := [] }).enterHold env }
  | e :: rest =>
    if env.canRun then
      match env.planLeg x e 1 with
      | some l => { axis := (({ x with queue := { e with active := true } :: rest }).enterRun).beginLeg env l }
      | none =>
        let out := x.settle env rest
        { out with events := .lensDone env.axis x.position .complete :: out.events, trigger := true }
    else { axis := ({ x with queue := e :: rest }).enterHold env }

/-- An IDLE axis with a non-empty queue starts its head entry (R25). -/
def AxisState.startIfIdle (env : AxisEnv) (x : AxisState) : LensOut :=
  match x.motion, x.queue with
  | .idle, e :: rest => x.settle env (e :: rest)
  | _, _ => { axis := x }

/-- A move completes (R26): its entry leaves the queue, LENS_DONE COMPLETE is raised, the next entry starts or the coils
hold. -/
def AxisState.complete (env : AxisEnv) (x : AxisState) : LensOut :=
  let y := { x with motion := .idle, stepTimer := none, queue := x.queue.tail }
  let out := y.settle env y.queue
  { out with events := .lensDone env.axis x.position .complete :: out.events, trigger := true }

/-- The leg after one that has ended (R29), or the completion of the move. -/
def AxisState.nextLeg (env : AxisEnv) (x : AxisState) (number : Nat) : LensOut :=
  match x.queue.head? with
  | none => x.complete env
  | some e =>
    match env.planLeg x e number with
    | some l => { axis := x.beginLeg env l }
    | none => x.complete env

/-! ### Homing (R49 to R52) -/

/-- The distance of CLEAR and BACKOFF, read when the phase begins (R49). -/
def AxisParams.homeDistance (x : AxisParams) : Nat := min x.backoff x.travel

/-- A homing phase begins (R49, R54). -/
def AxisState.beginPhase (env : AxisEnv) (x : AxisState) (run : Homing) : AxisState :=
  let y := x.clearFlags.loadTimer env x.params.pHome
  { y with motion := .homing run }

/-- APPROACH begins, with its limit (R50). -/
def AxisState.beginApproach (env : AxisEnv) (x : AxisState) : AxisState :=
  x.beginPhase env { phase := .approach, taken := 0, limit := x.params.travel * 9 / 8, contact := 0 }

/-- The trust of an axis changes; a change is a recompute trigger (R45, R46). -/
def AxisState.setTrust (x : AxisState) (t : Trust) : AxisState × Bool := ({ x with trust := t }, x.trust != t)

/-- A homing run begins on an IDLE axis (R49); a pending home is cleared (R48). -/
def AxisState.beginHoming (env : AxisEnv) (x : AxisState) : LensOut :=
  let (y, changed) := ({ x with pendingHome := false }).enterRun.setTrust .unhomed
  let z :=
    if x.endLo ∧ 0 < x.params.homeDistance then
      y.beginPhase env { phase := .clear, taken := 0, limit := x.params.homeDistance, contact := 0 }
    else y.beginApproach env
  { axis := z, trigger := changed }

/-- A homing run completes at the back-off position (R51). -/
def AxisState.homed (env : AxisEnv) (x : AxisState) (contact : Int) : LensOut :=
  let y := ({ x with motion := .idle, stepTimer := none, trust := .homed }).enterHold env
  { axis := y, change := some y.position, later := [.homeDone env.axis y.position contact], trigger := true }

/-- A homing run fails (R52). -/
def AxisState.homeFailed (env : AxisEnv) (x : AxisState) (cause : HomeCause) : LensOut :=
  let y := { x with motion := .fault, stepTimer := none, holdTimer := none, trust := .unhomed, phase := .off }
  { axis := y, change := some y.position, later := [.homeFail env.axis y.position cause], trigger := true }

/-- BACKOFF begins (R51). The time of the last issued microstep stays that of APPROACH, since R35 times a stop from it
(notes/assumptions/34.md). -/
def AxisState.beginBackoff (env : AxisEnv) (x : AxisState) (contact : Int) : AxisState :=
  { x.beginPhase env { phase := .backoff, taken := 0, limit := x.params.homeDistance, contact := contact } with
    lastStepAt := x.lastStepAt }

/-- Homing contact in APPROACH (R50): the count becomes 0 and BACKOFF begins; with b = 0 it ends as it begins (R51), its
start having cleared the edge flags (R54). -/
def AxisState.homeContact (env : AxisEnv) (x : AxisState) : LensOut :=
  let y := { x with position := 0 }
  let out : LensOut :=
    if x.params.homeDistance = 0 then y.clearFlags.homed env x.position
    else { axis := y.beginBackoff env x.position }
  { out with trigger := out.trigger || env.meetsQuantum 0 }

/-! ### Contacts and stops (R35, R36, R54 to R56) -/

/-- The test of the end stop that lies in a direction (R54): contact when the line is active or the flag is set; the test
clears the flag. -/
def AxisState.testStop (x : AxisState) (d : Dir) : Bool × AxisState :=
  match d with
  | .minus => (x.endLo || x.flagLo, { x with flagLo := false })
  | .plus => (x.endHi || x.flagHi, { x with flagHi := false })

/-- After a stop has ended on an axis: a pending home starts its homing run (R48), which needs the part neither CRITICAL nor
tripped (R49); else the queue goes on (R36). -/
def AxisState.afterStop (env : AxisEnv) (x : AxisState) : LensOut :=
  if x.pendingHome ∧ env.canRun then x.beginHoming env else x.settle env x.queue

/-- An end-stop contact during a leg or a stop halts the axis (R55, R56). -/
def AxisState.contactHalt (env : AxisEnv) (x : AxisState) (d : Dir) (motion : Halted) : LensOut :=
  let stop : EndStop := match d with | .minus => .lo | .plus => .hi
  let p : Int := match d with | .minus => 0 | .plus => x.position
  let y := ({ x with motion := .idle, stepTimer := none, queue := [], position := p, trust := .unsure }).enterHold env
  let out : LensOut :=
    { axis := y, events := [.lensDone env.axis p .limit], change := some p,
      later := [.limitHit env.axis stop x.position motion], trigger := true }
  if x.pendingHome ∧ env.canRun then out.andThen (·.beginHoming env) else out

/-- The number of ramp microsteps that stop a homing run: the indices whose period is above P_home (R35). -/
def AxisParams.homingStopSteps (x : AxisParams) : Nat :=
  ((List.range x.nRamp).filter fun j => x.pHome < x.rampPeriod x.pRunNormal j).length

/-- The microsteps a stop takes on a RUNNING axis (R35). -/
def Leg.stopSteps (l : Leg) : Nat := if l.issued = 0 then 0 else min l.lastRamp (l.n - l.issued)

/-- The direction of a homing phase (R49 to R51). -/
def HomingPhase.dir : HomingPhase → Dir
  | .clear => .plus
  | .approach => .minus
  | .backoff => .plus

/-- A decelerating stop of r microsteps begins (R35): the waiting entries are flushed, the active entry's target becomes
the stop position, and the first period follows the last issued microstep (notes/assumptions/34.md for a time already past). -/
def AxisState.stopAfter (env : AxisEnv) (x : AxisState) (r : Nat) (d : Dir) (pRun : Nat) (reason : DoneReason)
    (abandoned : Bool) : LensOut :=
  let landed := x.countTo env.axis (x.position + d.sign * r)
  let p := landed.position
  let y := { landed.clearFlags with position := x.position }
  let z :=
    { y with
      motion := .stopping { position := p, remaining := r, dir := d, reason := reason, pRun := pRun, abandoned := abandoned },
      queue := if abandoned then [] else (y.queue.take 1).map fun e => { e with target := p },
      stepTimer := if r = 0 then none else some (x.lastStepAt + x.params.rampPeriod pRun (r - 1)) }
  { axis := z, change := some p }

/-- A decelerating stop begins on a RUNNING or HOMING axis (R35); on any other it does not (R34). -/
def AxisState.beginStop (env : AxisEnv) (x : AxisState) (reason : DoneReason) : LensOut :=
  match x.motion with
  | .running l => x.stopAfter env l.stopSteps l.dir l.pRun reason false
  | .homing run =>
    let (y, changed) := x.setTrust .unhomed
    let out := y.stopAfter env x.params.homingStopSteps run.phase.dir x.params.pRunNormal reason true
    { out with trigger := changed }
  | .idle | .stopping _ | .fault => { axis := x }

/-- The end of a stop (R36): the active entry leaves the queue, LENS_DONE is raised with the stop's reason, and a rest
position other than the recorded one makes a further part-originated change (R14; notes/assumptions/18.md). -/
def AxisState.endStop (env : AxisEnv) (x : AxisState) (st : Stop) : LensOut :=
  let y := { x with motion := .idle, stepTimer := none, queue := if st.abandoned then x.queue else x.queue.tail }
  let out : LensOut :=
    { axis := y, events := [.lensDone env.axis y.position st.reason],
      change := if y.position = st.position then none else some (y.drain y.position), trigger := true }
  out.andThen (·.afterStop env)

/-- A stop of no microstep ends when it is taken (R35). -/
def AxisState.endIfStopped (env : AxisEnv) (x : AxisState) : LensOut :=
  match x.motion with
  | .stopping st => if st.remaining = 0 then x.endStop env st else { axis := x }
  | .idle | .running _ | .homing _ | .fault => { axis := x }

/-! ### The step timer (R32) -/

/-- A microstep of a leg (R29, R30, R32). -/
def AxisState.stepLeg (env : AxisEnv) (x : AxisState) (l : Leg) : LensOut :=
  let (contact, x) := x.testStop l.dir
  if contact then x.contactHalt env l.dir .move
  else
    let y := x.microstep env.axis l.dir
    let m := { l with issued := l.issued + 1, lastRamp := l.rampIndex l.issued }
    let moved := env.meetsQuantum y.position
    if m.n ≤ m.issued then
      let y := { y with lastStepAt := env.now }
      let out := match m.kind with
        | .final => y.complete env
        | .overshoot => y.nextLeg env (m.number + 1)
      { out with trigger := out.trigger || moved }
    else
      let z := y.loadTimer env (m.period y.params m.issued)
      { axis := { z with motion := .running m }, trigger := moved }

/-- A microstep of a stop (R35, R36). -/
def AxisState.stepStop (env : AxisEnv) (x : AxisState) (st : Stop) : LensOut :=
  let (contact, x) := x.testStop st.dir
  if contact then x.contactHalt env st.dir .stop
  else
    let y := x.microstep env.axis st.dir
    let st := { st with remaining := st.remaining - 1 }
    let moved := env.meetsQuantum y.position
    let out : LensOut :=
      if st.remaining = 0 then y.endStop env st
      else
        let z := y.loadTimer env (y.params.rampPeriod st.pRun (st.remaining - 1))
        { axis := { z with motion := .stopping st } }
    { out with trigger := out.trigger || moved }

/-- The end of CLEAR: END_LO is sampled (R49). -/
def AxisState.endClear (env : AxisEnv) (x : AxisState) (run : Homing) : LensOut :=
  if x.endLo ∧ 0 < run.limit then x.homeFailed env .stuckLo else { axis := x.beginApproach env }

/-- The end of BACKOFF: END_LO is sampled (R51). -/
def AxisState.endBackoff (env : AxisEnv) (x : AxisState) (run : Homing) : LensOut :=
  if x.endLo ∧ 0 < run.limit then x.homeFailed env .stuckLo else x.homed env run.contact

/-- A microstep of a homing phase is taken, and the phase goes on or ends. -/
def AxisState.homeStep (env : AxisEnv) (x : AxisState) (run : Homing) (finish : AxisState → Homing → LensOut) : LensOut :=
  let y := x.microstep env.axis run.phase.dir
  let run := { run with taken := run.taken + 1 }
  let out : LensOut :=
    if run.phase ≠ .approach ∧ run.limit ≤ run.taken then finish y run
    else
      let z := y.loadTimer env y.params.pHome
      { axis := { z with motion := .homing run } }
  { out with trigger := out.trigger || env.meetsQuantum y.position }

/-- A step of a homing run (R49 to R52). -/
def AxisState.stepHoming (env : AxisEnv) (x : AxisState) (run : Homing) : LensOut :=
  match run.phase with
  | .clear => x.homeStep env run (·.endClear env ·)
  | .approach =>
    let (contact, x) := x.testStop .minus
    if contact then x.homeContact env
    else if run.limit ≤ run.taken then x.homeFailed env .noContact
    else x.homeStep env run (fun y _ => { axis := y })
  | .backoff =>
    let (contact, x) := x.testStop .plus
    if contact then x.homeFailed env .endHi else x.homeStep env run (·.endBackoff env ·)

/-- The step timer of an axis expires (R32). -/
def AxisState.step (env : AxisEnv) (x : AxisState) : LensOut :=
  match x.motion with
  | .running l => x.stepLeg env l
  | .stopping st => x.stepStop env st
  | .homing run => x.stepHoming env run
  | .idle | .fault => { axis := x }

/-! ### Conditions that reach a moving axis -/

/-- HOME_FAIL CANCELLED for an axis that holds a pending home (R53). -/
def AxisState.cancelled (env : AxisEnv) (x : AxisState) : List Event :=
  if x.pendingHome then [.homeFail env.axis x.position .cancelled] else []

/-- The entries appended behind a stop are flushed (R37, R48): whether there were any, and the axis without them. -/
def AxisState.flushBehind (x : AxisState) (st : Stop) : Bool × AxisState :=
  let kept := if st.abandoned then [] else x.queue.take 1
  (kept.length < x.queue.length, { x with queue := kept })

/-- The thermal stop reaches an axis (R37, R53). HOME_FAIL CANCELLED of a cancelled pending home stands among the events, which
are raised before the INSTALL_CHANGED of the stop, though the other axis's stop makes that change; R37 and R53 give no order, and
this one is the model's choice (notes/assumptions/50.md). -/
def AxisState.thermalStop (env : AxisEnv) (x : AxisState) : LensOut :=
  match x.motion with
  | .running _ | .homing _ => x.beginStop env .thermal
  | .stopping st =>
    let (flushed, y) := x.flushBehind st
    { axis := { y with pendingHome := false }, events := x.cancelled env, change := present flushed st.position }
  | .idle | .fault => { axis := x }

/-- HOME reaches an axis (R47, R48, R49). -/
def AxisState.home (env : AxisEnv) (x : AxisState) : LensOut :=
  match x.motion with
  | .idle => x.beginHoming env
  | .running _ => ({ x with pendingHome := true }).beginStop env .aborted
  | .stopping st =>
    let (flushed, y) := x.flushBehind st
    { axis := { y with pendingHome := true }, change := present flushed st.position }
  | .homing _ | .fault => { axis := x }

/-- The trust a halt or a driver fault leaves (R38, R43, R60). -/
def AxisState.haltTrust (x : AxisState) : Trust :=
  match x.motion with
  | .homing _ => .unhomed
  | .idle | .running _ | .stopping _ | .fault => .unsure

/-- A halt of a moving axis, for the trip (R38) or RESTART (R43): no further microstep; queue emptied; pending home
cancelled. -/
def AxisState.halt (env : AxisEnv) (x : AxisState) (reason : DoneReason) : LensOut :=
  if x.moving then
    let y := { x with motion := .idle, stepTimer := none, queue := [], trust := x.haltTrust, pendingHome := false }
    let z := match reason with
      | .restart => y.enterHold env
      | _ => { y with phase := .rest, holdTimer := none }
    { axis := z, events := .lensDone env.axis x.position reason :: x.cancelled env, change := some x.position,
      trigger := true }
  else { axis := { x with queue := [] } }

/-- LENS_DONE FAULT for an active entry removed, or a homing run abandoned, by a driver fault (R60;
notes/assumptions/19.md). -/
def AxisState.faultDone (env : AxisEnv) (x : AxisState) : List Event :=
  if x.moving then [.lensDone env.axis x.position .fault] else []

/-- DRV_FLT becomes active, or is active when hard reset ends (R60). -/
def AxisState.driverFault (env : AxisEnv) (x : AxisState) : LensOut :=
  match x.motion with
  | .fault => { axis := x, later := [.lensFault env.axis x.position .fault] }
  | .idle | .running _ | .stopping _ | .homing _ =>
    let y :=
      { x with motion := .fault, stepTimer := none, holdTimer := none, phase := .off, queue := [], pendingHome := false,
               trust := x.haltTrust }
    { axis := y,
      events := x.faultDone env ++ x.cancelled env ++ [.lensFault env.axis x.position x.motion.mode],
      change := present (x.moving || !x.queue.isEmpty) x.position,
      trigger := x.moving || x.trust != x.haltTrust }

/-! ### The reference mark (R57 to R59) -/

/-- A correction during a leg (R58): the leg keeps its end point; if that lies at ref_pos or behind it, the leg ends. -/
def AxisState.correctLeg (env : AxisEnv) (x : AxisState) (l : Leg) : LensOut :=
  let p : Int := x.params.refPos
  let y := { x with position := p }
  let toGo := l.dir.sign * (l.endPoint - p)
  let out : LensOut :=
    if toGo ≤ 0 then y.nextLeg env (l.number + 1)
    else
      let m := { l with n := l.issued + toGo.toNat }
      { axis := { y with motion := .running m, stepTimer := some (x.lastStepAt + m.period x.params m.issued) } }
  { out with trigger := out.trigger || env.meetsQuantum p }

/-- A slip (R59). -/
def AxisState.slip (env : AxisEnv) (x : AxisState) (d : Int) : LensOut :=
  let (y, changed) := x.setTrust .unsure
  { axis := y, events := [.positionSlip env.axis (clamp (-32767) 32767 d) x.position], trigger := changed }

/-- A rising edge of REF_MK (R57). -/
def AxisState.refMark (env : AxisEnv) (x : AxisState) : LensOut :=
  let d : Int := x.position - x.params.refPos
  if x.trust = .unhomed ∨ d = 0 then { axis := x }
  else
    match x.motion with
    | .running l => if d.natAbs ≤ x.params.refTol then x.correctLeg env l else x.slip env d
    | .stopping _ =>
      if d.natAbs ≤ x.params.refTol then
        { axis := { x with position := x.params.refPos }, trigger := env.meetsQuantum x.params.refPos }
      else x.slip env d
    | .idle | .homing _ | .fault => { axis := x }

/-! ### Recovery and the hold timer -/

/-- AXIS_RECOVER of an axis (R61). -/
def AxisState.recover (x : AxisState) : AxisState :=
  match x.motion with
  | .fault => { x with motion := .idle, queue := [], phase := .rest, holdTimer := none }
  | .idle | .running _ | .stopping _ | .homing _ => x

/-- The hold timer expires (R40). -/
def AxisState.holdExpired (x : AxisState) : AxisState :=
  match x.phase with
  | .hold => { x with phase := .rest, holdTimer := none }
  | .run | .rest | .off => { x with holdTimer := none }

end Sys2Proof.Machine
end

