-- ==== Sys2Proof/Machine/Lens.lean ====
section
/-! DEFINITION. What the axes do reaches the rest of the part: the record, the event sets, the GE (R14, R83). -/

namespace Sys2Proof.Machine

/-- What an axis reads of the part (R28, R31, R25, R84). -/
def State.axisEnv (s : State) (a : Axis) : AxisEnv :=
  { axis := a, now := s.now, orientation := s.irm.orientation, hot := s.tmon.device = .hot,
    canRun := s.tmon.device ≠ .critical ∧ s.tmon.trip = none,
    ref := match a with | .v => s.ge.refV | .h => s.ge.refH,
    q := s.ge.q }

/-- An axis that does nothing. -/
def State.still (s : State) (a : Axis) : LensOut := { axis := s.axis a }

/-- What both axes did in one event: their records, the events in the order V, H, one part-originated change covering both
(R14), the later events. The trigger is left to the caller. -/
def State.deliver (s : State) (v h : LensOut) : State :=
  let s := { s with lmc := { v := v.axis, h := h.axis } }
  let s := s.raiseAll (v.events ++ h.events)
  let s := s.partChange v.change h.change
  s.raiseAll (v.later ++ h.later)

/-- What one axis did, beside a still one. -/
def State.deliverOne (s : State) (a : Axis) (o : LensOut) : State :=
  match a with
  | .v => s.deliver o (s.still .h)
  | .h => s.deliver (s.still .v) o

/-- An event of one axis, with its trigger taken last (R83; notes/assumptions/11.md). -/
def State.axisEvent (s : State) (a : Axis) (f : AxisEnv → AxisState → LensOut) : State :=
  let o := f (s.axisEnv a) (s.axis a)
  (s.deliverOne a o).recomputeIf o.trigger

/-- An event that acts on both axes: the action, one part-originated change, then the end of every stop of no microstep
(R35), then one trigger. -/
def State.lensEvent (s : State) (f : Axis → AxisEnv → AxisState → LensOut) : State :=
  let v := f .v (s.axisEnv .v) s.lmc.v
  let h := f .h (s.axisEnv .h) s.lmc.h
  let s := s.deliver v h
  let v' := s.lmc.v.endIfStopped (s.axisEnv .v)
  let h' := s.lmc.h.endIfStopped (s.axisEnv .h)
  (s.deliver v' h').recomputeIf (v.trigger || h.trigger || v'.trigger || h'.trigger)

/-- The axes a request names (V, H), for an action that leaves the others still. -/
def onNamed (named : Bool × Bool) (f : AxisEnv → AxisState → LensOut) (a : Axis) (env : AxisEnv) (x : AxisState) :
    LensOut :=
  match a with
  | .v => if named.1 then f env x else { axis := x }
  | .h => if named.2 then f env x else { axis := x }

/-- The thermal stop of both axes (R37): the pending homes it cancels are reported before its one change, which is the model's
choice (notes/assumptions/50.md). -/
def State.thermalStop (s : State) : State := s.lensEvent fun _ env x => x.thermalStop env

/-- The trip halt of both axes (R38). -/
def State.tripHalt (s : State) : State := s.lensEvent fun _ env x => x.halt env .trip

/-- RESTART's halt of both axes (R43), which clears the edge flags (R54). -/
def State.restartHalt (s : State) : State × Bool :=
  let v := s.lmc.v.halt (s.axisEnv .v) .restart
  let h := s.lmc.h.halt (s.axisEnv .h) .restart
  let s := { s with lmc := { v := v.axis.clearFlags, h := h.axis.clearFlags } }
  (s.raiseAll (v.events ++ h.events), v.trigger || h.trigger)

/-- The head entries of IDLE axes start (R25), after a write; the trigger is taken with the write's own (R83). -/
def State.startHeads (s : State) (trigger : Bool) : State :=
  let v := s.lmc.v.startIfIdle (s.axisEnv .v)
  let h := s.lmc.h.startIfIdle (s.axisEnv .h)
  (s.deliver v h).recomputeIf (trigger || v.trigger || h.trigger)

end Sys2Proof.Machine
end

