-- ==== Sys2Proof/Machine/Light.lean ====
section
/-! DEFINITION. The Light Allowance Unit's own operations (08_light_allowance_and_the_light_session.md): components,
allowance, drive, timers. Every operation here acts on the LAU's record alone. -/

namespace Sys2Proof.Machine

/-- The mode ceilings (R151). -/
def LightMode.ceiling : LightMode → Nat
  | .eco => 9830
  | .normal => 13107
  | .bright => 16383

/-- The derate of a zone in use at a temperature (R153). -/
def zoneDerate (lCrit : Nat) (state : Thermal) (t : Int) (th : Thresholds) : Nat :=
  if state = .critical then lCrit
  else if th.hot ≤ t then th.lHot
  else if th.warm ≤ t then
    (16383 - (t - th.warm) * (16383 - (th.lHot : Int)) / (th.hot - th.warm)).toNat
  else 16383

/-- What a zone record contributes to the thermal ceiling: nothing unless it is in use with a temperature (R105, R153). -/
def ZoneRecord.derate (z : ZoneRecord) (lCrit : Nat) (th : Thresholds) : Nat :=
  match z.inUse, z.temperature with
  | true, some t => zoneDerate lCrit z.state t th
  | _, _ => 16383

/-- The least derate over the zones in use (R153). -/
def LauInputs.leastDerate (x : LauInputs) (lCrit : Nat) : Nat :=
  (allZones.map fun z => (x.zones.get z).derate lCrit (x.thresholds.get z)).foldl min 16383

/-- L_th, and whether L_stall capped it (R153; notes/assumptions/17.md). -/
def Lau.thermalCeiling (l : Lau) : Nat × Bool :=
  let least := l.held.leastDerate l.params.lCrit
  if l.held.anyStalled then (min least l.params.lStall, l.params.lStall < least) else (least, false)

/-- L_ac (R154). -/
def Lau.acousticCeiling (l : Lau) : Nat := max l.params.lAcFloor (16383 - l.held.excess * l.params.acStep)

/-- The lapse cap applies while detached or LAPSED (R155). -/
def LauInputs.lapseApplies (x : LauInputs) : Bool := !x.attached || x.lapse = .lapsed

/-- The components as the inputs give them (R152). -/
def Lau.formComponents (l : Lau) : Components :=
  { modeCeiling := l.mode.ceiling, lTh := l.thermalCeiling.1, stallCapped := l.thermalCeiling.2,
    lAc := l.acousticCeiling, lapseApplies := l.held.lapseApplies, ignApplies := l.session = .ignition }

/-- The least of the components that apply (R152). -/
def Components.least (c : Components) (p : LauParams) : Nat :=
  min (min c.modeCeiling (min c.lTh c.lAc))
    (min (if c.lapseApplies then p.lLapse else c.modeCeiling) (if c.ignApplies then p.lIgn else c.modeCeiling))

/-- The request in use: the applied request, or the mode ceiling (R158). -/
def Lau.request (l : Lau) : Nat := l.applied.getD l.mode.ceiling

/-- The drive target: none outside IGNITION and LIT (R159). -/
def Lau.target (l : Lau) : Option Nat := if l.session.lightEn then some (min l.request l.allowance) else none

/-- The drive follows a newly formed target: it falls at once, and rises by the slew timer (R159, R160). -/
def Lau.followTarget (now : Nat) (l : Lau) : Lau :=
  match l.target with
  | none => { l with drive := 0, slew := none }
  | some t =>
    if t ≤ l.drive then { l with drive := t, slew := none }
    else { l with slew := some (l.slew.getD (now + Config.slewTime)) }

/-- The allowance is formed, and the target from it (R152, R159). -/
def Lau.form (now : Nat) (l : Lau) : Lau :=
  let c := l.formComponents
  Lau.followTarget now { l with components := c, allowance := c.least l.params }

/-- The LAU takes changed inputs and forms its allowance (R152). -/
def Lau.take (now : Nat) (l : Lau) (held : LauInputs) : Lau := Lau.form now { l with held := held }

/-- A slew expiry (R160). -/
def Lau.slewStep (now : Nat) (l : Lau) : Lau :=
  match l.target with
  | none => { l with slew := none }
  | some t =>
    let d := min t (l.drive + l.params.slew)
    { l with drive := d, slew := if d < t then some (now + Config.slewTime) else none }

/-- Steps 1 and 2 of a session change (R142, R144, R148, R150): the drive and the timers of the new state. -/
def Lau.switch (now : Nat) (l : Lau) (new : Session) : Lau :=
  let l := { l with session := new, drive := if new.lightEn then l.drive else 0, ignition := none, coolMin := .stopped,
                    coolMax := none }
  match new with
  | .ignition =>
    { l with ignition := some (now + 1000 * l.params.ignTimeout), ignitionStart := some now }
  | .cooldown =>
    { l with slew := none,
             coolMin := if l.params.coolMin = 0 then .elapsed else .running (now + 1000000 * l.params.coolMin),
             coolMax := some (now + 1000000 * l.params.coolMax) }
  | .lit => l
  | .standby | .tripped => { l with slew := none }

/-- The SRC condition (R149). -/
def Lau.srcCool (l : Lau) : Bool :=
  match l.held.zones.src.status, l.held.zones.src.temperature with
  | .live, some t => t < l.params.tCool
  | _, _ => false

/-- The time since the session entered IGNITION, in ms (R146). -/
def Lau.timeToFault (now : Nat) (l : Lau) : Nat := durationMs (now - l.ignitionStart.getD now)

end Sys2Proof.Machine
end

