-- ==== Sys2Proof/Machine/Sensing.lean ====
section
/-! DEFINITION. The Thermal Monitor's own operations (06_temperature_sensing_and_thermal_state.md): reads, slot records, zones,
the device thermal state. Every operation here acts on the TMON's record alone. -/

namespace Sys2Proof.Machine

/-! ### The start check and the reads (R99 to R101) -/

/-- The start check of a transaction (R100). -/
def startCheck (bus : BusSample) : BusCondition :=
  if bus.scl then
    if bus.sda then .clear
    else if bus.freedAfter.any (· ≤ 9) then .recovered else .stuck
  else .stuck

/-- The worse of two bus conditions (R100). -/
def BusCondition.worst (a b : BusCondition) : BusCondition := if busCode a < busCode b then b else a

/-- The raw value of two data bytes: a signed 16-bit number, high byte first (R101). -/
def rawValue (high low : Byte) : Int := (high ++ low : Word16).toInt

/-- The conversion of a complete read (R101). -/
def converted (high low : Byte) (offset : Int) : Int := rawValue high low / 64 + offset

/-- A temperature is plausible (R101). -/
def plausible (t : Int) : Bool := -160 ≤ t && t ≤ 600

/-- How a read ends: its value, or the cause of its failure (R99, R101). -/
def readOutcome (offset : Int) : ReadResult → Except ReadCause Int
  | .data high low =>
    if plausible (converted high low offset) then .ok (converted high low offset) else .error .range
  | .noAckAddr => .error .noAckAddr
  | .noAckPtr => .error .noAckPtr
  | .noAckRead => .error .noAckRead

/-- A read of a slot finishes (R104): its record, and the events raised. -/
def SlotRecord.finish (x : SlotRecord) (slot : Nat) (zone : Zone) : Except ReadCause Int → SlotRecord × List Event
  | .ok t =>
    ({ x with status := .live, value := some t, failures := 0 },
     if x.status = .lost then [.sensorBack slot zone t] else [])
  | .error cause =>
    if x.status = .lost then ({ x with failures := 3, lastCause := some cause }, [])
    else if x.failures + 1 < 3 then ({ x with failures := x.failures + 1, lastCause := some cause }, [])
    else ({ x with status := .lost, failures := 3, lastCause := some cause }, [.sensorLost slot zone (some cause)])

/-- The enabled slots of a table, in slot order (R103). -/
def enabledSlots (table : List ScanSlot) : List Nat :=
  (List.range table.length).filter fun n => (table[n]?.map ScanSlot.enabled).getD false

/-- A slot of a table, by number. -/
def slotAt (table : List ScanSlot) (n : Nat) : ScanSlot := table.getD n ⟨false, 8, 0, .src, 0⟩

/-- A read of slot n finishes in the TMON (R104). -/
def Tmon.finishRead (t : Tmon) (n : Nat) (r : Except ReadCause Int) : Tmon × List Event :=
  let (x, es) := (t.slots.getD n .reset).finish n (slotAt t.latched n).zone r
  ({ t with slots := t.slots.set n x }, es)

/-- The reads that a stuck bus fails, one after another (R100). -/
def Tmon.failStuck (t : Tmon) : List Nat → Tmon × List Event
  | [] => (t, [])
  | n :: rest =>
    let (t, es) := t.finishRead n (.error .busStuck)
    let (t, es') := t.failStuck rest
    (t, es ++ es')

/-- A scan starts (R103): it latches the scan table, and a new table resets every slot record (R102, R104). -/
def Tmon.beginScan (now : Nat) (t : Tmon) : Tmon :=
  { t with latched := t.table, newTable := false,
           slots := if t.newTable then List.replicate 8 .reset else t.slots,
           scan := some { slots := enabledSlots t.table, bus := .clear },
           nextScan := some (now + Config.scanInterval) }

/-! ### Zones (R106, R108) -/

/-- The records of a zone's slots: the enabled slots of the latched table that name it (R105). -/
def Tmon.slotsOf (t : Tmon) (z : Zone) : List SlotRecord :=
  (enabledSlots t.latched).filterMap fun n =>
    if (slotAt t.latched n).zone = z then some (t.slots.getD n .reset) else none

/-- The greatest value over LIVE records. -/
def greatest : List SlotRecord → Option Int
  | [] => none
  | x :: rest =>
    match x.status, x.value, greatest rest with
    | .live, some t, some u => some (max t u)
    | .live, some t, none => some t
    | _, _, u => u

/-- A zone's status and temperature (R106). -/
def zoneReading (records : List SlotRecord) (th : Thresholds) : ZoneStatus × Option Int :=
  if records = [] then (.unmonitored, none)
  else if records.any (·.status = .live) then (.live, greatest records)
  else if records.any (·.status = .lost) then (.lost, some th.hot)
  else (.absent, none)

/-- The threshold of a level; NORMAL has none (R108). -/
def Thresholds.of (th : Thresholds) : Thermal → Option Int
  | .normal => none
  | .warm => some th.warm
  | .hot => some th.hot
  | .critical => some th.crit

/-- The highest of the levels up to one that a temperature holds with an allowance below the threshold (R108). -/
def levelAt (th : Thresholds) (below : Int) (top : Thermal) (t : Int) : Thermal :=
  if top.rank ≥ 3 ∧ th.crit - below ≤ t then .critical
  else if top.rank ≥ 2 ∧ th.hot - below ≤ t then .hot
  else if top.rank ≥ 1 ∧ th.warm - below ≤ t then .warm
  else .normal

/-- A zone's new state: the higher of the rise level and the hold level (R108). -/
def zoneState (th : Thresholds) (present : Thermal) (t : Int) : Thermal :=
  (levelAt th 0 .critical t).max (levelAt th th.hysteresis present t)

/-- A zone's record at an evaluation (R106, R108). -/
def Tmon.evaluateZone (t : Tmon) (z : Zone) : ZoneRecord :=
  let th := t.thresholds.get z
  let (status, temperature) := zoneReading (t.slotsOf z) th
  let state := match status, temperature with
    | .live, some x | .lost, some x => zoneState th (t.zones.get z).state x
    | _, _ => .normal
  { status := status, temperature := temperature, state := state }

/-- Stages 1 and 2 of an evaluation (R109). -/
def Tmon.evaluateZones (t : Tmon) : Tmon := { t with zones := PerZone.build t.evaluateZone }

/-! ### The device thermal state (R110, R111, R113) -/

/-- The number of stalled fans. -/
def stalledCount (x : PerFan Bool) : Nat := (allFans.filter x.get).length

/-- The contribution of the fans (R110). -/
def fansLevel (x : PerFan Bool) : Thermal :=
  if x.blower ∨ 2 ≤ stalledCount x then .critical else if 0 < stalledCount x then .hot else .normal

/-- The contribution of a zone: none unless it is in use (R110). -/
def ZoneRecord.level (z : ZoneRecord) : Option Thermal := if z.inUse then some z.state else none

/-- The device thermal state as the contributions give it (R110). -/
def Tmon.formDevice (t : Tmon) : Thermal :=
  (allZones.filterMap fun z => (t.zones.get z).level).foldl Thermal.max (fansLevel t.stalled)

/-- The first contribution that sets a level, in the source order (R111). -/
def Tmon.sourceOf (t : Tmon) (level : Thermal) : Source :=
  match allZones.find? fun z => (t.zones.get z).level = some level with
  | some z => .zone z
  | none => if 0 < stalledCount t.stalled ∧ fansLevel t.stalled = level then .fans else .none

/-- The dwell timer at a change of the device state (R112). -/
def Tmon.dwellAfter (now : Nat) (t : Tmon) (new : Thermal) : Option Nat :=
  if new = .critical then if t.trip = none then some (now + 1000000 * t.dwellSeconds) else t.dwell
  else none

/-- The first zone whose status is LIVE with a temperature at or above its T_abs (R113). -/
def Tmon.absoluteZone (t : Tmon) : Option Zone :=
  allZones.find? fun z =>
    (t.zones.get z).status = .live && ((t.zones.get z).temperature.any fun x => (t.thresholds.get z).abs ≤ x)

/-- The temperature of what a trip names: none for the fans (R114, R118). -/
def Tmon.sourceTemperature (t : Tmon) : Source → Option Int
  | .zone z => (t.zones.get z).temperature
  | .fans | .none => none

end Sys2Proof.Machine
end

