-- ==== Sys2Proof/Machine/Heat.lean ====
section
/-! DEFINITION. How the TMON, AFC and LAU hand results to one another and to the LMC (06, 07, 08): selections, session changes,
the device thermal state, the trip, a scan's evaluation. Where the spec lets two receivers be reached in either order,
the order here is LMC, AFC, LAU (notes/assumptions/10.md). -/

namespace Sys2Proof.Machine

/-! ### Selections and the allowance -/

/-- What a fan selection reads (R125). -/
def State.airInputs (s : State) : AirInputs :=
  { now := s.now, tripped := s.tmon.trip.isSome, device := s.tmon.device, session := s.lau.session }

/-- The LAU takes changed inputs (R152). -/
def State.lauTake (s : State) (held : LauInputs) : State := { s with lau := s.lau.take s.now held }

/-- The allowance is formed afresh (R152). -/
def State.lauForm (s : State) : State := { s with lau := s.lau.form s.now }

/-- The AFC selects duties and forms the excess; a changed excess is handed to the LAU (R125, R130). -/
def State.selectFans (s : State) : State :=
  let a := s.afc.select s.airInputs
  let t := { s with afc := a }
  if a.excess = s.afc.excess then t else t.lauTake { t.lau.held with excess := a.excess }

/-! ### The light session (R142, R148 to R150) -/

/-- A change of session state, its five steps in order (R142). -/
def State.enterSession (s : State) (new : Session) (cause : SessionCause) : State :=
  let old := s.lau.session
  let s := { s with lau := (s.lau.switch s.now new).form s.now }
  (s.raise (.lightState new old cause)).selectFans

/-- A check of the SRC condition: it ends a cool-down whose minimum has elapsed (R149). -/
def State.checkCooled (s : State) : State :=
  if s.lau.session = .cooldown ∧ s.lau.coolMin = .elapsed ∧ s.lau.srcCool then s.enterSession .standby .cooled else s

/-- Entry to COOLDOWN, with the check that a minimum of 0 calls for (R148, R149). -/
def State.enterCooldown (s : State) (cause : SessionCause) : State := (s.enterSession .cooldown cause).checkCooled

/-- A light fault (R144, R145): the latch is set, LIGHT_FAULT is raised, the session enters COOLDOWN. -/
def State.lightFault (s : State) (reason : FaultReason) : State :=
  let ms := s.lau.timeToFault s.now
  let e : Event := .lightFault reason s.lau.session s.lau.drive ms
  let s := { s with lau := { s.lau with fault := some ⟨reason, ms⟩ } }
  (s.raise e).enterCooldown .fault

/-! ### The device thermal state (R110 to R112) -/

/-- The device thermal state is formed; a change is raised, starts or stops the dwell timer, and is handed to the LMC, the AFC
and the LAU (R111, R112, R37). -/
def State.formDevice (s : State) : State :=
  let new := s.tmon.formDevice
  let old := s.tmon.device
  if new = old then s
  else
    let source := s.tmon.sourceOf new
    let s := { s with tmon := { s.tmon with device := new, dwell := s.tmon.dwellAfter s.now new } }
    let s := s.raise (.thermalState new old source)
    let s := if new = .critical then s.thermalStop else s
    let s := s.selectFans
    { s with lau := { s.lau with held := { s.lau.held with device := new } } }

/-- The AFC hands the TMON a changed stalled set (R134, R135): the device state is formed at once, and the LAU hears whether
any fan is stalled (R153). -/
def State.handStalled (s : State) (f : Fan) (stalled : Bool) : State :=
  let s := { s with tmon := { s.tmon with stalled := s.tmon.stalled.set f stalled } }
  let s := s.formDevice
  s.lauTake { s.lau.held with anyStalled := 0 < stalledCount s.tmon.stalled }

/-! ### The trip (R113, R114) -/

/-- A trip is declared: with the latch clear it is set, TRIP is raised, and the LMC, AFC and LAU are handed the trip. -/
def State.declareTrip (s : State) (cause : TripCause) (zone : Source) : State :=
  if s.tmon.trip.isSome then s
  else
    let t := s.tmon.sourceTemperature zone
    let s := { s with tmon := { s.tmon with trip := some ⟨cause, zone, t⟩, dwell := none } }
    let s := s.raise (.trip cause zone t)
    (s.tripHalt.selectFans).enterSession .tripped .trip

/-! ### The evaluation of a scan (R109) -/

/-- Stage 4 (R113). -/
def State.checkAbsolute (s : State) : State :=
  match s.tmon.absoluteZone with
  | some z => s.declareTrip .absolute (.zone z)
  | none => s

/-- Stage 5 (R109). -/
def State.countScan (s : State) : State :=
  { s with tmon := { s.tmon with scanNumber := s.tmon.scanNumber + 1, ready := true },
           lau := { s.lau with held := { s.lau.held with ready := true } } }

/-- Stage 6: the AFC's evaluation and selection (R123, R125), then the LAU's, with its cool-down check (R149, R152). -/
def State.handResults (s : State) : State :=
  let s := State.selectFans { s with afc := s.afc.evaluate s.irm.orientation s.tmon.zones }
  (s.lauTake { s.lau.held with zones := s.tmon.zones, thresholds := s.tmon.thresholds }).checkCooled

/-- The evaluation that ends a scan (R109), which records the scan's bus condition (R100). -/
def State.evaluate (s : State) (bus : BusCondition) : State :=
  let s := { s with tmon := { s.tmon.evaluateZones with scan := none, bus := bus } }
  s.formDevice.checkAbsolute.countScan.handResults

/-! ### The course of a scan (R100, R103) -/

/-- The next slot of a scan: its start check, or the evaluation when no slot is left. A stuck bus fails every later read
of the scan (R100). -/
def State.nextSlot (s : State) (slots : List Nat) (worst : BusCondition) (sample : BusSample) : State :=
  match slots with
  | [] => s.evaluate worst
  | _ :: _ =>
    let found := startCheck sample
    if found = .stuck then
      let (t, es) := s.tmon.failStuck slots
      (State.raiseAll { s with tmon := t } es).evaluate .stuck
    else { s with tmon := { s.tmon with scan := some { slots := slots, bus := worst.worst found } } }

/-- A scan starts (R103); the next one is due 100 ms after this one was due. -/
def State.startScan (s : State) (sample : BusSample) : State :=
  let t := s.tmon.beginScan (s.tmon.nextScan.getD s.now)
  State.nextSlot { s with tmon := t } (enabledSlots t.table) .clear sample

/-- The read of the present slot finishes, and the scan goes on (R104); with no scan in flight there is no read. -/
def State.finishSlot (s : State) (outcome : Int → Except ReadCause Int) (sample : BusSample) : State :=
  match s.tmon.scan with
  | none => s
  | some ⟨[], _⟩ => s
  | some ⟨n :: rest, worst⟩ =>
    let (t, es) := s.tmon.finishRead n (outcome (slotAt s.tmon.latched n).offset)
    (State.raiseAll { s with tmon := t } es).nextSlot rest worst sample

/-! ### Fan stalls and recoveries (R134, R135) -/

/-- A fan's record is replaced. -/
def State.setFan (s : State) (f : Fan) (x : FanRecord) : State := { s with afc := { s.afc with fans := s.afc.fans.set f x } }

/-- A fan becomes STALLED (R134). -/
def State.stallFan (s : State) (f : Fan) : State :=
  let x := s.afc.fans.get f
  let s := s.setFan f (x.stall s.now)
  (s.raise (.fanStall f x.output x.rpm x.tach)).handStalled f true

/-- A fan recovers at an edge (R135). The time stalled of R140 runs from the stall to the recovering edge's fall, and is 0 with
no stall held (notes/assumptions/46.md). -/
def State.recoverFan (s : State) (f : Fan) (fall : Nat) (x : FanRecord) : State :=
  let ms := durationMs (fall - (x.stalledAt.getD fall))
  let s := s.setFan f { x with stalledAt := none }
  (s.raise (.fanRecover f x.rpm ms)).handStalled f false

/-! ### The lapse monitor (R94 to R96) -/

/-- The window timer starts (R93). -/
def Fmon.startWindow (now : Nat) (f : Fmon) : Fmon :=
  { f with state := .armed, window := some (now + 1000 * f.lapseWindow), windowLength := f.lapseWindow }

/-- LAPSE_END is raised when the monitor leaves LAPSED (R94, R96). -/
def State.endLapse (s : State) (cause : FrameCause) : State :=
  if s.fmon.state = .lapsed then
    s.raise (.lapseEnd cause (durationMs (s.now - s.fmon.lapseStart.getD s.now)))
  else s

/-- The LAU holds the attach and lapse states as they stand, and forms its allowance (R155). -/
def State.handFrameState (s : State) : State :=
  s.lauTake { s.lau.held with attached := s.fpi.attached, lapse := s.fmon.state }

end Sys2Proof.Machine
end

