-- ==== Sys2Proof/Machine/Tables.lean ====
section
/-! DEFINITION. Table images (R182, R203): their fields and field ranges, their whole-table conditions (R188 to R191), the
installed tables as images and an image as an installed table, and the segmented load (R183 to R185). -/

namespace Sys2Proof.Machine

/-- The image length of a table (R182). -/
def Table.length : Table → Nat
  | .keystone => 62
  | .curves => 96
  | .zones => 66
  | .scan => 40

/-- A field of an image: where it starts, how many bytes it has, whether it is signed, its range (R188 to R191). -/
structure FieldSpec where
  offset : Nat
  size : Nat
  signed : Bool
  least : Int
  greatest : Int
  deriving DecidableEq, Repr

/-- The fields of a curve, given where its entry starts (R189, R203). -/
def curveFields (at_ : Nat) : List FieldSpec :=
  ((List.range 5).map fun k => [⟨at_ + 3 * k, 2, true, -160, 600⟩, ⟨at_ + 3 * k + 2, 1, false, 0, 63⟩]).flatten ++
    [⟨at_ + 15, 1, false, 1, 63⟩]

/-- The fields of a zone's entry (R190, R203). -/
def zoneFields (at_ : Nat) : List FieldSpec :=
  ((List.range 4).map fun k => ⟨at_ + 2 * k, 2, true, -160, 600⟩) ++
    [⟨at_ + 8, 1, false, 1, 40⟩, ⟨at_ + 9, 2, false, 0, 16383⟩]

/-- The fields of a scan slot's entry (R191, R203). -/
def slotFields (at_ : Nat) : List FieldSpec :=
  [⟨at_, 1, false, 0, 1⟩, ⟨at_ + 1, 1, false, 0x08, 0x77⟩, ⟨at_ + 2, 1, false, 0, 255⟩, ⟨at_ + 3, 1, false, 0, 5⟩,
   ⟨at_ + 4, 1, true, -40, 40⟩]

/-- The fields of a table, in image order. -/
def Table.fields : Table → List FieldSpec
  | .keystone => (List.range 31).map fun n => ⟨2 * n, 2, false, 0, 16384⟩
  | .curves => ((List.range 6).map fun c => curveFields (16 * c)).flatten
  | .zones => ((List.range 6).map fun z => zoneFields (11 * z)).flatten
  | .scan => ((List.range 8).map fun j => slotFields (5 * j)).flatten

/-- The bytes of an image from an offset. -/
def slice (image : List Byte) (offset size : Nat) : List Byte := (image.drop offset).take size

/-- The value a field holds in an image. -/
def FieldSpec.value (f : FieldSpec) (image : List Byte) : Int :=
  if f.signed then leInt (slice image f.offset f.size) else leNat (slice image f.offset f.size)

/-- A field holds a value in its range. -/
def FieldSpec.good (f : FieldSpec) (image : List Byte) : Bool := within (f.value image) (f.least, f.greatest)

/-- An unsigned 16-bit value of an image. -/
def unsigned16 (image : List Byte) (offset : Nat) : Nat := leNat (slice image offset 2)
/-- A signed 16-bit value of an image. -/
def signed16 (image : List Byte) (offset : Nat) : Int := leInt (slice image offset 2)
/-- An unsigned byte of an image. -/
def unsigned8 (image : List Byte) (offset : Nat) : Nat := leNat (slice image offset 1)
/-- A signed byte of an image. -/
def signed8 (image : List Byte) (offset : Nat) : Int := leInt (slice image offset 1)

/-! ### Whole-table conditions: each with the offset at which its breach is reported, in rising order -/

/-- TK rises from 0 (R188). -/
def keystoneConditions (image : List Byte) : List (Nat × Bool) :=
  (0, unsigned16 image 0 = 0) ::
    (List.range 30).map fun n => (2 * (n + 1), unsigned16 image (2 * n) ≤ unsigned16 image (2 * (n + 1)))

/-- A curve's temperatures rise strictly and its duties do not fall (R189). -/
def curveConditions (image : List Byte) (at_ : Nat) : List (Nat × Bool) :=
  ((List.range 4).map fun k =>
    [(at_ + 3 * (k + 1), decide (signed16 image (at_ + 3 * k) < signed16 image (at_ + 3 * (k + 1)))),
     (at_ + 3 * (k + 1) + 2,
      decide (unsigned8 image (at_ + 3 * k + 2) ≤ unsigned8 image (at_ + 3 * (k + 1) + 2)))]).flatten

/-- A zone's thresholds rise strictly (R190). -/
def zoneConditions (image : List Byte) (at_ : Nat) : List (Nat × Bool) :=
  (List.range 3).map fun k =>
    (at_ + 2 * (k + 1), decide (signed16 image (at_ + 2 * k) < signed16 image (at_ + 2 * (k + 1))))

/-- Two slots are both enabled with the same address and pointer (R191). -/
def sameTarget (image : List Byte) (i j : Nat) : Bool :=
  unsigned8 image (5 * i) = 1 && unsigned8 image (5 * j) = 1 &&
    slice image (5 * i + 1) 2 = slice image (5 * j + 1) 2

/-- No slot repeats an earlier one (R191; notes/assumptions/23.md). -/
def scanConditions (image : List Byte) : List (Nat × Bool) :=
  (List.range 8).map fun j => (5 * j + 1, (List.range j).all fun i => !sameTarget image i j)

/-- The whole-table conditions of a table (R188 to R191). -/
def Table.conditions (t : Table) (image : List Byte) : List (Nat × Bool) :=
  match t with
  | .keystone => keystoneConditions image
  | .curves => ((List.range 6).map fun c => curveConditions image (16 * c)).flatten
  | .zones => ((List.range 6).map fun z => zoneConditions image (11 * z)).flatten
  | .scan => scanConditions image

/-! ### The segmented load (R184, R185) -/

/-- An error is held unless one is held already (R184). -/
def Load.hold (l : Load) (cause : LoadCause) (offset : Nat) : Load :=
  match l.firstError with
  | some _ => l
  | none => { l with firstError := some (cause, offset) }

/-- The first field out of range among those whose last byte lies at or after an offset and has arrived. -/
def Load.fieldFault (l : Load) (since : Nat) : Option Nat :=
  firstFault ((l.table.fields.filter fun f => since < f.offset + f.size && f.offset + f.size ≤ l.received).map
    fun f => (f.offset, f.good l.image))

/-- A segment reaches an open load (R184). -/
def Load.segment (l : Load) (offset : Nat) (data : List Byte) : Load :=
  if offset ≠ l.received then l.hold .sequence l.received
  else if l.total < offset + data.length then l.hold .overrun offset
  else
    let m := { l with image := l.image ++ data, received := l.received + data.length }
    match m.fieldFault l.received with
    | some o => m.hold .field o
    | none => m

/-- The judgement of END_LOAD: none when the table can be installed (R185). -/
def Load.report (l : Load) : Option (LoadCause × Nat) :=
  match l.firstError with
  | some e => some e
  | none =>
    if l.received < l.total then some (.short, l.received)
    else (firstFault (l.table.conditions l.image)).map fun o => (.content, o)

/-! ### Images of installed tables -/

/-- A curve's entry: five points, then the zone mask (R203). -/
def Curve.image (c : Curve) : List Byte :=
  (c.points.map fun p => s16 p.1 ++ u8 p.2).flatten ++ [c.mask.setWidth 8]

/-- A zone's entry (R203). -/
def Thresholds.image (t : Thresholds) : List Byte :=
  s16 t.warm ++ s16 t.hot ++ s16 t.crit ++ s16 t.abs ++ u8 t.hysteresis ++ u16 t.lHot

/-- A scan slot's entry (R203). -/
def ScanSlot.image (x : ScanSlot) : List Byte :=
  flag x.enabled ++ u8 x.address ++ u8 x.pointer ++ u8 (zoneCode x.zone) ++ s8 x.offset

/-- The image of an installed table (R182, R187). -/
def State.tableImage (s : State) : Table → List Byte
  | .keystone => (s.ge.tk.map u16).flatten
  | .curves =>
    ((allFans.map fun f => (s.afc.floorCurves.get f).image) ++
      (allFans.map fun f => (s.afc.ceilingCurves.get f).image)).flatten
  | .zones => (allZones.map fun z => (s.tmon.thresholds.get z).image).flatten
  | .scan => (s.tmon.table.map ScanSlot.image).flatten

/-- The install count of a table (R182). -/
def State.tableCount (s : State) : Table → Word16
  | .keystone => s.ge.tkCount
  | .curves => s.afc.curvesCount
  | .zones => s.tmon.thresholdsCount
  | .scan => s.tmon.tableCount

/-- The keystone table of an image. -/
def readKeystone (image : List Byte) : List Nat := (List.range 31).map fun n => unsigned16 image (2 * n)

/-- The curve of an image whose entry starts at an offset. -/
def readCurve (image : List Byte) (at_ : Nat) : Curve :=
  { points := (List.range 5).map fun k => (signed16 image (at_ + 3 * k), unsigned8 image (at_ + 3 * k + 2)),
    mask := BitVec.ofNat 6 (unsigned8 image (at_ + 15)) }

/-- One curve set of an image whose first entry starts at an offset. -/
def readCurveSet (image : List Byte) (at_ : Nat) : PerFan Curve :=
  PerFan.build fun f => readCurve image (at_ + 16 * fanCode f)

/-- The thresholds of an image whose entry starts at an offset. -/
def readThresholds (image : List Byte) (at_ : Nat) : Thresholds :=
  { warm := signed16 image at_, hot := signed16 image (at_ + 2), crit := signed16 image (at_ + 4),
    abs := signed16 image (at_ + 6), hysteresis := unsigned8 image (at_ + 8), lHot := unsigned16 image (at_ + 9) }

/-- The scan slot of an image whose entry starts at an offset. -/
def readSlot (image : List Byte) (at_ : Nat) : ScanSlot :=
  { enabled := unsigned8 image at_ = 1, address := unsigned8 image (at_ + 1), pointer := unsigned8 image (at_ + 2),
    zone := readZone (unsigned8 image (at_ + 3)), offset := signed8 image (at_ + 4) }

/-- An image replaces the installed table whole and the install count counts on (R185); a SCAN table is marked new
(R102). -/
def State.installTable (s : State) (t : Table) (image : List Byte) : State :=
  match t with
  | .keystone => { s with ge := { s.ge with tk := readKeystone image, tkCount := s.ge.tkCount + 1 } }
  | .curves =>
    { s with afc := { s.afc with floorCurves := readCurveSet image 0, ceilingCurves := readCurveSet image 48,
                                 curvesCount := s.afc.curvesCount + 1 } }
  | .zones =>
    { s with tmon := { s.tmon with
        thresholds := PerZone.build fun z => readThresholds image (11 * zoneCode z),
        thresholdsCount := s.tmon.thresholdsCount + 1 } }
  | .scan =>
    { s with tmon := { s.tmon with
        table := (List.range 8).map fun j => readSlot image (5 * j), tableCount := s.tmon.tableCount + 1, newTable := true } }

end Sys2Proof.Machine
end

