-- ==== Sys2Proof/Machine/Replies.lean ====
section
/-! DEFINITION. Response payloads (R198 to R203, R195), each less its first byte, the event summary, which stands in front once
the response is formed (R168). Layouts the spec does not give follow R195: notes/assumptions/13.md. -/

namespace Sys2Proof.Machine

/-! ### Installation record (R198) -/

/-- READ_INSTALL, of the requesting port. -/
def State.installReply (s : State) (p : Port) : List Byte :=
  u8 (orientationCode s.irm.orientation) ++ s8 s.irm.kv ++ s8 s.irm.kh ++ s32 s.irm.targetV ++ s32 s.irm.targetH ++
    le16 s.irm.generation ++ u8 (trustCode s.lmc.v.trust) ++ u8 (trustCode s.lmc.h.trust) ++
    u8 s.lmc.v.queue.length ++ u8 s.lmc.h.queue.length ++
    (match s.irm.reservation p with
      | some g => flag true ++ le16 g
      | none => flag false ++ [0xFF, 0xFF])

/-- WRITE_INSTALL, JOG and RECALL_PRESET, with the queue actions. -/
def State.writeReply (s : State) (v h : QueueAction) : List Byte :=
  le16 s.irm.generation ++ u8 (orientationCode s.irm.orientation) ++ s8 s.irm.kv ++ s8 s.irm.kh ++ s32 s.irm.targetV ++
    s32 s.irm.targetH ++ u8 (actionCode v) ++ u8 (actionCode h)

/-- The contents of a preset slot: state, targets, keystone present, kv, kh. What does not apply is absent. -/
def presetFields (filled : Option Nat) (x : Option Preset) : List Byte :=
  match x with
  | none => opt8 filled ++ le32 Config.absentPosition ++ le32 Config.absentPosition ++ [0xFF] ++
      [Config.absentKeystone, Config.absentKeystone]
  | some y => opt8 filled ++ s32 y.targetV ++ s32 y.targetH ++ flag y.keystone.isSome ++
      (match y.keystone with
        | some (kv, kh) => s8 kv ++ s8 kh
        | none => [Config.absentKeystone, Config.absentKeystone])

/-- READ_PRESET and STORE_PRESET: a slot as it stands, or all absent for a slot that does not exist. -/
def State.presetReply (s : State) (slot : Byte) : List Byte :=
  match s.irm.presets[slot.toNat]? with
  | none => presetFields none none
  | some none => presetFields (some 0) none
  | some (some x) => presetFields (some 1) (some x)

/-! ### Axes (R199, R34, R47, R61, R178) -/

/-- A queue entry. -/
def Entry.bytes (e : Entry) : List Byte :=
  u8 (entryKindCode e.kind) ++ u8 (originCode e.origin) ++ s32 e.target ++ u8 (speedCode e.speed) ++ flag e.active

/-- The leg block. -/
def Leg.bytes (l : Leg) : List Byte :=
  (if l.number < 256 then u8 l.number else [Config.legNumberByte l.number]) ++ u8 (legKindCode l.kind) ++
    u8 (dirCode l.dir) ++ s32 l.n ++ s32 l.issued ++ u16 l.pRun

/-- The stop block. -/
def Stop.bytes (x : Stop) : List Byte := s32 x.position ++ s32 x.remaining ++ u8 (doneCode x.reason)

/-- The leg and stop blocks of an axis, zero where they do not apply. -/
def Motion.blocks : Motion → List Byte
  | .running l => l.bytes ++ List.replicate 9 0
  | .stopping x => List.replicate 13 0 ++ x.bytes
  | .idle | .homing _ | .fault => List.replicate 22 0

/-- The present byte (R199); 0 in bits 3 to 7 is the model's choice (notes/assumptions/49.md). -/
def AxisState.presentByte (x : AxisState) : Byte :=
  bits [x.motion.mode = .running, x.motion.mode = .stopping, x.pendingHome]

/-- READ_AXIS. -/
def State.axisReply (s : State) (a : Axis) : List Byte :=
  let x := s.axis a
  let i := currentLevel a s.irm.orientation x
  let coil (c : Coil) : List Byte := s16 c.value ++ u8 (c.level i)
  u8 (axisCode a) ++ u8 (modeCode x.motion.mode) ++ u8 (trustCode x.trust) ++ s32 x.position ++ [x.index.setWidth 8] ++
    u8 (phaseCode x.phase) ++ u8 i ++ coil (coilA x.index) ++ coil (coilB x.index) ++ [x.presentByte] ++
    u8 x.queue.length ++ padTo 32 (x.queue.map Entry.bytes).flatten ++ x.motion.blocks ++ [x.lines]

/-- What a response says of each axis a request names, V then H; an axis not named is absent. -/
def perNamed (named : Bool × Bool) (f : Axis → List Byte) (absent : List Byte) : List Byte :=
  (if named.1 then f .v else absent) ++ (if named.2 then f .h else absent)

/-- ABORT_MOTION. -/
def State.abortReply (s : State) (named : Bool × Bool) : List Byte :=
  perNamed named
    (fun a =>
      u8 (modeCode (s.axis a).motion.mode) ++
        (match (s.axis a).motion with
          | .stopping x => s32 x.position
          | .idle | .running _ | .homing _ | .fault => le32 Config.absentPosition))
    ([0xFF] ++ le32 Config.absentPosition)

/-- What HOME did with a named axis. -/
def AxisState.homeAction (x : AxisState) : HomeAction :=
  match x.motion with
  | .homing _ => .started
  | .idle | .running _ | .stopping _ | .fault => .pending

/-- HOME. -/
def State.homeReply (s : State) (named : Bool × Bool) : List Byte :=
  perNamed named (fun a => u8 (homeActionCode (s.axis a).homeAction)) [0xFF]

/-- The axis state and trust of an axis. -/
def State.standing (s : State) (a : Axis) : List Byte :=
  u8 (modeCode (s.axis a).motion.mode) ++ u8 (trustCode (s.axis a).trust)

/-- AXIS_RECOVER. -/
def State.recoverReply (s : State) (named : Bool × Bool) : List Byte := perNamed named s.standing [0xFF, 0xFF]

/-- RESTART. -/
def State.restartReply (s : State) : List Byte := le16 s.irm.generation ++ s.standing .v ++ s.standing .h

/-! ### Warp (R198, R89) -/

def Corner.bytes (c : Corner) : List Byte := u16 c.dx ++ u16 c.dy

/-- A warp record, 41 bytes. -/
def WarpRecord.bytes (r : WarpRecord) : List Byte :=
  le32 r.seq ++ r.tl.bytes ++ r.tr.bytes ++ r.bl.bytes ++ r.br.bytes ++ [r.flags.byte] ++ s8 r.kv ++ s8 r.kh ++
    s32 r.aV ++ s32 r.aH ++ u16 r.fV ++ u16 r.fH ++ u16 r.width ++ u16 r.height ++ le16 r.generation

/-- READ_WARP, of the requesting port (R92). In the computing byte 0 in bits 2 to 7 is the model's choice
(notes/assumptions/49.md). -/
def State.warpReply (s : State) (p : Port) : List Byte :=
  s.ge.live.bytes ++ flag (decide ((s.port p).lastWarp ≠ some s.ge.live.seq)) ++ le32 s.ge.staged.seq ++
    [bits [s.ge.inFlight.isSome, s.ge.pendingMark]] ++ flag s.fpi.attached ++ u16 s.fpi.width ++ u16 s.fpi.height

/-- ATTACH: the raster as stored, and a live seq. -/
def State.attachReply (s : State) (live : Word32) : List Byte := u16 s.fpi.width ++ u16 s.fpi.height ++ le32 live

/-! ### Thermal (R200) -/

/-- The trip items. -/
def tripBytes : Option TripRecord → List Byte
  | some t => flag true ++ u8 (tripCauseCode t.cause) ++ u8 (sourceCode t.zone) ++ optTemp t.temperature
  | none => flag false ++ [0xFF, 0xFF] ++ optTemp none

def ZoneRecord.bytes (z : ZoneRecord) : List Byte :=
  u8 (zoneStatusCode z.status) ++ optTemp z.temperature ++ u8 (thermalCode z.state)

/-- A slot's record, with its enabled item. -/
def SlotRecord.bytes (enabled : Bool) (x : SlotRecord) : List Byte :=
  flag enabled ++ u8 (slotStatusCode x.status) ++ optTemp x.value ++ u8 x.failures ++ u8 (causeCode x.lastCause)

def FanRecord.bytes (now : Nat) (x : FanRecord) : List Byte :=
  u8 x.demand ++ u8 x.selected ++ u8 x.output ++ optTime (remainingMs now x.kick) ++ u8 (tachCode x.tach) ++
    u16 x.period ++ u32 x.rpm

/-- READ_THERMAL. -/
def State.thermalReply (s : State) : List Byte :=
  let t := s.tmon
  u8 (thermalCode t.device) ++ tripBytes t.trip ++ optTime (remainingMs s.now t.dwell) ++ flag t.ready ++
    le16 t.scanNumber ++ u8 (busCode t.bus) ++ [stalledByte t.stalled] ++
    (allZones.map fun z => (t.zones.get z).bytes).flatten ++
    ((List.range 8).map fun n => (t.slots.getD n .reset).bytes (slotAt t.latched n).enabled).flatten ++
    flag s.afc.quiet ++ u8 s.afc.excess ++ u8 (orientationCode s.afc.inUse) ++
    (allFans.map fun f => (s.afc.fans.get f).bytes s.now).flatten

/-! ### Light (R201, R143, R147, R151, R157) -/

/-- The time remaining of the cool-down minimum: 0 once elapsed. -/
def CoolMin.remaining (now : Nat) : CoolMin → Option Nat
  | .stopped => none
  | .running e => remainingMs now (some e)
  | .elapsed => some 0

/-- READ_LIGHT. -/
def State.lightReply (s : State) : List Byte :=
  let l := s.lau
  let c := l.components
  u8 (sessionCode l.session) ++ optTime (remainingMs s.now l.ignition) ++ optTime (l.coolMin.remaining s.now) ++
    optTime (remainingMs s.now l.coolMax) ++ flag l.fault.isSome ++
    opt8 (l.fault.map fun x => faultReasonCode x.reason) ++ u16 ((l.fault.map LightFault.timeMs).getD 0) ++
    u8 (lightModeCode l.mode) ++ flag s.afc.quiet ++ u16 c.modeCeiling ++ u16 c.lTh ++ flag c.stallCapped ++ u16 c.lAc ++
    u8 l.held.excess ++ u16 l.params.lLapse ++ flag c.lapseApplies ++ u16 l.params.lIgn ++ flag c.ignApplies ++
    u16 l.allowance ++ optLevel s.fpi.latched ++ optLevel l.applied ++ u16 l.request ++ optLevel l.target ++ u16 l.drive ++
    flag l.slew.isSome ++ flag s.fpi.attached ++ u8 (lapseCode s.fmon.state) ++ u16 s.fmon.period ++ [l.lines]

/-- LIGHT_ON: the session, and the reason of a FAULTED refusal. -/
def State.lightOnReply (s : State) (reason : Option Nat) : List Byte := u8 (sessionCode s.lau.session) ++ opt8 reason

/-- LIGHT_OFF. -/
def State.lightOffReply (s : State) : List Byte := u8 (sessionCode s.lau.session)

/-- SET_LIGHT_MODE. -/
def State.lightModeReply (s : State) : List Byte := u8 (lightModeCode s.lau.mode) ++ u16 s.lau.allowance

/-- SET_QUIET (R126). -/
def State.quietReply (s : State) : List Byte := flag s.afc.quiet ++ u8 s.afc.excess

/-- CLEAR_LIGHT_FAULT (R146). -/
def State.faultReply (s : State) : List Byte := flag s.lau.fault.isSome

/-- LIGHT_REQUEST. -/
def State.lightRequestReply (s : State) : List Byte := optLevel s.fpi.latched ++ optLevel s.lau.applied

/-! ### Events (R202) -/

/-- The detail fields of an event, before their padding. -/
def Event.fields : Event → List Byte
  | .installChanged g o => le16 g ++ u8 (originatorCode o)
  | .lensDone a p r => u8 (axisCode a) ++ s32 p ++ u8 (doneCode r)
  | .lensFault a p m => u8 (axisCode a) ++ s32 p ++ u8 (modeCode m)
  | .limitHit a x c m => u8 (axisCode a) ++ u8 (endStopCode x) ++ s32 c ++ u8 (haltedCode m)
  | .positionSlip a d p => u8 (axisCode a) ++ s16 d ++ s32 p
  | .homeDone a p c => u8 (axisCode a) ++ s32 p ++ s32 c
  | .homeFail a p c => u8 (axisCode a) ++ s32 p ++ u8 (homeCauseCode c)
  | .warpNew q g c => le32 q ++ le16 g ++ u8 (frameCauseCode c)
  | .lapse w => u16 w
  | .lapseEnd c n => u8 (frameCauseCode c) ++ u16 n
  | .thermalState n o z => u8 (thermalCode n) ++ u8 (thermalCode o) ++ u8 (sourceCode z)
  | .trip c z t => u8 (tripCauseCode c) ++ u8 (sourceCode z) ++ optTemp t
  | .sensorLost n z c => u8 n ++ u8 (zoneCode z) ++ u8 (causeCode c)
  | .sensorBack n z t => u8 n ++ u8 (zoneCode z) ++ s16 t
  | .fanStall f d r t => u8 (fanCode f) ++ u8 d ++ u32 r ++ u8 (tachCode t)
  | .fanRecover f r t => u8 (fanCode f) ++ u32 r ++ u16 t
  | .lightState n o c => u8 (sessionCode n) ++ u8 (sessionCode o) ++ u8 (sessionCauseCode c)
  | .lightFault r x d t => u8 (faultReasonCode r) ++ u8 (sessionCode x) ++ u16 d ++ u16 t

/-- An entry of a GET_EVENTS copy: kind, count, 12-byte detail. -/
def SetEntry.bytes (e : SetEntry) : List Byte := u8 (kindCode e.event.kind) ++ u8 e.count ++ padTo 12 e.event.fields

/-- GET_EVENTS: the copy of R176, with the mask as le24 sends it. -/
def PortState.eventsReply (x : PortState) : List Byte :=
  le24 x.mask ++ u8 x.events.length ++ (x.events.map SetEntry.bytes).flatten

/-- SET_EVENT_MASK (R177). -/
def PortState.maskReply (x : PortState) : List Byte := le24 x.mask ++ flag x.attention

/-! ### Tables (R203) -/

/-- LOAD_SEGMENT. -/
def loadReply : Option Load → List Byte
  | some l => u16 l.received ++ flag l.firstError.isSome
  | none => u16 0 ++ flag false

/-- END_LOAD: the table and its install count, and the report. With no table, as in a NO_LOAD refusal, the report offset is 0,
which R203 does not give (notes/assumptions/14.md). -/
def State.endReply (s : State) (t : Option Table) (report : Option (LoadCause × Nat)) : List Byte :=
  opt8 (t.map tableCode) ++ (match t with | some x => le16 (s.tableCount x) | none => u16 0) ++
    (match report with | some (cause, offset) => u8 (loadCauseCode cause) ++ u16 offset | none => [0xFF] ++ u16 0)

/-- READ_TABLE: up to 56 bytes from the offset. -/
def State.tableReply (s : State) (t : Table) (offset : Word16) : List Byte :=
  u8 (tableCode t) ++ le16 (s.tableCount t) ++ u16 t.length ++ le16 offset ++ slice (s.tableImage t) offset.toNat 56

end Sys2Proof.Machine
end

