-- ==== Sys2Proof/Machine/AirCommands.lean ====
section
/-! DEFINITION. The commands of the Airflow Controller (07_airflow.md): SET_QUIET, the kick, the tach edges and their timers. -/

namespace Sys2Proof.Machine

/-- SET_QUIET (R126): a change starts a selection. -/
def execSetQuiet (p : Port) (quiet : Byte) (s : State) : Outcome :=
  takeRequest p 0x33 s <|
    judge [(0, (readFlag quiet).isSome)] [controlOnly p] State.quietReply fun s =>
      let on := readFlag quiet = some true
      let t := if s.afc.quiet = on then s else State.selectFans { s with afc := { s.afc with quiet := on } }
      (t, ⟨.ok, t.quietReply⟩)

/-- KICK_EXPIRY of a fan (R129): no effect with no kick. -/
def execKickExpiry (fan : Fan) (s : State) : Outcome :=
  unlessReset s fun s =>
    match (s.afc.fans.get fan).kick with
    | some e => (s.at_ e).setFan fan (s.afc.fans.get fan).kickEnds
    | none => s

/-- A fan's output has been above 0 from the time of a fall on (R131). -/
def FanRecord.drivenAt (x : FanRecord) (fall : Nat) : Bool := x.output ≠ 0 && x.drivenFrom.any (· ≤ fall)

/-- A fall of a tach line is accepted: the fan's output was above 0 when the line fell and has been since, and the line
stayed low for the filter width in force at the fall (R131; notes/assumptions/26.md). -/
def Afc.accepts (a : Afc) (fan : Fan) (fall low : Nat) : Bool :=
  (a.fans.get fan).drivenAt fall && glitchAt fall a.glitch ≤ low

/-- TACH_EDGE_ACCEPTED (R131, R132, R133, R135): the edge is known once the line has stayed low for the filter width. -/
def execTachEdgeAccepted (fan : Fan) (fall low : Nat) (s : State) : Outcome :=
  unlessReset s fun s =>
    if s.afc.accepts fan fall low then
      let s := s.at_ (fall + glitchAt fall s.afc.glitch)
      let (x, recovered) := (s.afc.fans.get fan).edgeSeen fall
      if recovered then s.recoverFan fan fall x else s.setFan fan x
    else s

/-- GRACE_TIMER_EXPIRY of a fan (R133): TURNING while the edge timer runs, else STALLED. -/
def execGraceTimerExpiry (fan : Fan) (s : State) : Outcome :=
  unlessReset s fun s =>
    let x := s.afc.fans.get fan
    match x.grace with
    | some e =>
      let s := s.at_ e
      match x.edge with
      | some _ => s.setFan fan { x with grace := none, tach := .turning }
      | none => s.stallFan fan
    | none => s

/-- EDGE_TIMER_EXPIRY of a fan (R133, R135): remembered in STARTING, a stall in TURNING, the end of a recovery in
STALLED. -/
def execEdgeTimerExpiry (fan : Fan) (s : State) : Outcome :=
  unlessReset s fun s =>
    let x := s.afc.fans.get fan
    match x.edge with
    | some e =>
      let s := s.at_ e
      match x.tach with
      | .turning => s.stallFan fan
      | .off | .starting => s.setFan fan { x with edge := none }
      | .stalled => s.setFan fan { x with edge := none, recovery := 0 }
    | none => s

end Sys2Proof.Machine
end

