-- ==== Sys2Proof/Machine/FrameCommands.lean ====
section
/-! DEFINITION. The commands of the frame side (04_keystone_geometry.md, 05_warp_publication_and_frame_marks.md, R157, R158):
READ_WARP, ATTACH, DETACH, LIGHT_REQUEST, the frame mark, the lapse window, the end of a computation. -/

namespace Sys2Proof.Machine

/-- READ_WARP (R92). -/
def execReadWarp (p : Port) (s : State) : Outcome :=
  takeRequest p 0x07 s fun s =>
    (s.setPort p { s.port p with lastWarp := some s.ge.live.seq }, ⟨.ok, s.warpReply p⟩)

/-- The LAU's applied request becomes none (R158). -/
def State.dropRequests (s : State) : State :=
  { s with fpi := { s.fpi with latched := none }, lau := { s.lau with applied := none } }

/-- An accepted ATTACH (R89, R90, R94, R96, R157, R158). -/
def State.attach (s : State) (width height : Nat) : State :=
  let s := { s with fpi := { s.fpi with attached := true, width := width, height := height } }
  let s := s.endLapse .attach
  let s := { s with fmon := { s.fmon.startWindow s.now with lastMark := none } }
  let s := s.dropRequests.handFrameState
  State.recompute { s with ge := { s.ge with attachMark := true } }

/-- The accepted range of a raster (R89). -/
def rasterFits (width height : Word16) : Bool :=
  640 ≤ width.toNat && width.toNat ≤ 4096 && 360 ≤ height.toNat && height.toNat ≤ 2400

/-- ATTACH (R89). -/
def execAttach (p : Port) (width height : Word16) (s : State) : Outcome :=
  takeRequest p 0x10 s <|
    judge [] [frameOnly p, (rasterFits width height, .outOfRange)] (fun s => s.attachReply s.ge.live.seq) fun s =>
      let t := s.attach width.toNat height.toNat
      (t, ⟨.ok, t.attachReply s.ge.live.seq⟩)

/-- A DETACH that finds the picture processor attached (R90, R91, R94). -/
def State.detach (s : State) : State :=
  let s := { s with fpi := { s.fpi with attached := false } }
  let s := s.endLapse .detach
  let s := { s with fmon := { s.fmon with state := .disarmed, window := none } }
  let s := s.dropRequests.handFrameState
  { s with ge := { s.ge with attachMark := false, inFlight := s.ge.inFlight.map fun c => { c with marked := false } } }

/-- DETACH (R91). -/
def execDetach (p : Port) (s : State) : Outcome :=
  takeRequest p 0x11 s <|
    judge [] [frameOnly p] (fun _ => []) fun s => (if s.fpi.attached then s.detach else s, ⟨.ok, []⟩)

/-- LIGHT_REQUEST (R157). -/
def execLightRequest (p : Port) (level : Word16) (s : State) : Outcome :=
  takeRequest p 0x12 s <|
    judge [] [frameOnly p, (level.toNat ≤ Config.fullLight, .outOfRange), (s.fpi.attached, .notReady)]
      State.lightRequestReply
      fun s =>
        let t := { s with fpi := { s.fpi with latched := some level.toNat } }
        (t, ⟨.ok, t.lightRequestReply⟩)

/-- The frame period capture (R96). -/
def Fmon.capture (now : Nat) (f : Fmon) : Fmon :=
  { f with period := match f.lastMark with
             | some t => min 65535 (now - t)
             | none => 0,
           lastMark := some now }

/-- The FMON's work at a frame mark (R96): the capture, and the lapse monitor. -/
def State.markFrame (s : State) : State :=
  let s := { s with fmon := s.fmon.capture s.now }
  match s.fmon.state with
  | .disarmed => s
  | .armed => { s with fmon := s.fmon.startWindow s.now }
  | .lapsed =>
    let s := s.endLapse .fmark
    State.handFrameState { s with fmon := s.fmon.startWindow s.now }

/-- The LAU's work at a frame mark (R158). -/
def State.applyRequest (s : State) : State :=
  match s.fpi.latched with
  | some level =>
    { s with fpi := { s.fpi with latched := none },
             lau := Lau.followTarget s.now { s.lau with applied := some level } }
  | none => s

/-- FMARK (R87, R96, R158). -/
def execFmark (time : Nat) (s : State) : Outcome :=
  unlessReset s fun s => (s.at_ time).promote.markFrame.applyRequest

/-- LAPSE_WINDOW_EXPIRY (R95): no effect while the window timer is stopped. -/
def execLapseWindowExpiry (s : State) : Outcome :=
  unlessReset s fun s =>
    match s.fmon.window with
    | some e =>
      let s := s.at_ e
      let s := { s with fmon := { s.fmon with state := .lapsed, window := none, lapseStart := some s.now } }
      (s.raise (.lapse s.fmon.windowLength)).handFrameState
    | none => s

/-- COMPUTATION_COMPLETE (R86): no effect with no computation in flight. -/
def execComputationComplete (s : State) : Outcome :=
  unlessReset s fun s =>
    match s.ge.inFlight with
    | some c => s.completeComputation c
    | none => s

end Sys2Proof.Machine
end

