-- ==== Sys2Proof/Machine/Install.lean ====
section
/-! DEFINITION. The commands of the installation record and the lens memories (01_installation_record_and_lens_memories.md):
READ_INSTALL, WRITE_INSTALL, JOG, READ_PRESET, STORE_PRESET, RECALL_PRESET, CLEAR_PRESET. -/

namespace Sys2Proof.Machine

/-! ### Installation writes (R7 to R13) -/

/-- An installation write with its values as applied: the fields present, and the queue entries its targets make. -/
structure Write where
  orientation : Option Orientation
  kv : Option Int
  kh : Option Int
  v : Option Int
  h : Option Int
  kind : EntryKind
  origin : Origin
  speed : SpeedClass
  clamped : Bool
  deriving DecidableEq, Repr

/-- The target a write gives an axis. -/
def Write.target (w : Write) : Axis → Option Int
  | .v => w.v
  | .h => w.h

/-- The entry a write makes for a target. -/
def Write.entry (w : Write) (target : Int) : Entry :=
  { kind := w.kind, origin := w.origin, target := target, speed := w.speed, active := false }

/-- A keystone code as applied (R10). -/
def clampCode (b : Byte) : Int := clamp (-30) 30 b.toInt

/-- An absolute target as applied to an axis (R10). -/
def AxisState.clampTarget (x : AxisState) (t : Int) : Int := if x.trust = .homed then clamp 0 x.params.travel t else t

/-- A JOG's target as applied to an axis (R10, R13). -/
def AxisState.clampJog (x : AxisState) (t : Int) : Int :=
  if x.trust = .homed then clamp 0 x.params.travel t else saturate t

/-- What a write does to an axis's queue, given the target the record holds (R12, R13). -/
def AxisState.placing (x : AxisState) (held : Int) (kind : EntryKind) (target : Int) : QueueAction :=
  match kind with
  | .relative => .appended
  | .absolute =>
    if target = x.drain held then .none
    else match x.queue.getLast? with
      | some e => if !e.active ∧ e.kind = .absolute then .replaced else .appended
      | none => .appended

/-- The queue after an action with an entry. -/
def placed (queue : List Entry) (action : QueueAction) (e : Entry) : List Entry :=
  match action with
  | .none => queue
  | .appended => queue ++ [e]
  | .replaced => queue.dropLast ++ [e]

/-- The queue action of a write on an axis: NONE for an axis given no target. -/
def Write.action (w : Write) (s : State) (a : Axis) : QueueAction :=
  match w.target a with
  | some t => (s.axis a).placing (s.irm.target a) w.kind t
  | none => .none

/-- The axis after a write has reached its queue. -/
def Write.queue (w : Write) (s : State) (a : Axis) : AxisState :=
  match w.target a with
  | some t => { s.axis a with queue := placed (s.axis a).queue (w.action s a) (w.entry t) }
  | none => s.axis a

/-- A condition on every axis a write gives a target. -/
def Write.each (w : Write) (p : Axis → Bool) : Bool := (w.v.isNone || p .v) && (w.h.isNone || p .h)

/-- Checks 6 to 10 of R8; a request with no target skips them. -/
def Write.checks (w : Write) (s : State) : List (Bool × Status) :=
  [((w.v.isNone && w.h.isNone) || (s.tmon.device ≠ .critical && s.tmon.trip.isNone), .thermalHold),
   (w.each fun a => (s.axis a).motion.mode ≠ .homing && !(s.axis a).pendingHome, .busy),
   (w.each fun a => (s.axis a).motion.mode ≠ .fault, .faulted),
   (w.kind = .relative || w.each fun a => (s.axis a).trust = .homed, .notHomed),
   (w.each fun a => w.action s a ≠ .appended || (s.axis a).queue.length < 4, .queueFull)]

/-- The record with a write's fields. -/
def Write.record (w : Write) (r : Irm) : Irm :=
  { r with orientation := w.orientation.getD r.orientation, kv := w.kv.getD r.kv, kh := w.kh.getD r.kh,
           targetV := w.v.getD r.targetV, targetH := w.h.getD r.targetH }

/-- The recompute trigger of a write: a code or the orientation takes a different value (R4). -/
def Write.triggers (w : Write) (r : Irm) : Bool :=
  (w.record r).orientation ≠ r.orientation || (w.record r).kv ≠ r.kv || (w.record r).kh ≠ r.kh

/-- The status of an accepted write (R11). -/
def Write.status (w : Write) (s : State) : Status :=
  if w.clamped then .clamped
  else if w.action s .v = .none ∧ w.action s .h = .none then .ok else .accepted

/-- An accepted write is applied whole: record, queues, one installation change, then the head entries start (R11, R25). -/
def Write.apply (w : Write) (o : Originator) (s : State) : State :=
  let t := { s with irm := w.record s.irm, lmc := { v := w.queue s .v, h := w.queue s .h } }
  (t.installChange o).startHeads (w.triggers s.irm)

/-- The answer to an accepted write. -/
def Write.accept (w : Write) (o : Originator) (s : State) : State × Answer :=
  let t := w.apply o s
  (t, ⟨w.status s, t.writeReply (w.action s .v) (w.action s .h)⟩)

/-- The payload of a refused write: the record as it stands (R197). -/
def State.refusedWrite (s : State) : List Byte := s.writeReply .none .none

/-- Check 5 of R8: the caller's reservation is VALID and equals the generation (R9). -/
def State.reserved (s : State) (p : Port) : Bool := s.irm.reservation p = some s.irm.generation

/-- Checks 5 to 10 of R8, then the acceptance. A STALE refusal makes the caller's reservation INVALID. -/
def State.write (p : Port) (conditional : Bool) (w : Write) (s : State) : State × Answer :=
  if conditional ∧ ¬ s.reserved p then
    let t := { s with irm := s.irm.setReservation p none }
    (t, ⟨.stale, t.refusedWrite⟩)
  else judge [] (w.checks s) State.refusedWrite (w.accept (portOriginator p)) s

/-- The origin of an entry that a port's write makes (R12). -/
def portOrigin : Port → Origin
  | .control => .control
  | .frame => .frame

/-- READ_INSTALL (R6). -/
def execReadInstall (p : Port) (reserve : Byte) (s : State) : Outcome :=
  takeRequest p 0x01 s <|
    judge [(0, (readFlag reserve).isSome)] [] (·.installReply p) fun s =>
      let t :=
        if readFlag reserve = some true then { s with irm := s.irm.setReservation p (some s.irm.generation) } else s
      (t, ⟨.ok, t.installReply p⟩)

/-- The write a WRITE_INSTALL asks for (R7, R10). -/
def installWrite (p : Port) (presence orientation kv kh : Byte) (targetV targetH : Word32) (speed : Byte) (s : State) :
    Write :=
  let v := present (bit presence 3) (s.lmc.v.clampTarget targetV.toInt)
  let h := present (bit presence 4) (s.lmc.h.clampTarget targetH.toInt)
  { orientation := if bit presence 0 then readOrientation orientation else none,
    kv := present (bit presence 1) (clampCode kv), kh := present (bit presence 2) (clampCode kh), v := v, h := h,
    kind := .absolute, origin := portOrigin p, speed := (readSpeed speed).getD .slow,
    clamped :=
      (bit presence 1 && clampCode kv ≠ kv.toInt) || (bit presence 2 && clampCode kh ≠ kh.toInt) ||
        (bit presence 3 && s.lmc.v.clampTarget targetV.toInt ≠ targetV.toInt) ||
        (bit presence 4 && s.lmc.h.clampTarget targetH.toInt ≠ targetH.toInt) }

/-- WRITE_INSTALL (R7 to R12, R196). -/
def execWriteInstall (p : Port) (presence orientation kv kh : Byte) (targetV targetH : Word32)
    (speed conditional : Byte) (s : State) : Outcome :=
  takeRequest p 0x02 s <|
    judge
      [(0, presenceFits presence), (1, !bit presence 0 || (readOrientation orientation).isSome),
       (12, (readSpeed speed).isSome), (13, (readFlag conditional).isSome)]
      [(p = .control || !bit presence 0, .notPermitted)]
      State.refusedWrite
      fun s => s.write p (readFlag conditional = some true)
        (installWrite p presence orientation kv kh targetV targetH speed s)

/-- The write a JOG of an axis asks for (R13). -/
def jogWrite (p : Port) (a : Axis) (delta : Word32) (speed : Byte) (s : State) : Write :=
  let asked := s.drain a + delta.toInt
  let t := (s.axis a).clampJog asked
  { orientation := none, kv := none, kh := none, v := present (a = .v) t, h := present (a = .h) t, kind := .relative,
    origin := portOrigin p, speed := (readSpeed speed).getD .slow, clamped := t ≠ asked }

/-- JOG (R13). -/
def execJog (p : Port) (axis : Byte) (delta : Word32) (speed conditional : Byte) (s : State) : Outcome :=
  takeRequest p 0x03 s <|
    judge
      [(0, (readAxis axis).isSome), (1, delta ≠ 0), (5, (readSpeed speed).isSome),
       (6, (readFlag conditional).isSome)]
      [(delta.toInt.natAbs ≤ 65535, .outOfRange)]
      State.refusedWrite
      fun s => s.write p (readFlag conditional = some true) (jogWrite p ((readAxis axis).getD .v) delta speed s)

/-! ### Lens memories (R17 to R20) -/

/-- The preset a slot number names; none for an EMPTY slot and for a number above 7. -/
def Irm.preset (r : Irm) (slot : Byte) : Option Preset := (r.presets[slot.toNat]?).join

/-- A slot number names a slot (R17). -/
def slotFits (slot : Byte) : Bool := slot.toNat < 8

/-- A slot takes new contents. -/
def State.setPreset (s : State) (slot : Byte) (x : Option Preset) : State :=
  { s with irm := { s.irm with presets := s.irm.presets.set slot.toNat x } }

/-- READ_PRESET (R20). -/
def execReadPreset (p : Port) (slot : Byte) (s : State) : Outcome :=
  takeRequest p 0x08 s <|
    judge [] [(slotFits slot, .outOfRange)] (·.presetReply slot) fun s => (s, ⟨.ok, s.presetReply slot⟩)

/-- The preset an EXPLICIT store asks for, and whether a value was clamped (R18). -/
def explicitPreset (includeKeystone : Bool) (targetV targetH : Word32) (kv kh : Byte) (s : State) : Preset × Bool :=
  let v := clamp 0 s.lmc.v.params.travel targetV.toInt
  let h := clamp 0 s.lmc.h.params.travel targetH.toInt
  ({ targetV := v, targetH := h, keystone := present includeKeystone (clampCode kv, clampCode kh) },
   v ≠ targetV.toInt || h ≠ targetH.toInt ||
     (includeKeystone && (clampCode kv ≠ kv.toInt || clampCode kh ≠ kh.toInt)))

/-- The preset a CURRENT store takes from the record (R18), as the record holds it, also where a target lies outside the
travel, which R17 and R18 leave open (notes/assumptions/42.md). -/
def currentPreset (includeKeystone : Bool) (r : Irm) : Preset :=
  { targetV := r.targetV, targetH := r.targetH, keystone := present includeKeystone (r.kv, r.kh) }

/-- STORE_PRESET (R18): source code 0 is CURRENT, 1 is EXPLICIT. -/
def execStorePreset (p : Port) (slot source includeKeystone : Byte) (targetV targetH : Word32) (kv kh : Byte)
    (s : State) : Outcome :=
  let included := readFlag includeKeystone = some true
  takeRequest p 0x28 s <|
    judge [(1, (readFlag source).isSome), (2, (readFlag includeKeystone).isSome)]
      [controlOnly p, (slotFits slot, .outOfRange),
       (source ≠ 0 || (s.lmc.v.trust = .homed && s.lmc.h.trust = .homed), .notHomed)]
      (·.presetReply slot)
      fun s =>
        let (x, clamped) :=
          if source = 0 then (currentPreset included s.irm, false) else explicitPreset included targetV targetH kv kh s
        let t := s.setPreset slot (some x)
        (t, ⟨if clamped then .clamped else .ok, t.presetReply slot⟩)

/-- The write a recall of a preset asks for (R19). -/
def recallWrite (x : Preset) (speed : Byte) (s : State) : Write :=
  let v := s.lmc.v.clampTarget x.targetV
  let h := s.lmc.h.clampTarget x.targetH
  { orientation := none, kv := x.keystone.map Prod.fst, kh := x.keystone.map Prod.snd, v := some v, h := some h,
    kind := .absolute, origin := .preset, speed := (readSpeed speed).getD .slow,
    clamped := v ≠ x.targetV || h ≠ x.targetH }

/-- RECALL_PRESET (R19). -/
def execRecallPreset (p : Port) (slot speed conditional : Byte) (s : State) : Outcome :=
  takeRequest p 0x29 s <|
    judge [(1, (readSpeed speed).isSome), (2, (readFlag conditional).isSome)]
      [controlOnly p, (slotFits slot, .outOfRange), ((s.irm.preset slot).isSome, .empty)]
      State.refusedWrite
      fun s => match s.irm.preset slot with
        | some x => s.write p (readFlag conditional = some true) (recallWrite x speed s)
        | none => (s, ⟨.empty, s.refusedWrite⟩)

/-- CLEAR_PRESET (R20). -/
def execClearPreset (p : Port) (slot : Byte) (s : State) : Outcome :=
  takeRequest p 0x2A s <|
    judge [] [controlOnly p, (slotFits slot, .outOfRange)] (fun _ => []) fun s => (s.setPreset slot none, ⟨.ok, []⟩)

end Sys2Proof.Machine
end

