-- ==== Sys2Proof/Machine/LensCommands.lean ====
section
/-! DEFINITION. The commands of the lens axes (02_lens_shift_motion.md, 03_homing_and_position_trust.md): READ_AXIS,
ABORT_MOTION, HOME, AXIS_RECOVER, the step and hold timers, the end stops, the reference mark, the driver fault. -/

namespace Sys2Proof.Machine

/-- READ_AXIS (R44). -/
def execReadAxis (p : Port) (axis : Byte) (s : State) : Outcome :=
  takeRequest p 0x04 s <|
    judge [(0, (readAxis axis).isSome)] [] (fun _ => []) fun s =>
      (s, ⟨.ok, s.axisReply ((readAxis axis).getD .v)⟩)

/-- The axes an axes field names; none of them for a code outside the list. -/
def namedAxes (axes : Byte) : Bool × Bool := (readAxes axes).getD (false, false)

/-- A condition on every named axis. -/
def eachNamed (named : Bool × Bool) (p : Axis → Bool) : Bool := (!named.1 || p .v) && (!named.2 || p .h)

/-- ABORT_MOTION (R34, R35). -/
def execAbortMotion (p : Port) (axes : Byte) (s : State) : Outcome :=
  let named := namedAxes axes
  takeRequest p 0x20 s <|
    judge [(0, (readAxes axes).isSome)] [controlOnly p] (·.abortReply named) fun s =>
      let t := s.lensEvent (onNamed named fun env x => x.beginStop env .aborted)
      (t, ⟨.ok, t.abortReply named⟩)

/-- HOME (R47, R48). -/
def execHome (p : Port) (axes : Byte) (s : State) : Outcome :=
  let named := namedAxes axes
  takeRequest p 0x21 s <|
    judge [(0, (readAxes axes).isSome)]
      [controlOnly p, (s.tmon.device ≠ .critical && s.tmon.trip.isNone, .thermalHold),
       (eachNamed named fun a => (s.axis a).motion.mode ≠ .fault, .faulted),
       (eachNamed named fun a => (s.axis a).motion.mode ≠ .homing && !(s.axis a).pendingHome, .busy)]
      (·.homeReply (false, false))
      fun s =>
        let t := s.lensEvent (onNamed named fun env x => x.home env)
        (t, ⟨.accepted, t.homeReply named⟩)

/-- AXIS_RECOVER (R61). -/
def execAxisRecover (p : Port) (axes : Byte) (s : State) : Outcome :=
  let named := namedAxes axes
  takeRequest p 0x22 s <|
    judge [(0, (readAxes axes).isSome)]
      [controlOnly p, (eachNamed named fun a => (s.axis a).motion.mode ≠ .fault || !(s.axis a).drvFlt, .faulted)]
      (·.recoverReply named)
      fun s =>
        let t :=
          { s with lmc := { v := if named.1 then s.lmc.v.recover else s.lmc.v,
                            h := if named.2 then s.lmc.h.recover else s.lmc.h } }
        (t, ⟨.ok, t.recoverReply named⟩)

/-- STEP_TIMER_EXPIRY of an axis (R32): no effect while its timer is stopped. -/
def execStepTimerExpiry (axis : Axis) (s : State) : Outcome :=
  unlessReset s fun s =>
    match (s.axis axis).stepTimer with
    | some e => (s.at_ e).axisEvent axis fun env x => x.step env
    | none => s

/-- An end-stop line changes: its level, and on activation its edge flag (R54). -/
def AxisState.endStopEdge (x : AxisState) (stop : EndStop) (active counted : Bool) : AxisState :=
  match stop with
  | .lo => { x with endLo := active, flagLo := x.flagLo || (active && counted) }
  | .hi => { x with endHi := active, flagHi := x.flagHi || (active && counted) }

/-- END_STOP_EDGE (R54): in hard reset the flags hold their reset value. -/
def execEndStopEdge (axis : Axis) (stop : EndStop) (active : Bool) (s : State) : Outcome :=
  .next (s.setAxis axis ((s.axis axis).endStopEdge stop active (!s.inReset)))

/-- REF_MK_EDGE (R57): only a rising edge is checked. -/
def execRefMkEdge (axis : Axis) (rising : Bool) (s : State) : Outcome :=
  let t := s.setAxis axis { s.axis axis with refMk := rising }
  .next (if rising ∧ ¬ s.inReset then t.axisEvent axis fun env x => x.refMark env else t)

/-- DRV_FLT (R60): becoming inactive has no effect of its own. -/
def execDrvFlt (axis : Axis) (active : Bool) (s : State) : Outcome :=
  let t := s.setAxis axis { s.axis axis with drvFlt := active }
  .next (if active ∧ ¬ s.inReset then t.axisEvent axis fun env x => x.driverFault env else t)

/-- HOLD_TIMER_EXPIRY of an axis (R40): no effect while its timer is stopped. -/
def execHoldTimerExpiry (axis : Axis) (s : State) : Outcome :=
  unlessReset s fun s =>
    match (s.axis axis).holdTimer with
    | some e => (s.at_ e).setAxis axis (s.axis axis).holdExpired
    | none => s

end Sys2Proof.Machine
end

