-- ==== Sys2Proof/Machine/LightCommands.lean ====
section
/-! DEFINITION. The commands of the Light Allowance Unit (08_light_allowance_and_the_light_session.md): READ_LIGHT, LIGHT_ON,
LIGHT_OFF, SET_LIGHT_MODE, CLEAR_LIGHT_FAULT, the light-driver lines, the ignition, cool-down and slew timers. -/

namespace Sys2Proof.Machine

/-- READ_LIGHT (R162). -/
def execReadLight (p : Port) (s : State) : Outcome := takeRequest p 0x06 s fun s => (s, ⟨.ok, s.lightReply⟩)

/-- What a LIGHT_ON in STANDBY meets: the status of lines 4 to 7 of R143 with the reason of a FAULTED refusal, or none when all
is clear. -/
def Lau.lightOnRefusal (l : Lau) : Option (Status × Option Nat) :=
  match l.fault with
  | some x => some (.faulted, some (faultReasonCode x.reason))
  | none =>
    if l.lightFlt then some (.faulted, some lineReasonCode)
    else if !l.held.ready then some (.notReady, none)
    else if l.held.device.isHot then some (.thermalHold, none)
    else none

/-- The lines of R143. -/
def State.lightOn (s : State) : State × Answer :=
  match s.lau.session with
  | .tripped => (s, ⟨.tripped, s.lightOnReply none⟩)
  | .ignition | .lit => (s, ⟨.ok, s.lightOnReply none⟩)
  | .cooldown => (s, ⟨.cooling, s.lightOnReply none⟩)
  | .standby =>
    match s.lau.lightOnRefusal with
    | some (status, reason) => (s, ⟨status, s.lightOnReply reason⟩)
    | none =>
      let t := s.enterSession .ignition .lightOn
      (t, ⟨.accepted, t.lightOnReply none⟩)

/-- LIGHT_ON (R143, R144). -/
def execLightOn (p : Port) (s : State) : Outcome :=
  takeRequest p 0x30 s <| judge [] [controlOnly p] (·.lightOnReply none) State.lightOn

/-- LIGHT_OFF (R147). -/
def execLightOff (p : Port) (s : State) : Outcome :=
  takeRequest p 0x31 s <|
    judge [] [controlOnly p] State.lightOffReply fun s =>
      let t := if s.lau.session.lightEn then s.enterCooldown .lightOff else s
      (t, ⟨.ok, t.lightOffReply⟩)

/-- SET_LIGHT_MODE (R151). -/
def execSetLightMode (p : Port) (mode : Byte) (s : State) : Outcome :=
  takeRequest p 0x32 s <|
    judge [(0, (readMode mode).isSome)] [controlOnly p] State.lightModeReply fun s =>
      let t := State.lauForm { s with lau := { s.lau with mode := (readMode mode).getD .normal } }
      (t, ⟨.ok, t.lightModeReply⟩)

/-- CLEAR_LIGHT_FAULT (R146). -/
def execClearLightFault (p : Port) (s : State) : Outcome :=
  takeRequest p 0x34 s <|
    judge [] [controlOnly p, (!s.lau.lightFlt, .faulted)] State.faultReply fun s =>
      let t := { s with lau := { s.lau with fault := none } }
      (t, ⟨.ok, t.faultReply⟩)

/-- LIGHT_OK_RISE (R144, R145). -/
def execLightOkRise (time : Nat) (s : State) : Outcome :=
  let s := { s with lau := { s.lau with lightOk := true } }
  unlessReset s fun s =>
    let s := s.at_ time
    if s.lau.session = .ignition then s.enterSession .lit .lightOk else s

/-- LIGHT_OK_FALL (R145). -/
def execLightOkFall (time : Nat) (s : State) : Outcome :=
  let s := { s with lau := { s.lau with lightOk := false } }
  unlessReset s fun s =>
    let s := s.at_ time
    if s.lau.session = .lit then s.lightFault .noLight else s

/-- LIGHT_FLT (R145). -/
def execLightFlt (active : Bool) (time : Nat) (s : State) : Outcome :=
  let s := { s with lau := { s.lau with lightFlt := active } }
  unlessReset s fun s =>
    let s := s.at_ time
    if active ∧ s.lau.session.lightEn then s.lightFault .driver else s

/-- IGNITION_TIMER_EXPIRY (R144): no effect while the timer is stopped. -/
def execIgnitionTimerExpiry (s : State) : Outcome :=
  unlessReset s fun s =>
    match s.lau.ignition with
    | some e => (s.at_ e).lightFault .noLight
    | none => s

/-- COOLDOWN_MIN_EXPIRY (R148, R149): no effect while the timer does not run. -/
def execCooldownMinExpiry (s : State) : Outcome :=
  unlessReset s fun s =>
    match s.lau.coolMin with
    | .running e =>
      let s := s.at_ e
      State.checkCooled { s with lau := { s.lau with coolMin := .elapsed } }
    | .stopped | .elapsed => s

/-- COOL_MAX (R149): no effect while the timer is stopped. -/
def execCoolMax (s : State) : Outcome :=
  unlessReset s fun s =>
    match s.lau.coolMax with
    | some e => (s.at_ e).enterSession .standby .coolMax
    | none => s

/-- SLEW_TIMER_EXPIRY (R160): no effect while the timer is stopped. -/
def execSlewTimerExpiry (s : State) : Outcome :=
  unlessReset s fun s =>
    match s.lau.slew with
    | some e =>
      let s := s.at_ e
      { s with lau := s.lau.slewStep s.now }
    | none => s

end Sys2Proof.Machine
end

