-- ==== Sys2Proof/Machine/ParamCommands.lean ====
section
/-! DEFINITION. SET_PARAM, for axis parameters (R22) and for the others (R192), and GET_PARAM (R193). The two rows of SET_PARAM
are one request kind on the wire (R196); each answers any parameter code (notes/assumptions/28.md). -/

namespace Sys2Proof.Machine

/-- The value a parameter holds. -/
def State.paramValue (s : State) : ParamName → Int
  | .axis a p => (s.axis a).params.value p
  | .block p => s.blockValue p

/-- The least and greatest values of a parameter (R193). -/
def State.paramRange (s : State) : ParamName → Int × Int
  | .axis a p => (s.axis a).params.range p
  | .block p => p.range

/-- The default of a parameter. -/
def paramDefault : ParamName → Int
  | .axis a p => (AxisParams.default a).value p
  | .block p => p.default

/-- The checks of a SET_PARAM after its encodings (R22, R192). -/
def State.paramChecks (s : State) (n : ParamName) (value : Int) : List (Bool × Status) :=
  match n with
  | .axis a p =>
    let x := s.axis a
    [(within value (x.params.range p), .outOfRange),
     ((x.params.replace p value).consistent x.trust x.position, .outOfRange),
     (x.motion.mode = .idle && x.queue.isEmpty, .busy)]
  | .block p => [(p.admits value, .outOfRange)]

/-- What an accepted value of a parameter of R192 starts at once. -/
def State.paramEffect (s : State) : BlockParam → State
  | .flim => s.recompute
  | .lLapse | .lIgn | .lStall | .lCrit | .lAcFloor | .acStep => s.lauForm
  | .tCool => s.checkCooled
  | .quietCap _ | .coolDuty _ => s.selectFans
  | .q | .lapseWindow | .slew | .ignTimeout | .coolMin | .coolMax | .dwell | .startDuty | .glitch => s

/-- A parameter takes a value. -/
def State.setParam (s : State) (n : ParamName) (value : Int) : State :=
  match n with
  | .axis a p => s.setAxis a { s.axis a with params := (s.axis a).params.replace p value }
  | .block p => (s.storeBlock p value).paramEffect p

/-- A SET_PARAM (R22, R192, R169). -/
def setParameter (p : Port) (param index : Byte) (value : Word32) (s : State) : State × Answer :=
  match paramOf param index with
  | .error offset => (s, badRequest .field offset)
  | .ok n =>
    judge [] (controlOnly p :: s.paramChecks n value.toInt) (fun s => s32 (s.paramValue n))
      (fun s =>
        let t := s.setParam n value.toInt
        (t, ⟨.ok, s32 (t.paramValue n)⟩)) s

/-- SET_PARAM of an axis parameter (R22). -/
def execSetParamAxis (p : Port) (param index : Byte) (value : Word32) (s : State) : Outcome :=
  takeRequest p 0x40 s (setParameter p param index value)

/-- SET_PARAM of a parameter of R192. -/
def execSetParam (p : Port) (param index : Byte) (value : Word32) (s : State) : Outcome :=
  takeRequest p 0x40 s (setParameter p param index value)

/-- The payload of GET_PARAM: value, least, greatest, default (R193). -/
def State.paramReply (s : State) (n : ParamName) : List Byte :=
  s32 (s.paramValue n) ++ s32 (s.paramRange n).1 ++ s32 (s.paramRange n).2 ++ s32 (paramDefault n)

/-- GET_PARAM (R193). -/
def execGetParam (p : Port) (param index : Byte) (s : State) : Outcome :=
  takeRequest p 0x41 s fun s =>
    match paramOf param index with
    | .error offset => (s, badRequest .field offset)
    | .ok n => judge [] [controlOnly p] (·.paramReply n) (fun s => (s, ⟨.ok, s.paramReply n⟩)) s

end Sys2Proof.Machine
end

