-- ==== Sys2Proof/Machine/PortCommands.lean ====
section
/-! DEFINITION. The commands of the ports and the resets (09_ports_requests_and_events.md): GET_EVENTS, SET_EVENT_MASK, RESTART,
the formation of a response, hard reset and its end. -/

namespace Sys2Proof.Machine

/-- GET_EVENTS (R176). -/
def execGetEvents (p : Port) (s : State) : Outcome :=
  takeRequest p 0x09 s fun s => (s.setPort p { s.port p with events := [] }, ⟨.ok, (s.port p).eventsReply⟩)

/-- The kinds a request's mask enables (R202). -/
def maskBits (mask : BitVec 24) : BitVec 18 := mask.setWidth 18

/-- SET_EVENT_MASK (R177): bits 18 to 23 name no kind. -/
def execSetEventMask (p : Port) (mask : BitVec 24) (s : State) : Outcome :=
  takeRequest p 0x0A s <|
    judge [(2, mask.toNat < 2 ^ 18)] [] (fun _ => []) fun s =>
      let x := { s.port p with mask := maskBits mask }
      (s.setPort p x, ⟨.ok, x.maskReply⟩)

/-- The steps of RESTART, in their order (R178). -/
def State.restart (s : State) : State :=
  let s := { s with cpi := { s.cpi with port := { s.cpi.port with events := [] }, load := none },
                    fpi := { s.fpi with port := { s.fpi.port with events := [], slot := .empty } },
                    irm := { s.irm with reserveControl := none, reserveFrame := none } }
  let s := s.restartHalt.1
  (s.partChange (some s.lmc.v.position) (some s.lmc.h.position)).recompute

/-- RESTART (R178). -/
def execRestart (p : Port) (s : State) : Outcome :=
  takeRequest p 0x7F s <|
    judge [] [controlOnly p] State.restartReply fun s =>
      let t := s.restart
      (t, ⟨.ok, t.restartReply⟩)

/-- The response of a PENDING slot is formed, with the event summary of this moment (R168, R194). -/
def PortState.form (x : PortState) : PortState :=
  match x.slot with
  | .pending kind status body => { x with slot := .full kind status (x.summary :: body) }
  | .empty | .full .. => x

/-- RESPONSE_FORMED (R167): no effect on a slot that is not PENDING. -/
def execResponseFormed (p : Port) (s : State) : Outcome := unlessReset s fun s => s.setPort p (s.port p).form

/-- Whether a RESET_N low time resets the part (R180): between 1 and 2 microseconds a free value decides. -/
def State.resets (s : State) : Option Nat → Bool
  | none => true
  | some ns => 2000 ≤ ns || (1000 ≤ ns && Config.shortPulseResets s.resetPulses)

/-- A pulse is one of those whose effect is open (R180). -/
def openPulse : Option Nat → Bool
  | none => false
  | some ns => 1000 ≤ ns && ns < 2000

/-- An axis at hard reset: its reset values, beside the levels of its input lines. -/
def AxisState.hardReset (a : Axis) (x : AxisState) : AxisState :=
  { AxisState.reset a with endLo := x.endLo, endHi := x.endHi, drvFlt := x.drvFlt, refMk := x.refMk,
                           freeCount := x.freeCount }

/-- Hard reset begins (R180): every block takes its hard-reset values. The Control Port address stands until CP_ASEL is sampled at
the end (R164; notes/assumptions/48.md). -/
def State.hardReset (s : State) : State :=
  { now := s.now, inReset := true, resetPulses := s.resetPulses, cpi := { Cpi.reset false with address := s.cpi.address },
    fpi := .reset, irm := .reset, lmc := { v := s.lmc.v.hardReset .v, h := s.lmc.h.hardReset .h }, ge := .reset,
    fmon := .reset, tmon := .reset, afc := .reset,
    lau := { Lau.reset with lightOk := s.lau.lightOk, lightFlt := s.lau.lightFlt }, pending := s.pending }

/-- HARD_RESET (R180). -/
def execHardReset (lowNs : Option Nat) (s : State) : Outcome :=
  let t := if s.resets lowNs then s.hardReset else s
  .next (if openPulse lowNs then { t with resetPulses := s.resetPulses + 1 } else t)

/-- The end of hard reset (R180, R181): CP_ASEL is sampled, a transaction under way on a port is marked, axes with an active
DRV_FLT enter FAULT, the first scan starts. -/
def State.endReset (s : State) (ports : PortsFound) (bus : BusSample) : State :=
  let s := { s with inReset := false, cpi := .reset ports.cpAsel }
  let s := (s.setCrossing .control ports.controlBusy).setCrossing .frame ports.frameBusy
  let s := s.lensEvent fun _ env x => if x.drvFlt then x.driverFault env else { axis := x }
  s.startScan bus

/-- HARD_RESET_END (R180): no effect outside hard reset. -/
def execHardResetEnd (ports : PortsFound) (bus : BusSample) (s : State) : Outcome :=
  .next (if s.inReset then s.endReset ports bus else s)

end Sys2Proof.Machine
end

