-- ==== Sys2Proof/WellFormed.lean ====
section
/-! DEFINITION. The operands with which each row of the opcode table can arise: what the row's name and the frame checks of
R166 already say of a command. Field encodings are not checked here: a request with a bad field is a command like any
other, and its own meaning answers it (R169). -/

namespace Sys2Proof

/-- R184: a LOAD_SEGMENT carries 1 to 56 data bytes. -/
def segmentFits (data : List Byte) : Bool := 1 ≤ data.length && data.length ≤ 56

/-- R166: the frame of a malformed request fails a frame check. -/
def isMalformed (p : Port) (bytes : List Byte) : Bool :=
  match readFrame p bytes with
  | .malformed _ _ => true
  | .nothing | .request _ => false

/-- R100: a recovery drives at most nine pulses. -/
def sampleFits (bus : BusSample) : Bool := bus.freedAfter.all fun n => 1 ≤ n && n ≤ 9

/-- R98, R99: a transaction that times out has not made its eighth part. -/
def timeoutFits (x : TimedOut) : Bool := x.parts ≤ 7

/-- A command whose operands are those its row can have. -/
def WellFormed : Instr → Bool
  | .setParamAxis _ param _ _ => isAxisParam param
  | .setParam _ param _ _ => !isAxisParam param
  | .loadSegment _ _ data => segmentFits data
  | .malformedRequest p bytes => isMalformed p bytes
  | .hardResetEnd _ bus => sampleFits bus
  | .scanStart bus => sampleFits bus
  | .slotReadDone _ bus => sampleFits bus
  | .probeBusTimeout timedOut => timeoutFits timedOut && sampleFits timedOut.bus
  | .readInstall .. | .writeInstall .. | .jog .. | .readAxis .. | .readThermal .. | .readLight .. | .readWarp ..
  | .readPreset .. | .getEvents .. | .setEventMask .. | .attach .. | .detach .. | .lightRequest .. | .abortMotion ..
  | .home .. | .axisRecover .. | .storePreset .. | .recallPreset .. | .clearPreset .. | .lightOn .. | .lightOff ..
  | .setLightMode .. | .setQuiet .. | .clearLightFault .. | .getParam .. | .beginLoad .. | .endLoad .. | .readTable ..
  | .restart .. | .responseFormed .. | .hardReset .. | .fmark .. | .lapseWindowExpiry | .stepTimerExpiry ..
  | .endStopEdge .. | .refMkEdge .. | .drvFlt .. | .holdTimerExpiry .. | .computationComplete | .criticalDwellExpiry
  | .kickExpiry .. | .tachEdgeAccepted .. | .graceTimerExpiry .. | .edgeTimerExpiry .. | .lightOkRise .. | .lightOkFall ..
  | .lightFlt .. | .ignitionTimerExpiry | .cooldownMinExpiry | .coolMax | .slewTimerExpiry => true

end Sys2Proof
end

