-- ==== Sys2Proof/Machine/TableCommands.lean ====
section
/-! DEFINITION. The segmented load and READ_TABLE (R183 to R187). -/

namespace Sys2Proof.Machine

/-- The CPI's load takes a value. -/
def State.setLoad (s : State) (l : Option Load) : State := { s with cpi := { s.cpi with load := l } }

/-- The payload of BEGIN_LOAD (R203). -/
def beginReply (table : Byte) (total : Word16) (abandoned : Option Table) : List Byte :=
  [table] ++ le16 total ++ opt8 (abandoned.map tableCode)

/-- BEGIN_LOAD (R183). -/
def execBeginLoad (p : Port) (table : Byte) (total : Word16) (s : State) : Outcome :=
  let t := (readTableCode table).getD .keystone
  takeRequest p 0x48 s <|
    judge [(0, (readTableCode table).isSome)] [controlOnly p, (total.toNat = t.length, .outOfRange)]
      (fun _ => beginReply table total none)
      fun s =>
        (s.setLoad (some { table := t, total := t.length, received := 0, image := [], firstError := none }),
         ⟨.ok, beginReply table total (s.cpi.load.map Load.table)⟩)

/-- LOAD_SEGMENT (R184): with no data byte, or more than 56, it is a LENGTH fault. -/
def execLoadSegment (p : Port) (offset : Word16) (data : List Byte) (s : State) : Outcome :=
  takeRequest p 0x49 s fun s =>
    if segmentFits data then
      judge [] [controlOnly p, (s.cpi.load.isSome, .noLoad)] (fun s => loadReply s.cpi.load)
        (fun s =>
          let l := s.cpi.load.map fun l => l.segment offset.toNat data
          (s.setLoad l, ⟨.accepted, loadReply l⟩)) s
    else (s, badRequest .length 0)

/-- A table is installed, with its recompute trigger if it is KEYSTONE (R185, R83). -/
def State.install (s : State) (l : Load) : State :=
  (s.installTable l.table l.image).recomputeIf (l.table = .keystone)

/-- END_LOAD (R185). -/
def execEndLoad (p : Port) (s : State) : Outcome :=
  takeRequest p 0x4A s <|
    judge [] [controlOnly p, (s.cpi.load.isSome, .noLoad)]
      (fun s => s.endReply (s.cpi.load.map Load.table) none)
      fun s =>
        match s.cpi.load with
        | none => (s, ⟨.noLoad, s.endReply none none⟩)
        | some l =>
          match l.report with
          | some r => (s.setLoad none, ⟨.tableInvalid, s.endReply (some l.table) (some r)⟩)
          | none =>
            let t := (s.setLoad none).install l
            (t, ⟨.ok, t.endReply (some l.table) none⟩)

/-- READ_TABLE (R187). -/
def execReadTable (p : Port) (table : Byte) (offset : Word16) (s : State) : Outcome :=
  let t := (readTableCode table).getD .keystone
  takeRequest p 0x4B s <|
    judge [(0, (readTableCode table).isSome)] [controlOnly p, (offset.toNat < t.length, .outOfRange)]
      (·.tableReply t offset) fun s => (s, ⟨.ok, s.tableReply t offset⟩)

end Sys2Proof.Machine
end

