-- ==== Sys2Proof/Machine/ThermalCommands.lean ====
section
/-! DEFINITION. The commands of the Thermal Monitor (06_temperature_sensing_and_thermal_state.md): READ_THERMAL, the start of a
scan, the end of a slot's read, the critical dwell. -/

namespace Sys2Proof.Machine

/-- READ_THERMAL (R117, R139). -/
def execReadThermal (p : Port) (s : State) : Outcome := takeRequest p 0x05 s fun s => (s, ⟨.ok, s.thermalReply⟩)

/-- SCAN_START (R103). -/
def execScanStart (bus : BusSample) (s : State) : Outcome :=
  unlessReset s fun s => (s.at_ (s.tmon.nextScan.getD s.now)).startScan bus

/-- SLOT_READ_DONE (R99, R101, R104). -/
def execSlotReadDone (result : ReadResult) (bus : BusSample) (s : State) : Outcome :=
  unlessReset s fun s => s.finishSlot (readOutcome · result) bus

/-- PROBE_BUS_TIMEOUT (R99, R104): how many parts the transaction had made matters to what it drove alone. -/
def execProbeBusTimeout (timedOut : TimedOut) (s : State) : Outcome :=
  unlessReset s fun s => s.finishSlot (fun _ => .error .timeout) timedOut.bus

/-- The zone a DWELL trip names: the source of the CRITICAL state, or FANS (R113). -/
def Tmon.dwellZone (t : Tmon) : Source :=
  match t.sourceOf .critical with
  | .zone z => .zone z
  | .fans | .none => .fans

/-- CRITICAL_DWELL_EXPIRY (R112, R113): no effect while the dwell timer is stopped. -/
def execCriticalDwellExpiry (s : State) : Outcome :=
  unlessReset s fun s =>
    match s.tmon.dwell with
    | some e => (s.at_ e).declareTrip .dwell s.tmon.dwellZone
    | none => s

end Sys2Proof.Machine
end

