-- ==== Sys2Proof/Machine/Requests.lean ====
section
/-! DEFINITION. MALFORMED_REQUEST (R166): the bytes of a frame judged by the port that takes it. -/

namespace Sys2Proof.Machine

/-- A request read from a frame, taken as the command it is; a command that no frame carries does nothing. -/
def takeParsed (i : Instr) (s : State) : Outcome :=
  match i with
  | .readInstall p reserve => execReadInstall p reserve s
  | .writeInstall p presence orientation kv kh tV tH speed conditional =>
    execWriteInstall p presence orientation kv kh tV tH speed conditional s
  | .jog p axis delta speed conditional => execJog p axis delta speed conditional s
  | .readAxis p axis => execReadAxis p axis s
  | .readThermal p => execReadThermal p s
  | .readLight p => execReadLight p s
  | .readWarp p => execReadWarp p s
  | .readPreset p slot => execReadPreset p slot s
  | .getEvents p => execGetEvents p s
  | .setEventMask p mask => execSetEventMask p mask s
  | .attach p width height => execAttach p width height s
  | .detach p => execDetach p s
  | .lightRequest p level => execLightRequest p level s
  | .abortMotion p axes => execAbortMotion p axes s
  | .home p axes => execHome p axes s
  | .axisRecover p axes => execAxisRecover p axes s
  | .storePreset p slot source included tV tH kv kh => execStorePreset p slot source included tV tH kv kh s
  | .recallPreset p slot speed conditional => execRecallPreset p slot speed conditional s
  | .clearPreset p slot => execClearPreset p slot s
  | .lightOn p => execLightOn p s
  | .lightOff p => execLightOff p s
  | .setLightMode p mode => execSetLightMode p mode s
  | .setQuiet p quiet => execSetQuiet p quiet s
  | .clearLightFault p => execClearLightFault p s
  | .setParamAxis p param index value => execSetParamAxis p param index value s
  | .setParam p param index value => execSetParam p param index value s
  | .getParam p param index => execGetParam p param index s
  | .beginLoad p table total => execBeginLoad p table total s
  | .loadSegment p offset data => execLoadSegment p offset data s
  | .endLoad p => execEndLoad p s
  | .readTable p table offset => execReadTable p table offset s
  | .restart p => execRestart p s
  | .malformedRequest .. | .responseFormed .. | .hardReset .. | .hardResetEnd .. | .fmark .. | .lapseWindowExpiry
  | .stepTimerExpiry .. | .endStopEdge .. | .refMkEdge .. | .drvFlt .. | .holdTimerExpiry .. | .computationComplete
  | .scanStart .. | .slotReadDone .. | .probeBusTimeout .. | .criticalDwellExpiry | .kickExpiry .. | .tachEdgeAccepted ..
  | .graceTimerExpiry .. | .edgeTimerExpiry .. | .lightOkRise .. | .lightOkFall .. | .lightFlt .. | .ignitionTimerExpiry
  | .cooldownMinExpiry | .coolMax | .slewTimerExpiry => .next s

/-- A frame arrives on a port (R164 to R166): a malformed one is answered BAD_REQUEST, with the kind byte as received. -/
def takeFrame (p : Port) (bytes : List Byte) (s : State) : Outcome :=
  match readFrame p bytes with
  | .nothing => .next s
  | .malformed kind cause => takeRequest p kind s fun s => (s, badRequest cause 0)
  | .request i => takeParsed i s

/-- MALFORMED_REQUEST (R166). Bytes that fail no frame check are the request they carry (notes/assumptions/27.md). -/
def execMalformedRequest (p : Port) (bytes : List Byte) (s : State) : Outcome := takeFrame p bytes s

end Sys2Proof.Machine
end

