-- ==== Sys2Proof/Machine/Dispatch.lean ====
section
/-! DEFINITION. The dispatch: one arm for each row of spec/opcode_table.json, each one call of its meaning. -/

namespace Sys2Proof.Machine

def exec (i : Instr) (s : State) : Host.Outcome State Fault Refusal :=
  match i with
  | .readInstall port reserve => Sys2Proof.Machine.execReadInstall port reserve s
  | .writeInstall port presence orientation kv kh targetV targetH speed conditional => Sys2Proof.Machine.execWriteInstall port presence orientation kv kh targetV targetH speed conditional s
  | .jog port axis delta speed conditional => Sys2Proof.Machine.execJog port axis delta speed conditional s
  | .readAxis port axis => Sys2Proof.Machine.execReadAxis port axis s
  | .readThermal port => Sys2Proof.Machine.execReadThermal port s
  | .readLight port => Sys2Proof.Machine.execReadLight port s
  | .readWarp port => Sys2Proof.Machine.execReadWarp port s
  | .readPreset port slot => Sys2Proof.Machine.execReadPreset port slot s
  | .getEvents port => Sys2Proof.Machine.execGetEvents port s
  | .setEventMask port mask => Sys2Proof.Machine.execSetEventMask port mask s
  | .attach port width height => Sys2Proof.Machine.execAttach port width height s
  | .detach port => Sys2Proof.Machine.execDetach port s
  | .lightRequest port level => Sys2Proof.Machine.execLightRequest port level s
  | .abortMotion port axes => Sys2Proof.Machine.execAbortMotion port axes s
  | .home port axes => Sys2Proof.Machine.execHome port axes s
  | .axisRecover port axes => Sys2Proof.Machine.execAxisRecover port axes s
  | .storePreset port slot source includeKeystone targetV targetH kv kh => Sys2Proof.Machine.execStorePreset port slot source includeKeystone targetV targetH kv kh s
  | .recallPreset port slot speed conditional => Sys2Proof.Machine.execRecallPreset port slot speed conditional s
  | .clearPreset port slot => Sys2Proof.Machine.execClearPreset port slot s
  | .lightOn port => Sys2Proof.Machine.execLightOn port s
  | .lightOff port => Sys2Proof.Machine.execLightOff port s
  | .setLightMode port mode => Sys2Proof.Machine.execSetLightMode port mode s
  | .setQuiet port quiet => Sys2Proof.Machine.execSetQuiet port quiet s
  | .clearLightFault port => Sys2Proof.Machine.execClearLightFault port s
  | .setParamAxis port param index value => Sys2Proof.Machine.execSetParamAxis port param index value s
  | .setParam port param index value => Sys2Proof.Machine.execSetParam port param index value s
  | .getParam port param index => Sys2Proof.Machine.execGetParam port param index s
  | .beginLoad port table total => Sys2Proof.Machine.execBeginLoad port table total s
  | .loadSegment port offset data => Sys2Proof.Machine.execLoadSegment port offset data s
  | .endLoad port => Sys2Proof.Machine.execEndLoad port s
  | .readTable port table offset => Sys2Proof.Machine.execReadTable port table offset s
  | .restart port => Sys2Proof.Machine.execRestart port s
  | .malformedRequest port bytes => Sys2Proof.Machine.execMalformedRequest port bytes s
  | .responseFormed port => Sys2Proof.Machine.execResponseFormed port s
  | .hardReset lowNs => Sys2Proof.Machine.execHardReset lowNs s
  | .hardResetEnd ports bus => Sys2Proof.Machine.execHardResetEnd ports bus s
  | .fmark time => Sys2Proof.Machine.execFmark time s
  | .lapseWindowExpiry => Sys2Proof.Machine.execLapseWindowExpiry s
  | .stepTimerExpiry axis => Sys2Proof.Machine.execStepTimerExpiry axis s
  | .endStopEdge axis stop active => Sys2Proof.Machine.execEndStopEdge axis stop active s
  | .refMkEdge axis rising => Sys2Proof.Machine.execRefMkEdge axis rising s
  | .drvFlt axis active => Sys2Proof.Machine.execDrvFlt axis active s
  | .holdTimerExpiry axis => Sys2Proof.Machine.execHoldTimerExpiry axis s
  | .computationComplete => Sys2Proof.Machine.execComputationComplete s
  | .scanStart bus => Sys2Proof.Machine.execScanStart bus s
  | .slotReadDone result bus => Sys2Proof.Machine.execSlotReadDone result bus s
  | .probeBusTimeout timedOut => Sys2Proof.Machine.execProbeBusTimeout timedOut s
  | .criticalDwellExpiry => Sys2Proof.Machine.execCriticalDwellExpiry s
  | .kickExpiry fan => Sys2Proof.Machine.execKickExpiry fan s
  | .tachEdgeAccepted fan fall low => Sys2Proof.Machine.execTachEdgeAccepted fan fall low s
  | .graceTimerExpiry fan => Sys2Proof.Machine.execGraceTimerExpiry fan s
  | .edgeTimerExpiry fan => Sys2Proof.Machine.execEdgeTimerExpiry fan s
  | .lightOkRise time => Sys2Proof.Machine.execLightOkRise time s
  | .lightOkFall time => Sys2Proof.Machine.execLightOkFall time s
  | .lightFlt active time => Sys2Proof.Machine.execLightFlt active time s
  | .ignitionTimerExpiry => Sys2Proof.Machine.execIgnitionTimerExpiry s
  | .cooldownMinExpiry => Sys2Proof.Machine.execCooldownMinExpiry s
  | .coolMax => Sys2Proof.Machine.execCoolMax s
  | .slewTimerExpiry => Sys2Proof.Machine.execSlewTimerExpiry s

end Sys2Proof.Machine
end

