-- ==== Sys2Proof/Machine/Outputs.lean ====
section
/-! DEFINITION. The part's outputs, as functions of the state: the attention lines (R175), the coil outputs (R39), the fan PWM
duties (R120), LIGHT_EN and LIGHT_PWM (R161). -/

namespace Sys2Proof.Machine

/-- ATTN_C or ATTN_F is asserted. -/
def State.attention (s : State) (p : Port) : Bool := !s.inReset && (s.port p).attention

/-- The outputs of one coil: its phase line, and its level out of 255. -/
structure CoilOutput where
  phaseHigh : Bool
  level : Nat
  deriving DecidableEq, Repr

/-- The output of a coil value at a current level. -/
def Coil.output (c : Coil) (i : Nat) : CoilOutput := ⟨c.positive, c.level i⟩

/-- The level I of an axis (R40). -/
def State.coilLevel (s : State) (a : Axis) : Nat := currentLevel a s.irm.orientation (s.axis a)

/-- The outputs of coils A and B of an axis (R39). -/
def State.coils (s : State) (a : Axis) : CoilOutput × CoilOutput :=
  ((coilA (s.axis a).index).output (s.coilLevel a), (coilB (s.axis a).index).output (s.coilLevel a))

/-- The 64ths of each period for which a fan's PWM line is high (R120). -/
def State.fanDuty (s : State) (f : Fan) : Nat := (s.afc.fans.get f).output

/-- LIGHT_EN is active (R161). -/
def State.lightEnable (s : State) : Bool := s.lau.session.lightEn

/-- The 16384ths of each period for which LIGHT_PWM is high (R161). -/
def State.lightPwm (s : State) : Nat := if s.lightEnable then s.lau.drive else 0

end Sys2Proof.Machine
end

