-- ==== Sys2Proof/Machine/Ports.lean ====
section
/-! DEFINITION. What a port transaction carries (R164, R165, R168, R194): the frame of a write, the copy of a read. A whole
transaction that carries a request is one of the commands; the functions here say what the port drives at each moment of a
transaction, from the states the part has stood in since it began. -/

namespace Sys2Proof.Machine

/-- The response frame that a copy of a slot gives (R168, R194). -/
def Slot.frame : Slot → List Byte
  | .empty => u8 (statusCode .notReady) ++ [0, 0]
  | .pending kind _ _ => u8 (statusCode .notReady) ++ [kind, 0]
  | .full kind status payload => u8 (statusCode status) ++ [kind] ++ u8 payload.length ++ payload

/-- The bytes a read transaction delivers, n of them: the copy, then 0x00 (R164, R165). -/
def readOut (x : Slot) (n : Nat) : List Byte := (padTo n x.frame).take n

/-- The Control Port acknowledges its own address, but not in hard reset (R164, R180). -/
def State.acknowledges (s : State) (address : BitVec 7) : Bool := !s.inReset && address = s.cpi.address

/-- A state of the part during a transaction, and the bits clocked while it stands: FP_SDI at each rise of FP_SCK, or CP_SDA at
each rise of CP_SCL, of the clocks that end, by a fall, in this state (R164, R165). -/
structure Stretch where
  state : State
  clocked : List Bool
  deriving DecidableEq, Repr

/-- A port transaction up to some moment: every state the part has stood in since it began, oldest first. It begins at a START or
a fall of FP_CS_N, and the last stretch is the present one. -/
abbrev Transaction := List Stretch

/-- The bits clocked so far, oldest first. -/
def Transaction.bits (t : Transaction) : List Bool := t.flatMap (·.clocked)

/-- The part has been in hard reset at some moment of the transaction: it began in hard reset, or hard reset began within it. -/
def Transaction.lost (t : Transaction) : Bool := t.any (·.state.inReset)

/-- The state in which the clock with an index ended, counted from 0; none while it has not. -/
def Transaction.stateAt : Transaction → Nat → Option State
  | [], _ => none
  | x :: rest, n => if n < x.clocked.length then some x.state else Transaction.stateAt rest (n - x.clocked.length)

/-- The byte that the first eight clocks carry, most significant bit first (R164, R165). -/
def Transaction.firstByte (t : Transaction) : Byte := BitVec.ofNat 8 ((t.bits.take 8).foldl (fun n b => 2 * n + b.toNat) 0)

/-- Bit n of the bytes sent from a copy of a slot, each most significant bit first (R164, R165). -/
def Slot.sends (x : Slot) (n : Nat) : Bool := ((readOut x (n / 8 + 1)).getD (n / 8) 0).getMsbD (n % 8)

/-- The system controller has acknowledged each of the first n bytes of a read transaction (R164): CP_SDA was low in the ninth
clock of each. -/
def Transaction.acknowledged (t : Transaction) (n : Nat) : Bool := (List.range n).all fun i => !t.bits.getD (17 + 9 * i) true

/-- Whether the Control Port holds CP_SDA low at a moment, given the transaction up to it; none between transactions. Nine clocks
carry a byte and its acknowledgement. The port acknowledges its own address and the data bytes of a write, and sends in a read
the copy of its slot as it stands in the clock that acknowledges the address (R164). Hard reset releases the line at once and
holds it released (R180). Two points are the model's: the line stays released to the end of a transaction in which the part was
in hard reset, though hard reset has ended (notes/assumptions/47.md), and behind a byte that the system controller did not
acknowledge (notes/assumptions/51.md). -/
def cpSda : Option Transaction → Bool
  | none => false
  | some t =>
    let k := t.bits.length
    if t.lost then false
    else
      match t.stateAt 7 with
      | none => false
      | some s =>
        if !s.acknowledges (t.firstByte.extractLsb' 1 7) then false
        else if k = 8 then true
        else if t.firstByte.getLsbD 0 then
          k % 9 < 8 && t.acknowledged (k / 9 - 1) &&
            (t.stateAt 8).any fun c => !c.cpi.port.slot.sends (8 * (k / 9 - 1) + k % 9)
        else k % 9 = 8

/-- A Control Port write transaction with the whole bytes delivered, those of a broken one included. -/
def State.controlWrite (s : State) (address : BitVec 7) (bytes : List Byte) : Outcome :=
  if s.acknowledges address then takeFrame .control bytes s else .next s

/-- The transaction types of the Frame Port (R194). -/
inductive FrameType | request | response | other
  deriving DecidableEq, Repr

def readFrameType (b : Byte) : FrameType := if b = 0xA1 then .request else if b = 0xA2 then .response else .other

/-- A Frame Port transaction with the whole bytes it delivered, the type byte first (R165). -/
def State.frameTransaction (s : State) : List Byte → Outcome
  | [] => .next s
  | type :: rest =>
    match readFrameType type with
    | .request => takeFrame .frame rest s
    | .response | .other => .next s

/-- The level of FP_SDO at a moment, given the transaction up to it; none between transactions, with FP_CS_N high. No level is
high impedance. A REQUEST carries 0x00 throughout; a RESPONSE carries behind its type byte the copy of the slot as it stands at
the end of that byte, so that it holds all that was taken or formed before (R165). Hard reset leaves the line high impedance at
once (R180). Three points are the model's choice: 0x00 during every type byte, before any type is known, and 0x00 in a
transaction of another type code, of which R165 says only that the rest is ignored (notes/assumptions/43.md); and high impedance
to the end of a transaction in which the part was in hard reset, though hard reset has ended (notes/assumptions/47.md). -/
def fpSdo : Option Transaction → Option Bool
  | none => none
  | some t =>
    if t.lost then none
    else
      match t.stateAt 7 with
      | none => some false
      | some s =>
        match readFrameType t.firstByte with
        | .response => some (s.fpi.port.slot.sends (t.bits.length - 8))
        | .request | .other => some false

end Sys2Proof.Machine
end

