-- ==== Sys2Proof/Machine/ProbeBus.lean ====
section
/-! DEFINITION. What the TMON drives on the Probe Bus (R98 to R100): the transaction of a slot, how a failing one ends, the
recovery of the start check, the release of both lines. These are the bus conditions and bytes in their order, without
their timing (notes/assumptions/25.md). -/

namespace Sys2Proof.Machine

/-- The direction that an address byte carries (R98). -/
inductive BusDirection | write | read
  deriving DecidableEq, Repr

/-- One thing the TMON does on the Probe Bus. Of a byte it sends it drives the eight bits and leaves PB_SDA to the target in
the ninth clock; of a data byte it clocks the eight bits, which the target drives, and drives the ninth clock alone. -/
inductive BusAct
  | start
  | address (target : Nat) (direction : BusDirection)
  | pointer (byte : Nat)
  | repeatedStart
  | dataByte (acknowledged : Bool)
  | stop
  /-- A clock pulse of a recovery (R100). -/
  | pulse
  /-- Both lines are released. -/
  | release
  deriving DecidableEq, Repr

/-- The eight parts of the transaction that reads a slot (R98). -/
def ScanSlot.parts (x : ScanSlot) : List BusAct :=
  [.start, .address x.address .write, .pointer x.pointer, .repeatedStart, .address x.address .read, .dataByte true,
   .dataByte false, .stop]

/-- The number of parts made when a transaction meets its end: all eight of a complete read, and up to the byte that was not
acknowledged of a failing one (R98, R99). -/
def partsMade : ReadResult → Nat
  | .data _ _ => 8
  | .noAckAddr => 2
  | .noAckPtr => 3
  | .noAckRead => 5

/-- What the TMON drives for a transaction that did not time out: a missing acknowledge is followed by a STOP at once; then
both lines are released (R98, R99). -/
def ScanSlot.drives (x : ScanSlot) (r : ReadResult) : List BusAct :=
  match r with
  | .data _ _ => x.parts ++ [.release]
  | .noAckAddr | .noAckPtr | .noAckRead => x.parts.take (partsMade r) ++ [.stop, .release]

/-- What the TMON drives for a transaction that times out after so many parts: both lines are released with no STOP (R99). -/
def ScanSlot.drivesUntilTimeout (x : ScanSlot) (parts : Nat) : List BusAct := x.parts.take (min parts 7) ++ [.release]

/-- What the start check drives (R100): nothing on a free bus and nothing with PB_SCL low; else the pulses up to the one that
frees PB_SDA and a STOP, or nine pulses, after which both lines are left alone. -/
def recoveryActs (b : BusSample) : List BusAct :=
  if !b.scl || b.sda then []
  else
    match b.freedAfter with
    | some n => if n ≤ 9 then List.replicate n .pulse ++ [.stop] else List.replicate 9 .pulse ++ [.release]
    | none => List.replicate 9 .pulse ++ [.release]

/-- The start check of the next transaction, when a slot is left to be read (R100, R103). -/
def nextCheck (slots : List Nat) (bus : BusSample) : List BusAct :=
  match slots with
  | [] => []
  | _ :: _ => recoveryActs bus

/-- What ends the transaction of the present slot, then the start check of the next (R99, R100); with no scan in flight
nothing is driven. -/
def Tmon.ends (t : Tmon) (bus : BusSample) (acts : ScanSlot → List BusAct) : List BusAct :=
  match t.scan with
  | none => []
  | some ⟨[], _⟩ => []
  | some ⟨n :: rest, _⟩ => acts (slotAt t.latched n) ++ nextCheck rest bus

/-- What the TMON has driven on the Probe Bus when a command is taken, since the last such command: a transaction and the
start check of the next. Hard reset releases both lines at once, without a STOP, and holds them released (R98, R180). -/
def State.probeBus (s : State) (i : Instr) : List BusAct :=
  match i with
  | .hardReset low => if s.resets low then [.release] else []
  | .hardResetEnd _ bus => if s.inReset then nextCheck (enabledSlots s.tmon.table) bus else []
  | .scanStart bus => if s.inReset then [] else nextCheck (enabledSlots s.tmon.table) bus
  | .slotReadDone r bus => if s.inReset then [] else s.tmon.ends bus (·.drives r)
  | .probeBusTimeout x => if s.inReset then [] else s.tmon.ends x.bus (·.drivesUntilTimeout x.parts)
  | .readInstall .. | .writeInstall .. | .jog .. | .readAxis .. | .readThermal .. | .readLight .. | .readWarp ..
  | .readPreset .. | .getEvents .. | .setEventMask .. | .attach .. | .detach .. | .lightRequest .. | .abortMotion ..
  | .home .. | .axisRecover .. | .storePreset .. | .recallPreset .. | .clearPreset .. | .lightOn .. | .lightOff ..
  | .setLightMode .. | .setQuiet .. | .clearLightFault .. | .setParamAxis .. | .setParam .. | .getParam .. | .beginLoad ..
  | .loadSegment .. | .endLoad .. | .readTable .. | .restart .. | .malformedRequest .. | .responseFormed .. | .fmark ..
  | .lapseWindowExpiry | .stepTimerExpiry .. | .endStopEdge .. | .refMkEdge .. | .drvFlt .. | .holdTimerExpiry ..
  | .computationComplete | .criticalDwellExpiry | .kickExpiry .. | .tachEdgeAccepted .. | .graceTimerExpiry ..
  | .edgeTimerExpiry .. | .lightOkRise .. | .lightOkFall .. | .lightFlt .. | .ignitionTimerExpiry | .cooldownMinExpiry
  | .coolMax | .slewTimerExpiry => []

end Sys2Proof.Machine
end

