-- ==== Sys2Proof/Safety.lean ====
section
/-! DEFINITION. What a safe state is: the predicates over State that the statements use. Each names the rule of spec/ whose
whole-machine sentence it puts down. -/

namespace Sys2Proof.Machine

/-- The state with a request's answer in the slot of its port (R167). -/
abbrev answered (s : State) (p : Port) (kind : Byte) (status : Status) (body : List Byte) : State :=
  s.setSlot p (.pending kind status body)

/-- The part runs: it is out of hard reset (R180). -/
abbrev Awake (s : State) : Prop := s.inReset = false

/-- The part runs, and no transaction from before the end of hard reset is under way on a port, so that the ports take
requests (R180). -/
abbrev Listens (s : State) : Prop := Awake s ∧ s.cpi.port.crossing = false ∧ s.fpi.port.crossing = false

/-- An axis may start to move: the device thermal state is below CRITICAL and the part is not tripped (R25, R49). -/
abbrev CanRun (s : State) : Prop := s.tmon.device ≠ .critical ∧ s.tmon.trip = none

/-- The state after an installation change to a record (R3): the generation one higher, both reservations INVALID,
INSTALL_CHANGED raised. -/
abbrev changed (s : State) (record : Irm) (o : Originator) : State :=
  State.raise
    { s with irm := { record with generation := s.irm.generation + 1, reserveControl := none, reserveFrame := none } }
    (.installChanged (s.irm.generation + 1) o)

/-- The record with the target of one axis replaced. -/
abbrev retarget (r : Irm) (a : Axis) (x : Int) : Irm :=
  match a with
  | .v => { r with targetV := x }
  | .h => { r with targetH := x }

/-- No axis stands IDLE with an entry waiting (R23). -/
abbrev HeadsStarted (s : State) : Prop := ∀ a : Axis, (s.axis a).motion = .idle → (s.axis a).queue = []

/-- A STOPPING axis has microsteps of its stop to take (R35). -/
abbrev StopsRun (s : State) : Prop := ∀ (a : Axis) (st : Stop), (s.axis a).motion = .stopping st → 0 < st.remaining

/-- Whether a request that names axes names one. -/
abbrev namesAxis (named : Bool × Bool) : Axis → Bool
  | .v => named.1
  | .h => named.2

/-- The quantum reference of an axis (R82). -/
abbrev State.ref (s : State) : Axis → Int
  | .v => s.ge.refV
  | .h => s.ge.refH

/-- A new position of an axis meets the recompute quantum (R84). -/
abbrev State.meets (s : State) (a : Axis) (p : Int) : Bool := decide (s.ge.q ≤ (p - s.ref a).natAbs)

/-- The end stop in a direction shows no contact: its line inactive and its edge flag clear (R54). -/
abbrev AxisState.clear (x : AxisState) : Dir → Prop
  | .minus => x.endLo = false ∧ x.flagLo = false
  | .plus => x.endHi = false ∧ x.flagHi = false

/-- The microstep index one further in a direction (R32). -/
abbrev AxisState.turned (x : AxisState) : Dir → BitVec 6
  | .minus => x.index - 1
  | .plus => x.index + 1

/-- An axis whose HOLD phase begins at a time: its hold timer runs, or with t_hold = 0 HOLD ends as it begins, in REST (R40). -/
abbrev AxisState.holding (x : AxisState) (now : Nat) : AxisState :=
  { x with phase := if x.params.tHold = 0 then .rest else .hold,
           holdTimer := if x.params.tHold = 0 then none else some (now + 1000 * x.params.tHold) }

/-- An axis that comes to rest at a time, where HOLD begins (R26, R36, R40). -/
abbrev AxisState.atHold (x : AxisState) (now : Nat) : AxisState :=
  { x.holding now with motion := .idle, stepTimer := none }

/-- An axis whose leg begins at a time: coils in RUN, edge flags clear, its first microstep timed (R25, R29, R30, R54). -/
abbrev AxisState.atLeg (x : AxisState) (now : Nat) (l : Leg) : AxisState :=
  { x with motion := .running l, phase := .run, holdTimer := none, flagLo := false, flagHi := false,
           stepTimer := some (now + l.period x.params 0), lastStepAt := now }

/-- A leg that has issued no microstep leads from a position to a target, by an overshoot point or straight (R29). -/
abbrev Leg.Leads (l : Leg) (number : Nat) (x target : Int) : Prop :=
  l.number = number ∧ l.issued = 0 ∧ l.n = (l.endPoint - x).natAbs ∧ (l.kind = .final → l.endPoint = target)

/-- An axis whose homing run begins at a time: UNHOMED, in CLEAR when END_LO is active and the back-off is not 0, else in
APPROACH (R48, R49, R50). -/
abbrev AxisState.atHoming (x : AxisState) (now : Nat) : AxisState :=
  let b := min x.params.backoff x.params.travel
  { x with
    motion := .homing (if x.endLo = true ∧ 0 < b then ⟨.clear, 0, b, 0⟩ else ⟨.approach, 0, x.params.travel * 9 / 8, 0⟩),
    trust := .unhomed, phase := .run, holdTimer := none, pendingHome := false, flagLo := false, flagHi := false,
    stepTimer := some (now + x.params.pHome), lastStepAt := now }

/-- The microsteps a stop takes on a leg (R35). -/
abbrev Leg.toStop (l : Leg) : Nat := if l.issued = 0 then 0 else min l.lastRamp (l.n - l.issued)

/-- The decelerating stop of an axis: of the leg of a RUNNING one, of the homing run of a HOMING one (R34, R35, R37). -/
abbrev AxisState.stopOf (x : AxisState) (reason : DoneReason) : Option Stop :=
  match x.motion with
  | .running l => some ⟨x.position + l.dir.sign * l.toStop, l.toStop, l.dir, reason, l.pRun, false⟩
  | .homing run =>
    some ⟨x.position + run.phase.dir.sign * x.params.homingStopSteps, x.params.homingStopSteps, run.phase.dir, reason,
      x.params.pRunNormal, true⟩
  | .idle | .stopping _ | .fault => none

/-- The axis on which a stop begins at a time (R35, R54): its waiting entries flushed, its active entry bound for the stop
position, a homing run abandoned UNHOMED, the first microstep timed from the last one issued. A stop of no microstep has
ended, and the axis holds with an empty queue (R36). -/
abbrev AxisState.stopped (x : AxisState) (now : Nat) (st : Stop) : AxisState :=
  let y := { x with flagLo := false, flagHi := false, trust := if st.abandoned then .unhomed else x.trust }
  if st.remaining = 0 then { y.atHold now with queue := [] }
  else
    { y with
      motion := .stopping st,
      queue := if st.abandoned then [] else (x.queue.take 1).map fun e => { e with target := st.position },
      stepTimer := some (x.lastStepAt + x.params.rampPeriod st.pRun (st.remaining - 1)) }

/-- LENS_DONE of a stop that has ended as it began (R35, R36). -/
abbrev AxisState.doneAtOnce (x : AxisState) (a : Axis) (reason : DoneReason) : List Event :=
  match x.stopOf reason with
  | some st => if st.remaining = 0 then [.lensDone a x.position reason] else []
  | none => []

/-- LENS_DONE of a moving axis that is halted, then HOME_FAIL CANCELLED of its pending home (R38, R43, R53). -/
abbrev AxisState.haltEvents (x : AxisState) (a : Axis) (reason : DoneReason) : List Event :=
  if x.moving then
    .lensDone a x.position reason :: if x.pendingHome then [.homeFail a x.position .cancelled] else []
  else []

/-- An event set after more events are raised to it, in their order (R173). -/
abbrev raisedTo (es : List Event) (set : List SetEntry) : List SetEntry := es.foldl (fun x e => placeEvent e x) set

/-! ### Frames -/

/-- The ports keep everything but the contents of their event sets. -/
abbrev EventsOnly (s t : State) : Prop :=
  t.cpi = { s.cpi with port := { s.cpi.port with events := t.cpi.port.events } } ∧
    t.fpi = { s.fpi with port := { s.fpi.port with events := t.fpi.port.events } }

/-- The LAU keeps its session, mode, fault, session timers, parameters and lines. -/
abbrev LevelsOnly (l m : Lau) : Prop :=
  m = { l with applied := m.applied, drive := m.drive, slew := m.slew, components := m.components,
               allowance := m.allowance, held := m.held }

/-- The drive of an LAU whose target is formed at a time: 0 outside IGNITION and LIT; down to the target at once, with the slew
timer stopped; below the target it stays, with the slew timer running (R159, R160). -/
abbrev Lau.driven (l : Lau) (now : Nat) : Lau :=
  let target := min (l.applied.getD l.mode.ceiling) l.allowance
  if l.session.lightEn = false then { l with drive := 0, slew := none }
  else if target ≤ l.drive then { l with drive := target, slew := none }
  else { l with slew := some (l.slew.getD (now + 10000)) }

/-- The LAU whose allowance is formed afresh at a time, and its target with it (R152, R159). -/
abbrev Lau.formed (l : Lau) (now : Nat) : Lau :=
  Lau.driven { l with components := l.formComponents, allowance := l.formComponents.least l.params } now

/-- The LAU keeps its mode, fault, applied request, parameters and lines, and of its held inputs all but the excess. -/
abbrev SessionOnly (l m : Lau) : Prop :=
  m = { l with session := m.session, ignition := m.ignition, ignitionStart := m.ignitionStart, coolMin := m.coolMin,
               coolMax := m.coolMax, drive := m.drive, slew := m.slew, components := m.components,
               allowance := m.allowance, held := { l.held with excess := m.held.excess } }

/-- The AFC keeps its curves, settings and held zones, and every fan its demand. -/
abbrev FansOnly (a b : Afc) : Prop :=
  b = { a with fans := b.fans, excess := b.excess } ∧ ∀ f : Fan, (b.fans.get f).demand = (a.fans.get f).demand

/-! ### Light (R142, R152) -/

/-- The drive never exceeds the allowance, the allowance never exceeds the mode's ceiling, and outside IGNITION and LIT the
drive is 0 (R152). -/
abbrev LightSafe (s : State) : Prop :=
  s.lau.drive ≤ s.lau.allowance ∧ s.lau.allowance ≤ s.lau.mode.ceiling ∧
    (s.lau.session.lightEn = false → s.lau.drive = 0)

/-- A timer of the session runs only in the session state that starts it (R144, R148, R160). -/
abbrev SessionTimers (l : Lau) : Prop :=
  (l.ignition.isSome → l.session = .ignition) ∧ (l.coolMin ≠ .stopped → l.session = .cooldown) ∧
    (l.coolMax.isSome → l.session = .cooldown) ∧ (l.slew.isSome → l.session.lightEn = true)

/-- The SRC condition: the SRC zone is LIVE below T_cool (R149). -/
abbrev Lau.Cold (l : Lau) : Prop :=
  l.held.zones.src.status = .live ∧ l.held.zones.src.temperature.any (fun x => decide (x < l.params.tCool)) = true

/-- The LAU once the light has been put out at a time: in COOLDOWN with both timers, or, with a cool-down minimum of 0 and the
SRC condition met, through COOLDOWN in STANDBY (R142, R148, R149). -/
abbrev PutsOut (l : Lau) (now : Nat) (m : Lau) : Prop :=
  m.drive = 0 ∧ m.ignition = none ∧ m.slew = none ∧
    (l.params.coolMin = 0 ∧ l.Cold → m.session = .standby ∧ m.coolMin = .stopped ∧ m.coolMax = none) ∧
    (¬ (l.params.coolMin = 0 ∧ l.Cold) →
      m.session = .cooldown ∧ m.coolMax = some (now + 1000000 * l.params.coolMax) ∧
        m.coolMin = if l.params.coolMin = 0 then .elapsed else .running (now + 1000000 * l.params.coolMin))

/-- The session states through which putting the light out leads (R142, R149). -/
abbrev Lau.outSessions (l : Lau) : List Session :=
  if l.params.coolMin = 0 ∧ l.Cold then [.cooldown, .standby] else [.cooldown]

/-- The LIGHT_STATE events of putting the light out (R142, R149). -/
abbrev Lau.outEvents (l : Lau) (cause : SessionCause) : List Event :=
  .lightState .cooldown l.session cause ::
    if l.params.coolMin = 0 ∧ l.Cold then [.lightState .standby .cooldown .cooled] else []

/-! ### The trip (R114) -/

/-- While the trip latch is set, the session is TRIPPED, the drive is 0 and no axis is RUNNING, STOPPING or HOMING (R114). -/
abbrev TripSafe (s : State) : Prop :=
  s.tmon.trip.isSome → s.lau.session = .tripped ∧ s.lau.drive = 0 ∧ s.lmc.v.moving = false ∧ s.lmc.h.moving = false

/-- The critical-dwell timer runs exactly while the device thermal state is CRITICAL and the trip latch is clear (R112). -/
abbrev DwellSound (s : State) : Prop := s.tmon.dwell.isSome = true ↔ s.tmon.device = .critical ∧ s.tmon.trip = none

/-! ### Fans (R119, R125, R132, R133) -/

/-- A fan's selected and output duties are 63. -/
abbrev FanRecord.Full (x : FanRecord) : Prop := x.selected = 63 ∧ x.output = 63

/-- A kick never lies above 63 (R128). -/
abbrev FanRecord.KickFits (x : FanRecord) : Prop := x.kick.isSome = true → x.output ≤ 63

/-- A condition on every fan. -/
abbrev EachFan (a : Afc) (p : FanRecord → Prop) : Prop := p a.fans.intake ∧ p a.fans.exhaust ∧ p a.fans.blower

/-- While the device thermal state is HOT or CRITICAL, or the trip latch is set, every fan is at duty 63 (R125); the start
duty lies in its range (R127), so that no kick lies above 63. -/
abbrev FansSafe (s : State) : Prop :=
  s.afc.startDuty ≤ 63 ∧ EachFan s.afc FanRecord.KickFits ∧
    (s.tmon.device.isHot = true ∨ s.tmon.trip.isSome = true → EachFan s.afc FanRecord.Full)

/-- A fan's record agrees with itself: its output is 0 exactly while its selected duty is 0, exactly while its tach state
is OFF and exactly while it holds no time from which it is driven; it has grace exactly while STARTING; a kick has an output. -/
abbrev FanRecord.Sound (x : FanRecord) : Prop :=
  (x.output = 0 ↔ x.selected = 0) ∧ (x.output = 0 ↔ x.tach = .off) ∧ (x.output = 0 ↔ x.drivenFrom = none) ∧
    (x.grace.isSome = true ↔ x.tach = .starting) ∧ (x.kick.isSome = true → x.output ≠ 0)

/-- The duty that the duty table gives a fan: its first line that holds (R124). -/
abbrev State.dutyOf (s : State) (f : Fan) : Nat :=
  let demand := (s.afc.fans.get f).demand
  if s.tmon.trip.isSome then 63
  else if s.tmon.device.isHot then 63
  else if s.lau.session = .cooldown then max (s.afc.coolDuty.get f) demand
  else if s.lau.session = .standby ∧ s.tmon.device = .normal then 0
  else if s.afc.quiet = true ∧ s.lau.session.lightEn = true then min demand (s.afc.quietCap.get f)
  else demand

/-- A fan after a selection of a duty d at a time, with a start duty: down to 0 it is OFF with its capture forgotten; up from 0
it is STARTING, with a kick when d lies below the start duty; between two duties above 0 a running kick goes on while d lies
below its output, and ends otherwise (R125, R128, R129, R131 to R133). -/
abbrev FanRecord.selectedAs (x : FanRecord) (now start d : Nat) : FanRecord :=
  if d = 0 then
    if x.selected = 0 then x
    else
      { x with selected := 0, output := 0, kick := none, tach := .off, grace := none, edge := none, lastEdge := none,
               period := 0, rpm := 0, recovery := 0, drivenFrom := none }
  else if x.selected = 0 then
    { x with selected := d, output := if d < start then start else d,
             kick := if d < start then some (now + 1000000) else none, tach := .starting,
             grace := some (now + 1000000), edge := some (now + 500000), drivenFrom := some now }
  else if x.kick.isSome = true ∧ d < x.output then { x with selected := d }
  else { x with selected := d, output := d, kick := none }

/-- The acoustic excess: with Quiet on, no trip, the part below HOT and the light on, the greatest amount by which a demand
exceeds its cap; else 0 (R130). -/
abbrev State.excessOf (s : State) : Nat :=
  if s.afc.quiet = true ∧ s.tmon.trip = none ∧ s.tmon.device.isHot = false ∧ s.lau.session.lightEn = true then
    max (s.afc.fans.intake.demand - s.afc.quietCap.intake)
      (max (s.afc.fans.exhaust.demand - s.afc.quietCap.exhaust) (s.afc.fans.blower.demand - s.afc.quietCap.blower))
  else 0

/-- The fans after the session has entered states one after another: each state selects every fan's duty afresh, and the last
forms the acoustic excess, of which the LAU hears when it changes (R125, R130, R142). -/
abbrev FansTake (s : State) (sessions : List Session) (t : State) : Prop :=
  t.afc.excess = t.excessOf ∧
    (t.lau.held.excess = if t.afc.excess = s.afc.excess then s.lau.held.excess else t.afc.excess) ∧
    ∀ f : Fan, t.afc.fans.get f =
      sessions.foldl
        (fun x new =>
          x.selectedAs t.now s.afc.startDuty (State.dutyOf { t with lau := { t.lau with session := new } } f))
        (s.afc.fans.get f)

/-- The demand of a fan is the greatest value of its curve over the usable zones, and with none its last duty (R123). -/
abbrev DemandSays (c : Curve) (zones : PerZone ZoneRecord) (demand : Nat) : Prop :=
  let usable (z : Zone) (x : Int) : Prop :=
    c.mask.getLsbD (zoneCode z) = true ∧ (zones.get z).inUse = true ∧ (zones.get z).temperature = some x
  (∀ z : Zone, ∀ x, (zones.get z).temperature = some x → usable z x → c.value x ≤ demand) ∧
    ((∃ z ∈ allZones, ∃ x, (zones.get z).temperature = some x ∧ usable z x ∧ demand = c.value x) ∨
      (∀ z : Zone, ∀ x, (zones.get z).temperature = some x → ¬ usable z x) ∧
        demand = (c.points.getLast?.map Prod.snd).getD 0)

/-- Every fan's record agrees with itself (R119, R128, R132, R133). -/
abbrev FansSound (s : State) : Prop := EachFan s.afc FanRecord.Sound

/-! ### A scan (R99 to R114) -/

/-- The source of the device thermal state as formed: the first zone in use, in the source order, whose state it is, else the
fans, and with none stalled NONE (R111). -/
abbrev Tmon.sourceSays (t : Tmon) : Source :=
  match [Zone.src, .panel, .lens, .supply, .intake, .exhaust].find? fun z =>
    (t.zones.get z).inUse && decide ((t.zones.get z).state = t.device) with
  | some z => .zone z
  | none => if stalledCount t.stalled = 0 then .none else .fans

/-- The entry of a kind in a port's event set. -/
abbrev PortState.entryOf (x : PortState) (k : EventKind) : Option SetEntry := x.events.find? fun e => decide (e.event.kind = k)

/-- Of a kind of event, both processors hear one raising with the detail given, or with none given nothing (R173, R174). -/
abbrev Told (s t : State) (k : EventKind) (heard : Option Event) : Prop :=
  ∀ p : Port,
    (t.port p).entryOf k =
      match heard with
      | none => (s.port p).entryOf k
      | some e => some ⟨e, match (s.port p).entryOf k with | some x => min 15 (x.count + 1) | none => 1⟩

/-- Both processors hear of a changed device thermal state, by THERMAL_STATE with the new state, the previous one and the source,
raised once; of an unchanged one they hear nothing (R111, R173). -/
abbrev ThermalTold (s t : State) : Prop :=
  Told s t .thermalState
    (if t.tmon.device = s.tmon.device then none
     else some (.thermalState t.tmon.device s.tmon.device t.tmon.sourceSays))

/-- A slot record after a read that failed with a cause (R104). -/
abbrev SlotRecord.failedBy (x : SlotRecord) (cause : ReadCause) : SlotRecord :=
  if x.status = .lost then { x with failures := 3, lastCause := some cause }
  else if x.failures + 1 < 3 then { x with failures := x.failures + 1, lastCause := some cause }
  else { x with status := .lost, failures := 3, lastCause := some cause }

/-- The state in which reads of slots have failed one after another with a cause, with SENSOR_LOST for each slot that this
makes LOST (R100, R104). -/
abbrev State.readsFailed (s : State) (slots : List Nat) (cause : ReadCause) : State :=
  let record (n : Nat) : SlotRecord := s.tmon.slots.getD n .reset
  let zone (n : Nat) : Zone := (s.tmon.latched.getD n ⟨false, 8, 0, .src, 0⟩).zone
  State.raiseAll
    { s with tmon := { s.tmon with slots := slots.foldl (fun l n => l.set n ((record n).failedBy cause)) s.tmon.slots } }
    ((slots.filter fun n => decide ((record n).status ≠ .lost ∧ 2 ≤ (record n).failures)).map fun n =>
      .sensorLost n (zone n) (some cause))

/-- What the start check of a transaction finds (R100). -/
abbrev busFound (b : BusSample) : BusCondition :=
  if b.scl = false then .stuck
  else if b.sda = true then .clear
  else match b.freedAfter with
    | some n => if n ≤ 9 then .recovered else .stuck
    | none => .stuck

/-- The worse of two bus conditions (R100). -/
abbrev worseBus (a b : BusCondition) : BusCondition :=
  if a = .stuck ∨ b = .stuck then .stuck else if a = .recovered ∨ b = .recovered then .recovered else .clear

/-- The first zone, in the source order, that is LIVE at or above its T_abs (R113). -/
abbrev absoluteZone (zones : PerZone ZoneRecord) (thresholds : PerZone Thresholds) : Option Zone :=
  [Zone.src, .panel, .lens, .supply, .intake, .exhaust].find? fun z =>
    decide ((zones.get z).status = .live) && (zones.get z).temperature.any fun x => decide ((thresholds.get z).abs ≤ x)

/-- What the lens side of a part is after the device thermal state has become CRITICAL (R37). -/
abbrev State.lensStopped (s : State) : State := State.thermalStop { s with tmon := { s.tmon with device := .critical } }

/-- The lens side after the device thermal state was formed: stopped when it has become CRITICAL, else as it was (R37, R111). -/
abbrev LensFollows (s t : State) : Prop :=
  (t.tmon.device = s.tmon.device ∨ t.tmon.device ≠ .critical → t.irm = s.irm ∧ t.lmc = s.lmc ∧ t.ge = s.ge) ∧
    (t.tmon.device ≠ s.tmon.device → t.tmon.device = .critical →
      t.irm = s.lensStopped.irm ∧ t.lmc = s.lensStopped.lmc ∧ t.ge = s.lensStopped.ge)

/-- The LAU after a selection of the fans: it hears of the acoustic excess when it is not what the AFC held before (R130, R152). -/
abbrev Lau.hearsExcess (l : Lau) (now before excess : Nat) : Lau :=
  if excess = before then l else Lau.formed { l with held := { l.held with excess := excess } } now

/-- The LAU after an evaluation has reached it: the excess of the selection that a changed device thermal state makes, the excess
of the evaluation's own selection, then the zone records, with a target formed at each, in the order of notes/assumptions/10.md
(R109, R123, R125, R130, R152, R159). -/
abbrev lauReached (s t : State) : Lau :=
  let device := t.tmon.device = s.tmon.device
  let first := if device then s.afc.excess else State.excessOf { s with tmon := t.tmon }
  let l := (s.lau.hearsExcess s.now s.afc.excess first).hearsExcess s.now first t.afc.excess
  Lau.formed
    { l with held := { l.held with
      zones := t.tmon.zones, thresholds := s.tmon.thresholds, ready := true,
      device := if device then s.lau.held.device else t.tmon.device } }
    s.now

/-- A session that has gone dark: STANDBY or TRIPPED, with every timer stopped and the drive 0 (R142, R149, R150). -/
abbrev Lau.dark (l : Lau) (new : Session) : Lau :=
  { l with session := new, ignition := none, coolMin := .stopped, coolMax := none, drive := 0, slew := none }

/-- The light session through an evaluation. A trip puts it in TRIPPED. With no new trip the arrival of the zone records is a
check: in COOLDOWN with the minimum elapsed and the SRC zone handed LIVE below T_cool it enters STANDBY with cause COOLED; else it
keeps session, mode, latch, session timers, applied request, parameters and lines, and the drive does not rise. No light fault
comes of it (R109, R113, R114, R142, R149, R150). -/
abbrev SessionFollows (s t : State) : Prop :=
  let cooled : Prop := s.lau.session = .cooldown ∧ s.lau.coolMin = .elapsed ∧ t.lau.Cold
  Told s t .lightFault none ∧
  (t.tmon.trip ≠ s.tmon.trip →
    t.lau = Lau.formed { s.lau.dark .tripped with held := t.lau.held } s.now ∧
    Told s t .lightState (some (.lightState .tripped s.lau.session .trip)) ∧
    Told s t .trip (t.tmon.trip.map fun x => .trip x.cause x.zone x.temperature)) ∧
  (t.tmon.trip = s.tmon.trip →
    Told s t .trip none ∧
    (cooled →
      t.lau = Lau.formed ((lauReached s t).dark .standby) s.now ∧
      Told s t .lightState (some (.lightState .standby .cooldown .cooled))) ∧
    (¬ cooled →
      t.lau = lauReached s t ∧ LevelsOnly s.lau t.lau ∧ t.lau.applied = s.lau.applied ∧
      t.lau.drive ≤ s.lau.drive ∧ Told s t .lightState none))

/-- The evaluation that ends a scan with a bus condition, from a state to the next (R100, R106, R108, R109 to R114, R123, R149). -/
abbrev Evaluated (s : State) (bus : BusCondition) (t : State) : Prop :=
  -- the TMON
  t.tmon.scanNumber = s.tmon.scanNumber + 1 ∧ t.tmon.ready = true ∧ t.lau.held.ready = true ∧ t.tmon.scan = none ∧
  t.tmon.bus = bus ∧ t.tmon.table = s.tmon.table ∧ t.tmon.latched = s.tmon.latched ∧ t.tmon.slots = s.tmon.slots ∧
  t.tmon.thresholds = s.tmon.thresholds ∧ t.tmon.nextScan = s.tmon.nextScan ∧ t.tmon.stalled = s.tmon.stalled ∧
  t.tmon.newTable = s.tmon.newTable ∧
  (∀ z : Zone, ((t.tmon.zones.get z).status, (t.tmon.zones.get z).temperature) =
    zoneReading (t.tmon.slotsOf z) (s.tmon.thresholds.get z)) ∧
  (∀ z : Zone,
    ((t.tmon.zones.get z).inUse = false → (t.tmon.zones.get z).state = .normal) ∧
    ∀ x, (t.tmon.zones.get z).temperature = some x → (t.tmon.zones.get z).inUse = true →
      (t.tmon.zones.get z).state = zoneState (s.tmon.thresholds.get z) (s.tmon.zones.get z).state x) ∧
  t.tmon.device = t.tmon.formDevice ∧
  -- the trip and the dwell
  t.tmon.trip =
    (if s.tmon.trip.isSome then s.tmon.trip
     else (absoluteZone t.tmon.zones s.tmon.thresholds).map fun z => ⟨.absolute, .zone z, (t.tmon.zones.get z).temperature⟩) ∧
  t.tmon.dwell =
    (if s.tmon.trip ≠ t.tmon.trip then none
     else if t.tmon.device = s.tmon.device then s.tmon.dwell
     else if t.tmon.device = .critical ∧ s.tmon.trip = none then some (s.now + 1000000 * s.tmon.dwellSeconds)
     else if t.tmon.device = .critical then s.tmon.dwell else none) ∧
  -- the lens side
  (t.tmon.trip = s.tmon.trip → LensFollows s t) ∧
  (t.tmon.trip ≠ s.tmon.trip →
    t.lau.session = .tripped ∧ t.lau.drive = 0 ∧ ∀ a : Axis, (t.axis a).moving = false ∧ (t.axis a).queue = []) ∧
  -- the AFC and the LAU
  t.afc.zones = t.tmon.zones ∧ t.afc.inUse = s.irm.orientation ∧ t.afc.quiet = s.afc.quiet ∧
  (∀ f : Fan,
    DemandSays (match s.irm.orientation with | .floor => s.afc.floorCurves.get f | .ceiling => s.afc.ceilingCurves.get f)
      t.tmon.zones (t.afc.fans.get f).demand ∧
    (t.afc.fans.get f).selected = t.dutyOf f) ∧
  t.lau.held.zones = t.tmon.zones ∧ t.lau.held.thresholds = s.tmon.thresholds ∧
  (t.tmon.device ≠ s.tmon.device → t.lau.held.device = t.tmon.device) ∧
  SessionFollows s t ∧ t.fmon = s.fmon ∧ t.now = s.now ∧ EventsOnly s t ∧ ThermalTold s t

/-- How a scan goes on with the slots left to read, the worst condition met and a sample of the bus: with no slot left it ends in
its evaluation; on a stuck bus every one of them fails with BUS_STUCK before that; else the next transaction begins (R100, R103). -/
abbrev ScanGoesOn (s : State) (slots : List Nat) (worst : BusCondition) (bus : BusSample) (t : State) : Prop :=
  (slots = [] → Evaluated s worst t) ∧
  (slots ≠ [] → slots.Nodup → busFound bus = .stuck → Evaluated (s.readsFailed slots .busStuck) .stuck t) ∧
  (slots ≠ [] → busFound bus ≠ .stuck →
    t = { s with tmon := { s.tmon with scan := some ⟨slots, worseBus worst (busFound bus)⟩ } })

/-! ### Table images (R188 to R191, R203) -/

/-- The byte of an image at an offset. -/
abbrev byteAt (image : List Byte) (o : Nat) : Nat := (image.getD o 0).toNat

/-- The unsigned 16-bit value of an image at an offset. -/
abbrev wordAt (image : List Byte) (o : Nat) : Nat := byteAt image o + 256 * byteAt image (o + 1)

/-- The signed 16-bit value of an image at an offset. -/
abbrev intAt (image : List Byte) (o : Nat) : Int :=
  if wordAt image o < 32768 then wordAt image o else (wordAt image o : Int) - 65536

/-- The places and sizes of the fields of a table, in image order (R182, R203). -/
abbrev Table.places : Table → List (Nat × Nat)
  | .keystone => (List.range 31).map fun n => (2 * n, 2)
  | .curves =>
    (List.range 6).flatMap fun c =>
      [(0, 2), (2, 1), (3, 2), (5, 1), (6, 2), (8, 1), (9, 2), (11, 1), (12, 2), (14, 1), (15, 1)].map fun x =>
        (16 * c + x.1, x.2)
  | .zones =>
    (List.range 6).flatMap fun z => [(0, 2), (2, 2), (4, 2), (6, 2), (8, 1), (9, 2)].map fun x => (11 * z + x.1, x.2)
  | .scan => (List.range 40).map fun n => (n, 1)

/-- The value of the field at an offset lies in its range (R188 to R191). -/
abbrev Table.InRange (x : Table) (image : List Byte) (o : Nat) : Prop :=
  match x with
  | .keystone => wordAt image o ≤ 16384
  | .curves =>
    if o % 16 = 15 then 0 < byteAt image o ∧ byteAt image o < 64
    else if o % 16 % 3 = 2 then byteAt image o ≤ 63
    else -160 ≤ intAt image o ∧ intAt image o ≤ 600
  | .zones =>
    if o % 11 < 8 then -160 ≤ intAt image o ∧ intAt image o ≤ 600
    else if o % 11 = 8 then 1 ≤ byteAt image o ∧ byteAt image o ≤ 40
    else wordAt image o ≤ 16383
  | .scan =>
    if o % 5 = 0 then byteAt image o ≤ 1
    else if o % 5 = 1 then 0x08 ≤ byteAt image o ∧ byteAt image o ≤ 0x77
    else if o % 5 = 2 then True
    else if o % 5 = 3 then byteAt image o ≤ 5
    else byteAt image o ≤ 40 ∨ 256 - 40 ≤ byteAt image o

/-- The field at an offset breaks a whole-table condition (R188 to R191): TK[0] is not 0 or an entry falls; a temperature of a
curve does not rise or a duty falls; a threshold does not rise; an enabled slot repeats the address and the pointer of an
earlier enabled one. -/
abbrev Table.Breaks (x : Table) (image : List Byte) (o : Nat) : Prop :=
  match x with
  | .keystone =>
    (o = 0 ∧ wordAt image 0 ≠ 0) ∨ ∃ n ∈ List.range 30, o = 2 * (n + 1) ∧ wordAt image o < wordAt image (o - 2)
  | .curves =>
    ∃ c ∈ List.range 6, ∃ k ∈ List.range 4,
      (o = 16 * c + 3 * (k + 1) ∧ intAt image o ≤ intAt image (o - 3)) ∨
        (o = 16 * c + 3 * (k + 1) + 2 ∧ byteAt image o < byteAt image (o - 3))
  | .zones =>
    ∃ z ∈ List.range 6, ∃ k ∈ List.range 3, o = 11 * z + 2 * (k + 1) ∧ intAt image o ≤ intAt image (o - 2)
  | .scan =>
    ∃ j ∈ List.range 8, o = 5 * j + 1 ∧ ∃ i ∈ List.range j,
      byteAt image (5 * i) = 1 ∧ byteAt image (5 * j) = 1 ∧
        byteAt image (5 * i + 1) = byteAt image (5 * j + 1) ∧ byteAt image (5 * i + 2) = byteAt image (5 * j + 2)

/-- The code of the cause of a load's error (R195, R203). -/
abbrev causeByte : LoadCause → Byte
  | .sequence => 0
  | .overrun => 1
  | .field => 2
  | .short => 3
  | .content => 4

/-! ### Response payloads (R198 to R201) -/

/-- A payload holds a field at an offset, the event summary being its byte 0. -/
abbrev HasField (payload : List Byte) (o : Nat) (field : List Byte) : Prop := (payload.drop o).take field.length = field

/-- A time remaining: absent for a stopped timer, and for a running one its whole ms, at least 1 (R201;
notes/assumptions/16.md). -/
abbrev msLeft (now : Nat) : Option Nat → List Byte
  | none => [0xFF, 0xFF, 0xFF, 0xFF]
  | some e => u32 (max 1 ((e - now) / 1000))

/-- A level that may be absent (R195). -/
abbrev levelOr : Option Nat → List Byte
  | none => [0xFF, 0xFF]
  | some x => u16 x

/-- A temperature that may be absent (R195). -/
abbrev tempOr : Option Int → List Byte
  | none => [0x00, 0x80]
  | some t => s16 t

/-- The layout of READ_AXIS (R199), with 0 in the bits with no name (notes/assumptions/49.md). -/
abbrev AxisLayout (s : State) (a : Axis) (payload : List Byte) : Prop :=
  let x := s.axis a
  let level := currentLevel a s.irm.orientation x
  HasField payload 1 [BitVec.ofNat 8 (axisCode a), BitVec.ofNat 8 (modeCode x.motion.mode), BitVec.ofNat 8 (trustCode x.trust)] ∧
  HasField payload 4 (s32 x.position) ∧ HasField payload 8 [x.index.setWidth 8] ∧
  HasField payload 9 [BitVec.ofNat 8 (phaseCode x.phase), BitVec.ofNat 8 level] ∧
  HasField payload 11 (s16 (coilA x.index).value) ∧ HasField payload 13 (u8 ((coilA x.index).level level)) ∧
  HasField payload 14 (s16 (coilB x.index).value) ∧ HasField payload 16 (u8 ((coilB x.index).level level)) ∧
  HasField payload 17 [bits [decide (x.motion.mode = .running), decide (x.motion.mode = .stopping), x.pendingHome]] ∧
  HasField payload 18 (u8 x.queue.length) ∧
  (x.queue.length ≤ 4 →
    payload.length = 74 ∧
    (∀ n ∈ List.range 4, ∀ e, x.queue[n]? = some e →
      HasField payload (19 + 8 * n) (u8 (entryKindCode e.kind) ++ u8 (originCode e.origin)) ∧
      HasField payload (21 + 8 * n) (s32 e.target) ∧
      HasField payload (25 + 8 * n) (u8 (speedCode e.speed) ++ flag e.active)) ∧
    (∀ n ∈ List.range 4, x.queue[n]? = none → HasField payload (19 + 8 * n) (List.replicate 8 0)) ∧
    (∀ l, x.motion = .running l →
      (l.number < 256 → HasField payload 51 (u8 l.number)) ∧
      HasField payload 52 (u8 (legKindCode l.kind) ++ u8 (dirCode l.dir)) ∧ HasField payload 54 (s32 l.n) ∧
      HasField payload 58 (s32 l.issued) ∧ HasField payload 62 (u16 l.pRun)) ∧
    (x.motion.mode ≠ .running → HasField payload 51 (List.replicate 13 0)) ∧
    (∀ st, x.motion = .stopping st →
      HasField payload 64 (s32 st.position) ∧ HasField payload 68 (s32 st.remaining) ∧
        HasField payload 72 (u8 (doneCode st.reason))) ∧
    (x.motion.mode ≠ .stopping → HasField payload 64 (List.replicate 9 0)) ∧
    HasField payload 73 [bits [x.endLo, x.endHi, x.drvFlt]])

/-- The layout of READ_THERMAL (R200), with 0 in the bits of the stalled byte with no name (notes/assumptions/49.md). -/
abbrev ThermalLayout (s : State) (payload : List Byte) : Prop :=
  let t := s.tmon
  payload.length = 133 ∧ HasField payload 1 (u8 (thermalCode t.device)) ∧
  (t.trip = none → HasField payload 2 [0, 0xFF, 0xFF, 0x00, 0x80]) ∧
  (∀ r, t.trip = some r →
    HasField payload 2 ([1] ++ u8 (tripCauseCode r.cause) ++ u8 (sourceCode r.zone)) ∧
      HasField payload 5 (tempOr r.temperature)) ∧
  HasField payload 7 (msLeft s.now t.dwell) ∧ HasField payload 11 (flag t.ready) ∧
  HasField payload 12 (le16 t.scanNumber) ∧ HasField payload 14 (u8 (busCode t.bus)) ∧
  HasField payload 15 [bits [t.stalled.intake, t.stalled.exhaust, t.stalled.blower]] ∧
  (∀ z : Zone,
    let r := t.zones.get z
    HasField payload (16 + 4 * zoneCode z) (u8 (zoneStatusCode r.status)) ∧
      HasField payload (17 + 4 * zoneCode z) (tempOr r.temperature) ∧
      HasField payload (19 + 4 * zoneCode z) (u8 (thermalCode r.state))) ∧
  (∀ n ∈ List.range 8,
    let r := t.slots.getD n .reset
    HasField payload (40 + 6 * n) (flag (slotAt t.latched n).enabled ++ u8 (slotStatusCode r.status)) ∧
      HasField payload (42 + 6 * n) (tempOr r.value) ∧
      HasField payload (44 + 6 * n) (u8 r.failures ++ u8 (causeCode r.lastCause))) ∧
  HasField payload 88 (flag s.afc.quiet ++ u8 s.afc.excess ++ u8 (orientationCode s.afc.inUse)) ∧
  ∀ f : Fan,
    let x := s.afc.fans.get f
    HasField payload (91 + 14 * fanCode f) (u8 x.demand ++ u8 x.selected ++ u8 x.output) ∧
      HasField payload (94 + 14 * fanCode f) (msLeft s.now x.kick) ∧
      HasField payload (98 + 14 * fanCode f) (u8 (tachCode x.tach)) ∧
      HasField payload (99 + 14 * fanCode f) (u16 x.period) ∧ HasField payload (101 + 14 * fanCode f) (u32 x.rpm)

/-- The layout of READ_LIGHT (R201), with 0 in the bits of the lines byte with no name (notes/assumptions/49.md). -/
abbrev LightLayout (s : State) (payload : List Byte) : Prop :=
  let l := s.lau
  payload.length = 52 ∧ HasField payload 1 (u8 (sessionCode l.session)) ∧ HasField payload 2 (msLeft s.now l.ignition) ∧
  HasField payload 6 (match l.coolMin with | .stopped => msLeft s.now none | .running e => msLeft s.now (some e) | .elapsed => u32 0) ∧
  HasField payload 10 (msLeft s.now l.coolMax) ∧
  (l.fault = none → HasField payload 14 [0, 0xFF, 0, 0]) ∧
  (∀ x, l.fault = some x →
    HasField payload 14 ([1] ++ u8 (faultReasonCode x.reason)) ∧ HasField payload 16 (u16 x.timeMs)) ∧
  HasField payload 18 (u8 (lightModeCode l.mode) ++ flag s.afc.quiet) ∧ HasField payload 20 (u16 l.components.modeCeiling) ∧
  HasField payload 22 (u16 l.components.lTh) ∧ HasField payload 24 (flag l.components.stallCapped) ∧
  HasField payload 25 (u16 l.components.lAc) ∧ HasField payload 27 (u8 l.held.excess) ∧
  HasField payload 28 (u16 l.params.lLapse) ∧ HasField payload 30 (flag l.components.lapseApplies) ∧
  HasField payload 31 (u16 l.params.lIgn) ∧ HasField payload 33 (flag l.components.ignApplies) ∧
  HasField payload 34 (u16 l.allowance) ∧ HasField payload 36 (levelOr s.fpi.latched) ∧
  HasField payload 38 (levelOr l.applied) ∧ HasField payload 40 (u16 (l.applied.getD l.mode.ceiling)) ∧
  HasField payload 42
    (levelOr (if l.session.lightEn = true then some (min (l.applied.getD l.mode.ceiling) l.allowance) else none)) ∧
  HasField payload 44 (u16 l.drive) ∧ HasField payload 46 (flag l.slew.isSome) ∧ HasField payload 47 (flag s.fpi.attached) ∧
  HasField payload 48 (u8 (lapseCode s.fmon.state)) ∧ HasField payload 49 (u16 s.fmon.period) ∧
  HasField payload 51 [bits [l.session.lightEn, l.lightOk, l.lightFlt]]

/-- The layout of READ_INSTALL, of the port that asks (R198). -/
abbrev InstallLayout (s : State) (p : Port) (payload : List Byte) : Prop :=
  payload.length = 21 ∧ HasField payload 1 (u8 (orientationCode s.irm.orientation)) ∧
  HasField payload 2 (s8 s.irm.kv ++ s8 s.irm.kh) ∧ HasField payload 4 (s32 s.irm.targetV) ∧
  HasField payload 8 (s32 s.irm.targetH) ∧ HasField payload 12 (le16 s.irm.generation) ∧
  HasField payload 14 (u8 (trustCode s.lmc.v.trust) ++ u8 (trustCode s.lmc.h.trust)) ∧
  HasField payload 16 (u8 s.lmc.v.queue.length ++ u8 s.lmc.h.queue.length) ∧
  HasField payload 18 (match s.irm.reservation p with | some g => [1] ++ le16 g | none => [0, 0xFF, 0xFF])

/-! ### The allowance and what the LAU holds (R141, R152) -/

/-- The components and the allowance are those that the LAU's inputs give: no input has changed since they were formed
(R152). -/
abbrev AllowanceFresh (s : State) : Prop :=
  s.lau.components = s.lau.formComponents ∧ s.lau.allowance = s.lau.components.least s.lau.params

/-- The LAU holds the values of the blocks that hand them: the device thermal state, whether any fan is stalled, the
thermal-ready mark, the acoustic excess, the attach state, the lapse state (R141). -/
abbrev HeldFollows (s : State) : Prop :=
  s.lau.held.device = s.tmon.device ∧ s.lau.held.anyStalled = decide (0 < stalledCount s.tmon.stalled) ∧
    s.lau.held.ready = s.tmon.ready ∧ s.lau.held.excess = s.afc.excess ∧ s.lau.held.attached = s.fpi.attached ∧
    s.lau.held.lapse = s.fmon.state

/-! ### The attach state (R89 to R94, R158) -/

/-- While the picture processor is detached the lapse monitor is DISARMED, no light request is latched or applied, and no
computation is marked for publication; the window timer runs exactly while the monitor is ARMED. -/
abbrev FrameSound (s : State) : Prop :=
  (s.fpi.attached = false ↔ s.fmon.state = .disarmed) ∧ (s.fmon.window.isSome = true ↔ s.fmon.state = .armed) ∧
    (s.fpi.attached = false →
      s.fpi.latched = none ∧ s.lau.applied = none ∧ s.ge.attachMark = false ∧
        s.ge.inFlight.all (fun c => !c.marked) = true)

/-! ### Event sets (R173) -/

/-- A set holds at most one entry of each kind, all of kinds routed to its processor, with counts in 1..15. -/
abbrev SetFits (p : Port) (es : List SetEntry) : Prop :=
  (es.map fun x => x.event.kind).Nodup ∧
    ∀ x ∈ es, routed p x.event.kind = true ∧ 1 ≤ x.count ∧ x.count ≤ 15

/-- Both event sets fit (R173, R174). -/
abbrev EventSetsFit (s : State) : Prop := SetFits .control s.cpi.port.events ∧ SetFits .frame s.fpi.port.events

/-! ### Parameters (R21, R192) -/

/-- An axis's parameters lie in the ranges of R21. -/
abbrev AxisParams.Fit (x : AxisParams) : Prop :=
  1000 ≤ x.travel ∧ x.travel ≤ 60000 ∧ x.centre ≤ x.travel ∧ 1000 ≤ x.kspan ∧ x.kspan ≤ 32000 ∧
    100 ≤ x.pStart ∧ x.pStart ≤ 5000 ∧ 20 ≤ x.pRunSlow ∧ x.pRunSlow ≤ x.pStart ∧ 20 ≤ x.pRunNormal ∧
    x.pRunNormal ≤ x.pStart ∧ 20 ≤ x.pRunFast ∧ x.pRunFast ≤ x.pStart ∧ 1 ≤ x.nRamp ∧ x.nRamp ≤ 4096 ∧
    x.backlash ≤ 1024 ∧ 100 ≤ x.pHome ∧ x.pHome ≤ 5000 ∧ x.backoff ≤ 4000 ∧ x.refPos ≤ x.travel ∧ 1 ≤ x.refTol ∧
    x.refTol ≤ 255 ∧ x.iRun ≤ 255 ∧ x.iHold ≤ 255 ∧ x.iIdle ≤ 255 ∧ x.tHold ≤ 5000

/-- The LAU's parameters lie in the ranges of R192. -/
abbrev LauParams.Fit (x : LauParams) : Prop :=
  x.lLapse ≤ 4096 ∧ x.lIgn ≤ 16383 ∧ x.lStall ≤ 16383 ∧ x.lCrit ≤ 16383 ∧ x.lAcFloor ≤ 16383 ∧ x.acStep ≤ 2048 ∧
    1 ≤ x.slew ∧ x.slew ≤ 16383 ∧ 500 ≤ x.ignTimeout ∧ x.ignTimeout ≤ 10000 ∧ x.coolMin ≤ 120 ∧ 10 ≤ x.coolMax ∧
    x.coolMax ≤ 600 ∧ -160 ≤ x.tCool ∧ x.tCool ≤ 600

/-- The values of a per-fan duty lie in 0..63. -/
abbrev DutiesFit (x : PerFan Nat) : Prop := x.intake ≤ 63 ∧ x.exhaust ≤ 63 ∧ x.blower ≤ 63

/-- Every parameter lies in its range (R21, R192), the gravity level included, which V alone holds. -/
abbrev ParamsFit (s : State) : Prop :=
  s.lmc.v.params.Fit ∧ s.lmc.h.params.Fit ∧ (∃ g, s.lmc.v.params.iGrav = some g ∧ g ≤ 255) ∧
    s.lmc.h.params.iGrav = none ∧ s.lau.params.Fit ∧ 1 ≤ s.ge.q ∧ s.ge.q ≤ 4096 ∧ s.ge.flim ≤ 16384 ∧
    20 ≤ s.fmon.lapseWindow ∧ s.fmon.lapseWindow ≤ 1000 ∧ 1 ≤ s.tmon.dwellSeconds ∧ s.tmon.dwellSeconds ≤ 60 ∧
    DutiesFit s.afc.quietCap ∧ DutiesFit s.afc.coolDuty ∧ s.afc.startDuty ≤ 63 ∧
    (∀ g ∈ s.afc.glitch, g.2 = 0 ∨ g.2 = 50 ∨ g.2 = 200 ∨ g.2 = 800)

/-! ### Reservations (R5) -/

/-- A VALID reservation holds the present generation (R5, R3). -/
abbrev ReservationsCurrent (s : State) : Prop := ∀ (p : Port) (g : Word16), s.irm.reservation p = some g → g = s.irm.generation

/-! ### Lens motion (R2, R23, R24) -/

/-- A target lies in the travel of an axis. -/
abbrev InTravel (x : AxisState) (t : Int) : Prop := 0 ≤ t ∧ t ≤ x.params.travel

/-- A queue fits: at most four entries, none behind the head active (R24), every target a count, and on a HOMED axis a point
of its travel (R10, R13). -/
abbrev QueueFits (x : AxisState) : Prop :=
  x.queue.length ≤ 4 ∧ (∀ e ∈ x.queue.tail, e.active = false) ∧ (∀ e ∈ x.queue, fitsCount e.target = true) ∧
    (x.trust = .homed → ∀ e ∈ x.queue.tail, InTravel x e.target)

/-- What the state of an axis says of its queue and of the target the record holds (R2, R23): an IDLE or FAULT axis stands at
its target with an empty queue; a RUNNING axis runs its head entry, and a final leg ends at that entry's target; a STOPPING
axis holds the entry being stopped, at the stop position, and nothing behind it while a pending home or a CRITICAL or tripped
part forbids entries; a HOMING axis holds no entry. -/
def AxisState.Sound (canRun : Prop) (held : Int) (x : AxisState) : Prop :=
  fitsCount x.position = true ∧ QueueFits x ∧ (x.pendingHome = true → canRun) ∧
    match x.motion with
    | .idle | .fault => x.queue = [] ∧ x.pendingHome = false ∧ held = x.position
    | .homing run =>
      x.queue = [] ∧ x.pendingHome = false ∧ canRun ∧ x.trust = .unhomed ∧
        (run.phase = .backoff → x.position = run.taken ∧ run.taken < run.limit ∧ run.limit ≤ x.params.travel)
    | .running l =>
      canRun ∧ x.pendingHome = false ∧ held = x.drain held ∧ l.issued < l.n ∧
        ∃ e rest, x.queue = e :: rest ∧ e.active = true ∧ (x.trust = .homed → InTravel x e.target) ∧
          (l.kind = .final →
            l.endPoint = e.target ∧ x.position + l.dir.sign * ((l.n : Int) - l.issued) = e.target)
    | .stopping st =>
      0 < st.remaining ∧ held = x.drain held ∧ fitsCount st.position = true ∧
        (if st.abandoned then
          x.trust = .unhomed ∧ (∀ e ∈ x.queue, e.active = false) ∧ ((¬ canRun ∨ x.pendingHome = true) → x.queue = [])
        else
          ∃ e rest, x.queue = e :: rest ∧ e.active = true ∧ e.target = st.position ∧
            ((¬ canRun ∨ x.pendingHome = true) → rest = []))

/-- Both axes are sound, so that each target of the record equals its axis's drain position (R2). -/
abbrev LensSound (s : State) : Prop :=
  s.lmc.v.Sound (CanRun s) s.irm.targetV ∧ s.lmc.h.Sound (CanRun s) s.irm.targetH

end Sys2Proof.Machine
end

