-- ==== Sys2Proof/Certificates/Slice0/Obligations.lean ====
section
/-! DEFINITION. The statements about the Wesjal 612, for the provers: one proposition each, family by family. A statement that
rests on a choice of the model names the entry of notes/assumptions it rests on. -/

open Sys2Proof Sys2Proof.Machine

/-! ### The step, the queue, the ports (09, 95) -/

/-- A step takes the command at the front of the queue and runs exec on it with the queue's rest. On an empty queue one
microsecond passes, which is the model's choice (notes/assumptions/1.md). -/
def Obligations.StepRunsFrontCommand : Prop :=
  (∀ (c : Instr) (s : State), step { s with pending := c :: s.pending } = exec c s) ∧
  (∀ (c : Instr) (rest : List Instr) (s : State),
    s.pending = c :: rest → step s = exec c { s with pending := rest }) ∧
  ∀ s : State, s.pending = [] → step s = .next { s with now := s.now + 1 }

/-- Every command, whatever its operands, answers a next state with the queue untouched; the part enters and leaves hard reset
by the two reset commands alone (R180), and its Control Port address changes by HARD_RESET_END alone (R164,
R180). The model's own: the clock, which no command moves back (notes/assumptions/1.md, notes/assumptions/2.md,
notes/assumptions/3.md, each a DESIGN CHOICE); the count of reset pulses, which HARD_RESET alone moves (notes/assumptions/7.md);
and that the address stands through hard reset until its end (notes/assumptions/48.md). -/
def Obligations.EveryCommandCompletes : Prop :=
  ∀ (c : Instr) (s : State), ∃ t, exec c s = .next t ∧ t.pending = s.pending ∧ s.now ≤ t.now ∧
    ((∀ low, c ≠ .hardReset low) → t.resetPulses = s.resetPulses) ∧
    ((∀ ports bus, c ≠ .hardResetEnd ports bus) → t.cpi.address = s.cpi.address ∧
      ((∀ low, c ≠ .hardReset low) → t.inReset = s.inReset))

/-- While the part is in hard reset no port takes a request; the attention lines are released, CP_SDA is released and FP_SDO is
high impedance at every moment of any transaction, whenever hard reset began within or before it, and nothing is driven on the
Probe Bus. The lines that are driven stand at their reset levels at once when hard reset has begun: LIGHT_EN inactive, LIGHT_PWM
and the fan PWM lines low, coil A of each axis at level 40 with its phase high, coil B at 0 with its phase high, and a
transaction under way is released at that moment, whatever has been clocked of it; and they stay there, whatever command comes
but the two resets, which are not spoken of here (R42, R180). That no timer and no engine acts, that the clock stays, and that a
line changes its level alone is the model's reading of R180 (notes/assumptions/31.md, and notes/assumptions/5.md for the
levels). That a transaction in which the part was in hard reset carries nothing to its end, should hard reset end within it, is
the model's choice (notes/assumptions/47.md). -/
def Obligations.HardResetSilencesThePart : Prop :=
  (∀ s : State,
    let held (t : State) : Prop :=
      t.lightEnable = false ∧ t.lightPwm = 0 ∧ (∀ f : Fan, t.fanDuty f = 0) ∧
        (∀ a : Axis, t.coils a = (⟨true, 40⟩, ⟨true, 0⟩)) ∧
        ∀ (before : Transaction) (clocked : List Bool),
          cpSda (some (before ++ [⟨t, clocked⟩])) = false ∧ fpSdo (some (before ++ [⟨t, clocked⟩])) = none
    held s.hardReset ∧
      ∀ c t, (∀ low, c ≠ .hardReset low) → (∀ ports bus, c ≠ .hardResetEnd ports bus) →
        exec c s.hardReset = .next t → held t) ∧
  ∀ s : State, s.inReset = true →
    (∀ (c : Instr) (p : Port), portOf c = some p → exec c s = .next s) ∧
    (∀ (p : Port) (bytes : List Byte), exec (.malformedRequest p bytes) s = .next s) ∧
    (∀ p : Port, exec (.responseFormed p) s = .next s ∧ s.attention p = false) ∧
    (∀ (before after : Transaction) (clocked : List Bool),
      cpSda (some (before ++ ⟨s, clocked⟩ :: after)) = false ∧ fpSdo (some (before ++ ⟨s, clocked⟩ :: after)) = none) ∧
    (∀ (result : ReadResult) (x : TimedOut) (bus : BusSample), s.probeBus (.scanStart bus) = [] ∧
      s.probeBus (.slotReadDone result bus) = [] ∧ s.probeBus (.probeBusTimeout x) = []) ∧
    (∀ c ∈ [Instr.lapseWindowExpiry, .computationComplete, .criticalDwellExpiry, .ignitionTimerExpiry,
      .cooldownMinExpiry, .coolMax, .slewTimerExpiry], exec c s = .next s) ∧
    (∀ a : Axis, exec (.stepTimerExpiry a) s = .next s ∧ exec (.holdTimerExpiry a) s = .next s) ∧
    (∀ f : Fan, exec (.kickExpiry f) s = .next s ∧ exec (.graceTimerExpiry f) s = .next s ∧
      exec (.edgeTimerExpiry f) s = .next s ∧ ∀ fall low, exec (.tachEdgeAccepted f fall low) s = .next s) ∧
    (∀ bus : BusSample, exec (.scanStart bus) s = .next s ∧ (∀ parts, exec (.probeBusTimeout ⟨parts, bus⟩) s = .next s) ∧
      ∀ r, exec (.slotReadDone r bus) s = .next s) ∧
    (∀ time : Nat, exec (.fmark time) s = .next s ∧
      exec (.lightOkRise time) s = .next { s with lau := { s.lau with lightOk := true } } ∧
      exec (.lightOkFall time) s = .next { s with lau := { s.lau with lightOk := false } } ∧
      ∀ b, exec (.lightFlt b time) s = .next { s with lau := { s.lau with lightFlt := b } }) ∧
    ∀ (a : Axis) (b : Bool),
      exec (.endStopEdge a .lo b) s = .next (s.setAxis a { s.axis a with endLo := b }) ∧
      exec (.endStopEdge a .hi b) s = .next (s.setAxis a { s.axis a with endHi := b }) ∧
      exec (.refMkEdge a b) s = .next (s.setAxis a { s.axis a with refMk := b }) ∧
      exec (.drvFlt a b) s = .next (s.setAxis a { s.axis a with drvFlt := b })

/-- A request answered with a status of the second group changes nothing but the slot of its port; the two exceptions are a
STALE refusal, which makes the caller's reservation INVALID (R9), and TABLE_INVALID, which closes the load (R185). -/
def Obligations.RefusedRequestsChangeNothing : Prop :=
  ∀ (c : Instr) (p : Port) (s : State), portOf c = some p → Listens s → ∀ t, exec c s = .next t →
    ∀ (kind : Byte) (status : Status) (body : List Byte), (t.port p).slot = .pending kind status body →
      0x10 ≤ statusCode status → status ≠ .stale → status ≠ .tableInvalid → t = answered s p kind status body

/-- A kind that its table gives to one port alone is refused NOT_PERMITTED on the other, with nothing changed but the slot; so
is an orientation field from the Frame Port (R171, R8). -/
def Obligations.PermissionTable : Prop :=
  ∀ s : State, Listens s →
    (∀ axes : Byte, (readAxes axes).isSome →
      (∃ b, exec (.abortMotion .frame axes) s = .next (answered s .frame 0x20 .notPermitted b)) ∧
      (∃ b, exec (.home .frame axes) s = .next (answered s .frame 0x21 .notPermitted b)) ∧
      ∃ b, exec (.axisRecover .frame axes) s = .next (answered s .frame 0x22 .notPermitted b)) ∧
    (∀ (slot source inc : Byte) (v h : Word32) (kv kh : Byte), (readFlag source).isSome → (readFlag inc).isSome →
      ∃ b, exec (.storePreset .frame slot source inc v h kv kh) s = .next (answered s .frame 0x28 .notPermitted b)) ∧
    (∀ slot speed cond : Byte, (readSpeed speed).isSome → (readFlag cond).isSome →
      ∃ b, exec (.recallPreset .frame slot speed cond) s = .next (answered s .frame 0x29 .notPermitted b)) ∧
    (∀ slot : Byte, ∃ b, exec (.clearPreset .frame slot) s = .next (answered s .frame 0x2A .notPermitted b)) ∧
    (∃ b, exec (.lightOn .frame) s = .next (answered s .frame 0x30 .notPermitted b)) ∧
    (∃ b, exec (.lightOff .frame) s = .next (answered s .frame 0x31 .notPermitted b)) ∧
    (∀ mode : Byte, (readMode mode).isSome →
      ∃ b, exec (.setLightMode .frame mode) s = .next (answered s .frame 0x32 .notPermitted b)) ∧
    (∀ quiet : Byte, (readFlag quiet).isSome →
      ∃ b, exec (.setQuiet .frame quiet) s = .next (answered s .frame 0x33 .notPermitted b)) ∧
    (∃ b, exec (.clearLightFault .frame) s = .next (answered s .frame 0x34 .notPermitted b)) ∧
    (∀ (param index : Byte) (value : Word32) (n : ParamName), paramOf param index = .ok n →
      (∃ b, exec (.setParamAxis .frame param index value) s = .next (answered s .frame 0x40 .notPermitted b)) ∧
      (∃ b, exec (.setParam .frame param index value) s = .next (answered s .frame 0x40 .notPermitted b)) ∧
      ∃ b, exec (.getParam .frame param index) s = .next (answered s .frame 0x41 .notPermitted b)) ∧
    (∀ (table : Byte) (w : Word16), (readTableCode table).isSome →
      (∃ b, exec (.beginLoad .frame table w) s = .next (answered s .frame 0x48 .notPermitted b)) ∧
      ∃ b, exec (.readTable .frame table w) s = .next (answered s .frame 0x4B .notPermitted b)) ∧
    (∀ (offset : Word16) (data : List Byte), segmentFits data = true →
      ∃ b, exec (.loadSegment .frame offset data) s = .next (answered s .frame 0x49 .notPermitted b)) ∧
    (∃ b, exec (.endLoad .frame) s = .next (answered s .frame 0x4A .notPermitted b)) ∧
    (∃ b, exec (.restart .frame) s = .next (answered s .frame 0x7F .notPermitted b)) ∧
    (∀ w h : Word16, ∃ b, exec (.attach .control w h) s = .next (answered s .control 0x10 .notPermitted b)) ∧
    (∃ b, exec (.detach .control) s = .next (answered s .control 0x11 .notPermitted b)) ∧
    (∀ level : Word16, ∃ b, exec (.lightRequest .control level) s = .next (answered s .control 0x12 .notPermitted b)) ∧
    ∀ (presence orientation kv kh : Byte) (v h : Word32) (speed cond : Byte), presenceFits presence = true →
      bit presence 0 = true → (readOrientation orientation).isSome → (readSpeed speed).isSome → (readFlag cond).isSome →
      ∃ b, exec (.writeInstall .frame presence orientation kv kh v h speed cond) s =
        .next (answered s .frame 0x02 .notPermitted b)

/-- A request on one port leaves the other port's slot, mask and last warp read as they were, and its event set changes only by
the events raised; RESTART alone empties the other slot and set (R172, R178). -/
def Obligations.PortsAreSeparate : Prop :=
  ∀ (c : Instr) (p q : Port) (s : State), portOf c = some p → q ≠ p → (∀ r, c ≠ .restart r) → ∀ t, exec c s = .next t →
    (t.port q).slot = (s.port q).slot ∧ (t.port q).mask = (s.port q).mask ∧
      (t.port q).lastWarp = (s.port q).lastWarp ∧
      ∃ es : List Event, (t.port q).events = (es.foldl (fun x e => x.place q e) (s.port q)).events

/-- The frame a well-formed request is written as is read back as that request, whatever its fields (R166, R194, R196). -/
def Obligations.RequestFrameRoundTrip : Prop :=
  ∀ (c : Instr) (p : Port), WellFormed c = true → portOf c = some p →
    ∃ frame, writeFrame c = some frame ∧ readFrame p frame = .request c

/-- A malformed frame is answered BAD_REQUEST with its cause, in the order UNKNOWN_KIND, LENGTH, COUNT, its kind byte as
received, and nothing but the slot changes (R166, R197). A field that a request uses and whose code lies outside its list, a flag
other than 0 or 1, an empty or reserved presence byte, a JOG delta of 0, a parameter code or index that names nothing: each is
answered BAD_REQUEST with cause FIELD and the field's offset, from either port, and nothing but the slot changes (R7, R13, R22,
R169, R195, R196). With several fields at fault the offset is the first one's, which is the model's reading
(notes/assumptions/15.md). -/
def Obligations.MalformedFrames : Prop :=
  (∀ (p : Port) (kind : Byte) (s : State), Listens s →
    (∀ rest, kindLengths kind.toNat = none →
      exec (.malformedRequest p (kind :: rest)) s = .next (answered s p kind .badRequest [0, 0])) ∧
    ∀ least most, kindLengths kind.toNat = some (least, most) →
      exec (.malformedRequest p [kind]) s = .next (answered s p kind .badRequest [2, 0]) ∧
      ∀ (length : Byte) (payload : List Byte),
        (60 < length.toNat ∨ length.toNat < least ∨ most < length.toNat →
          exec (.malformedRequest p (kind :: length :: payload)) s = .next (answered s p kind .badRequest [1, 0])) ∧
        (length.toNat ≤ 60 → least ≤ length.toNat → length.toNat ≤ most → payload.length ≠ length.toNat →
          exec (.malformedRequest p (kind :: length :: payload)) s = .next (answered s p kind .badRequest [2, 0]))) ∧
  ∀ (p : Port) (s : State), Listens s →
    let fault (c : Instr) (kind offset : Byte) : Prop := exec c s = .next (answered s p kind .badRequest [3, offset])
    (∀ reserve : Byte, 1 < reserve.toNat → fault (.readInstall p reserve) 0x01 0) ∧
    (∀ (presence orientation kv kh : Byte) (v h : Word32) (speed cond : Byte),
      let c := Instr.writeInstall p presence orientation kv kh v h speed cond
      let names := 0 < presence.toNat ∧ presence.toNat < 32
      let faces := presence.toNat % 2 = 1 → orientation.toNat ≤ 1
      (¬ names → fault c 0x02 0) ∧ (names → ¬ faces → fault c 0x02 1) ∧
        (names → faces → 2 < speed.toNat → fault c 0x02 12) ∧
        (names → faces → speed.toNat ≤ 2 → 1 < cond.toNat → fault c 0x02 13)) ∧
    (∀ (axis : Byte) (delta : Word32) (speed cond : Byte),
      let c := Instr.jog p axis delta speed cond
      (1 < axis.toNat → fault c 0x03 0) ∧ (axis.toNat ≤ 1 → delta = 0 → fault c 0x03 1) ∧
        (axis.toNat ≤ 1 → delta ≠ 0 → 2 < speed.toNat → fault c 0x03 5) ∧
        (axis.toNat ≤ 1 → delta ≠ 0 → speed.toNat ≤ 2 → 1 < cond.toNat → fault c 0x03 6)) ∧
    (∀ axis : Byte, 1 < axis.toNat → fault (.readAxis p axis) 0x04 0) ∧
    (∀ axes : Byte, 2 < axes.toNat →
      fault (.abortMotion p axes) 0x20 0 ∧ fault (.home p axes) 0x21 0 ∧ fault (.axisRecover p axes) 0x22 0) ∧
    (∀ (slot source included : Byte) (v h : Word32) (kv kh : Byte),
      let c := Instr.storePreset p slot source included v h kv kh
      (1 < source.toNat → fault c 0x28 1) ∧ (source.toNat ≤ 1 → 1 < included.toNat → fault c 0x28 2)) ∧
    (∀ slot speed cond : Byte,
      let c := Instr.recallPreset p slot speed cond
      (2 < speed.toNat → fault c 0x29 1) ∧ (speed.toNat ≤ 2 → 1 < cond.toNat → fault c 0x29 2)) ∧
    (∀ mode : Byte, 2 < mode.toNat → fault (.setLightMode p mode) 0x32 0) ∧
    (∀ quiet : Byte, 1 < quiet.toNat → fault (.setQuiet p quiet) 0x33 0) ∧
    (∀ (param index : Byte) (value : Word32),
      let ofAxis := 0x01 ≤ param.toNat ∧ param.toNat ≤ 0x13
      let ofBlock := 0x20 ≤ param.toNat ∧ param.toNat ≤ 0x32
      let suits : Prop :=
        if ofAxis then index.toNat ≤ 1 ∧ ¬ (param = 0x13 ∧ index = 1)
        else if param = 0x2F ∨ param = 0x30 then index.toNat ≤ 2
        else index = 0xFF
      (¬ ofAxis → ¬ ofBlock →
        fault (.setParamAxis p param index value) 0x40 0 ∧ fault (.setParam p param index value) 0x40 0 ∧
          fault (.getParam p param index) 0x41 0) ∧
      (ofAxis ∨ ofBlock → ¬ suits →
        fault (.setParamAxis p param index value) 0x40 1 ∧ fault (.setParam p param index value) 0x40 1 ∧
          fault (.getParam p param index) 0x41 1)) ∧
    ∀ (table : Byte) (w : Word16), 3 < table.toNat →
      fault (.beginLoad p table w) 0x48 0 ∧ fault (.readTable p table w) 0x4B 0

/-- The response to a PENDING slot's request is formed with the event summary of that moment, and a slot that is not PENDING
is left as it is (notes/assumptions/39.md); a copy of a slot is NOT_READY with no payload until the slot is FULL, and then the
whole frame, with 0x00 behind it. Outside hard reset, and bit by bit: the Control Port acknowledges its own address alone, and
each data byte of a write; a read carries the copy of the slot as it stands in the clock that acknowledges the address, while
the system controller acknowledges each byte; that the port sends nothing behind a byte left unacknowledged is the model's
inference (notes/assumptions/51.md). FP_SDO carries behind the type byte of a RESPONSE the copy of the slot as it stands at the
end of that byte, and 0x00 throughout a REQUEST; between transactions CP_SDA is released and FP_SDO high impedance; 0x00 during
the type byte of a RESPONSE is the model's choice (notes/assumptions/43.md) (R164, R165, R166, R167, R168, R194). -/
def Obligations.ResponsesAndCopies : Prop :=
  (∀ (p : Port) (s : State), Awake s →
    (∀ kind status body, (s.port p).slot = .pending kind status body →
      exec (.responseFormed p) s = .next (s.setSlot p (.full kind status ((s.port p).summary :: body)))) ∧
    ((∀ kind status body, (s.port p).slot ≠ .pending kind status body) → exec (.responseFormed p) s = .next s)) ∧
  (∀ n, readOut .empty (3 + n) = [0x10, 0, 0] ++ List.replicate n 0) ∧
  (∀ kind status body n, readOut (.pending kind status body) (3 + n) = [0x10, kind, 0] ++ List.replicate n 0) ∧
  (∀ kind status payload n,
    readOut (.full kind status payload) (3 + payload.length + n) =
      u8 (statusCode status) ++ [kind] ++ u8 payload.length ++ payload ++ List.replicate n 0) ∧
  cpSda none = false ∧ fpSdo none = none ∧
  ∀ (t : Transaction) (own : BitVec 7), (∀ x ∈ t, Awake x.state ∧ x.state.cpi.address = own) →
    let bits := t.flatMap (·.clocked)
    let k := bits.length
    -- the clock with index n ended in state s
    let endedIn (n : Nat) (s : State) : Prop := ∃ before x b y after,
      t = before ++ ⟨s, x ++ b :: y⟩ :: after ∧ (before.flatMap (·.clocked)).length + x.length = n
    let bitOfCopy (slot : Slot) (byte i : Nat) : Bool := ((readOut slot (byte + 1)).getD byte 0).getMsbD i
    (k < 8 → cpSda (some t) = false ∧ fpSdo (some t) = some false) ∧
    (∀ (address : BitVec 7) (read : Bool), bits.take 8 = (List.range 7).map address.getMsbD ++ [read] →
      (address ≠ own → cpSda (some t) = false) ∧
      (address = own → k = 8 → cpSda (some t) = true) ∧
      (address = own → 9 ≤ k → read = false → cpSda (some t) = decide (k % 9 = 8)) ∧
      (address = own → 9 ≤ k → read = true → (∀ i, 17 + 9 * i < k → bits[17 + 9 * i]? = some false) →
        ∀ s, endedIn 8 s →
          cpSda (some t) = if k % 9 = 8 then false else !bitOfCopy s.cpi.port.slot (k / 9 - 1) (k % 9)) ∧
      (address = own → read = true → (∃ i, 17 + 9 * i < k ∧ bits[17 + 9 * i]? = some true) → cpSda (some t) = false)) ∧
    ∀ type : Byte, bits.take 8 = (List.range 8).map type.getMsbD →
      (type = 0xA1 → fpSdo (some t) = some false) ∧
      (type = 0xA2 → ∀ s, endedIn 7 s → fpSdo (some t) = some (bitOfCopy s.fpi.port.slot (k / 8 - 1) (k % 8)))

/-- GET_EVENTS copies the port's set and mask, empties the set and releases the attention line. SET_EVENT_MASK replaces the
port's mask whole and answers the mask and the attention line that follows; a mask that marks a position naming no kind is
refused BAD_REQUEST with cause FIELD. Nothing else changes (R176, R177, R195, R197, R202). That bits 18
to 23 of the mask a GET_EVENTS answer carries are 0 before any SET_EVENT_MASK is the model's choice (notes/assumptions/49.md). -/
def Obligations.EventRequests : Prop :=
  (∀ (p : Port) (s : State), Listens s → ∃ t,
    exec (.getEvents p) s = .next t ∧
    t = answered (s.setPort p { s.port p with events := [] }) p 0x09 .ok
      (le24 (s.port p).mask ++ u8 (s.port p).events.length ++ ((s.port p).events.map SetEntry.bytes).flatten) ∧
    t.attention p = false) ∧
  ∀ (p : Port) (mask : BitVec 24) (s : State), Listens s →
    (mask.toNat < 2 ^ 18 →
      exec (.setEventMask p mask) s =
        .next (answered (s.setPort p { s.port p with mask := mask.setWidth 18 }) p 0x0A .ok
          (le24 (mask.setWidth 18) ++
            flag ((s.port p).events.any fun e => mask.getLsbD (kindCode e.event.kind))))) ∧
    (2 ^ 18 ≤ mask.toNat → exec (.setEventMask p mask) s = .next (answered s p 0x0A .badRequest [3, 2]))

/-- Raising an event leaves the set of a processor it is not routed to; appends an entry of count 1 at the tail of a set with no
entry of its kind; and replaces the detail of such an entry in its place, with its count one higher, up to 15 (R173, R174). -/
def Obligations.RaisingAnEvent : Prop :=
  ∀ (s : State) (e : Event) (p : Port),
    (routed p e.kind = false → (s.raise e).port p = s.port p) ∧
    (routed p e.kind = true → (∀ x ∈ (s.port p).events, x.event.kind ≠ e.kind) →
      (s.raise e).port p = { s.port p with events := (s.port p).events ++ [⟨e, 1⟩] }) ∧
    ∀ front x back, routed p e.kind = true → (s.port p).events = front ++ x :: back →
      (∀ y ∈ front, y.event.kind ≠ e.kind) → x.event.kind = e.kind →
      (s.raise e).port p = { s.port p with events := front ++ ⟨e, min 15 (x.count + 1)⟩ :: back }

/-- What RESTART leaves: no load, no reservation, an empty Frame Port slot, no queue, every moving axis halted where it stands
in HOLD, both event sets emptied before the events of the halt and the INSTALL_CHANGED of the one part-originated change that
sets both targets to the positions, a recompute trigger; all else is kept. A pending home is cancelled with HOME_FAIL (R178,
R16, R43, R53, R179). The order of the events of one axis is the model's reading (notes/assumptions/12.md). -/
def Obligations.Restart : Prop :=
  ∀ s : State, Listens s → ∃ t, exec (.restart .control) s = .next t ∧
    t.irm = { s.irm with targetV := s.lmc.v.position, targetH := s.lmc.h.position,
                         generation := s.irm.generation + 1, reserveControl := none, reserveFrame := none } ∧
    (∃ body, t.cpi = { s.cpi with
      load := none, port := { s.cpi.port with slot := .pending 0x7F .ok body, events := t.cpi.port.events } }) ∧
    t.fpi = { s.fpi with port := { s.fpi.port with slot := .empty, events := t.fpi.port.events } } ∧
    (∀ a : Axis,
      let x := s.axis a
      let still := { x with queue := [], flagLo := false, flagHi := false }
      (x.moving = false → t.axis a = still) ∧
      (x.moving = true →
        t.axis a = { still with
          motion := .idle, stepTimer := none, pendingHome := false,
          trust := if x.motion.mode = .homing then .unhomed else .unsure,
          phase := if x.params.tHold = 0 then .rest else .hold,
          holdTimer := if x.params.tHold = 0 then none else some (s.now + 1000 * x.params.tHold) })) ∧
    (let raised :=
       s.lmc.v.haltEvents .v .restart ++ s.lmc.h.haltEvents .h .restart ++ [.installChanged (s.irm.generation + 1) .part]
     t.cpi.port.events = raisedTo raised [] ∧ t.fpi.port.events = raisedTo raised []) ∧
    (s.ge.inFlight.isSome = true → t.ge = { s.ge with pendingMark := true }) ∧
    (s.ge.inFlight = none → t.ge = { s.ge with
      inFlight := some ⟨t.geoInputs, s.ge.attachMark⟩, refV := s.lmc.v.position, refH := s.lmc.h.position,
      attachMark := false }) ∧
    t.fmon = s.fmon ∧ t.tmon = s.tmon ∧ t.afc = s.afc ∧ t.lau = s.lau ∧ t.now = s.now

/-- A RESET_N low of at least 2 microseconds, and power-on, put every block at its hard-reset values and keep only the clock,
the queue, the address (notes/assumptions/48.md) and the line levels; a low below 1 microsecond is ignored; between the two the
part resets or ignores it, which is left free (R180; notes/assumptions/7.md). At the end of hard reset the address follows
CP_ASEL, the first scan starts with the free Probe Bus, no event is raised and no record changes; a transaction then under way on a port has its
request ignored, which ends the mark that holds this, and nothing else (notes/assumptions/44.md); each axis whose DRV_FLT is
active enters FAULT UNSURE with its coils OFF and LENS_FAULT is raised, whatever the ports show, and the first scan goes on by
what the Probe Bus shows (R180, R181, R164, R60, R103). The model's own: outside hard reset HARD_RESET_END does nothing
(notes/assumptions/32.md), the faults of both axes are one event with one trigger (notes/assumptions/11.md), they come before
the first scan (notes/assumptions/12.md), and in that scan the AFC comes before the LAU (notes/assumptions/10.md). -/
def Obligations.HardResetAndItsEnd : Prop :=
  (∀ s : State,
    (∀ low : Option Nat, low.all (2000 ≤ ·) = true →
      exec (.hardReset low) s =
        .next { now := s.now, inReset := true, resetPulses := s.resetPulses,
                cpi := { Cpi.reset false with address := s.cpi.address }, fpi := .reset, irm := .reset,
                lmc := { v := { AxisState.reset .v with endLo := s.lmc.v.endLo, endHi := s.lmc.v.endHi,
                                                         drvFlt := s.lmc.v.drvFlt, refMk := s.lmc.v.refMk,
                                                         freeCount := s.lmc.v.freeCount },
                         h := { AxisState.reset .h with endLo := s.lmc.h.endLo, endHi := s.lmc.h.endHi,
                                                         drvFlt := s.lmc.h.drvFlt, refMk := s.lmc.h.refMk,
                                                         freeCount := s.lmc.h.freeCount } },
                ge := .reset, fmon := .reset, tmon := .reset, afc := .reset,
                lau := { Lau.reset with lightOk := s.lau.lightOk, lightFlt := s.lau.lightFlt },
                pending := s.pending }) ∧
    (∀ ns, ns < 1000 → exec (.hardReset (some ns)) s = .next s) ∧
    ∀ ns, 1000 ≤ ns → ns < 2000 →
      exec (.hardReset (some ns)) s = .next { s with resetPulses := s.resetPulses + 1 } ∨
      exec (.hardReset (some ns)) s = .next { s.hardReset with resetPulses := s.resetPulses + 1 }) ∧
  ∀ (s : State) (asel : Bool),
    (s.lmc.v.drvFlt = false → s.lmc.h.drvFlt = false → ∀ cBusy fBusy : Bool,
      exec (.hardResetEnd ⟨asel, cBusy, fBusy⟩ ⟨true, true, none⟩) s.hardReset =
        .next { s.hardReset with
          inReset := false, cpi := { Cpi.reset asel with port := { PortState.reset with crossing := cBusy } },
          fpi := { Fpi.reset with port := { PortState.reset with crossing := fBusy } },
          tmon := { Tmon.reset with scan := some { slots := [0, 1, 2, 3, 4, 5], bus := .clear },
                                    nextScan := some (s.now + 100000) } }) ∧
    (s.lmc.v.drvFlt = true → s.lmc.h.drvFlt = false →
      ∃ t, exec (.hardResetEnd ⟨asel, false, false⟩ ⟨true, true, none⟩) s.hardReset = .next t ∧ t.inReset = false ∧
        t.lmc.v.motion = .fault ∧ t.lmc.v.trust = .unsure ∧ t.lmc.v.phase = .off ∧ t.lmc.v.queue = [] ∧
        t.lmc.h = s.hardReset.lmc.h ∧ t.irm = .reset ∧
        t.cpi.port.events = [⟨.lensFault .v 24000 .idle, 1⟩] ∧ t.fpi.port.events = [⟨.lensFault .v 24000 .idle, 1⟩] ∧
        t.ge.inFlight.isSome = true) ∧
    (∀ (cBusy fBusy : Bool) (bus : BusSample),
      let fault (a : Axis) : AxisState :=
        if (s.axis a).drvFlt then
          { s.hardReset.axis a with motion := .fault, trust := .unsure, phase := .off }
        else s.hardReset.axis a
      let raised := (if s.lmc.v.drvFlt then [Event.lensFault .v 24000 .idle] else []) ++
        (if s.lmc.h.drvFlt then [.lensFault .h 9600 .idle] else [])
      let woken : State := State.recomputeIf
        (State.raiseAll
          { s.hardReset with
            inReset := false, cpi := { Cpi.reset asel with port := { PortState.reset with crossing := cBusy } },
            fpi := { Fpi.reset with port := { PortState.reset with crossing := fBusy } }, lmc := ⟨fault .v, fault .h⟩,
            tmon := { Tmon.reset with nextScan := some (s.now + 100000) } } raised)
        (s.lmc.v.drvFlt || s.lmc.h.drvFlt)
      ∃ t, exec (.hardResetEnd ⟨asel, cBusy, fBusy⟩ bus) s.hardReset = .next t ∧
        ScanGoesOn woken [0, 1, 2, 3, 4, 5] .clear bus t) ∧
    (∀ ports bus, Awake s → exec (.hardResetEnd ports bus) s = .next s) ∧
    ∀ p : Port, Awake s → (s.port p).crossing = true →
      let ended := s.setPort p { s.port p with crossing := false }
      (∀ c : Instr, portOf c = some p → exec c s = .next ended) ∧
      ∀ bytes : List Byte, isMalformed p bytes = true → exec (.malformedRequest p bytes) s = .next ended


/-! ### The installation record and the lens memories (01) -/

/-- READ_INSTALL answers OK with one copy; with reserve 1 the caller's reservation first becomes VALID with the generation,
and the other's stays; another reserve code is refused BAD_REQUEST. A conditional installation write whose caller holds no
VALID reservation of this generation is refused STALE and leaves that reservation INVALID and nothing else changed; with such
a reservation it does what the unconditional write does (R5, R6, R9, R195, R197, R198). -/
def Obligations.Reservations : Prop :=
  (∀ (p : Port) (s : State), Listens s →
    exec (.readInstall p 0) s = .next (answered s p 0x01 .ok (s.installReply p)) ∧
    (∀ reserve : Byte, 2 ≤ reserve.toNat →
      exec (.readInstall p reserve) s = .next (answered s p 0x01 .badRequest [3, 0])) ∧
    let t := { s with irm := s.irm.setReservation p (some s.irm.generation) }
    exec (.readInstall p 1) s = .next (answered t p 0x01 .ok (t.installReply p)) ∧
      t.irm.reservation p = some s.irm.generation ∧ ∀ q, q ≠ p → t.irm.reservation q = s.irm.reservation q) ∧
  ∀ (p : Port) (s : State), Listens s →
    let stale := { s with irm := s.irm.setReservation p none }
    (stale.irm.reservation p = none ∧ ∀ q, q ≠ p → stale.irm.reservation q = s.irm.reservation q) ∧
    (∀ (presence orientation kv kh : Byte) (v h : Word32) (speed : Byte),
      (s.irm.reservation p = some s.irm.generation →
        exec (.writeInstall p presence orientation kv kh v h speed 1) s =
          exec (.writeInstall p presence orientation kv kh v h speed 0) s) ∧
      (s.irm.reservation p ≠ some s.irm.generation → presenceFits presence = true →
        (bit presence 0 = true → (readOrientation orientation).isSome) → (p = .control ∨ bit presence 0 = false) →
        (readSpeed speed).isSome →
        exec (.writeInstall p presence orientation kv kh v h speed 1) s =
          .next (answered stale p 0x02 .stale (s.writeReply .none .none)))) ∧
    (∀ (axis : Byte) (delta : Word32) (speed : Byte),
      (s.irm.reservation p = some s.irm.generation →
        exec (.jog p axis delta speed 1) s = exec (.jog p axis delta speed 0) s) ∧
      (s.irm.reservation p ≠ some s.irm.generation → (readAxis axis).isSome → delta ≠ 0 →
        delta.toInt.natAbs ≤ 65535 → (readSpeed speed).isSome →
        exec (.jog p axis delta speed 1) s =
          .next (answered stale p 0x03 .stale (s.writeReply .none .none)))) ∧
    ∀ slot speed : Byte,
      (s.irm.reservation .control = some s.irm.generation →
        exec (.recallPreset .control slot speed 1) s = exec (.recallPreset .control slot speed 0) s) ∧
      (p = .control → s.irm.reservation p ≠ some s.irm.generation → slot.toNat < 8 → (s.irm.preset slot).isSome →
        (readSpeed speed).isSome →
        exec (.recallPreset .control slot speed 1) s =
          .next (answered stale .control 0x29 .stale (s.writeReply .none .none)))

/-- An unconditional WRITE_INSTALL of codes and orientation alone is accepted in every thermal state: the fields present take
their values, codes clamped to -30..+30, in one installation change; a value that differs is a recompute trigger; the status
is CLAMPED or OK (R7, R8, R10, R11, R3, R4). -/
def Obligations.WriteCodes : Prop :=
  ∀ (p : Port) (presence orientation kv kh : Byte) (targetV targetH : Word32) (speed : Byte) (o : Orientation) (s : State),
    Listens s → HeadsStarted s → presenceFits presence = true → bit presence 3 = false → bit presence 4 = false →
    (p = .control ∨ bit presence 0 = false) → (bit presence 0 = true → readOrientation orientation = some o) →
    (readSpeed speed).isSome →
    let o' := if bit presence 0 then o else s.irm.orientation
    let kv' := if bit presence 1 then max (-30) (min 30 kv.toInt) else s.irm.kv
    let kh' := if bit presence 2 then max (-30) (min 30 kh.toInt) else s.irm.kh
    let clamped : Bool :=
      (bit presence 1 && decide (kv.toInt < -30 ∨ 30 < kv.toInt)) ||
        (bit presence 2 && decide (kh.toInt < -30 ∨ 30 < kh.toInt))
    let u := changed s { s.irm with orientation := o', kv := kv', kh := kh' } (portOriginator p)
    exec (.writeInstall p presence orientation kv kh targetV targetH speed 0) s =
      .next (answered
        (u.recomputeIf (decide (o' ≠ s.irm.orientation ∨ kv' ≠ s.irm.kv ∨ kh' ≠ s.irm.kh))) p 0x02
        (if clamped then .clamped else .ok) (u.writeReply .none .none))

/-- An unconditional WRITE_INSTALL, with codes, orientation and targets for either axis or both. By the order of R8, of the
axes given a target: a part that is CRITICAL or tripped refuses THERMAL_HOLD, one HOMING or with a pending home BUSY, one in
FAULT FAULTED, one not HOMED NOT_HOMED, one that needs a fifth entry QUEUE_FULL, and then nothing but the slot changes on
either axis. Else the write is applied whole, in one installation change: an axis at the target as its drain position is
untouched, a newest waiting ABSOLUTE entry is replaced, an IDLE axis starts its leg by R29 in the new orientation, any other
takes the entry at its tail; a code or an orientation that differs is one recompute trigger, taken after the change
(notes/assumptions/11.md). Of one axis: an absolute target for an IDLE, HOMED axis that stands elsewhere starts its move: one
active entry with the clamped target, the coils in RUN, leg 1, as R29 plans it, with its first microstep timed; the target of
the record follows in one installation change, and nothing else of the part changes (R7, R8, R10, R12, R25, R29, R31). -/
def Obligations.WriteTargetStartsAMove : Prop :=
  (∀ (p : Port) (presence orientation kv kh : Byte) (targetV targetH : Word32) (speed : Byte) (class_ : SpeedClass)
    (s : State),
    Listens s → HeadsStarted s → presenceFits presence = true → (p = .control ∨ bit presence 0 = false) →
    (bit presence 0 = true → (readOrientation orientation).isSome) → readSpeed speed = some class_ →
    let given : Axis → Bool := fun a => match a with | .v => bit presence 3 | .h => bit presence 4
    let asked : Axis → Int := fun a => match a with | .v => targetV.toInt | .h => targetH.toInt
    let target : Axis → Int := fun a => max 0 (min ((s.axis a).params.travel : Int) (asked a))
    let entry : Axis → Entry := fun a => ⟨.absolute, portOrigin p, target a, class_, false⟩
    let action : Axis → QueueAction := fun a =>
      if given a = false ∨ target a = s.drain a then .none
      else if (s.axis a).queue.getLast?.any (fun e => !e.active && decide (e.kind = .absolute)) then .replaced
      else .appended
    let c : Instr := .writeInstall p presence orientation kv kh targetV targetH speed 0
    let refused (status : Status) : Prop := exec c s = .next (answered s p 0x02 status (s.writeReply .none .none))
    let free : Prop := ∀ a, given a = true → (s.axis a).motion.mode ≠ .homing ∧ (s.axis a).pendingHome = false
    let sound : Prop := free ∧ ∀ a, given a = true → (s.axis a).motion ≠ .fault
    let homed : Prop := sound ∧ ∀ a, given a = true → (s.axis a).trust = .homed
    ((given .v = true ∨ given .h = true) → ¬ CanRun s → refused .thermalHold) ∧
    (CanRun s →
      ((∃ a, given a = true ∧ ((s.axis a).motion.mode = .homing ∨ (s.axis a).pendingHome = true)) → refused .busy) ∧
      (free → (∃ a, given a = true ∧ (s.axis a).motion = .fault) → refused .faulted) ∧
      (sound → (∃ a, given a = true ∧ (s.axis a).trust ≠ .homed) → refused .notHomed) ∧
      (homed → (∃ a, action a = .appended ∧ 4 ≤ (s.axis a).queue.length) → refused .queueFull) ∧
      (homed → (∀ a, action a = .appended → (s.axis a).queue.length < 4) →
        let o' := if bit presence 0 then (readOrientation orientation).getD s.irm.orientation else s.irm.orientation
        let kv' := if bit presence 1 then max (-30) (min 30 kv.toInt) else s.irm.kv
        let kh' := if bit presence 2 then max (-30) (min 30 kh.toInt) else s.irm.kh
        let clamped : Bool :=
          (bit presence 1 && decide (kv.toInt < -30 ∨ 30 < kv.toInt)) ||
            (bit presence 2 && decide (kh.toInt < -30 ∨ 30 < kh.toInt)) ||
            (given .v && decide (target .v ≠ asked .v)) || (given .h && decide (target .h ≠ asked .h))
        let after : Axis → AxisState := fun a =>
          let x := s.axis a
          match action a, x.motion, { s.axisEnv a with orientation := o' }.planLeg x (entry a) 1 with
          | .none, _, _ => x
          | .replaced, _, _ => { x with queue := x.queue.dropLast ++ [entry a] }
          | .appended, .idle, some l => { x.atLeg s.now l with queue := [{ entry a with active := true }] }
          | .appended, _, _ => { x with queue := x.queue ++ [entry a] }
        let u := changed { s with lmc := ⟨after .v, after .h⟩ }
          { s.irm with orientation := o', kv := kv', kh := kh',
                       targetV := if given .v then target .v else s.irm.targetV,
                       targetH := if given .h then target .h else s.irm.targetH } (portOriginator p)
        exec c s = .next (answered
          (u.recomputeIf (decide (o' ≠ s.irm.orientation ∨ kv' ≠ s.irm.kv ∨ kh' ≠ s.irm.kh))) p 0x02
          (if clamped then .clamped else if action .v = .none ∧ action .h = .none then .ok else .accepted)
          (u.writeReply (action .v) (action .h)))))) ∧
  ∀ (p : Port) (a : Axis) (targetV targetH : Word32) (speed : Byte) (class_ : SpeedClass) (s : State),
    Listens s → HeadsStarted s → CanRun s → readSpeed speed = some class_ → (s.axis a).motion = .idle →
    (s.axis a).trust = .homed → (s.axis a).pendingHome = false →
    let asked := match a with | .v => targetV.toInt | .h => targetH.toInt
    let target := max 0 (min ((s.axis a).params.travel : Int) asked)
    target ≠ (s.axis a).position →
    ∃ (t : State) (l : Leg),
      exec (.writeInstall p (match a with | .v => 8 | .h => 16) 0 0 0 targetV targetH speed 0) s = .next t ∧
      (∃ body, t = answered
        (changed
          (s.setAxis a { s.axis a with
            motion := .running l, phase := .run, holdTimer := none, flagLo := false, flagHi := false,
            queue := [⟨.absolute, portOrigin p, target, class_, true⟩],
            stepTimer := some (s.now + l.period (s.axis a).params 0), lastStepAt := s.now })
          (retarget s.irm a target) (portOriginator p)) p 0x02
        (if target = asked then .accepted else .clamped) body) ∧
      (s.axisEnv a).planLeg (s.axis a) ⟨.absolute, portOrigin p, target, class_, false⟩ 1 = some l ∧
      l.number = 1 ∧ l.issued = 0 ∧ l.n = (l.endPoint - (s.axis a).position).natAbs ∧ 1 ≤ l.n ∧
      (l.kind = .final → l.endPoint = target)

/-- An absolute target for a RUNNING, HOMED axis joins its queue: none at the drain position; the newest waiting entry is
replaced in place when it is ABSOLUTE; else the entry is appended; with four entries and a newest one not waiting and ABSOLUTE
the request is refused QUEUE_FULL. The running leg is untouched (R12, R8, R33). -/
def Obligations.WriteTargetJoinsTheQueue : Prop :=
  ∀ (p : Port) (a : Axis) (targetV targetH : Word32) (speed : Byte) (class_ : SpeedClass) (l : Leg) (front : List Entry)
    (newest : Entry) (s : State),
    Listens s → HeadsStarted s → CanRun s → readSpeed speed = some class_ → (s.axis a).motion = .running l →
    (s.axis a).trust = .homed → (s.axis a).pendingHome = false → (s.axis a).queue = front ++ [newest] →
    let target : Int := match a with | .v => targetV.toInt | .h => targetH.toInt
    0 ≤ target → target ≤ (s.axis a).params.travel →
    let c : Instr := .writeInstall p (match a with | .v => 8 | .h => 16) 0 0 0 targetV targetH speed 0
    let entry : Entry := ⟨.absolute, portOrigin p, target, class_, false⟩
    let replaceable := newest.active = false ∧ newest.kind = .absolute
    let after (queue : List Entry) (status : Status) : Prop :=
      ∃ body, exec c s = .next (answered
        (changed (s.setAxis a { s.axis a with queue := queue }) (retarget s.irm a target) (portOriginator p)) p 0x02
        status body)
    (target = newest.target → after (front ++ [newest]) .ok) ∧
    (target ≠ newest.target → replaceable → after (front ++ [entry]) .accepted) ∧
    (target ≠ newest.target → ¬ replaceable → (front ++ [newest]).length < 4 →
      after (front ++ [newest, entry]) .accepted) ∧
    (target ≠ newest.target → ¬ replaceable → 4 ≤ (front ++ [newest]).length →
      ∃ body, exec c s = .next (answered s p 0x02 .queueFull body))

/-- A JOG adds its distance to the drain position, clamped to the travel on a HOMED axis and saturated to 32 bits on any
other. On a RUNNING or STOPPING axis it always appends a RELATIVE entry, or is refused QUEUE_FULL; on an IDLE axis the entry
starts its first leg, as R29 plans it, or completes at once with LENS_DONE COMPLETE when it covers no distance. A delta of 0
is refused BAD_REQUEST, one above 65535 OUT_OF_RANGE; else a part that is CRITICAL or tripped refuses THERMAL_HOLD, an axis
HOMING or with a pending home BUSY, one in FAULT FAULTED, with nothing but the slot changed; an axis not HOMED takes a JOG
(R8, R10, R13, R25, R26, R29, R31). -/
def Obligations.JogAppendsAMove : Prop :=
  (∀ (p : Port) (axis : Byte) (a : Axis) (delta : Word32) (speed : Byte) (s : State),
    Listens s → readAxis axis = some a → (readSpeed speed).isSome → delta ≠ 0 → delta.toInt.natAbs ≤ 65535 →
    let refused (status : Status) : Prop :=
      exec (.jog p axis delta speed 0) s = .next (answered s p 0x03 status (s.writeReply .none .none))
    (¬ CanRun s → refused .thermalHold) ∧
    (CanRun s → (s.axis a).motion.mode = .homing ∨ (s.axis a).pendingHome = true → refused .busy) ∧
    (CanRun s → (s.axis a).pendingHome = false → (s.axis a).motion = .fault → refused .faulted)) ∧
  ∀ (p : Port) (axis : Byte) (a : Axis) (delta : Word32) (speed : Byte) (class_ : SpeedClass) (s : State),
    Listens s → HeadsStarted s → CanRun s → readAxis axis = some a → readSpeed speed = some class_ →
    let x := s.axis a
    let asked := s.drain a + delta.toInt
    let target :=
      if x.trust = .homed then max 0 (min (x.params.travel : Int) asked)
      else max (-2147483648) (min 2147483647 asked)
    let status : Status := if target = asked then .accepted else .clamped
    let entry : Entry := ⟨.relative, portOrigin p, target, class_, false⟩
    let c : Instr := .jog p axis delta speed 0
    (delta = 0 → exec c s = .next (answered s p 0x03 .badRequest [3, 1])) ∧
    (65535 < delta.toInt.natAbs → ∃ body, exec c s = .next (answered s p 0x03 .outOfRange body)) ∧
    (delta ≠ 0 → delta.toInt.natAbs ≤ 65535 → x.pendingHome = false →
      (x.motion.mode = .running ∨ x.motion.mode = .stopping →
        (x.queue.length < 4 → ∃ body, exec c s = .next (answered
          (changed (s.setAxis a { x with queue := x.queue ++ [entry] }) (retarget s.irm a target) (portOriginator p))
          p 0x03 status body)) ∧
        (4 ≤ x.queue.length → ∃ body, exec c s = .next (answered s p 0x03 .queueFull body))) ∧
      (x.motion = .idle → target ≠ x.position → ∃ (l : Leg) (body : List Byte), exec c s = .next (answered
          (changed
            (s.setAxis a { x with
              motion := .running l, phase := .run, holdTimer := none, flagLo := false, flagHi := false,
              queue := [{ entry with active := true }], stepTimer := some (s.now + l.period x.params 0),
              lastStepAt := s.now })
            (retarget s.irm a target) (portOriginator p)) p 0x03 status body) ∧
          (s.axisEnv a).planLeg x entry 1 = some l ∧ l.number = 1 ∧ l.issued = 0 ∧
          l.n = (l.endPoint - x.position).natAbs ∧ (l.kind = .final → l.endPoint = target)) ∧
      (x.motion = .idle → target = x.position → ∃ body : List Byte, exec c s = .next (answered
        (State.recompute (State.raise
          (changed
            (s.setAxis a { x.holding s.now with queue := [] })
            (retarget s.irm a target) (portOriginator p))
          (.lensDone a x.position .complete))) p 0x03 status body)))

/-- READ_PRESET shows a slot and CLEAR_PRESET empties one; STORE_PRESET fills one from the record, which needs both axes
HOMED, or from its own fields clamped to the travel and to -30..+30; a slot above 7 is OUT_OF_RANGE. None of them is an
installation change (R17, R18, R20, R197). That a store of the record takes a target outside the travel as it is, is the
model's choice (notes/assumptions/42.md), and the layout of the answers its reading (notes/assumptions/13.md). -/
def Obligations.LensMemories : Prop :=
  ∀ (slot : Byte) (s : State), Listens s →
    let put (x : Option Preset) : State := { s with irm := { s.irm with presets := s.irm.presets.set slot.toNat x } }
    (slot.toNat < 8 →
      (∀ p : Port, exec (.readPreset p slot) s = .next (answered s p 0x08 .ok (s.presetReply slot))) ∧
      exec (.clearPreset .control slot) s = .next (answered (put none) .control 0x2A .ok []) ∧
      (∀ (inc : Byte) (keep : Bool) (v h : Word32) (kv kh : Byte), readFlag inc = some keep →
        let current := put (some ⟨s.irm.targetV, s.irm.targetH, if keep then some (s.irm.kv, s.irm.kh) else none⟩)
        (s.lmc.v.trust = .homed → s.lmc.h.trust = .homed →
          exec (.storePreset .control slot 0 inc v h kv kh) s =
            .next (answered current .control 0x28 .ok (current.presetReply slot))) ∧
        (s.lmc.v.trust ≠ .homed ∨ s.lmc.h.trust ≠ .homed →
          exec (.storePreset .control slot 0 inc v h kv kh) s =
            .next (answered s .control 0x28 .notHomed (s.presetReply slot))) ∧
        let v' := max 0 (min (s.lmc.v.params.travel : Int) v.toInt)
        let h' := max 0 (min (s.lmc.h.params.travel : Int) h.toInt)
        let kv' := max (-30) (min 30 kv.toInt)
        let kh' := max (-30) (min 30 kh.toInt)
        let explicit := put (some ⟨v', h', if keep then some (kv', kh') else none⟩)
        exec (.storePreset .control slot 1 inc v h kv kh) s =
          .next (answered explicit .control 0x28
            (if v' ≠ v.toInt ∨ h' ≠ h.toInt ∨ keep = true ∧ (kv' ≠ kv.toInt ∨ kh' ≠ kh.toInt) then .clamped else .ok)
            (explicit.presetReply slot)))) ∧
    (8 ≤ slot.toNat →
      (∀ p : Port, ∃ b, exec (.readPreset p slot) s = .next (answered s p 0x08 .outOfRange b)) ∧
      (∃ b, exec (.clearPreset .control slot) s = .next (answered s .control 0x2A .outOfRange b)) ∧
      (∀ (v h : Word32) (kv kh : Byte),
        ∃ b, exec (.storePreset .control slot 1 0 v h kv kh) s = .next (answered s .control 0x28 .outOfRange b)) ∧
      ∃ b, exec (.recallPreset .control slot 0 0) s = .next (answered s .control 0x29 .outOfRange b))

/-- RECALL_PRESET with both axes IDLE, HOMED and empty: the record takes the slot's targets, clamped to the travel, and its
codes when they were stored, in one change of originator CONTROL, which both event sets take as INSTALL_CHANGED of the next
generation and nothing else; an axis that stands elsewhere runs an entry of origin PRESET, and one that stands there is
untouched. A code that changes is a recompute trigger, which starts a computation or sets the pending mark, and with no code
changed the GE stays as it was. An EMPTY slot is refused EMPTY; a part that cannot run, THERMAL_HOLD; an axis HOMING or with a
pending home, BUSY; an axis in FAULT, FAULTED; an axis not HOMED, NOT_HOMED (R3, R4, R8, R19). That the trigger is taken after
the change, so that a computation latches the new generation, is the model's reading (notes/assumptions/11.md). -/
def Obligations.RecallPreset : Prop :=
  ∀ (slot speed : Byte) (class_ : SpeedClass) (s : State), Listens s → slot.toNat < 8 → readSpeed speed = some class_ →
    (s.irm.preset slot = none →
      ∃ b, exec (.recallPreset .control slot speed 0) s = .next (answered s .control 0x29 .empty b)) ∧
    ∀ x : Preset, s.irm.preset slot = some x →
      (¬ CanRun s → ∃ b, exec (.recallPreset .control slot speed 0) s = .next (answered s .control 0x29 .thermalHold b)) ∧
      (let refused (status : Status) : Prop :=
         exec (.recallPreset .control slot speed 0) s =
           .next (answered s .control 0x29 status (s.writeReply .none .none))
       let busy : Prop := ∃ a : Axis, (s.axis a).motion.mode = .homing ∨ (s.axis a).pendingHome = true
       CanRun s →
        (busy → refused .busy) ∧
        (¬ busy → (∃ a : Axis, (s.axis a).motion = .fault) → refused .faulted) ∧
        (¬ busy → (∀ a : Axis, (s.axis a).motion ≠ .fault) → (∃ a : Axis, (s.axis a).trust ≠ .homed) →
          refused .notHomed)) ∧
      (CanRun s →
        (∀ a : Axis, (s.axis a).motion = .idle ∧ (s.axis a).queue = [] ∧ (s.axis a).pendingHome = false) →
        (s.lmc.v.trust ≠ .homed ∨ s.lmc.h.trust ≠ .homed →
          ∃ b, exec (.recallPreset .control slot speed 0) s = .next (answered s .control 0x29 .notHomed b)) ∧
        (s.lmc.v.trust = .homed → s.lmc.h.trust = .homed →
          let v := max 0 (min (s.lmc.v.params.travel : Int) x.targetV)
          let h := max 0 (min (s.lmc.h.params.travel : Int) x.targetH)
          let want : Axis → Int := fun a => match a with | .v => v | .h => h
          let action : Axis → QueueAction := fun a => if want a = (s.axis a).position then .none else .appended
          let changes := .installChanged (s.irm.generation + 1) .control
          ∃ t : State, exec (.recallPreset .control slot speed 0) s = .next t ∧
            t.cpi.port.slot = .pending 0x29
              (if v ≠ x.targetV ∨ h ≠ x.targetH then .clamped
               else if v = s.lmc.v.position ∧ h = s.lmc.h.position then .ok else .accepted)
              (t.writeReply (action .v) (action .h)) ∧
            t.irm = { s.irm with
              targetV := v, targetH := h, kv := (x.keystone.map Prod.fst).getD s.irm.kv,
              kh := (x.keystone.map Prod.snd).getD s.irm.kh, generation := s.irm.generation + 1,
              reserveControl := none, reserveFrame := none } ∧
            (∀ a : Axis, want a = (s.axis a).position → t.axis a = s.axis a) ∧
            (∀ a : Axis, want a ≠ (s.axis a).position → ∃ l : Leg,
              t.axis a = { s.axis a with
                motion := .running l, phase := .run, holdTimer := none, flagLo := false, flagHi := false,
                queue := [⟨.absolute, .preset, want a, class_, true⟩],
                stepTimer := some (s.now + l.period (s.axis a).params 0), lastStepAt := s.now } ∧
              (s.axisEnv a).planLeg (s.axis a) ⟨.absolute, .preset, want a, class_, false⟩ 1 = some l ∧
              l.number = 1 ∧ l.issued = 0 ∧ (l.kind = .final → l.endPoint = want a)) ∧
            t.cpi = { s.cpi with port :=
              { s.cpi.port with slot := t.cpi.port.slot, events := placeEvent changes s.cpi.port.events } } ∧
            t.fpi = { s.fpi with port := { s.fpi.port with events := placeEvent changes s.fpi.port.events } } ∧
            t.fmon = s.fmon ∧ t.tmon = s.tmon ∧ t.afc = s.afc ∧ t.lau = s.lau ∧ t.now = s.now ∧
            (t.irm.kv = s.irm.kv → t.irm.kh = s.irm.kh → t.ge = s.ge) ∧
            (t.irm.kv ≠ s.irm.kv ∨ t.irm.kh ≠ s.irm.kh →
              (s.ge.inFlight.isSome = true → t.ge = { s.ge with pendingMark := true }) ∧
              (s.ge.inFlight = none → t.ge = { s.ge with
                inFlight := some ⟨t.geoInputs, s.ge.attachMark⟩, refV := s.lmc.v.position, refH := s.lmc.h.position,
                attachMark := false }))))

/-! ### The lens axes (02, 03) -/

/-- ABORT_MOTION begins a decelerating stop on each named axis that is RUNNING or HOMING: the stop position is recorded in one
part-originated change, the waiting entries are flushed, a homing run is abandoned UNHOMED. A stop of no microstep has ended
when it is taken, with LENS_DONE ABORTED and the axis in HOLD. The stop of a homing run takes as many microsteps as there are
ramp indices whose period at the NORMAL speed lies above P_home, 183 with V's default parameters. A named axis that is IDLE,
STOPPING or in FAULT, and an axis not named, is left as it is (R34, R35, R36, R15). A stop counts from the last
issued microstep, which lastStepAt holds. That it counts from the start of a homing run that has issued no microstep is the
model's reading (notes/assumptions/34.md), as are one trigger taken last (notes/assumptions/11.md), INSTALL_CHANGED before
LENS_DONE (notes/assumptions/12.md) and LENS_DONE for an abandoned homing run (notes/assumptions/19.md). -/
def Obligations.AbortMotion : Prop :=
  (∀ x : AxisParams, x.homingStopSteps ≤ x.nRamp ∧
    ∀ j < x.nRamp, (j < x.homingStopSteps ↔ x.pHome < x.pStart - j * (x.pStart - x.pRunNormal) / x.nRamp)) ∧
  (AxisParams.default .v).homingStopSteps = 183 ∧
  ∀ (axes : Byte) (named : Bool × Bool) (s : State), Listens s → StopsRun s → readAxes axes = some named →
    let stopOf : Axis → Option Stop := fun a => if namesAxis named a then (s.axis a).stopOf .aborted else none
    let after : Axis → AxisState := fun a => match stopOf a with | some st => (s.axis a).stopped s.now st | none => s.axis a
    let done : Axis → List Event := fun a => if namesAxis named a then (s.axis a).doneAtOnce a .aborted else []
    (∀ a st, stopOf a = some st →
      fitsCount st.position = true ∧ (st.remaining = 0 → (s.axis a).pendingHome = false)) →
    (stopOf .v = none → stopOf .h = none →
      ∃ body, exec (.abortMotion .control axes) s = .next (answered s .control 0x20 .ok body)) ∧
    ((stopOf .v).isSome ∨ (stopOf .h).isSome → ∃ body,
      exec (.abortMotion .control axes) s = .next (answered
        (State.recomputeIf
          (State.raiseAll
            (changed { s with lmc := ⟨after .v, after .h⟩ }
              { s.irm with targetV := ((stopOf .v).map Stop.position).getD s.irm.targetV,
                           targetH := ((stopOf .h).map Stop.position).getD s.irm.targetH } .part)
            (done .v ++ done .h))
          ((s.lmc.v.trust != (after .v).trust) || (s.lmc.h.trust != (after .h).trust) || !(done .v ++ done .h).isEmpty))
        .control 0x20 .ok body))

/-- HOME begins a homing run on each named IDLE axis, in CLEAR when END_LO is active and the back-off is not 0 and in APPROACH
otherwise, with the trust UNHOMED and a trigger when that changes it; a RUNNING axis takes a pending home and stops, a
STOPPING one takes a pending home and loses the entries behind its stop, with one part-originated change for the targets this
moves. A stop of no microstep has ended when it is taken, with LENS_DONE ABORTED, and the homing run begins at once. HOME is
refused THERMAL_HOLD, FAULTED or BUSY with nothing changed (R35, R36, R47, R48, R49). The model's own: the triggers of both
axes taken as one, after the change, so that a computation latches the new generation (notes/assumptions/11.md), and
INSTALL_CHANGED before that LENS_DONE (notes/assumptions/12.md). -/
def Obligations.Home : Prop :=
  ∀ (axes : Byte) (named : Bool × Bool) (s : State), Listens s → readAxes axes = some named →
    let c : Instr := .home .control axes
    (¬ CanRun s → ∃ body, exec c s = .next (answered s .control 0x21 .thermalHold body)) ∧
    (CanRun s → (∃ a, namesAxis named a = true ∧ (s.axis a).motion = .fault) →
      ∃ body, exec c s = .next (answered s .control 0x21 .faulted body)) ∧
    (CanRun s → (∀ a, namesAxis named a = true → (s.axis a).motion ≠ .fault) →
      (∃ a, namesAxis named a = true ∧ ((s.axis a).motion.mode = .homing ∨ (s.axis a).pendingHome = true)) →
      ∃ body, exec c s = .next (answered s .control 0x21 .busy body)) ∧
    (CanRun s → StopsRun s →
      (∀ a, namesAxis named a = true → (s.axis a).motion ≠ .fault ∧ (s.axis a).motion.mode ≠ .homing ∧
        (s.axis a).pendingHome = false) →
      (∀ a l, namesAxis named a = true → (s.axis a).motion = .running l →
        fitsCount ((s.axis a).position + l.dir.sign * l.toStop) = true) →
      let after : Axis → AxisState × Option Int := fun a =>
        let x := s.axis a
        if namesAxis named a then
          match x.motion with
          | .idle => (x.atHoming s.now, none)
          | .running l =>
            let p := x.position + l.dir.sign * l.toStop
            if l.toStop = 0 then ({ x with queue := [] }.atHoming s.now, some p)
            else ({ x with
                motion := .stopping ⟨p, l.toStop, l.dir, .aborted, l.pRun, false⟩, pendingHome := true, flagLo := false,
                flagHi := false, queue := (x.queue.take 1).map fun e => { e with target := p },
                stepTimer := some (x.lastStepAt + x.params.rampPeriod l.pRun (l.toStop - 1)) }, some p)
          | .stopping st =>
            let kept := if st.abandoned then [] else x.queue.take 1
            ({ x with queue := kept, pendingHome := true }, if kept.length < x.queue.length then some st.position else none)
          | .homing _ | .fault => (x, none)
        else (x, none)
      let moved := { s with lmc := ⟨(after .v).1, (after .h).1⟩ }
      let recorded :=
        if (after .v).2 = none ∧ (after .h).2 = none then moved
        else changed moved
          { s.irm with targetV := (after .v).2.getD s.irm.targetV, targetH := (after .h).2.getD s.irm.targetH } .part
      let done (a : Axis) : List Event := if namesAxis named a then (s.axis a).doneAtOnce a .aborted else []
      ∃ body, exec c s = .next (answered
        ((recorded.raiseAll (done .v ++ done .h)).recomputeIf
          (((after .v).1.trust != s.lmc.v.trust) || ((after .h).1.trust != s.lmc.h.trust) ||
            !(done .v ++ done .h).isEmpty))
        .control 0x21 .accepted body))

/-- AXIS_RECOVER returns each named axis in FAULT to IDLE in REST, with its position and trust, and leaves the others; while
the DRV_FLT of such an axis is active it is refused FAULTED. READ_AXIS changes nothing. The hold timer's expiry ends HOLD in
REST. An end-stop line sets its flag as it becomes active (R61, R44, R40, R54, R197, R199). The model's own: a hold timer that
is stopped does nothing at its expiry (notes/assumptions/39.md), an expiry moves the clock (notes/assumptions/2.md), and an
edge sets the flag also on a line held active already (notes/assumptions/5.md). -/
def Obligations.LensUpkeep : Prop :=
  ∀ s : State, Awake s →
    (∀ (axes : Byte) (named : Bool × Bool), Listens s → readAxes axes = some named →
      ((∃ a, namesAxis named a = true ∧ (s.axis a).motion = .fault ∧ (s.axis a).drvFlt = true) →
        ∃ body, exec (.axisRecover .control axes) s = .next (answered s .control 0x22 .faulted body)) ∧
      ((∀ a, namesAxis named a = true → (s.axis a).motion = .fault → (s.axis a).drvFlt = false) →
        let after : Axis → AxisState := fun a =>
          if namesAxis named a = true ∧ (s.axis a).motion = .fault then
            { s.axis a with motion := .idle, queue := [], phase := .rest, holdTimer := none }
          else s.axis a
        ∃ body, exec (.axisRecover .control axes) s =
          .next (answered { s with lmc := ⟨after .v, after .h⟩ } .control 0x22 .ok body))) ∧
    (∀ (p : Port) (code : Byte) (a : Axis), Listens s → readAxis code = some a →
      exec (.readAxis p code) s = .next (answered s p 0x04 .ok (s.axisReply a))) ∧
    (∀ (p : Port) (code : Byte), Listens s → readAxis code = none →
      exec (.readAxis p code) s = .next (answered s p 0x04 .badRequest [3, 0])) ∧
    (∀ a : Axis,
      ((s.axis a).holdTimer = none → exec (.holdTimerExpiry a) s = .next s) ∧
      ∀ e, (s.axis a).holdTimer = some e → (s.axis a).phase = .hold →
        exec (.holdTimerExpiry a) s =
          .next (State.setAxis { s with now := max s.now e } a { s.axis a with phase := .rest, holdTimer := none })) ∧
    ∀ a : Axis,
      exec (.endStopEdge a .lo true) s = .next (s.setAxis a { s.axis a with endLo := true, flagLo := true }) ∧
      exec (.endStopEdge a .hi true) s = .next (s.setAxis a { s.axis a with endHi := true, flagHi := true }) ∧
      exec (.endStopEdge a .lo false) s = .next (s.setAxis a { s.axis a with endLo := false }) ∧
      exec (.endStopEdge a .hi false) s = .next (s.setAxis a { s.axis a with endHi := false })

/-- The step timer's expiry takes one microstep of a leg or a stop when its end stop shows no contact: position and index one
further, the next period loaded, a trigger when the position meets the quantum. The last microstep of a final leg completes
the move with LENS_DONE COMPLETE: with nothing waiting the axis holds, a waiting entry elsewhere starts, one at the position
completes too. The last of an overshoot leg begins the next leg. A leg that begins is the one R29 plans from that position.
The last of a stop ends it with LENS_DONE of its reason, with one more part-originated change when the axis rests elsewhere
than recorded: then a pending home begins its homing run, or an entry appended behind the stop starts, or the axis holds (R25,
R26, R29, R31, R32, R36, R40, R48, R49, R84). The model's own: the clock at an expiry (notes/assumptions/2.md), a stopped
timer does nothing (notes/assumptions/39.md), one trigger taken last (notes/assumptions/11.md), the change of a stop with
entries behind it (notes/assumptions/18.md), LENS_DONE of an abandoned homing run (notes/assumptions/19.md). -/
def Obligations.StepTimer : Prop :=
  ∀ (a : Axis) (s : State), Awake s →
    let x := s.axis a
    let c : Instr := .stepTimerExpiry a
    (x.stepTimer = none → exec c s = .next s) ∧
    ∀ e, x.stepTimer = some e →
      let now := max s.now e
      let at_ := { s with now := now }
      let stepped (d : Dir) : AxisState := { x with position := x.position + d.sign, index := x.turned d, lastStepAt := now }
      (∀ l, x.motion = .running l → x.clear l.dir → fitsCount (x.position + l.dir.sign) = true →
        let p := x.position + l.dir.sign
        let m : Leg := { l with issued := l.issued + 1, lastRamp := l.rampIndex l.issued }
        let completed (y : AxisState) : State := State.raise (at_.setAxis a y) (.lensDone a p .complete)
        (l.issued + 1 < l.n →
          exec c s = .next (State.recomputeIf
            (at_.setAxis a { stepped l.dir with
              motion := .running m, stepTimer := some (now + m.period x.params (l.issued + 1)) }) (s.meets a p))) ∧
        (l.n ≤ l.issued + 1 → l.kind = .final →
          (∀ entry, x.queue = [entry] →
            exec c s = .next (State.recompute (completed { (stepped l.dir).atHold now with queue := [] }))) ∧
          ∀ entry next rest, x.queue = entry :: next :: rest → CanRun s →
            (next.target ≠ p → ∃ first : Leg,
              exec c s = .next (State.recompute
                (completed { (stepped l.dir).atLeg now first with queue := { next with active := true } :: rest })) ∧
              (s.axisEnv a).planLeg { x with position := p } next 1 = some first ∧ first.Leads 1 p next.target) ∧
            (next.target = p → rest = [] →
              exec c s = .next (State.recompute
                ((completed { (stepped l.dir).atHold now with queue := [] }).raise (.lensDone a p .complete))))) ∧
        (l.n ≤ l.issued + 1 → l.kind = .overshoot → ∀ entry rest, x.queue = entry :: rest → p ≠ entry.target →
          ∃ next : Leg,
            exec c s = .next (State.recomputeIf
              (at_.setAxis a { stepped l.dir with
                motion := .running next, flagLo := false, flagHi := false,
                stepTimer := some (now + next.period x.params 0) }) (s.meets a p)) ∧
            (s.axisEnv a).planLeg { x with position := p } entry (l.number + 1) = some next ∧
            next.Leads (l.number + 1) p entry.target)) ∧
      ∀ st, x.motion = .stopping st → x.clear st.dir → fitsCount (x.position + st.dir.sign) = true →
        let p := x.position + st.dir.sign
        let behind := if st.abandoned then x.queue else x.queue.tail
        let rested : AxisState := { x with position := p, index := x.turned st.dir, queue := behind }
        let ended (y : AxisState) : State :=
          let t := State.raise (at_.setAxis a y) (.lensDone a p st.reason)
          if p = st.position then t
          else changed t (retarget s.irm a ((behind.getLast?.map Entry.target).getD p)) .part
        (1 < st.remaining →
          exec c s = .next (State.recomputeIf
            (at_.setAxis a { stepped st.dir with
              motion := .stopping { st with remaining := st.remaining - 1 },
              stepTimer := some (now + x.params.rampPeriod st.pRun (st.remaining - 2)) }) (s.meets a p))) ∧
        (st.remaining = 1 → x.pendingHome = false → behind = [] →
          exec c s = .next (State.recompute (ended (rested.atHold now)))) ∧
        (st.remaining = 1 → x.pendingHome = true → CanRun s →
          exec c s = .next (State.recompute (ended (rested.atHoming now)))) ∧
        (st.remaining = 1 → x.pendingHome = false → CanRun s → ∀ next rest, behind = next :: rest → next.target ≠ p →
          ∃ first : Leg,
            exec c s = .next (State.recompute
              (ended { rested.atLeg now first with queue := { next with active := true } :: rest })) ∧
            (s.axisEnv a).planLeg { x with position := p } next 1 = some first ∧ first.Leads 1 p next.target)

/-- An end-stop contact in a leg or a stop takes no microstep and halts the axis in HOLD, UNSURE, its queue emptied, with
LENS_DONE LIMIT, one part-originated change and LIMIT_HIT: at 0 with END_LO, where it stands with END_HI. On an axis with a
pending home the homing run begins in the same way, from the position the contact leaves (R40, R48, R49, R54, R55, R56). The
model's own: the clock at the expiry (notes/assumptions/2.md), one trigger taken after the change (notes/assumptions/11.md),
the order of the raisings (notes/assumptions/12.md), and LENS_DONE LIMIT for the stop of an abandoned homing run, which has no
active entry (notes/assumptions/19.md). -/
def Obligations.EndStopContacts : Prop :=
  ∀ (a : Axis) (d : Dir) (kind : Halted) (e : Nat) (s : State), Awake s →
    let x := s.axis a
    (match kind with
      | .move => ∃ l, x.motion = .running l ∧ l.dir = d
      | .stop => ∃ st, x.motion = .stopping st ∧ st.dir = d) →
    x.stepTimer = some e → ¬ x.clear d → (x.pendingHome = true → CanRun s) →
    let now := max s.now e
    let p : Int := match d with | .minus => 0 | .plus => x.position
    let flags : AxisState := match d with | .minus => { x with flagLo := false } | .plus => { x with flagHi := false }
    let halted : AxisState := { flags with queue := [], position := p, trust := .unsure }
    exec (.stepTimerExpiry a) s = .next (State.recompute (State.raise
      (changed
        (State.raise
          (State.setAxis { s with now := now } a
            (if x.pendingHome then halted.atHoming now else halted.atHold now))
          (.lensDone a p .limit))
        (retarget s.irm a p) .part)
      (.limitHit a (match d with | .minus => .lo | .plus => .hi) x.position kind)))

/-- The course of a homing run. CLEAR steps towards + for its distance, then END_LO is sampled: active, the run fails
STUCK_LO, else APPROACH begins. APPROACH steps towards - until END_LO shows contact, when the count becomes 0 and BACKOFF
begins, or with a back-off of 0 ends as it begins; or until its limit, when the run fails NO_CONTACT. The last microstep of
BACKOFF with END_LO inactive makes the axis HOMED in HOLD at the back-off position, with one part-originated change, then
HOME_DONE; with END_LO active the run fails STUCK_LO. END_HI found in BACKOFF fails it too. A failed run leaves FAULT with the
coils OFF (R40, R49, R50, R51, R52, R54). The model's own: the clock at an expiry (notes/assumptions/2.md), one trigger taken
last (notes/assumptions/11.md), INSTALL_CHANGED before HOME_DONE and HOME_FAIL (notes/assumptions/12.md), the test for contact
at the next expiry (notes/assumptions/41.md). At the contact no microstep is issued, so that the time from which R35 counts
stays that of the last APPROACH microstep. -/
def Obligations.HomingSteps : Prop :=
  ∀ (a : Axis) (run : Homing) (e : Nat) (s : State), Awake s →
    let x := s.axis a
    x.motion = .homing run → x.stepTimer = some e →
    let c : Instr := .stepTimerExpiry a
    let now := max s.now e
    let at_ := { s with now := now }
    let b := min x.params.backoff x.params.travel
    let up : AxisState := { x with position := x.position + 1, index := x.index + 1 }
    let failed (y : AxisState) (cause : HomeCause) : State :=
      State.recompute (State.raise
        (changed
          (at_.setAxis a { y with
            motion := .fault, stepTimer := none, holdTimer := none, trust := .unhomed, phase := .off })
          (retarget s.irm a y.position) .part)
        (.homeFail a y.position cause))
    let goesOn (y : AxisState) (next : Homing) : State :=
      State.recomputeIf
        (at_.setAxis a { y with motion := .homing next, stepTimer := some (now + x.params.pHome), lastStepAt := now })
        (s.meets a y.position)
    (run.phase = .clear → fitsCount (x.position + 1) = true →
      (run.taken + 1 < run.limit → exec c s = .next (goesOn up { run with taken := run.taken + 1 })) ∧
      (run.limit ≤ run.taken + 1 → x.endLo = true → 0 < run.limit → exec c s = .next (failed up .stuckLo)) ∧
      (run.limit ≤ run.taken + 1 → x.endLo = false →
        exec c s = .next
          (goesOn { up with flagLo := false, flagHi := false } ⟨.approach, 0, x.params.travel * 9 / 8, 0⟩))) ∧
    (run.phase = .approach →
      (¬ x.clear .minus → 0 < b →
        exec c s = .next (State.recomputeIf
          (at_.setAxis a { x with
            position := 0, flagLo := false, flagHi := false, motion := .homing ⟨.backoff, 0, b, x.position⟩,
            stepTimer := some (now + x.params.pHome) }) (s.meets a 0))) ∧
      (¬ x.clear .minus → b = 0 →
        exec c s = .next (State.recompute (State.raise
          (changed
            (at_.setAxis a { x.atHold now with position := 0, flagLo := false, flagHi := false, trust := .homed })
            (retarget s.irm a 0) .part)
          (.homeDone a 0 x.position)))) ∧
      (x.clear .minus → run.limit ≤ run.taken → exec c s = .next (failed x .noContact)) ∧
      (x.clear .minus → run.taken < run.limit → fitsCount (x.position - 1) = true →
        exec c s = .next
          (goesOn { x with position := x.position - 1, index := x.index - 1 } { run with taken := run.taken + 1 }))) ∧
    (run.phase = .backoff →
      (¬ x.clear .plus → exec c s = .next (failed { x with flagHi := false } .endHi)) ∧
      (x.clear .plus → fitsCount (x.position + 1) = true →
        (run.taken + 1 < run.limit → exec c s = .next (goesOn up { run with taken := run.taken + 1 })) ∧
        (run.limit ≤ run.taken + 1 → x.endLo = true → 0 < run.limit → exec c s = .next (failed up .stuckLo)) ∧
        (run.limit ≤ run.taken + 1 → x.endLo = false →
          exec c s = .next (State.recompute (State.raise
            (changed (at_.setAxis a { up.atHold now with trust := .homed }) (retarget s.irm a (x.position + 1)) .part)
            (.homeDone a (x.position + 1) run.contact))))))

/-- DRV_FLT becoming active puts an axis in FAULT with its coils OFF, its timers cancelled and its queue emptied. An IDLE axis
with an empty queue makes no installation change; a moving one raises LENS_DONE FAULT and LENS_FAULT and records its position;
an axis in FAULT raises LENS_FAULT alone; a pending home is cancelled with HOME_FAIL. DRV_FLT becoming inactive changes its
level alone (R53, R60). The model's own: LENS_DONE, HOME_FAIL, LENS_FAULT, INSTALL_CHANGED in this order
(notes/assumptions/12.md), LENS_DONE for the stop of an abandoned homing run (notes/assumptions/19.md), one trigger taken last
(notes/assumptions/11.md), and an edge taken also on a line held active already (notes/assumptions/5.md). -/
def Obligations.DriverFault : Prop :=
  ∀ (a : Axis) (s : State), Awake s →
    let x := { s.axis a with drvFlt := true }
    let fault (trust : Trust) : AxisState :=
      { x with motion := .fault, stepTimer := none, holdTimer := none, phase := .off, queue := [], pendingHome := false,
               trust := trust }
    exec (.drvFlt a false) s = .next (s.setAxis a { s.axis a with drvFlt := false }) ∧
    (x.motion = .fault →
      exec (.drvFlt a true) s = .next (State.raise (s.setAxis a x) (.lensFault a x.position .fault))) ∧
    (x.motion = .idle → x.queue = [] → x.pendingHome = false →
      exec (.drvFlt a true) s =
        .next (State.recomputeIf (State.raise (s.setAxis a (fault .unsure)) (.lensFault a x.position .idle))
          (x.trust != .unsure))) ∧
    (x.moving = true →
      exec (.drvFlt a true) s =
        .next (State.recompute (changed
          (State.raise
            (State.raiseAll (s.setAxis a (fault (if x.motion.mode = .homing then .unhomed else .unsure)))
              (x.haltEvents a .fault))
            (.lensFault a x.position x.motion.mode))
          (retarget s.irm a x.position) .part)))

/-- A rising edge of the reference mark on a moving axis whose trust is HOMED or UNSURE: at ref_pos nothing changes; within
ref_tol the count becomes ref_pos, a leg keeps its end point, or ends when that lies at ref_pos or behind it, so that the move
goes on from ref_pos or completes, and a stop keeps its remaining microsteps; beyond ref_tol the trust becomes UNSURE and
POSITION_SLIP is raised. Any other edge changes the line's level alone (R57, R58, R59). That a correction times the due
microstep afresh from the last one is the model's reading (notes/assumptions/20.md), as is one trigger taken last
(notes/assumptions/11.md). -/
def Obligations.ReferenceMark : Prop :=
  ∀ (a : Axis) (s : State), Awake s →
    let x := { s.axis a with refMk := true }
    let d : Int := x.position - x.params.refPos
    exec (.refMkEdge a false) s = .next (s.setAxis a { s.axis a with refMk := false }) ∧
    (x.trust = .unhomed ∨ d = 0 ∨ x.motion.mode = .idle ∨ x.motion.mode = .homing ∨ x.motion.mode = .fault →
      exec (.refMkEdge a true) s = .next (s.setAxis a x)) ∧
    (x.trust ≠ .unhomed → d ≠ 0 →
      (∀ l, x.motion = .running l → d.natAbs ≤ x.params.refTol → 0 < l.dir.sign * (l.endPoint - x.params.refPos) →
        let m : Leg := { l with n := l.issued + (l.dir.sign * (l.endPoint - x.params.refPos)).toNat }
        exec (.refMkEdge a true) s =
          .next (State.recomputeIf
            (s.setAxis a { x with
              position := x.params.refPos, motion := .running m,
              stepTimer := some (x.lastStepAt + m.period x.params l.issued) }) (s.meets a x.params.refPos))) ∧
      (∀ l entry rest, x.motion = .running l → d.natAbs ≤ x.params.refTol →
        l.dir.sign * (l.endPoint - x.params.refPos) ≤ 0 → x.queue = entry :: rest →
        let y : AxisState := { x with position := x.params.refPos }
        (entry.target ≠ x.params.refPos → ∃ next : Leg,
          exec (.refMkEdge a true) s =
            .next (State.recomputeIf
              (s.setAxis a { y with
                motion := .running next, flagLo := false, flagHi := false,
                stepTimer := some (s.now + next.period x.params 0), lastStepAt := s.now }) (s.meets a x.params.refPos)) ∧
          (s.axisEnv a).planLeg y entry (l.number + 1) = some next ∧
          next.Leads (l.number + 1) x.params.refPos entry.target) ∧
        (entry.target = x.params.refPos → rest = [] →
          exec (.refMkEdge a true) s =
            .next (State.recompute
              (State.raise (s.setAxis a { y.atHold s.now with queue := [] }) (.lensDone a x.params.refPos .complete))))) ∧
      (x.motion.mode = .stopping → d.natAbs ≤ x.params.refTol →
        exec (.refMkEdge a true) s =
          .next (State.recomputeIf (s.setAxis a { x with position := x.params.refPos }) (s.meets a x.params.refPos))) ∧
      (x.motion.mode = .running ∨ x.motion.mode = .stopping → x.params.refTol < d.natAbs →
        exec (.refMkEdge a true) s =
          .next (State.recomputeIf
            (State.raise (s.setAxis a { x with trust := .unsure })
              (.positionSlip a (max (-32767) (min 32767 d)) x.position)) (x.trust != .unsure))))

/-- The next leg of a move: none at the target; else a final leg to the target when the backlash is 0, the direction is the
preload direction (reversed for V in CEILING) or the clamped overshoot point is the target; else an overshoot leg to the point
B beyond the target, held to the travel on a HOMED axis. The periods of an uncorrected leg: P(k) on its first n_acc
microsteps, P(N - 1 - k) on its last n_acc, P_run between; and every period lies between P_run and P_start (R28, R29, R30,
R31). -/
def Obligations.Legs : Prop :=
  (∀ (env : AxisEnv) (x : AxisState) (e : Entry) (number : Nat),
    let u : Dir := if x.position < e.target then .plus else .minus
    let preload : Dir :=
      if env.axis = .v ∧ env.orientation = .ceiling then (match x.params.preload with | .minus => .plus | .plus => .minus)
      else x.params.preload
    let beyond : Int := e.target + (match u with | .minus => -1 | .plus => 1) * x.params.backlash
    let held : Int := if x.trust = .homed then max 0 (min (x.params.travel : Int) beyond) else beyond
    let final : Prop := x.params.backlash = 0 ∨ u = preload ∨ held = e.target
    let slowest (p : Nat) : Nat := if env.hot then max p x.params.pRunSlow else p
    (x.position = e.target → env.planLeg x e number = none) ∧
    (x.position ≠ e.target → ∃ l, env.planLeg x e number = some l ∧ l.number = number ∧ l.issued = 0 ∧
      (final → l.kind = .final ∧ l.endPoint = e.target) ∧ (¬ final → l.kind = .overshoot ∧ l.endPoint = held) ∧
      l.dir = (if x.position < l.endPoint then .plus else .minus) ∧ l.n = (l.endPoint - x.position).natAbs ∧
      l.nAcc = min x.params.nRamp (l.n / 2) ∧
      l.pRun = slowest (match e.speed with
        | .slow => x.params.pRunSlow | .normal => x.params.pRunNormal | .fast => x.params.pRunFast))) ∧
  ∀ (x : AxisParams) (l : Leg) (k : Nat), 1 ≤ x.nRamp → l.nAcc = min x.nRamp (l.n / 2) → k < l.n → l.pRun ≤ x.pStart →
    let ramp (j : Nat) : Nat := x.pStart - j * (x.pStart - l.pRun) / x.nRamp
    (k < l.nAcc → l.period x k = ramp k) ∧ (l.n - l.nAcc ≤ k → l.period x k = ramp (l.n - 1 - k)) ∧
      (l.nAcc ≤ k → k < l.n - l.nAcc → l.period x k = l.pRun) ∧ l.pRun ≤ l.period x k ∧ l.period x k ≤ x.pStart

/-- The coil outputs follow the quarter-wave table, whose 17 values are written out: the signed values of both coils at the 64
indices, coil B a quarter cycle behind coil A; each level output is floor(|value|·I/255) of the current level I, and never above
it; the phase line is high in the quadrants where the value has a + sign and low where it has a - sign. Of a value of 0 it goes
with the sign of the quadrant, which is the model's reading (notes/assumptions/21.md). The current level of H, and of V in FLOOR, is the one of its phase, whatever gravity level stands in
the parameters; V in CEILING keeps at least the gravity level but in OFF (R39, R40, R41). -/
def Obligations.CoilDrive : Prop :=
  let wave : List Nat := [255, 254, 250, 244, 236, 225, 212, 197, 180, 162, 142, 120, 98, 74, 50, 25, 0]
  let c (j : Nat) : Nat := wave.getD j 0
  (∀ i : BitVec 6, coilB (i + 16) = coilA i ∧
    ((coilA i).value, (coilB i).value) =
      (let j := i.toNat % 16
       match i.toNat / 16 with
        | 0 => ((c j : Int), (c (16 - j) : Int))
        | 1 => (-(c (16 - j) : Int), (c j : Int))
        | 2 => (-(c j : Int), -(c (16 - j) : Int))
        | _ => ((c (16 - j) : Int), -(c j : Int)))) ∧
  (∀ (i : BitVec 6) (level : Nat), (coilA i).level level ≤ level ∧ (coilB i).level level ≤ level) ∧
  (∀ (s : State) (a : Axis),
    let i := (s.axis a).index
    let level := currentLevel a s.irm.orientation (s.axis a)
    let quadrant := i.toNat / 16
    s.coils a =
      (⟨decide (quadrant = 0 ∨ quadrant = 3), (coilA i).value.natAbs * level / 255⟩,
       ⟨decide (quadrant = 0 ∨ quadrant = 1), (coilB i).value.natAbs * level / 255⟩)) ∧
  ∀ x : AxisState,
    let base := match x.phase with | .run => x.params.iRun | .hold => x.params.iHold | .rest => x.params.iIdle | .off => 0
    (∀ o : Orientation, currentLevel .h o x = base) ∧ currentLevel .v .floor x = base ∧
      (x.phase = .off → currentLevel .v .ceiling x = 0) ∧
      ∀ g : Nat, x.params.iGrav = some g → x.phase ≠ .off → currentLevel .v .ceiling x = max base g

/-! ### The geometry and the frame side (04, 05) -/

/-- The inset fraction of a code that is not 0, with its distance to the wide edge and its divisor: their ranges, the floor
formula, and that the result is the nearest integer, a half rounded up (R72). -/
def Obligations.InsetFraction : Prop :=
  ∀ (k : Int) (g : Nat) (a : Int), k ≠ 0 → g ≤ 16384 → -32768 ≤ a → a ≤ 32768 →
    let p : Int := 16384 + (if 0 < k then 1 else -1) * a
    let den : Int := 1073741824 + g * p
    let f := insetFraction k g a
    p ≥ -16384 ∧ p ≤ 49152 ∧ 805306368 ≤ den ∧ den ≤ 1879048192 ∧
      (f : Int) = (2 * g * 1073741824 + den / 2) / den ∧ f ≤ 43691 ∧
      2 * ((f : Int) * den) ≤ 2 * (2 * g * 1073741824) + den ∧
      2 * (2 * g * 1073741824) < 2 * ((f : Int) * den) + den

/-- The axis offset: the screen-frame offset, negated in CEILING, in half-pictures times 16384, rounded half up and held to
two half-pictures; and the fraction held to FLIM, with its flag (R69, R70, R71, R73). -/
def Obligations.AxisStages : Prop :=
  ∀ (o : Orientation) (pos : Int) (centre kspan : Nat) (k : Int) (tk : List Nat) (flim : Nat), 0 < kspan →
    let ds : Int := match o with | .floor => pos - centre | .ceiling => centre - pos
    let raw : Int := (2 * ds * 16384 + kspan) / (2 * kspan)
    let f := insetFraction k (tk.getD k.natAbs 0) (max (-32768) (min 32768 raw))
    axisStages o pos centre kspan k tk flim =
      (max (-32768) (min 32768 raw), if flim < f then flim else f, decide (flim < f)) ∧
    2 * kspan * raw ≤ 2 * ds * 16384 + kspan ∧ 2 * ds * 16384 + kspan < 2 * kspan * (raw + 1) ∧ (k = 0 → f = 0)

/-- The record of a computation: the pixel insets rounded half up, the corners each code reaches in the screen frame, turned
through half a circle in CEILING (R74, R75, R76). Beside them stand, of each axis, the axis offset A, the fraction F and the
CLAMPED flag, which are those of AxisStages on the latched inputs, the other flags and the echoes. No corner lies above its
bound by the latched raster and FLIM. -/
def Obligations.WarpCorners : Prop :=
  ∀ (i : GeoInputs) (seq : Word32),
    let r := compute i seq
    let d := (i.width * r.fV + 65536) / 131072
    let e := (i.height * r.fH + 65536) / 131072
    let top := if 0 < i.kv then d else 0
    let bottom := if i.kv < 0 then d else 0
    let right := if 0 < i.kh then e else 0
    let left := if i.kh < 0 then e else 0
    (i.orientation = .floor →
      r.tl = ⟨top, left⟩ ∧ r.tr = ⟨top, right⟩ ∧ r.bl = ⟨bottom, left⟩ ∧ r.br = ⟨bottom, right⟩) ∧
    (i.orientation = .ceiling →
      r.br = ⟨top, left⟩ ∧ r.bl = ⟨top, right⟩ ∧ r.tr = ⟨bottom, left⟩ ∧ r.tl = ⟨bottom, right⟩) ∧
    axisStages i.orientation i.posV i.centreV i.kspanV i.kv i.tk i.flim = (r.aV, r.fV, r.flags.clampedV) ∧
    axisStages i.orientation i.posH i.centreH i.kspanH i.kh i.tk i.flim = (r.aH, r.fH, r.flags.clampedH) ∧
    r.seq = seq ∧ r.kv = i.kv ∧ r.kh = i.kh ∧ r.width = i.width ∧ r.height = i.height ∧ r.generation = i.generation ∧
    r.flags.inverted = decide (i.orientation = .ceiling) ∧ r.flags.unsureV = decide (i.trustV ≠ .homed) ∧
    r.flags.unsureH = decide (i.trustH ≠ .homed) ∧ r.fV ≤ i.flim ∧ r.fH ≤ i.flim ∧
    ∀ c ∈ [r.tl, r.tr, r.bl, r.br],
      c.dx ≤ (i.width * i.flim + 65536) / 131072 ∧ c.dy ≤ (i.height * i.flim + 65536) / 131072

/-- A trigger with no computation in flight starts one, which latches its inputs, moves both quantum references and takes the
attach mark; with one in flight it sets the pending mark alone. A completion stages the result under the next number, publishes
it when it was marked, and starts the computation the pending mark asks for (R85, R86, R67, R79, R88). With nothing in flight
the completion does nothing (notes/assumptions/39.md). The order of sequence numbers: a is greater than b when a - b modulo 2^32
lies in 1..2147483647; so the next number is greater than the last across the wrap, no number is greater than itself, and of two
neither is greater both ways (R79). -/
def Obligations.Computations : Prop :=
  (∀ a b : Word32, seqGreater a b = true ↔
    1 ≤ (a.toNat + 4294967296 - b.toNat) % 4294967296 ∧ (a.toNat + 4294967296 - b.toNat) % 4294967296 ≤ 2147483647) ∧
  (∀ a : Word32, seqGreater (a + 1) a = true ∧ seqGreater a a = false) ∧
  (∀ a b : Word32, seqGreater a b = true → seqGreater b a = false) ∧
  ∀ s : State,
    (∀ c, s.ge.inFlight = some c → s.recompute = { s with ge := { s.ge with pendingMark := true } }) ∧
    (s.ge.inFlight = none →
      s.recompute = { s with ge := { s.ge with
        inFlight := some ⟨s.geoInputs, s.ge.attachMark⟩, refV := s.lmc.v.position, refH := s.lmc.h.position,
        attachMark := false } }) ∧
    (Awake s →
      (s.ge.inFlight = none → exec .computationComplete s = .next s) ∧
      ∀ c, s.ge.inFlight = some c →
        let staged := compute c.inputs (s.ge.staged.seq + 1)
        let done := { s with ge := { s.ge with staged := staged, inFlight := none } }
        let shown :=
          if c.marked then
            State.raise { done with ge := { done.ge with live := staged } }
              (.warpNew (s.ge.staged.seq + 1) c.inputs.generation .attach)
          else done
        (s.ge.pendingMark = false → exec .computationComplete s = .next shown) ∧
        (s.ge.pendingMark = true →
          exec .computationComplete s = .next { shown with ge := { shown.ge with
            pendingMark := false, inFlight := some ⟨s.geoInputs, s.ge.attachMark⟩, refV := s.lmc.v.position,
            refH := s.lmc.h.position, attachMark := false } }))

/-- A frame mark: the GE promotes a staged record that is newer and raises WARP_NEW; the FMON captures the period and restarts
an ARMED window or ends a lapse with LAPSE_END; the LAU applies a latched request, which moves the drive down at once and up
by the slew. With no latched request and no lapse to end the mark leaves the LAU as it was; the end of a lapse forms its
allowance and drive afresh. The expiry of the window raises LAPSE, the LAU holds LAPSED and forms its allowance. Nothing else
changes (R87, R88, R95, R96, R158, R159). The model's own: the clock (notes/assumptions/2.md, notes/assumptions/3.md), a
window that does not run does nothing (notes/assumptions/39.md), LAPSE reports the length its window was started with
(notes/assumptions/22.md), whole ms are rounded down in LAPSE_END (notes/assumptions/16.md), and the order of the GE, the FMON
and the LAU (notes/assumptions/10.md). -/
def Obligations.FrameMarksAndLapses : Prop :=
  (∀ (time : Nat) (s : State), Awake s → ∃ t, exec (.fmark time) s = .next t ∧
    t.now = max s.now time ∧
    t.ge = (if seqGreater s.ge.staged.seq s.ge.live.seq then { s.ge with live := s.ge.staged } else s.ge) ∧
    t.fpi.port.events =
      (if seqGreater s.ge.staged.seq s.ge.live.seq then
        placeEvent (.warpNew s.ge.staged.seq s.ge.staged.generation .fmark) s.fpi.port.events else s.fpi.port.events) ∧
    t.fmon.lastMark = some t.now ∧
    t.fmon.period = (match s.fmon.lastMark with | some m => min 65535 (t.now - m) | none => 0) ∧
    (s.fmon.state = .disarmed → t.fmon.state = .disarmed ∧ t.fmon.window = s.fmon.window) ∧
    (s.fmon.state ≠ .disarmed →
      t.fmon.state = .armed ∧ t.fmon.window = some (t.now + 1000 * s.fmon.lapseWindow)) ∧
    t.cpi.port.events =
      (if s.fmon.state = .lapsed then
        placeEvent (.lapseEnd .fmark (min 65535 ((t.now - s.fmon.lapseStart.getD t.now) / 1000))) s.cpi.port.events
       else s.cpi.port.events) ∧
    EventsOnly { s with fpi := { s.fpi with latched := none } } t ∧ LevelsOnly s.lau t.lau ∧
    t.fmon = { s.fmon with
      state := t.fmon.state, window := t.fmon.window, lastMark := t.fmon.lastMark, period := t.fmon.period,
      windowLength := if s.fmon.state = .disarmed then s.fmon.windowLength else s.fmon.lapseWindow } ∧
    (let marked :=
       if s.fmon.state = .lapsed then
         Lau.formed { s.lau with held := { s.lau.held with attached := s.fpi.attached, lapse := .armed } } t.now
       else s.lau
     t.lau = match s.fpi.latched with
       | none => marked
       | some level => Lau.driven { marked with applied := some level } t.now) ∧
    t.lau.applied = (if s.fpi.latched.isSome then s.fpi.latched else s.lau.applied) ∧
    (∀ level, s.fpi.latched = some level → s.fmon.state ≠ .lapsed → s.lau.session.lightEn = true →
      let target := min level s.lau.allowance
      (target ≤ s.lau.drive → t.lau.drive = target ∧ t.lau.slew = none) ∧
      (s.lau.drive < target → t.lau.drive = s.lau.drive ∧ t.lau.slew = some (s.lau.slew.getD (t.now + 10000)))) ∧
    t.irm = s.irm ∧ t.lmc = s.lmc ∧ t.tmon = s.tmon ∧ t.afc = s.afc) ∧
  ∀ s : State, Awake s →
    (s.fmon.window = none → exec .lapseWindowExpiry s = .next s) ∧
    ∀ e, s.fmon.window = some e → ∃ t, exec .lapseWindowExpiry s = .next t ∧ t.now = max s.now e ∧
      t.fmon = { s.fmon with state := .lapsed, window := none, lapseStart := some t.now } ∧
      t.cpi.port.events = placeEvent (.lapse s.fmon.windowLength) s.cpi.port.events ∧
      t.fpi = s.fpi ∧ EventsOnly s t ∧ LevelsOnly s.lau t.lau ∧ t.lau.applied = s.lau.applied ∧
      t.lau.held = { s.lau.held with attached := s.fpi.attached, lapse := .lapsed } ∧ t.lau.allowance ≤ s.lau.params.lLapse ∧ t.lau.drive ≤ s.lau.drive ∧
      t.lau = Lau.formed { s.lau with held := t.lau.held } t.now ∧
      t.irm = s.irm ∧ t.lmc = s.lmc ∧ t.ge = s.ge ∧ t.tmon = s.tmon ∧ t.afc = s.afc

/-- ATTACH stores the raster, arms a fresh window, forgets the last frame mark, drops every light request and asks for a
computation that is published at its completion. A raster outside 640..4096 by 360..2400 is refused OUT_OF_RANGE. DETACH
undoes the attachment, unmarks the computation in flight and keeps the raster; when already detached it changes nothing (R89,
R90, R91, R94, R96, R157, R158, R195, R197). The layout of the answer to ATTACH is the model's reading
(notes/assumptions/13.md), as is the length of a lapse in whole ms, rounded down (notes/assumptions/16.md). -/
def Obligations.AttachAndDetach : Prop :=
  ∀ s : State, Listens s →
    (∀ width height : Word16,
      let fits := (640 ≤ width.toNat ∧ width.toNat ≤ 4096) ∧ 360 ≤ height.toNat ∧ height.toNat ≤ 2400
      (¬ fits → ∃ body, exec (.attach .frame width height) s = .next (answered s .frame 0x10 .outOfRange body)) ∧
      (fits → ∃ t, exec (.attach .frame width height) s = .next t ∧
        t.fpi = { s.fpi with
          attached := true, width := width.toNat, height := height.toNat, latched := none,
          port := { s.fpi.port with
            slot := .pending 0x10 .ok (le16 width ++ le16 height ++ le32 s.ge.live.seq) } } ∧
        t.cpi = { s.cpi with port := { s.cpi.port with events := t.cpi.port.events } } ∧
        t.fmon = { s.fmon with state := .armed, window := some (s.now + 1000 * s.fmon.lapseWindow),
                               windowLength := s.fmon.lapseWindow, lastMark := none } ∧
        t.cpi.port.events =
          (if s.fmon.state = .lapsed then
            placeEvent (.lapseEnd .attach (min 65535 ((s.now - s.fmon.lapseStart.getD s.now) / 1000))) s.cpi.port.events
           else s.cpi.port.events) ∧
        (s.ge.inFlight = none →
          t.ge = { s.ge with
            inFlight := some ⟨{ s.geoInputs with width := width.toNat, height := height.toNat }, true⟩,
            refV := s.lmc.v.position, refH := s.lmc.h.position, attachMark := false }) ∧
        (s.ge.inFlight.isSome = true → t.ge = { s.ge with attachMark := true, pendingMark := true }) ∧
        t.lau.applied = none ∧ t.lau.held = { s.lau.held with attached := true, lapse := .armed } ∧
        t.lau = Lau.formed { s.lau with applied := none, held := t.lau.held } s.now ∧
        LevelsOnly s.lau t.lau ∧ t.irm = s.irm ∧ t.lmc = s.lmc ∧ t.tmon = s.tmon ∧ t.afc = s.afc ∧ t.now = s.now)) ∧
    (s.fpi.attached = false → exec (.detach .frame) s = .next (answered s .frame 0x11 .ok [])) ∧
    (s.fpi.attached = true → ∃ t, exec (.detach .frame) s = .next t ∧
      t.fpi = { s.fpi with attached := false, latched := none,
                           port := { s.fpi.port with slot := .pending 0x11 .ok [] } } ∧
      t.fmon = { s.fmon with state := .disarmed, window := none } ∧
      t.ge = { s.ge with attachMark := false, inFlight := s.ge.inFlight.map fun c => { c with marked := false } } ∧
      t.lau.applied = none ∧ t.lau.held = { s.lau.held with attached := false, lapse := .disarmed } ∧
      t.lau.allowance ≤ s.lau.params.lLapse ∧ LevelsOnly s.lau t.lau ∧
      t.lau = Lau.formed { s.lau with applied := none, held := t.lau.held } s.now ∧
      t.cpi = { s.cpi with port := { s.cpi.port with events := t.cpi.port.events } } ∧
      t.cpi.port.events =
        (if s.fmon.state = .lapsed then
          placeEvent (.lapseEnd .detach (min 65535 ((s.now - s.fmon.lapseStart.getD s.now) / 1000))) s.cpi.port.events
         else s.cpi.port.events) ∧
      t.irm = s.irm ∧ t.lmc = s.lmc ∧ t.tmon = s.tmon ∧ t.afc = s.afc ∧ t.now = s.now)

/-- The reads answer OK with one copy and change nothing else, but that READ_WARP sets its own port's last seq, so that its
changed flag is 1 exactly when the live seq is not the one that port read last. Behind the event summary the payloads of
READ_INSTALL, READ_AXIS, READ_THERMAL and READ_LIGHT hold each field at its offset (R92, R117, R162, R187, R193, R195, R197,
R198, R199, R200, R201, R203). The model's own: the layout of the answer to GET_PARAM (notes/assumptions/13.md), and times
remaining in whole ms, rounded down and at least 1 (notes/assumptions/16.md), and 0 in the bits with no name of the present,
lines, stalled and computing bytes (notes/assumptions/49.md); a leg number above 255 is left open (notes/assumptions/9.md). -/
def Obligations.PlainReads : Prop :=
  ∀ (p : Port) (s : State), Listens s →
    exec (.readThermal p) s = .next (answered s p 0x05 .ok s.thermalReply) ∧
    exec (.readLight p) s = .next (answered s p 0x06 .ok s.lightReply) ∧
    exec (.readWarp p) s =
      .next (answered (s.setPort p { s.port p with lastWarp := some s.ge.live.seq }) p 0x07 .ok
        (s.ge.live.bytes ++ [if (s.port p).lastWarp = some s.ge.live.seq then 0 else 1] ++ le32 s.ge.staged.seq ++
          [bits [s.ge.inFlight.isSome, s.ge.pendingMark]] ++ flag s.fpi.attached ++ u16 s.fpi.width ++
          u16 s.fpi.height)) ∧
    s.ge.live.bytes.length = 41 ∧
    (∀ summary : Byte,
      InstallLayout s p (summary :: s.installReply p) ∧ (∀ a : Axis, AxisLayout s a (summary :: s.axisReply a)) ∧
        ThermalLayout s (summary :: s.thermalReply) ∧ LightLayout s (summary :: s.lightReply)) ∧
    (∀ (table : Byte) (offset : Word16) (x : Table), readTableCode table = some x →
      (offset.toNat < x.length →
        exec (.readTable .control table offset) s =
          .next (answered s .control 0x4B .ok
            (u8 (tableCode x) ++ le16 (s.tableCount x) ++ u16 x.length ++ le16 offset ++
              ((s.tableImage x).drop offset.toNat).take 56))) ∧
      (x.length ≤ offset.toNat →
        ∃ body, exec (.readTable .control table offset) s = .next (answered s .control 0x4B .outOfRange body))) ∧
    ∀ (param index : Byte),
      (∀ n, paramOf param index = .ok n →
        exec (.getParam .control param index) s =
          .next (answered s .control 0x41 .ok
            (s32 (s.paramValue n) ++ s32 (s.paramRange n).1 ++ s32 (s.paramRange n).2 ++ s32 (paramDefault n)))) ∧
      ∀ offset, paramOf param index = .error offset →
        exec (.getParam .control param index) s = .next (answered s .control 0x41 .badRequest [3, BitVec.ofNat 8 offset])

/-! ### The Thermal Monitor (06) -/

/-- A temperature sits at or above a level of a zone's state exactly when it has reached that level's threshold, or the zone was
already there and the temperature has not fallen below the threshold by more than the hysteresis. A zone reads from its slots:
LIVE with the greatest value, LOST with its T_hot, ABSENT, or UNMONITORED with no slot. The device thermal state is the most
severe of its contributions: the states of the zones in use, HOT for a stalled fan, CRITICAL for a stalled blower or two stalled
fans, NORMAL with none (R106, R108, R110). -/
def Obligations.ThermalLevels : Prop :=
  ((∀ (th : Thresholds) (present level : Thermal) (t x : Int), th.warm < th.hot → th.hot < th.crit →
    th.of level = some x →
    (level.rank ≤ (zoneState th present t).rank ↔ x ≤ t ∨ (level.rank ≤ present.rank ∧ x - th.hysteresis ≤ t))) ∧
  ∀ (records : List SlotRecord) (th : Thresholds),
    (records = [] → zoneReading records th = (.unmonitored, none)) ∧
    (∀ r ∈ records, ∀ t, r.status = .live → r.value = some t →
      (zoneReading records th).1 = .live ∧ ∃ u, (zoneReading records th).2 = some u ∧ t ≤ u) ∧
    (∀ u, zoneReading records th = (.live, some u) → ∃ r ∈ records, r.status = .live ∧ r.value = some u) ∧
    (records ≠ [] → (∀ r ∈ records, r.status ≠ .live) →
      zoneReading records th =
        if records.any (fun r => decide (r.status = .lost)) then (.lost, some th.hot) else (.absent, none))) ∧
  ∀ (t : Tmon) (level : Thermal), level ≠ .normal →
    (level.rank ≤ t.formDevice.rank ↔
      (∃ z : Zone, (t.zones.get z).inUse = true ∧ level.rank ≤ (t.zones.get z).state.rank) ∨
      (t.stalled.blower = true ∨ 2 ≤ stalledCount t.stalled) ∨
      (level.rank ≤ 2 ∧ 0 < stalledCount t.stalled))

/-- The course of a scan. SCAN_START latches the scan table, a new one resets every record, and the first enabled slot follows,
or with none the evaluation. A read makes its record LIVE with the converted value, or counts the failure with its cause; the
third failure in a row makes it LOST with SENSOR_LOST; a LOST slot that reads raises SENSOR_BACK; a timeout fails it with
TIMEOUT. Then the scan goes on: a recovered bus is recorded, a stuck one fails every later read with BUS_STUCK, and the last
read, good or failed, ends it in an evaluation. The evaluation counts the scan, sets the ready mark, judges every zone afresh,
forms the device state with the dwell timer and raises THERMAL_STATE with its source where it changes, makes the thermal stop
as it becomes CRITICAL, declares an ABSOLUTE trip for the first LIVE zone at its T_abs, and hands the records on: each fan's
demand is the greatest curve value over its usable zones, and the LAU's allowance and target are formed from them. A trip puts
the session in TRIPPED; else a COOLDOWN past its minimum with SRC LIVE below T_cool ends in STANDBY as COOLED, and any other
session keeps its state, timers and latch. What is driven: the eight parts of a read; a STOP at once behind a missing
acknowledge; no STOP behind a timeout; up to nine pulses and a STOP in a recovery, none with PB_SCL low (R98 to R101, R103,
R104, R106, R109 to R111, R113, R123, R124, R142, R149, R150, R152). The model's own: a SCAN_START in a scan begins a new one
(notes/assumptions/24.md), the clock (notes/assumptions/2.md), what the bus shows is an operand (notes/assumptions/25.md),
nothing is read with no scan in flight (notes/assumptions/39.md), the order of the receivers (notes/assumptions/10.md). -/
def Obligations.Scans : Prop :=
  (∀ s : State, Awake s →
    (∀ bus : BusSample,
      let due := s.tmon.nextScan.getD s.now
      let begun := { s with
        now := max s.now due,
        tmon := { s.tmon with
          latched := s.tmon.table, newTable := false,
          slots := if s.tmon.newTable then List.replicate 8 SlotRecord.reset else s.tmon.slots,
          nextScan := some (due + 100000) } }
      ∃ t, exec (.scanStart bus) s = .next t ∧ ScanGoesOn begun (enabledSlots s.tmon.table) .clear bus t) ∧
    (s.tmon.scan = none → ∀ result bus parts,
      exec (.slotReadDone result bus) s = .next s ∧ exec (.probeBusTimeout ⟨parts, bus⟩) s = .next s) ∧
    ∀ n rest worst, s.tmon.scan = some ⟨n :: rest, worst⟩ → ∀ bus : BusSample,
      let slot := s.tmon.latched.getD n ⟨false, 8, 0, .src, 0⟩
      let old := s.tmon.slots.getD n .reset
      let fails (c : Instr) (cause : ReadCause) : Prop :=
        ∃ t, exec c s = .next t ∧ ScanGoesOn (s.readsFailed [n] cause) rest worst bus t
      (∀ high low : Byte,
        let x : Int := (high ++ low : BitVec 16).toInt / 64 + slot.offset
        let live := { s with tmon := { s.tmon with
          slots := s.tmon.slots.set n { old with status := .live, value := some x, failures := 0 } } }
        (-160 ≤ x → x ≤ 600 → ∃ t, exec (.slotReadDone (.data high low) bus) s = .next t ∧
          ScanGoesOn (if old.status = .lost then live.raise (.sensorBack n slot.zone x) else live) rest worst bus t) ∧
        (x < -160 ∨ 600 < x → fails (.slotReadDone (.data high low) bus) .range)) ∧
      fails (.slotReadDone .noAckAddr bus) .noAckAddr ∧ fails (.slotReadDone .noAckPtr bus) .noAckPtr ∧
      fails (.slotReadDone .noAckRead bus) .noAckRead ∧
      (∀ parts, fails (.probeBusTimeout ⟨parts, bus⟩) .timeout) ∧
      let check : List BusAct :=
        if rest = [] ∨ bus.scl = false ∨ bus.sda = true then []
        else match bus.freedAfter with
          | some k => if k ≤ 9 then List.replicate k .pulse ++ [.stop] else List.replicate 9 .pulse ++ [.release]
          | none => List.replicate 9 .pulse ++ [.release]
      let address (d : BusDirection) : BusAct := .address slot.address d
      (∀ high low, s.probeBus (.slotReadDone (.data high low) bus) =
        [.start, address .write, .pointer slot.pointer, .repeatedStart, address .read, .dataByte true, .dataByte false,
          .stop, .release] ++ check) ∧
      s.probeBus (.slotReadDone .noAckAddr bus) = [.start, address .write, .stop, .release] ++ check ∧
      s.probeBus (.slotReadDone .noAckPtr bus) =
        [.start, address .write, .pointer slot.pointer, .stop, .release] ++ check ∧
      s.probeBus (.slotReadDone .noAckRead bus) =
        [.start, address .write, .pointer slot.pointer, .repeatedStart, address .read, .stop, .release] ++ check ∧
      ∀ parts, parts ≤ 7 → s.probeBus (.probeBusTimeout ⟨parts, bus⟩) =
        [BusAct.start, address .write, .pointer slot.pointer, .repeatedStart, address .read, .dataByte true,
          .dataByte false].take parts ++ [.release] ++ check)

/-- Entry to CRITICAL stops the lens: a RUNNING axis begins a decelerating stop of reason THERMAL, a homing run is abandoned
UNHOMED with one, a STOPPING axis goes on with its own stop but loses the entries behind it and a pending home, with HOME_FAIL
CANCELLED; an IDLE axis and one in FAULT are left as they are. One part-originated change covers every target this moves, and
there is none when it moves none. A stop of no microstep has ended when it is taken (R14, R35, R36, R37, R53). A blower stall
that makes the part CRITICAL does all this, starts the dwell timer unless the part is tripped, raises THERMAL_STATE with its
source and puts every fan at 63 (R110, R111, R112, R125). The model's own: one trigger taken last (notes/assumptions/11.md),
the order of the raisings (notes/assumptions/12.md), LENS_DONE of an abandoned homing run (notes/assumptions/19.md), the
timing of a stop in a homing run with no microstep issued (notes/assumptions/34.md), the order of the receivers
(notes/assumptions/10.md), the clock (notes/assumptions/2.md). -/
def Obligations.ThermalStop : Prop :=
  (∀ s : State, StopsRun s → s.tmon.device = .critical →
    (∀ a st, (s.axis a).stopOf .thermal = some st → fitsCount st.position = true) →
    let after : Axis → AxisState := fun a =>
      let x := s.axis a
      match x.stopOf .thermal, x.motion with
      | some st, _ => x.stopped s.now st
      | none, .stopping st => { x with queue := if st.abandoned then [] else x.queue.take 1, pendingHome := false }
      | none, _ => x
    let target : Axis → Option Int := fun a =>
      let x := s.axis a
      match x.stopOf .thermal, x.motion with
      | some st, _ => some st.position
      | none, .stopping st => if (if st.abandoned then 0 else 1) < x.queue.length then some st.position else none
      | none, _ => none
    let cancelled : Axis → List Event := fun a =>
      if (s.axis a).motion.mode = .stopping ∧ (s.axis a).pendingHome = true then
        [.homeFail a (s.axis a).position .cancelled]
      else []
    let done := s.lmc.v.doneAtOnce .v .thermal ++ s.lmc.h.doneAtOnce .h .thermal
    let stopping := State.raiseAll { s with lmc := ⟨after .v, after .h⟩ } (cancelled .v ++ cancelled .h)
    let recorded :=
      if target .v = none ∧ target .h = none then stopping
      else changed stopping
        { s.irm with targetV := (target .v).getD s.irm.targetV, targetH := (target .h).getD s.irm.targetH } .part
    s.thermalStop = State.recomputeIf (recorded.raiseAll done)
      ((s.lmc.v.trust != (after .v).trust) || (s.lmc.h.trust != (after .h).trust) || !done.isEmpty)) ∧
  ∀ s : State, Awake s → s.afc.fans.blower.tach = .turning → s.afc.fans.blower.selected ≠ 0 → s.tmon.device ≠ .critical →
    ∀ e, s.afc.fans.blower.edge = some e →
    ∃ t, exec (.edgeTimerExpiry .blower) s = .next t ∧ t.now = max s.now e ∧ t.tmon.device = .critical ∧
      t.lau.held.device = .critical ∧ t.lau.held.anyStalled = true ∧
      t.tmon.dwell = (if s.tmon.trip = none then some (t.now + 1000000 * s.tmon.dwellSeconds) else s.tmon.dwell) ∧
      t.irm = (State.lensStopped { s with now := max s.now e }).irm ∧
      t.lmc = (State.lensStopped { s with now := max s.now e }).lmc ∧
      t.ge = (State.lensStopped { s with now := max s.now e }).ge ∧
      (∀ f : Fan, (t.afc.fans.get f).selected = 63) ∧ ThermalTold s t ∧
      (∃ x ∈ t.cpi.port.events, ∃ source, x.event = .thermalState .critical s.tmon.device source) ∧
      (∃ x ∈ t.fpi.port.events, ∃ source, x.event = .thermalState .critical s.tmon.device source)

/-- The expiry of the critical dwell trips the part: the latch takes cause DWELL and the first zone in use that is CRITICAL,
in the order of the zone codes, with its temperature, else FANS; the session becomes TRIPPED with its timers stopped and the
light off, every moving axis is halted IDLE in REST with its queue emptied, UNSURE or, when it was HOMING, UNHOMED, its
pending home cancelled and its target recorded in one part-originated change, and every fan is selected to 63 (R14, R38, R53,
R112, R113, R114, R136, R150). The model's own: the clock (notes/assumptions/2.md), a dwell with no CRITICAL source names FANS
(notes/assumptions/37.md), the order of the receivers and of the raisings (notes/assumptions/10.md, notes/assumptions/12.md),
one trigger taken after the change, so that a computation latches the new generation (notes/assumptions/11.md), LENS_DONE TRIP
for the stop of an abandoned homing run (notes/assumptions/19.md), and that with the timer stopped nothing happens
(notes/assumptions/39.md). -/
def Obligations.DwellTrip : Prop :=
  ∀ s : State, Awake s →
    (s.tmon.dwell = none → exec .criticalDwellExpiry s = .next s) ∧
    ∀ e, s.tmon.dwell = some e → s.tmon.trip = none → s.afc.startDuty ≤ 63 → EachFan s.afc FanRecord.KickFits →
      ∃ t, exec .criticalDwellExpiry s = .next t ∧ t.now = max s.now e ∧ t.tmon.dwell = none ∧
        (let hottest := [Zone.src, .panel, .lens, .supply, .intake, .exhaust].find? fun z =>
           (s.tmon.zones.get z).inUse && decide ((s.tmon.zones.get z).state = .critical)
         let source : Source := match hottest with | some z => .zone z | none => .fans
         let x : Option Int := match hottest with | some z => (s.tmon.zones.get z).temperature | none => none
         t.tmon.trip = some ⟨.dwell, source, x⟩ ∧
          let raised := [.trip .dwell source x] ++ s.lmc.v.haltEvents .v .trip ++ s.lmc.h.haltEvents .h .trip ++
            (if s.lmc.v.moving || s.lmc.h.moving then [.installChanged (s.irm.generation + 1) .part] else []) ++
            [.lightState .tripped s.lau.session .trip]
          t.cpi.port.events = raisedTo raised s.cpi.port.events ∧ t.fpi.port.events = raisedTo raised s.fpi.port.events) ∧
        t.tmon.device = s.tmon.device ∧ t.tmon.zones = s.tmon.zones ∧
        t.lau.session = .tripped ∧ t.lau.drive = 0 ∧ t.lau.ignition = none ∧ t.lau.coolMin = .stopped ∧
        t.lau.coolMax = none ∧ t.lau.slew = none ∧ t.lau.fault = s.lau.fault ∧ t.lau.mode = s.lau.mode ∧
        t.lightEnable = false ∧ t.lightPwm = 0 ∧
        EachFan t.afc FanRecord.Full ∧ t.afc.excess = 0 ∧
        (∀ a, (s.axis a).moving = true →
          t.axis a = { s.axis a with
            motion := .idle, phase := .rest, queue := [], stepTimer := none, holdTimer := none, pendingHome := false,
            trust := if (s.axis a).motion.mode = .homing then .unhomed else .unsure }) ∧
        (∀ a, (s.axis a).moving = false → t.axis a = { s.axis a with queue := [] }) ∧
        t.irm.orientation = s.irm.orientation ∧ t.irm.kv = s.irm.kv ∧ t.irm.kh = s.irm.kh ∧
        t.irm.generation = (if s.lmc.v.moving || s.lmc.h.moving then s.irm.generation + 1 else s.irm.generation) ∧
        t.irm.targetV = (if s.lmc.v.moving then s.lmc.v.position else s.irm.targetV) ∧
        t.irm.targetH = (if s.lmc.h.moving then s.lmc.h.position else s.irm.targetH) ∧
        ((s.lmc.v.moving || s.lmc.h.moving) = true → t.irm.reserveControl = none ∧ t.irm.reserveFrame = none) ∧
        ((s.lmc.v.moving || s.lmc.h.moving) = false → t.irm = s.irm ∧ t.ge = s.ge) ∧
        ((s.lmc.v.moving || s.lmc.h.moving) = true →
          (s.ge.inFlight.isSome = true → t.ge = { s.ge with pendingMark := true }) ∧
          (s.ge.inFlight = none → t.ge = { s.ge with
            inFlight := some ⟨t.geoInputs, s.ge.attachMark⟩, refV := s.lmc.v.position, refH := s.lmc.h.position,
            attachMark := false })) ∧
        t.irm.presets = s.irm.presets ∧ EventsOnly s t ∧ t.fmon = s.fmon ∧
        t.tmon = { s.tmon with trip := t.tmon.trip, dwell := none }

/-! ### The Airflow Controller (07) -/

/-- The value of a curve: its first duty up to its first temperature, its last from its last one on, and between two points the
lower duty plus the floor of the share of the rise; so it never falls as the temperature rises (R122). -/
def Obligations.CurveValue : Prop :=
  ∀ (p0 p1 p2 p3 p4 : Int × Nat) (mask : BitVec 6),
    p0.1 < p1.1 → p1.1 < p2.1 → p2.1 < p3.1 → p3.1 < p4.1 →
    p0.2 ≤ p1.2 → p1.2 ≤ p2.2 → p2.2 ≤ p3.2 → p3.2 ≤ p4.2 →
    let c : Curve := ⟨[p0, p1, p2, p3, p4], mask⟩
    (∀ t, t ≤ p0.1 → c.value t = p0.2) ∧ (∀ t, p4.1 ≤ t → c.value t = p4.2) ∧
    (∀ ab ∈ [(p0, p1), (p1, p2), (p2, p3), (p3, p4)], ∀ t, ab.1.1 ≤ t → t < ab.2.1 →
      (c.value t : Int) = ab.1.2 + (t - ab.1.1) * ((ab.2.2 : Int) - ab.1.2) / (ab.2.1 - ab.1.1) ∧
      ab.1.2 ≤ c.value t ∧ c.value t ≤ ab.2.2) ∧
    ∀ t u, t ≤ u → c.value t ≤ c.value u

/-- SET_QUIET stores the setting. A change selects every duty by the lines of the duty table, in their order: down to 0 the
output goes off, up from 0 below the start duty a kick begins and the fan is STARTING, between two duties above 0 a kick goes
on while the duty lies below its output and else ends. It forms the acoustic excess, which reaches the LAU; a repeat changes
nothing (R124, R125, R126, R128, R129, R130, R132, R133, R197). That a STALLED fan sent to 0 becomes OFF is the model's
reading (notes/assumptions/33.md), as is the layout of the answer (notes/assumptions/13.md). -/
def Obligations.SetQuiet : Prop :=
  ∀ (code : Byte) (on : Bool) (s : State), Listens s → readFlag code = some on →
    (s.afc.quiet = on → exec (.setQuiet .control code) s =
      .next (answered s .control 0x33 .ok (flag on ++ u8 s.afc.excess))) ∧
    (s.afc.quiet ≠ on → ∃ t, exec (.setQuiet .control code) s = .next t ∧ t.afc.quiet = on ∧
      (∀ f : Fan,
        t.afc.fans.get f = (s.afc.fans.get f).selectedAs s.now s.afc.startDuty
          (State.dutyOf { s with afc := { s.afc with quiet := on } } f)) ∧
      (t.afc.excess =
        if on = true ∧ s.tmon.trip = none ∧ s.tmon.device.isHot = false ∧ s.lau.session.lightEn = true then
          max (s.afc.fans.intake.demand - s.afc.quietCap.intake)
            (max (s.afc.fans.exhaust.demand - s.afc.quietCap.exhaust)
              (s.afc.fans.blower.demand - s.afc.quietCap.blower))
        else 0) ∧
      (t.afc.excess ≠ s.afc.excess → t.lau.held.excess = t.afc.excess) ∧
      FansOnly { s.afc with quiet := on } t.afc ∧ LevelsOnly s.lau t.lau ∧ t.lau.applied = s.lau.applied ∧
      t.lau.held = { s.lau.held with excess := t.lau.held.excess } ∧
      t.lau = (if t.afc.excess = s.afc.excess then s.lau else Lau.formed { s.lau with held := t.lau.held } s.now) ∧
      t = { answered s .control 0x33 .ok (flag on ++ u8 t.afc.excess) with afc := t.afc, lau := t.lau })

/-- The tach and kick events of a fan. The kick's expiry drops the output to the selected duty. A fall made since the output
left 0, whose line then stayed low for the filter width, captures period and rpm and restarts the edge timer at its fall; a
shorter low, and a fall made at output 0, is no edge; a first edge of a STALLED fan counts towards recovery and the second
recovers it. Grace ends in TURNING while the edge timer runs and in a stall otherwise; the edge timer's expiry stalls a
TURNING fan, is remembered in STARTING and ends a recovery in STALLED; a stall and a recovery raise their events and reach the
stalled set, the lens stops if the part becomes CRITICAL, and where the device state changes THERMAL_STATE names its source
and every fan takes the duty that the duty table then gives it (R37, R111, R124, R125, R129, R130, R131, R132, R133, R134,
R135). The model's own: the width in force at a fall is the last one set up to its time, and the clock stays at a fall that is
no edge (notes/assumptions/26.md); the clock (notes/assumptions/2.md, notes/assumptions/3.md); the time stalled, from the
stall to the recovering fall (notes/assumptions/46.md), in whole ms, rounded down (notes/assumptions/16.md); a stopped timer
does nothing (notes/assumptions/39.md); the order of the receivers (notes/assumptions/10.md). -/
def Obligations.FanEvents : Prop :=
  ∀ (f : Fan) (s : State), Awake s →
    let x := s.afc.fans.get f
    let put (s : State) (y : FanRecord) : State := { s with afc := { s.afc with fans := s.afc.fans.set f y } }
    let follows (y : FanRecord) (t : State) : Prop :=
      t.fmon = s.fmon ∧ EventsOnly s t ∧ LevelsOnly s.lau t.lau ∧ ThermalTold s t ∧
      t.tmon = { s.tmon with stalled := t.tmon.stalled, device := t.tmon.device, dwell := t.tmon.dwell } ∧
      (t.tmon.device = s.tmon.device → t.afc = (put s y).afc) ∧
      (t.tmon.device ≠ s.tmon.device → FansOnly (put s y).afc t.afc ∧ t.afc.excess = t.excessOf ∧
        ∀ g : Fan, t.afc.fans.get g =
          ((put s y).afc.fans.get g).selectedAs t.now s.afc.startDuty (t.dutyOf g))
    let stalls (c : Instr) (e : Nat) : Prop := ∃ t, exec c s = .next t ∧ t.now = max s.now e ∧
      (t.afc.fans.get f).tach = .stalled ∧ (t.afc.fans.get f).grace = none ∧ (t.afc.fans.get f).edge = none ∧
      (t.afc.fans.get f).recovery = 0 ∧ t.tmon.stalled = s.tmon.stalled.set f true ∧
      t.tmon.device = { s.tmon with stalled := s.tmon.stalled.set f true }.formDevice ∧
      (∃ entry ∈ t.cpi.port.events, entry.event = .fanStall f x.output x.rpm x.tach) ∧
      LensFollows { s with now := max s.now e } t ∧
      follows { x with tach := .stalled, grace := none, edge := none, recovery := 0, stalledAt := some t.now } t
    (x.kick = none → exec (.kickExpiry f) s = .next s) ∧
    (∀ e, x.kick = some e → exec (.kickExpiry f) s =
      .next (put { s with now := max s.now e } { x with kick := none, output := x.selected })) ∧
    (∀ fall low, x.output = 0 ∨ x.drivenFrom = none ∨ low < glitchAt fall s.afc.glitch → exec (.tachEdgeAccepted f fall low) s = .next s) ∧
    (∀ fall low t0, x.drivenFrom = some t0 → fall < t0 → exec (.tachEdgeAccepted f fall low) s = .next s) ∧
    (∀ fall low t0, x.output ≠ 0 → x.drivenFrom = some t0 → t0 ≤ fall → glitchAt fall s.afc.glitch ≤ low →
      let later := { s with now := max s.now (fall + glitchAt fall s.afc.glitch) }
      let y : FanRecord :=
        match x.lastEdge with
        | none => { x with lastEdge := some fall, edge := some (fall + 500000) }
        | some t0 =>
          let p := max 1 (min 65535 (fall - t0))
          { x with lastEdge := some fall, period := p, rpm := 30000000 / p, edge := some (fall + 500000) }
      (x.tach = .starting ∨ x.tach = .turning → exec (.tachEdgeAccepted f fall low) s = .next (put later y)) ∧
      (x.tach = .stalled → x.recovery = 0 →
        exec (.tachEdgeAccepted f fall low) s = .next (put later { y with recovery := 1 })) ∧
      (x.tach = .stalled → x.recovery ≠ 0 → ∃ t, exec (.tachEdgeAccepted f fall low) s = .next t ∧ t.now = later.now ∧
        t.tmon.stalled = s.tmon.stalled.set f false ∧
        t.tmon.device = { s.tmon with stalled := s.tmon.stalled.set f false }.formDevice ∧
        (∃ entry ∈ t.cpi.port.events, ∃ ms, entry.event = .fanRecover f y.rpm ms ∧
          ∀ t1, x.stalledAt = some t1 → ms = min 65535 ((fall - t1) / 1000)) ∧
        LensFollows later t ∧ (t.afc.fans.get f).recovery = 0 ∧
        follows { y with tach := .turning, recovery := 0, stalledAt := none } t)) ∧
    (x.grace = none → exec (.graceTimerExpiry f) s = .next s) ∧
    (∀ e, x.grace = some e →
      (∀ g, x.edge = some g → exec (.graceTimerExpiry f) s =
        .next (put { s with now := max s.now e } { x with grace := none, tach := .turning })) ∧
      (x.edge = none → x.selected ≠ 0 → stalls (.graceTimerExpiry f) e)) ∧
    (x.edge = none → exec (.edgeTimerExpiry f) s = .next s) ∧
    ∀ e, x.edge = some e →
      (x.tach = .starting → exec (.edgeTimerExpiry f) s =
        .next (put { s with now := max s.now e } { x with edge := none })) ∧
      (x.tach = .stalled → exec (.edgeTimerExpiry f) s =
        .next (put { s with now := max s.now e } { x with edge := none, recovery := 0 })) ∧
      (x.tach = .turning → x.selected ≠ 0 → stalls (.edgeTimerExpiry f) e)

/-! ### The light session (08) -/

/-- LIGHT_ON by the lines of its table, in their order; accepted, it enters IGNITION with the ignition timer started and
LIGHT_STATE raised to both processors. LIGHT_OFF in IGNITION or LIT puts the light out and enters COOLDOWN with both cool-down
timers, and leaves it at once for STANDBY with a cool-down minimum of 0 and the SRC condition met; elsewhere it changes
nothing. Each state entered selects every fan's duty by the duty table and forms the acoustic excess (R124, R125, R130, R142,
R143, R144, R147, R148, R149, R195, R197). The reason behind a refusal is the model's reading where R197 leaves it open
(notes/assumptions/14.md), as are the layouts of the answers (notes/assumptions/13.md). -/
def Obligations.LightOnAndOff : Prop :=
  ∀ s : State, Listens s →
    let l := s.lau
    let refused (status : Status) (reason : Byte) : Prop :=
      exec (.lightOn .control) s =
        .next (answered s .control 0x30 status (u8 (sessionCode l.session) ++ [reason]))
    let ok : Prop := exec (.lightOff .control) s = .next (answered s .control 0x31 .ok (u8 (sessionCode l.session)))
    (l.session = .tripped → refused .tripped 0xFF) ∧
    (l.session.lightEn = true → refused .ok 0xFF) ∧
    (l.session = .cooldown → refused .cooling 0xFF) ∧
    (l.session = .standby →
      (∀ fault, l.fault = some fault → refused .faulted (match fault.reason with | .noLight => 0 | .driver => 1)) ∧
      (l.fault = none → l.lightFlt = true → refused .faulted 2) ∧
      (l.fault = none → l.lightFlt = false → l.held.ready = false → refused .notReady 0xFF) ∧
      (l.fault = none → l.lightFlt = false → l.held.ready = true → l.held.device.isHot = true →
        refused .thermalHold 0xFF) ∧
      (l.fault = none → l.lightFlt = false → l.held.ready = true → l.held.device.isHot = false →
        ∃ t, exec (.lightOn .control) s = .next t ∧ t.lau.session = .ignition ∧ t.lightEnable = true ∧
          t.lau.ignition = some (s.now + 1000 * l.params.ignTimeout) ∧ t.lau.ignitionStart = some s.now ∧
          t.lau.drive ≤ l.drive ∧ t.lau.allowance ≤ l.params.lIgn ∧
          EventsOnly (answered s .control 0x30 .accepted [1, 0xFF]) t ∧ SessionOnly l t.lau ∧ FansOnly s.afc t.afc ∧
          FansTake s [.ignition] t ∧
          t.cpi.port.events = placeEvent (.lightState .ignition .standby .lightOn) s.cpi.port.events ∧
          t.fpi.port.events = placeEvent (.lightState .ignition .standby .lightOn) s.fpi.port.events ∧
          t.irm = s.irm ∧ t.lmc = s.lmc ∧ t.ge = s.ge ∧ t.fmon = s.fmon ∧ t.tmon = s.tmon)) ∧
    (l.session.lightEn = false → ok) ∧
    (l.session.lightEn = true →
      ∃ t, exec (.lightOff .control) s = .next t ∧ PutsOut l s.now t.lau ∧ t.lightEnable = false ∧ t.lau.fault = l.fault ∧
        EventsOnly (answered s .control 0x31 .ok (u8 (sessionCode t.lau.session))) t ∧ SessionOnly l t.lau ∧
        FansOnly s.afc t.afc ∧ FansTake s l.outSessions t ∧
        t.cpi.port.events = raisedTo (l.outEvents .lightOff) s.cpi.port.events ∧
        t.fpi.port.events = raisedTo (l.outEvents .lightOff) s.fpi.port.events ∧
        t.irm = s.irm ∧ t.lmc = s.lmc ∧ t.ge = s.ge ∧ t.fmon = s.fmon ∧ t.tmon = s.tmon)

/-- The light-driver lines and the ignition timer. A rise of LIGHT_OK ends an ignition in LIT; its fall in LIT, an active
LIGHT_FLT in IGNITION or LIT, and the ignition timer's expiry latch the fault, raise LIGHT_FAULT and put the light out into
COOLDOWN, which with a cool-down minimum of 0 and the SRC condition met ends at once in STANDBY; any other line event changes
its level alone, beside the clock. Each state entered selects the fans afresh and is raised to both processors (R125, R130,
R142, R144, R145, R146, R148, R149). The model's own: the clock (notes/assumptions/2.md, notes/assumptions/3.md), the time to
the fault in whole ms, rounded down (notes/assumptions/16.md), an ignition timer that does not run does nothing
(notes/assumptions/39.md), LIGHT_FAULT before LIGHT_STATE (notes/assumptions/12.md), and a line event taken also at the level
the line already has (notes/assumptions/5.md). -/
def Obligations.LightLines : Prop :=
  ∀ (time : Nat) (s : State), Awake s →
    let now := max s.now time
    let faulted (c : Instr) (reason : FaultReason) (e : Nat) (l : Lau) : Prop := ∃ t ms, exec c s = .next t ∧
      t.now = max s.now e ∧ t.lau.fault = some ⟨reason, ms⟩ ∧
      (∀ t0, s.lau.ignitionStart = some t0 → ms = min 65535 ((t.now - t0) / 1000)) ∧
      PutsOut s.lau t.now t.lau ∧ t.lightEnable = false ∧
      EventsOnly s t ∧ SessionOnly { l with fault := t.lau.fault } t.lau ∧
      FansOnly s.afc t.afc ∧ FansTake s s.lau.outSessions t ∧
      (let raised := .lightFault reason s.lau.session s.lau.drive ms :: s.lau.outEvents .fault
       t.cpi.port.events = raisedTo raised s.cpi.port.events ∧ t.fpi.port.events = raisedTo raised s.fpi.port.events) ∧
      t.irm = s.irm ∧ t.lmc = s.lmc ∧ t.ge = s.ge ∧ t.fmon = s.fmon ∧ t.tmon = s.tmon
    (s.lau.session ≠ .ignition → exec (.lightOkRise time) s =
      .next { s with now := now, lau := { s.lau with lightOk := true } }) ∧
    (s.lau.session = .ignition → ∃ t, exec (.lightOkRise time) s = .next t ∧ t.now = now ∧ t.lau.session = .lit ∧
      t.lightEnable = true ∧ t.lau.ignition = none ∧
      EventsOnly s t ∧ SessionOnly { s.lau with lightOk := true } t.lau ∧ FansOnly s.afc t.afc ∧
      FansTake s [.lit] t ∧
      t.cpi.port.events = placeEvent (.lightState .lit .ignition .lightOk) s.cpi.port.events ∧
      t.fpi.port.events = placeEvent (.lightState .lit .ignition .lightOk) s.fpi.port.events ∧
      t.irm = s.irm ∧ t.lmc = s.lmc ∧ t.ge = s.ge ∧ t.fmon = s.fmon ∧ t.tmon = s.tmon) ∧
    (s.lau.session ≠ .lit → exec (.lightOkFall time) s =
      .next { s with now := now, lau := { s.lau with lightOk := false } }) ∧
    (s.lau.session = .lit → faulted (.lightOkFall time) .noLight time { s.lau with lightOk := false }) ∧
    (exec (.lightFlt false time) s = .next { s with now := now, lau := { s.lau with lightFlt := false } }) ∧
    (s.lau.session.lightEn = false → exec (.lightFlt true time) s =
      .next { s with now := now, lau := { s.lau with lightFlt := true } }) ∧
    (s.lau.session.lightEn = true → faulted (.lightFlt true time) .driver time { s.lau with lightFlt := true }) ∧
    (s.lau.ignition = none → exec .ignitionTimerExpiry s = .next s) ∧
    ∀ e, s.lau.ignition = some e → faulted .ignitionTimerExpiry .noLight e s.lau

/-- The cool-down timers and the slew timer: the minimum's expiry makes it elapsed and, with a LIVE SRC zone below T_cool,
ends the cool-down in STANDBY with cause COOLED; the maximum's ends it with cause COOL_MAX; entry to STANDBY selects the fans
afresh and raises LIGHT_STATE to both processors; a slew expiry raises the drive by one slew, no further than the target, and
goes on until it is reached. SET_LIGHT_MODE stores the mode and forms the allowance afresh, at most the mode's ceiling, and
the drive follows it; CLEAR_LIGHT_FAULT clears the latch unless LIGHT_FLT is active; LIGHT_REQUEST latches a level up to 16383
while attached (R125, R130, R146, R148, R149, R151, R152, R157, R160, R195, R197). The model's own: the clock at an expiry
(notes/assumptions/2.md), a timer that does not run does nothing (notes/assumptions/39.md, of which R149 states the cool-down
race alone), and the layouts of the answers (notes/assumptions/13.md, notes/assumptions/14.md). -/
def Obligations.LightTimersAndSettings : Prop :=
  (∀ s : State, Awake s →
    let cool (t : State) (e : Nat) (cause : SessionCause) : Prop :=
      t.now = max s.now e ∧ t.lau.session = .standby ∧ t.lau.coolMin = .stopped ∧ t.lau.coolMax = none ∧ t.lau.drive = 0 ∧
      EventsOnly s t ∧ SessionOnly s.lau t.lau ∧ FansOnly s.afc t.afc ∧ FansTake s [.standby] t ∧
      t.cpi.port.events = placeEvent (.lightState .standby s.lau.session cause) s.cpi.port.events ∧
      t.fpi.port.events = placeEvent (.lightState .standby s.lau.session cause) s.fpi.port.events ∧
      t.irm = s.irm ∧ t.lmc = s.lmc ∧ t.ge = s.ge ∧ t.fmon = s.fmon ∧ t.tmon = s.tmon
    ((∀ e, s.lau.coolMin ≠ .running e) → exec .cooldownMinExpiry s = .next s) ∧
    (∀ e, s.lau.coolMin = .running e →
      (s.lau.session = .cooldown → s.lau.Cold → ∃ t, exec .cooldownMinExpiry s = .next t ∧ cool t e .cooled) ∧
      (¬ (s.lau.session = .cooldown ∧ s.lau.Cold) → exec .cooldownMinExpiry s =
        .next { s with now := max s.now e, lau := { s.lau with coolMin := .elapsed } })) ∧
    (s.lau.coolMax = none → exec .coolMax s = .next s) ∧
    (∀ e, s.lau.coolMax = some e → ∃ t, exec .coolMax s = .next t ∧ cool t e .coolMax) ∧
    (s.lau.slew = none → exec .slewTimerExpiry s = .next s) ∧
    ∀ e, s.lau.slew = some e → s.lau.session.lightEn = true →
      let target := min (s.lau.applied.getD s.lau.mode.ceiling) s.lau.allowance
      let drive := min target (s.lau.drive + s.lau.params.slew)
      exec .slewTimerExpiry s =
        .next { s with now := max s.now e, lau := { s.lau with
          drive := drive, slew := if drive < target then some (max s.now e + 10000) else none } }) ∧
  ∀ s : State, Listens s →
    (∀ (code : Byte) (mode : LightMode), readMode code = some mode →
      ∃ t, exec (.setLightMode .control code) s = .next t ∧
        t.lau = Lau.formed { s.lau with mode := mode } s.now ∧
        t.lau.mode = mode ∧ t.lau.allowance ≤ (match mode with | .eco => 9830 | .normal => 13107 | .bright => 16383) ∧
        (t.lau.session.lightEn = true → t.lau.drive ≤ t.lau.allowance ∧ t.lau.drive ≤ s.lau.drive) ∧
        LevelsOnly { s.lau with mode := mode } t.lau ∧ t.lau.held = s.lau.held ∧ t.lau.applied = s.lau.applied ∧
        t = { answered s .control 0x32 .ok (u8 (lightModeCode mode) ++ u16 t.lau.allowance) with lau := t.lau }) ∧
    (s.lau.lightFlt = true →
      exec (.clearLightFault .control) s = .next (answered s .control 0x34 .faulted (flag s.lau.fault.isSome))) ∧
    (s.lau.lightFlt = false →
      exec (.clearLightFault .control) s =
        .next (answered { s with lau := { s.lau with fault := none } } .control 0x34 .ok [0])) ∧
    ∀ level : Word16,
      (16383 < level.toNat → ∃ b, exec (.lightRequest .frame level) s = .next (answered s .frame 0x12 .outOfRange b)) ∧
      (level.toNat ≤ 16383 → s.fpi.attached = false →
        ∃ b, exec (.lightRequest .frame level) s = .next (answered s .frame 0x12 .notReady b)) ∧
      (level.toNat ≤ 16383 → s.fpi.attached = true →
        exec (.lightRequest .frame level) s =
          .next (answered { s with fpi := { s.fpi with latched := some level.toNat } } .frame 0x12 .ok
            (le16 level ++ optLevel s.lau.applied)))

/-! ### Parameters and tables (10) -/

/-- SET_PARAM of an axis parameter: refused OUT_OF_RANGE outside its range or against its partners, BUSY unless the axis is
IDLE with an empty queue; else the value replaces the parameter, and nothing else changes (R21, R22, R195, R197). That both
rows of SET_PARAM do the same is the model's reading of the one kind on the wire (notes/assumptions/28.md), and so is the
value an answer shows (notes/assumptions/13.md) and a refusal shows (notes/assumptions/14.md). -/
def Obligations.AxisParameters : Prop :=
  ∀ (code index : Byte) (value : Word32) (a : Axis) (p : AxisParam) (s : State), Listens s →
    paramOf code index = .ok (.axis a p) →
    let x := s.axis a
    let y := x.params.replace p value.toInt
    let inRange := (x.params.range p).1 ≤ value.toInt ∧ value.toInt ≤ (x.params.range p).2
    let partners := y.pRunSlow ≤ y.pStart ∧ y.pRunNormal ≤ y.pStart ∧ y.pRunFast ≤ y.pStart ∧ y.centre ≤ y.travel ∧
      y.refPos ≤ y.travel ∧ (x.trust = .homed → x.position ≤ y.travel)
    let still := x.motion = .idle ∧ x.queue = []
    let held := s32 (x.params.value p)
    exec (.setParam .control code index value) s = exec (.setParamAxis .control code index value) s ∧
    (¬ (inRange ∧ partners) →
      exec (.setParamAxis .control code index value) s = .next (answered s .control 0x40 .outOfRange held)) ∧
    (inRange → partners → ¬ still →
      exec (.setParamAxis .control code index value) s = .next (answered s .control 0x40 .busy held)) ∧
    (inRange → partners → still →
      exec (.setParamAxis .control code index value) s =
        .next (answered (s.setAxis a { x with params := y }) .control 0x40 .ok (s32 (y.value p))) ∧
      ((a = .v → x.params.iGrav.isSome = true) → y.value p = value.toInt) ∧
      ∀ other, other ≠ p → y.value other = x.params.value other)

/-- SET_PARAM of a parameter of R192: refused OUT_OF_RANGE outside its range; else stored and answered OK with its value. FLIM
is a recompute trigger; the light levels form the allowance afresh; T_cool is a check of the cool-down; the quiet caps and
cool-down duties select the duties; the others wait for their next use (R192, R65, R149, R152, R125, R195, R197). The value an
answer shows is the model's reading (notes/assumptions/13.md), and so is the one a refusal shows (notes/assumptions/14.md). -/
def Obligations.BlockParameters : Prop :=
  ∀ (code index : Byte) (value : Word32) (p : BlockParam) (s : State), Listens s → paramOf code index = .ok (.block p) →
    let c : Instr := .setParam .control code index value
    (p.admits value.toInt = false → exec c s = .next (answered s .control 0x40 .outOfRange (s32 (s.blockValue p)))) ∧
    (p.admits value.toInt = true →
      let stored := s.storeBlock p value.toInt
      stored.blockValue p = value.toInt ∧ (∀ other, other ≠ p → stored.blockValue other = s.blockValue other) ∧
      exec c s = .next (answered
        (match p with
          | .flim => stored.recompute
          | .lLapse | .lIgn | .lStall | .lCrit | .lAcFloor | .acStep => { stored with lau := Lau.form s.now stored.lau }
          | .tCool => stored.checkCooled
          | .quietCap _ | .coolDuty _ => stored.selectFans
          | .q | .lapseWindow | .slew | .ignTimeout | .coolMin | .coolMax | .dwell | .startDuty | .glitch => stored)
        .control 0x40 .ok (le32 value)))

/-- The segmented load. The fields of each table, their ranges, and where an image breaks a whole-table condition first.
BEGIN_LOAD of the table's length opens a load and abandons an open one; a segment in sequence is placed and counted, one out
of sequence or past the end is discarded and held as the first error, and the first field that a segment completes out of its
range is held as FIELD with its offset; END_LOAD closes the load, installs a whole good image and counts the installation, a
SCAN table with the new-table mark, and reports TABLE_INVALID with cause and offset otherwise; without a load both are refused
NO_LOAD (R102, R183, R184, R185, R188, R189, R190, R191, R197, R203). The model's own: of several repeating pairs in a SCAN
image the one with the lowest later slot is reported (notes/assumptions/23.md), and an END_LOAD refused NO_LOAD has the report
offset 0 (notes/assumptions/14.md). -/
def Obligations.TableLoads : Prop :=
  (∀ (x : Table) (image : List Byte),
    x.fields.map (fun f => (f.offset, f.size)) = x.places ∧
    (∀ f ∈ x.fields, f.offset + f.size ≤ image.length → (f.good image = true ↔ x.InRange image f.offset)) ∧
    (image.length = x.length →
      (∀ at_, firstFault (x.conditions image) = some at_ ↔ x.Breaks image at_ ∧ ∀ o < at_, ¬ x.Breaks image o) ∧
      (firstFault (x.conditions image) = none ↔ ∀ o < x.length, ¬ x.Breaks image o))) ∧
  ∀ s : State, Listens s →
    let put (l : Option Load) : State := { s with cpi := { s.cpi with load := l } }
    (∀ (code : Byte) (x : Table) (total : Word16), readTableCode code = some x →
      (total.toNat ≠ x.length →
        exec (.beginLoad .control code total) s =
          .next (answered s .control 0x48 .outOfRange ([code] ++ le16 total ++ [0xFF]))) ∧
      (total.toNat = x.length →
        exec (.beginLoad .control code total) s =
          .next (answered (put (some ⟨x, x.length, 0, [], none⟩)) .control 0x48 .ok
            ([code] ++ le16 total ++ match s.cpi.load with | some l => u8 (tableCode l.table) | none => [0xFF])))) ∧
    (∀ (p : Port) (code : Byte) (total : Word16), readTableCode code = none →
      exec (.beginLoad p code total) s = .next (answered s p 0x48 .badRequest [3, 0])) ∧
    (s.cpi.load = none →
      exec (.endLoad .control) s = .next (answered s .control 0x4A .noLoad [0xFF, 0, 0, 0xFF, 0, 0]) ∧
      ∀ (offset : Word16) (data : List Byte), 1 ≤ data.length → data.length ≤ 56 →
        exec (.loadSegment .control offset data) s = .next (answered s .control 0x49 .noLoad [0, 0, 0])) ∧
    (∀ (p : Port) (offset : Word16) (data : List Byte), data.length = 0 ∨ 56 < data.length →
      exec (.loadSegment p offset data) s = .next (answered s p 0x49 .badRequest [1, 0])) ∧
    ∀ l, s.cpi.load = some l →
      (∀ (offset : Word16) (data : List Byte), 1 ≤ data.length → data.length ≤ 56 → ∃ m : Load,
        exec (.loadSegment .control offset data) s =
          .next (answered (put (some m)) .control 0x49 .accepted (u16 m.received ++ flag m.firstError.isSome)) ∧
        m.table = l.table ∧ m.total = l.total ∧
        (l.firstError.isSome = true → m.firstError = l.firstError) ∧
        (offset.toNat ≠ l.received →
          m.received = l.received ∧ m.image = l.image ∧
          (l.firstError = none → m.firstError = some (.sequence, l.received))) ∧
        (offset.toNat = l.received → l.total < offset.toNat + data.length →
          m.received = l.received ∧ m.image = l.image ∧
          (l.firstError = none → m.firstError = some (.overrun, offset.toNat))) ∧
        (offset.toNat = l.received → offset.toNat + data.length ≤ l.total →
          m.received = l.received + data.length ∧ m.image = l.image ++ data ∧
          (l.firstError = none →
            let completed (f : FieldSpec) : Prop := l.received < f.offset + f.size ∧ f.offset + f.size ≤ m.received
            ((∀ f ∈ l.table.fields, completed f → f.good m.image = true) → m.firstError = none) ∧
            (∀ f ∈ l.table.fields, completed f → f.good m.image = false →
              (∀ g ∈ l.table.fields, completed g → g.good m.image = false → f.offset ≤ g.offset) →
              m.firstError = some (.field, f.offset))))) ∧
      (∀ cause at_, l.firstError = some (cause, at_) →
        exec (.endLoad .control) s =
          .next (answered (put none) .control 0x4A .tableInvalid
            (u8 (tableCode l.table) ++ le16 (s.tableCount l.table) ++ [causeByte cause] ++ u16 at_))) ∧
      (l.firstError = none → l.received < l.total →
        exec (.endLoad .control) s =
          .next (answered (put none) .control 0x4A .tableInvalid
            (u8 (tableCode l.table) ++ le16 (s.tableCount l.table) ++ [3] ++ u16 l.received))) ∧
      (l.firstError = none → l.total ≤ l.received →
        (∀ at_, firstFault (l.table.conditions l.image) = some at_ →
          exec (.endLoad .control) s =
            .next (answered (put none) .control 0x4A .tableInvalid
              (u8 (tableCode l.table) ++ le16 (s.tableCount l.table) ++ [4] ++ u16 at_))) ∧
        (firstFault (l.table.conditions l.image) = none →
          let installed := (put none).installTable l.table l.image
          installed.tableCount l.table = s.tableCount l.table + 1 ∧
          (∀ x, x ≠ l.table → installed.tableCount x = s.tableCount x ∧ installed.tableImage x = s.tableImage x) ∧
          installed = { put none with
            ge := { s.ge with tk := installed.ge.tk, tkCount := installed.ge.tkCount },
            afc := { s.afc with floorCurves := installed.afc.floorCurves, ceilingCurves := installed.afc.ceilingCurves,
                                curvesCount := installed.afc.curvesCount },
            tmon := { s.tmon with thresholds := installed.tmon.thresholds, thresholdsCount := installed.tmon.thresholdsCount,
                                  table := installed.tmon.table, tableCount := installed.tmon.tableCount,
                                  newTable := if l.table = .scan then true else s.tmon.newTable } } ∧
          exec (.endLoad .control) s =
            .next (answered (if l.table = .keystone then installed.recompute else installed) .control 0x4A .ok
              (u8 (tableCode l.table) ++ le16 (s.tableCount l.table + 1) ++ [0xFF] ++ u16 0))))

/-- The image of a table installed from an image whose fields all lie in their ranges is that image, byte for byte, for every
table and every such image (R182, R187, R203). -/
def Obligations.TableImageRoundTrip : Prop :=
  ∀ (x : Table) (image : List Byte) (s : State), image.length = x.length →
    (∀ f ∈ x.fields, f.good image = true) → (s.installTable x image).tableImage x = image

/-! ### What every step keeps -/

/-- Every step keeps the light rules and the trip rules: the drive under the allowance under the mode's ceiling and at 0 outside
IGNITION and LIT, each session timer in its own state, and under a set trip latch a TRIPPED session and no moving axis; the
dwell timer runs exactly while the part is CRITICAL and not tripped; and no command but a hard reset clears or alters the trip
latch (R112, R114, R142, R152). -/
def Obligations.LightAndTripKept : Prop :=
  ∀ s : State,
    (LightSafe s → SessionTimers s.lau → TripSafe s → ∀ t, step s = .next t →
      LightSafe t ∧ SessionTimers t.lau ∧ TripSafe t) ∧
    (DwellSound s → ∀ t, step s = .next t → DwellSound t) ∧
    ((∀ low rest, s.pending ≠ .hardReset low :: rest) → ∀ r, s.tmon.trip = some r → ∀ t, step s = .next t →
      t.tmon.trip = some r)

/-- Every step keeps the fan rules: duty 63 on every fan while the part is HOT, CRITICAL or tripped, and each fan's record in
agreement with itself (R119, R125, R128, R132, R133). -/
def Obligations.FansKept : Prop :=
  ∀ s : State, (FansSafe s → ∀ t, step s = .next t → FansSafe t) ∧ (FansSound s → ∀ t, step s = .next t → FansSound t)

/-- Every step keeps both event sets fitting: one entry at most of each kind, all of routed kinds, counts in 1..15; so that no
set outgrows the kinds of its processor, 17 for the system controller and 12 for the picture processor (R173, R174). -/
def Obligations.EventSetsKept : Prop :=
  (∀ s : State, EventSetsFit s → ∀ t, step s = .next t → EventSetsFit t) ∧
  ∀ s : State, EventSetsFit s → s.cpi.port.events.length ≤ 17 ∧ s.fpi.port.events.length ≤ 12

/-- Every step keeps every parameter in its range (R21, R22, R192). -/
def Obligations.ParameterRangesKept : Prop := ∀ s : State, ParamsFit s → ∀ t, step s = .next t → ParamsFit t

/-- With the parameters in their ranges every step keeps both axes sound: queues of at most four with no entry active but the
head, an IDLE or FAULT axis at its target, a RUNNING axis on the way to its head entry, and each target of the record the drain
position of its axis (R2, R23, R24). -/
def Obligations.LensSoundKept : Prop :=
  ∀ s : State, ParamsFit s → LensSound s → ∀ t, step s = .next t → LensSound t

/-- What the allowance is formed from: the mode ceiling; L_th, the least zone derate over the zones in use, capped by L_stall
while a fan is stalled; L_ac; the lapse cap; the ignition cap; and the allowance is the least of those that apply. Every step
keeps the allowance formed from the LAU's inputs, those inputs equal to the values of the blocks that hand them, and the frame
side at rest while the picture processor is detached (R89 to R94, R141, R151 to R156, R158). When the stall cap is marked is
the model's reading (notes/assumptions/17.md). -/
def Obligations.HandedStateKept : Prop :=
  (∀ l : Lau,
    let derate (z : Zone) : Nat :=
      let r := l.held.zones.get z
      let th := l.held.thresholds.get z
      match r.temperature with
      | none => 16383
      | some t =>
        if r.inUse = false then 16383
        else if r.state = .critical then l.params.lCrit
        else if th.hot ≤ t then th.lHot
        else if th.warm ≤ t then (16383 - (t - th.warm) * (16383 - (th.lHot : Int)) / (th.hot - th.warm)).toNat
        else 16383
    let least := min 16383 (min (derate .src) (min (derate .panel) (min (derate .lens)
      (min (derate .supply) (min (derate .intake) (derate .exhaust))))))
    let c := l.formComponents
    c.modeCeiling = (match l.mode with | .eco => 9830 | .normal => 13107 | .bright => 16383) ∧
    c.lTh = (if l.held.anyStalled = true then min least l.params.lStall else least) ∧
    c.stallCapped = (l.held.anyStalled && decide (l.params.lStall < least)) ∧
    c.lAc = max l.params.lAcFloor (16383 - l.held.excess * l.params.acStep) ∧
    c.lapseApplies = (!l.held.attached || decide (l.held.lapse = .lapsed)) ∧
    c.ignApplies = decide (l.session = .ignition) ∧
    (let caps := [c.modeCeiling, c.lTh, c.lAc] ++ (if c.lapseApplies = true then [l.params.lLapse] else []) ++
       (if c.ignApplies = true then [l.params.lIgn] else [])
     (∀ cap ∈ caps, c.least l.params ≤ cap) ∧ c.least l.params ∈ caps) ∧
    ∀ z : Zone, ∀ t, (l.held.zones.get z).temperature = some t →
      (l.held.thresholds.get z).warm < (l.held.thresholds.get z).hot → (l.held.thresholds.get z).lHot ≤ 16383 →
      (l.held.zones.get z).state ≠ .critical →
      (l.held.thresholds.get z).lHot ≤ derate z ∧ derate z ≤ 16383) ∧
  ∀ s : State,
    (AllowanceFresh s → ∀ t, step s = .next t → AllowanceFresh t) ∧
    (HeldFollows s → ∀ t, step s = .next t → HeldFollows t) ∧ (FrameSound s → ∀ t, step s = .next t → FrameSound t)

/-- No command but a hard reset changes an orientation, a code or a target without counting the generation on, making both
reservations INVALID and raising INSTALL_CHANGED to both processors; one command makes at most four changes; and every VALID
reservation holds the present generation (R3, R4, R5). -/
def Obligations.RecordChangesAreCounted : Prop :=
  ∀ s : State,
    (ReservationsCurrent s → ∀ t, step s = .next t → ReservationsCurrent t) ∧
    ((∀ low rest, s.pending ≠ .hardReset low :: rest) → ∀ t, step s = .next t →
      ∃ n ∈ [0, 1, 2, 3, 4], t.irm.generation = s.irm.generation + BitVec.ofNat 16 n ∧
        (n = 0 → t.irm.orientation = s.irm.orientation ∧ t.irm.kv = s.irm.kv ∧ t.irm.kh = s.irm.kh ∧
          t.irm.targetV = s.irm.targetV ∧ t.irm.targetH = s.irm.targetH) ∧
        (n ≠ 0 → t.irm.reserveControl = none ∧ t.irm.reserveFrame = none ∧
          t.cpi.port.events.any (fun x => decide (x.event.kind = .installChanged)) = true ∧
          t.fpi.port.events.any (fun x => decide (x.event.kind = .installChanged)) = true))

/-- What the picture processor cannot change: no request on the Frame Port changes the orientation, a preset, an axis's
parameters, trust or pending home, the light session, mode or fault, the quiet setting, the thermal state, a table, a parameter,
an open load, or the Control Port's address, slot and mask (R171, R8, R172). -/
def Obligations.FramePortLimits : Prop :=
  ∀ (c : Instr) (s : State), portOf c = some .frame → ∀ t, exec c s = .next t →
    t.irm.orientation = s.irm.orientation ∧ t.irm.presets = s.irm.presets ∧
    (∀ a : Axis, (t.axis a).params = (s.axis a).params ∧ (t.axis a).trust = (s.axis a).trust ∧
      (t.axis a).pendingHome = (s.axis a).pendingHome) ∧
    t.lau.session = s.lau.session ∧ t.lau.mode = s.lau.mode ∧ t.lau.fault = s.lau.fault ∧ t.lau.params = s.lau.params ∧
    t.afc = s.afc ∧ t.tmon = s.tmon ∧ t.ge.tk = s.ge.tk ∧ t.ge.tkCount = s.ge.tkCount ∧ t.ge.flim = s.ge.flim ∧
    t.ge.q = s.ge.q ∧ t.fmon.lapseWindow = s.fmon.lapseWindow ∧ t.cpi.load = s.cpi.load ∧
    t.cpi.address = s.cpi.address ∧ t.cpi.port.slot = s.cpi.port.slot ∧ t.cpi.port.mask = s.cpi.port.mask ∧
    t.inReset = s.inReset

/-- The state right after reset meets every predicate that the steps keep. -/
def Obligations.ResetMeetsInvariants : Prop :=
  LightSafe State.reset ∧ SessionTimers State.reset.lau ∧ TripSafe State.reset ∧ DwellSound State.reset ∧
    FansSafe State.reset ∧ FansSound State.reset ∧ EventSetsFit State.reset ∧ ParamsFit State.reset ∧
    LensSound State.reset ∧ AllowanceFresh State.reset ∧ HeldFollows State.reset ∧ FrameSound State.reset ∧
    ReservationsCurrent State.reset
end

