-- ==== Sys2Proof/Laws/State.lean ====
section
/-! SUPPORT. The updates of State: what each sets, and that it sets nothing else; one lemma for each field and update. -/

namespace Sys2Proof.Machine

/-! ### setAxis -/

@[simp] theorem State.setAxis_now (s : State) (a : Axis) (x : AxisState) : (s.setAxis a x).now = s.now := by cases a <;> rfl
@[simp] theorem State.setAxis_inReset (s : State) (a : Axis) (x : AxisState) : (s.setAxis a x).inReset = s.inReset := by cases a <;> rfl
@[simp] theorem State.setAxis_resetPulses (s : State) (a : Axis) (x : AxisState) : (s.setAxis a x).resetPulses = s.resetPulses := by cases a <;> rfl
@[simp] theorem State.setAxis_pending (s : State) (a : Axis) (x : AxisState) : (s.setAxis a x).pending = s.pending := by cases a <;> rfl
@[simp] theorem State.setAxis_cpi (s : State) (a : Axis) (x : AxisState) : (s.setAxis a x).cpi = s.cpi := by cases a <;> rfl
@[simp] theorem State.setAxis_fpi (s : State) (a : Axis) (x : AxisState) : (s.setAxis a x).fpi = s.fpi := by cases a <;> rfl
@[simp] theorem State.setAxis_irm (s : State) (a : Axis) (x : AxisState) : (s.setAxis a x).irm = s.irm := by cases a <;> rfl
@[simp] theorem State.setAxis_ge (s : State) (a : Axis) (x : AxisState) : (s.setAxis a x).ge = s.ge := by cases a <;> rfl
@[simp] theorem State.setAxis_fmon (s : State) (a : Axis) (x : AxisState) : (s.setAxis a x).fmon = s.fmon := by cases a <;> rfl
@[simp] theorem State.setAxis_tmon (s : State) (a : Axis) (x : AxisState) : (s.setAxis a x).tmon = s.tmon := by cases a <;> rfl
@[simp] theorem State.setAxis_afc (s : State) (a : Axis) (x : AxisState) : (s.setAxis a x).afc = s.afc := by cases a <;> rfl
@[simp] theorem State.setAxis_lau (s : State) (a : Axis) (x : AxisState) : (s.setAxis a x).lau = s.lau := by cases a <;> rfl

@[simp] theorem State.setAxis_axis_self (s : State) (a : Axis) (x : AxisState) : (s.setAxis a x).axis a = x := by
  cases a <;> rfl
theorem State.setAxis_axis_of_ne (s : State) {a b : Axis} (x : AxisState) (h : b ≠ a) :
    (s.setAxis a x).axis b = s.axis b := by
  cases a <;> cases b <;> first | rfl | exact absurd rfl h
@[simp] theorem State.setAxis_v_v (s : State) (x : AxisState) : (s.setAxis .v x).lmc.v = x := rfl
@[simp] theorem State.setAxis_v_h (s : State) (x : AxisState) : (s.setAxis .v x).lmc.h = s.lmc.h := rfl
@[simp] theorem State.setAxis_h_h (s : State) (x : AxisState) : (s.setAxis .h x).lmc.h = x := rfl
@[simp] theorem State.setAxis_h_v (s : State) (x : AxisState) : (s.setAxis .h x).lmc.v = s.lmc.v := rfl
@[simp] theorem State.axis_v (s : State) : s.axis .v = s.lmc.v := rfl
@[simp] theorem State.axis_h (s : State) : s.axis .h = s.lmc.h := rfl

/-! ### The clock -/

@[simp] theorem State.at_inReset (s : State) (time : Nat) : (s.at_ time).inReset = s.inReset := rfl
@[simp] theorem State.at_resetPulses (s : State) (time : Nat) : (s.at_ time).resetPulses = s.resetPulses := rfl
@[simp] theorem State.at_pending (s : State) (time : Nat) : (s.at_ time).pending = s.pending := rfl
@[simp] theorem State.at_cpi (s : State) (time : Nat) : (s.at_ time).cpi = s.cpi := rfl
@[simp] theorem State.at_fpi (s : State) (time : Nat) : (s.at_ time).fpi = s.fpi := rfl
@[simp] theorem State.at_irm (s : State) (time : Nat) : (s.at_ time).irm = s.irm := rfl
@[simp] theorem State.at_lmc (s : State) (time : Nat) : (s.at_ time).lmc = s.lmc := rfl
@[simp] theorem State.at_ge (s : State) (time : Nat) : (s.at_ time).ge = s.ge := rfl
@[simp] theorem State.at_fmon (s : State) (time : Nat) : (s.at_ time).fmon = s.fmon := rfl
@[simp] theorem State.at_tmon (s : State) (time : Nat) : (s.at_ time).tmon = s.tmon := rfl
@[simp] theorem State.at_afc (s : State) (time : Nat) : (s.at_ time).afc = s.afc := rfl
@[simp] theorem State.at_lau (s : State) (time : Nat) : (s.at_ time).lau = s.lau := rfl
@[simp] theorem State.at_now (s : State) (time : Nat) : (s.at_ time).now = max s.now time := rfl

/-! ### The ports -/

@[simp] theorem State.setPort_now (s : State) (p : Port) (x : PortState) : (s.setPort p x).now = s.now := by cases p <;> rfl
@[simp] theorem State.setSlot_now (s : State) (p : Port) (x : Slot) : (s.setSlot p x).now = s.now := by cases p <;> rfl
@[simp] theorem State.setPort_inReset (s : State) (p : Port) (x : PortState) : (s.setPort p x).inReset = s.inReset := by cases p <;> rfl
@[simp] theorem State.setSlot_inReset (s : State) (p : Port) (x : Slot) : (s.setSlot p x).inReset = s.inReset := by cases p <;> rfl
@[simp] theorem State.setPort_resetPulses (s : State) (p : Port) (x : PortState) : (s.setPort p x).resetPulses = s.resetPulses := by cases p <;> rfl
@[simp] theorem State.setSlot_resetPulses (s : State) (p : Port) (x : Slot) : (s.setSlot p x).resetPulses = s.resetPulses := by cases p <;> rfl
@[simp] theorem State.setPort_pending (s : State) (p : Port) (x : PortState) : (s.setPort p x).pending = s.pending := by cases p <;> rfl
@[simp] theorem State.setSlot_pending (s : State) (p : Port) (x : Slot) : (s.setSlot p x).pending = s.pending := by cases p <;> rfl
@[simp] theorem State.setPort_irm (s : State) (p : Port) (x : PortState) : (s.setPort p x).irm = s.irm := by cases p <;> rfl
@[simp] theorem State.setSlot_irm (s : State) (p : Port) (x : Slot) : (s.setSlot p x).irm = s.irm := by cases p <;> rfl
@[simp] theorem State.setPort_lmc (s : State) (p : Port) (x : PortState) : (s.setPort p x).lmc = s.lmc := by cases p <;> rfl
@[simp] theorem State.setSlot_lmc (s : State) (p : Port) (x : Slot) : (s.setSlot p x).lmc = s.lmc := by cases p <;> rfl
@[simp] theorem State.setPort_ge (s : State) (p : Port) (x : PortState) : (s.setPort p x).ge = s.ge := by cases p <;> rfl
@[simp] theorem State.setSlot_ge (s : State) (p : Port) (x : Slot) : (s.setSlot p x).ge = s.ge := by cases p <;> rfl
@[simp] theorem State.setPort_fmon (s : State) (p : Port) (x : PortState) : (s.setPort p x).fmon = s.fmon := by cases p <;> rfl
@[simp] theorem State.setSlot_fmon (s : State) (p : Port) (x : Slot) : (s.setSlot p x).fmon = s.fmon := by cases p <;> rfl
@[simp] theorem State.setPort_tmon (s : State) (p : Port) (x : PortState) : (s.setPort p x).tmon = s.tmon := by cases p <;> rfl
@[simp] theorem State.setSlot_tmon (s : State) (p : Port) (x : Slot) : (s.setSlot p x).tmon = s.tmon := by cases p <;> rfl
@[simp] theorem State.setPort_afc (s : State) (p : Port) (x : PortState) : (s.setPort p x).afc = s.afc := by cases p <;> rfl
@[simp] theorem State.setSlot_afc (s : State) (p : Port) (x : Slot) : (s.setSlot p x).afc = s.afc := by cases p <;> rfl
@[simp] theorem State.setPort_lau (s : State) (p : Port) (x : PortState) : (s.setPort p x).lau = s.lau := by cases p <;> rfl
@[simp] theorem State.setSlot_lau (s : State) (p : Port) (x : Slot) : (s.setSlot p x).lau = s.lau := by cases p <;> rfl
@[simp] theorem State.setPort_port_self (s : State) (p : Port) (x : PortState) : (s.setPort p x).port p = x := by
  cases p <;> rfl
theorem State.setPort_port_of_ne (s : State) {p r : Port} (x : PortState) (h : r ≠ p) :
    (s.setPort p x).port r = s.port r := by
  cases p <;> cases r <;> first | rfl | exact absurd rfl h
@[simp] theorem State.setSlot_slot_self (s : State) (p : Port) (x : Slot) : ((s.setSlot p x).port p).slot = x := by
  cases p <;> rfl
@[simp] theorem State.setSlot_events (s : State) (p r : Port) (x : Slot) :
    ((s.setSlot p x).port r).events = (s.port r).events := by
  cases p <;> cases r <;> rfl
@[simp] theorem State.setSlot_mask (s : State) (p r : Port) (x : Slot) : ((s.setSlot p x).port r).mask = (s.port r).mask := by
  cases p <;> cases r <;> rfl
@[simp] theorem State.setSlot_lastWarp (s : State) (p r : Port) (x : Slot) :
    ((s.setSlot p x).port r).lastWarp = (s.port r).lastWarp := by
  cases p <;> cases r <;> rfl
@[simp] theorem State.setSlot_crossing (s : State) (p r : Port) (x : Slot) :
    ((s.setSlot p x).port r).crossing = (s.port r).crossing := by
  cases p <;> cases r <;> rfl
theorem State.setSlot_slot_of_ne (s : State) {p r : Port} (x : Slot) (h : r ≠ p) :
    ((s.setSlot p x).port r).slot = (s.port r).slot := by
  cases p <;> cases r <;> first | rfl | exact absurd rfl h
@[simp] theorem State.port_control (s : State) : s.port .control = s.cpi.port := rfl
@[simp] theorem State.port_frame (s : State) : s.port .frame = s.fpi.port := rfl
@[simp] theorem State.setPort_control_fpi (s : State) (x : PortState) : (s.setPort .control x).fpi = s.fpi := rfl
@[simp] theorem State.setSlot_control_fpi (s : State) (x : Slot) : (s.setSlot .control x).fpi = s.fpi := rfl
@[simp] theorem State.setPort_control_cpi_address (s : State) (x : PortState) : (s.setPort .control x).cpi.address = s.cpi.address := rfl
@[simp] theorem State.setSlot_control_cpi_address (s : State) (x : Slot) : (s.setSlot .control x).cpi.address = s.cpi.address := rfl
@[simp] theorem State.setPort_control_cpi_load (s : State) (x : PortState) : (s.setPort .control x).cpi.load = s.cpi.load := rfl
@[simp] theorem State.setSlot_control_cpi_load (s : State) (x : Slot) : (s.setSlot .control x).cpi.load = s.cpi.load := rfl
@[simp] theorem State.setPort_control_port (s : State) (x : PortState) : (s.setPort .control x).cpi.port = x := rfl
@[simp] theorem State.setSlot_control_port (s : State) (x : Slot) : (s.setSlot .control x).cpi.port = { s.cpi.port with slot := x } := rfl
@[simp] theorem State.setPort_frame_cpi (s : State) (x : PortState) : (s.setPort .frame x).cpi = s.cpi := rfl
@[simp] theorem State.setSlot_frame_cpi (s : State) (x : Slot) : (s.setSlot .frame x).cpi = s.cpi := rfl
@[simp] theorem State.setPort_frame_fpi_attached (s : State) (x : PortState) : (s.setPort .frame x).fpi.attached = s.fpi.attached := rfl
@[simp] theorem State.setSlot_frame_fpi_attached (s : State) (x : Slot) : (s.setSlot .frame x).fpi.attached = s.fpi.attached := rfl
@[simp] theorem State.setPort_frame_fpi_width (s : State) (x : PortState) : (s.setPort .frame x).fpi.width = s.fpi.width := rfl
@[simp] theorem State.setSlot_frame_fpi_width (s : State) (x : Slot) : (s.setSlot .frame x).fpi.width = s.fpi.width := rfl
@[simp] theorem State.setPort_frame_fpi_height (s : State) (x : PortState) : (s.setPort .frame x).fpi.height = s.fpi.height := rfl
@[simp] theorem State.setSlot_frame_fpi_height (s : State) (x : Slot) : (s.setSlot .frame x).fpi.height = s.fpi.height := rfl
@[simp] theorem State.setPort_frame_fpi_latched (s : State) (x : PortState) : (s.setPort .frame x).fpi.latched = s.fpi.latched := rfl
@[simp] theorem State.setSlot_frame_fpi_latched (s : State) (x : Slot) : (s.setSlot .frame x).fpi.latched = s.fpi.latched := rfl
@[simp] theorem State.setPort_frame_port (s : State) (x : PortState) : (s.setPort .frame x).fpi.port = x := rfl
@[simp] theorem State.setSlot_frame_port (s : State) (x : Slot) : (s.setSlot .frame x).fpi.port = { s.fpi.port with slot := x } := rfl

/-! ### The mark of a transaction that runs on past the end of hard reset -/

@[simp] theorem State.setCrossing_now (s : State) (p : Port) (b : Bool) : (s.setCrossing p b).now = s.now := by cases p <;> rfl
@[simp] theorem State.setCrossing_inReset (s : State) (p : Port) (b : Bool) : (s.setCrossing p b).inReset = s.inReset := by cases p <;> rfl
@[simp] theorem State.setCrossing_resetPulses (s : State) (p : Port) (b : Bool) : (s.setCrossing p b).resetPulses = s.resetPulses := by cases p <;> rfl
@[simp] theorem State.setCrossing_pending (s : State) (p : Port) (b : Bool) : (s.setCrossing p b).pending = s.pending := by cases p <;> rfl
@[simp] theorem State.setCrossing_irm (s : State) (p : Port) (b : Bool) : (s.setCrossing p b).irm = s.irm := by cases p <;> rfl
@[simp] theorem State.setCrossing_lmc (s : State) (p : Port) (b : Bool) : (s.setCrossing p b).lmc = s.lmc := by cases p <;> rfl
@[simp] theorem State.setCrossing_ge (s : State) (p : Port) (b : Bool) : (s.setCrossing p b).ge = s.ge := by cases p <;> rfl
@[simp] theorem State.setCrossing_fmon (s : State) (p : Port) (b : Bool) : (s.setCrossing p b).fmon = s.fmon := by cases p <;> rfl
@[simp] theorem State.setCrossing_tmon (s : State) (p : Port) (b : Bool) : (s.setCrossing p b).tmon = s.tmon := by cases p <;> rfl
@[simp] theorem State.setCrossing_afc (s : State) (p : Port) (b : Bool) : (s.setCrossing p b).afc = s.afc := by cases p <;> rfl
@[simp] theorem State.setCrossing_lau (s : State) (p : Port) (b : Bool) : (s.setCrossing p b).lau = s.lau := by cases p <;> rfl
@[simp] theorem State.setCrossing_cpi_address (s : State) (p : Port) (b : Bool) : (s.setCrossing p b).cpi.address = s.cpi.address := by cases p <;> rfl
@[simp] theorem State.setCrossing_cpi_load (s : State) (p : Port) (b : Bool) : (s.setCrossing p b).cpi.load = s.cpi.load := by cases p <;> rfl
@[simp] theorem State.setCrossing_cpi_port_slot (s : State) (p : Port) (b : Bool) : (s.setCrossing p b).cpi.port.slot = s.cpi.port.slot := by cases p <;> rfl
@[simp] theorem State.setCrossing_cpi_port_events (s : State) (p : Port) (b : Bool) : (s.setCrossing p b).cpi.port.events = s.cpi.port.events := by cases p <;> rfl
@[simp] theorem State.setCrossing_cpi_port_mask (s : State) (p : Port) (b : Bool) : (s.setCrossing p b).cpi.port.mask = s.cpi.port.mask := by cases p <;> rfl
@[simp] theorem State.setCrossing_cpi_port_lastWarp (s : State) (p : Port) (b : Bool) : (s.setCrossing p b).cpi.port.lastWarp = s.cpi.port.lastWarp := by cases p <;> rfl
@[simp] theorem State.setCrossing_fpi_attached (s : State) (p : Port) (b : Bool) : (s.setCrossing p b).fpi.attached = s.fpi.attached := by cases p <;> rfl
@[simp] theorem State.setCrossing_fpi_width (s : State) (p : Port) (b : Bool) : (s.setCrossing p b).fpi.width = s.fpi.width := by cases p <;> rfl
@[simp] theorem State.setCrossing_fpi_height (s : State) (p : Port) (b : Bool) : (s.setCrossing p b).fpi.height = s.fpi.height := by cases p <;> rfl
@[simp] theorem State.setCrossing_fpi_latched (s : State) (p : Port) (b : Bool) : (s.setCrossing p b).fpi.latched = s.fpi.latched := by cases p <;> rfl
@[simp] theorem State.setCrossing_fpi_port_slot (s : State) (p : Port) (b : Bool) : (s.setCrossing p b).fpi.port.slot = s.fpi.port.slot := by cases p <;> rfl
@[simp] theorem State.setCrossing_fpi_port_events (s : State) (p : Port) (b : Bool) : (s.setCrossing p b).fpi.port.events = s.fpi.port.events := by cases p <;> rfl
@[simp] theorem State.setCrossing_fpi_port_mask (s : State) (p : Port) (b : Bool) : (s.setCrossing p b).fpi.port.mask = s.fpi.port.mask := by cases p <;> rfl
@[simp] theorem State.setCrossing_fpi_port_lastWarp (s : State) (p : Port) (b : Bool) : (s.setCrossing p b).fpi.port.lastWarp = s.fpi.port.lastWarp := by cases p <;> rfl
@[simp] theorem State.setCrossing_self (s : State) (p : Port) (b : Bool) : ((s.setCrossing p b).port p).crossing = b := by
  cases p <;> rfl
theorem State.setCrossing_of_ne (s : State) {p r : Port} (b : Bool) (h : r ≠ p) :
    ((s.setCrossing p b).port r).crossing = (s.port r).crossing := by
  cases p <;> cases r <;> first | rfl | exact absurd rfl h

/-! ### The smaller families -/

@[simp] theorem PerFan.get_set_self {α : Type} (x : PerFan α) (f : Fan) (y : α) : (x.set f y).get f = y := by cases f <;> rfl
theorem PerFan.get_set_of_ne {α : Type} (x : PerFan α) {f g : Fan} (y : α) (h : g ≠ f) : (x.set f y).get g = x.get g := by
  cases f <;> cases g <;> first | rfl | exact absurd rfl h
@[simp] theorem PerFan.get_build {α : Type} (f : Fan → α) (g : Fan) : (PerFan.build f).get g = f g := by cases g <;> rfl
@[simp] theorem PerZone.get_build {α : Type} (f : Zone → α) (z : Zone) : (PerZone.build f).get z = f z := by cases z <;> rfl
@[simp] theorem Irm.setReservation_self (r : Irm) (p : Port) (g : Option Word16) : (r.setReservation p g).reservation p = g := by
  cases p <;> rfl
theorem Irm.setReservation_of_ne (r : Irm) {p q : Port} (g : Option Word16) (h : q ≠ p) :
    (r.setReservation p g).reservation q = r.reservation q := by
  cases p <;> cases q <;> first | rfl | exact absurd rfl h
@[simp] theorem Irm.setReservation_orientation (r : Irm) (p : Port) (g : Option Word16) : (r.setReservation p g).orientation = r.orientation := by cases p <;> rfl
@[simp] theorem Irm.setReservation_kv (r : Irm) (p : Port) (g : Option Word16) : (r.setReservation p g).kv = r.kv := by cases p <;> rfl
@[simp] theorem Irm.setReservation_kh (r : Irm) (p : Port) (g : Option Word16) : (r.setReservation p g).kh = r.kh := by cases p <;> rfl
@[simp] theorem Irm.setReservation_targetV (r : Irm) (p : Port) (g : Option Word16) : (r.setReservation p g).targetV = r.targetV := by cases p <;> rfl
@[simp] theorem Irm.setReservation_targetH (r : Irm) (p : Port) (g : Option Word16) : (r.setReservation p g).targetH = r.targetH := by cases p <;> rfl
@[simp] theorem Irm.setReservation_generation (r : Irm) (p : Port) (g : Option Word16) : (r.setReservation p g).generation = r.generation := by cases p <;> rfl
@[simp] theorem Irm.setReservation_presets (r : Irm) (p : Port) (g : Option Word16) : (r.setReservation p g).presets = r.presets := by cases p <;> rfl

end Sys2Proof.Machine
end

