-- ==== Sys2Proof/Laws/Ops.lean ====
section
/-! SUPPORT. What the shared operations of Machine/Ops.lean leave unchanged: one lemma for each operation and field of State. -/

namespace Sys2Proof.Machine

/-! ### Raising events -/

@[simp] theorem State.raise_now (s : State) (e : Event) : (s.raise e).now = s.now := rfl
@[simp] theorem State.raise_inReset (s : State) (e : Event) : (s.raise e).inReset = s.inReset := rfl
@[simp] theorem State.raise_resetPulses (s : State) (e : Event) : (s.raise e).resetPulses = s.resetPulses := rfl
@[simp] theorem State.raise_pending (s : State) (e : Event) : (s.raise e).pending = s.pending := rfl
@[simp] theorem State.raise_cpi_address (s : State) (e : Event) : (s.raise e).cpi.address = s.cpi.address := rfl
@[simp] theorem State.raise_cpi_load (s : State) (e : Event) : (s.raise e).cpi.load = s.cpi.load := rfl
@[simp] theorem State.raise_cpi_port_slot (s : State) (e : Event) : (s.raise e).cpi.port.slot = s.cpi.port.slot := by
  simp only [State.raise, PortState.place]; split <;> rfl
@[simp] theorem State.raise_cpi_port_mask (s : State) (e : Event) : (s.raise e).cpi.port.mask = s.cpi.port.mask := by
  simp only [State.raise, PortState.place]; split <;> rfl
@[simp] theorem State.raise_cpi_port_lastWarp (s : State) (e : Event) : (s.raise e).cpi.port.lastWarp = s.cpi.port.lastWarp := by
  simp only [State.raise, PortState.place]; split <;> rfl
@[simp] theorem State.raise_cpi_port_crossing (s : State) (e : Event) : (s.raise e).cpi.port.crossing = s.cpi.port.crossing := by
  simp only [State.raise, PortState.place]; split <;> rfl
@[simp] theorem State.raise_fpi_attached (s : State) (e : Event) : (s.raise e).fpi.attached = s.fpi.attached := rfl
@[simp] theorem State.raise_fpi_width (s : State) (e : Event) : (s.raise e).fpi.width = s.fpi.width := rfl
@[simp] theorem State.raise_fpi_height (s : State) (e : Event) : (s.raise e).fpi.height = s.fpi.height := rfl
@[simp] theorem State.raise_fpi_latched (s : State) (e : Event) : (s.raise e).fpi.latched = s.fpi.latched := rfl
@[simp] theorem State.raise_fpi_port_slot (s : State) (e : Event) : (s.raise e).fpi.port.slot = s.fpi.port.slot := by
  simp only [State.raise, PortState.place]; split <;> rfl
@[simp] theorem State.raise_fpi_port_mask (s : State) (e : Event) : (s.raise e).fpi.port.mask = s.fpi.port.mask := by
  simp only [State.raise, PortState.place]; split <;> rfl
@[simp] theorem State.raise_fpi_port_lastWarp (s : State) (e : Event) : (s.raise e).fpi.port.lastWarp = s.fpi.port.lastWarp := by
  simp only [State.raise, PortState.place]; split <;> rfl
@[simp] theorem State.raise_fpi_port_crossing (s : State) (e : Event) : (s.raise e).fpi.port.crossing = s.fpi.port.crossing := by
  simp only [State.raise, PortState.place]; split <;> rfl
@[simp] theorem State.raise_irm (s : State) (e : Event) : (s.raise e).irm = s.irm := rfl
@[simp] theorem State.raise_lmc (s : State) (e : Event) : (s.raise e).lmc = s.lmc := rfl
@[simp] theorem State.raise_ge (s : State) (e : Event) : (s.raise e).ge = s.ge := rfl
@[simp] theorem State.raise_fmon (s : State) (e : Event) : (s.raise e).fmon = s.fmon := rfl
@[simp] theorem State.raise_tmon (s : State) (e : Event) : (s.raise e).tmon = s.tmon := rfl
@[simp] theorem State.raise_afc (s : State) (e : Event) : (s.raise e).afc = s.afc := rfl
@[simp] theorem State.raise_lau (s : State) (e : Event) : (s.raise e).lau = s.lau := rfl
@[simp] theorem State.raise_cpi_events (s : State) (e : Event) :
    (s.raise e).cpi.port.events = if routed .control e.kind then placeEvent e s.cpi.port.events else s.cpi.port.events := by
  simp only [State.raise, PortState.place]; split <;> rfl
@[simp] theorem State.raise_fpi_events (s : State) (e : Event) :
    (s.raise e).fpi.port.events = if routed .frame e.kind then placeEvent e s.fpi.port.events else s.fpi.port.events := by
  simp only [State.raise, PortState.place]; split <;> rfl
@[simp] theorem State.raiseAll_nil (s : State) : s.raiseAll [] = s := rfl
@[simp] theorem State.raiseAll_cons (s : State) (e : Event) (es : List Event) : s.raiseAll (e :: es) = (s.raise e).raiseAll es := rfl
theorem State.raiseAll_append (s : State) (es fs : List Event) : s.raiseAll (es ++ fs) = (s.raiseAll es).raiseAll fs := by
  simp [State.raiseAll, List.foldl_append]

/-! ### Raising a list of events -/

@[simp] theorem State.raiseAll_now (s : State) (es : List Event) : (s.raiseAll es).now = s.now := by
  induction es generalizing s with
  | nil => rfl
  | cons e es ih => rw [State.raiseAll_cons, ih]; simp
@[simp] theorem State.raiseAll_inReset (s : State) (es : List Event) : (s.raiseAll es).inReset = s.inReset := by
  induction es generalizing s with
  | nil => rfl
  | cons e es ih => rw [State.raiseAll_cons, ih]; simp
@[simp] theorem State.raiseAll_resetPulses (s : State) (es : List Event) : (s.raiseAll es).resetPulses = s.resetPulses := by
  induction es generalizing s with
  | nil => rfl
  | cons e es ih => rw [State.raiseAll_cons, ih]; simp
@[simp] theorem State.raiseAll_pending (s : State) (es : List Event) : (s.raiseAll es).pending = s.pending := by
  induction es generalizing s with
  | nil => rfl
  | cons e es ih => rw [State.raiseAll_cons, ih]; simp
@[simp] theorem State.raiseAll_cpi_address (s : State) (es : List Event) : (s.raiseAll es).cpi.address = s.cpi.address := by
  induction es generalizing s with
  | nil => rfl
  | cons e es ih => rw [State.raiseAll_cons, ih]; simp
@[simp] theorem State.raiseAll_cpi_load (s : State) (es : List Event) : (s.raiseAll es).cpi.load = s.cpi.load := by
  induction es generalizing s with
  | nil => rfl
  | cons e es ih => rw [State.raiseAll_cons, ih]; simp
@[simp] theorem State.raiseAll_cpi_port_slot (s : State) (es : List Event) : (s.raiseAll es).cpi.port.slot = s.cpi.port.slot := by
  induction es generalizing s with
  | nil => rfl
  | cons e es ih => rw [State.raiseAll_cons, ih]; simp
@[simp] theorem State.raiseAll_cpi_port_mask (s : State) (es : List Event) : (s.raiseAll es).cpi.port.mask = s.cpi.port.mask := by
  induction es generalizing s with
  | nil => rfl
  | cons e es ih => rw [State.raiseAll_cons, ih]; simp
@[simp] theorem State.raiseAll_cpi_port_lastWarp (s : State) (es : List Event) : (s.raiseAll es).cpi.port.lastWarp = s.cpi.port.lastWarp := by
  induction es generalizing s with
  | nil => rfl
  | cons e es ih => rw [State.raiseAll_cons, ih]; simp
@[simp] theorem State.raiseAll_cpi_port_crossing (s : State) (es : List Event) : (s.raiseAll es).cpi.port.crossing = s.cpi.port.crossing := by
  induction es generalizing s with
  | nil => rfl
  | cons e es ih => rw [State.raiseAll_cons, ih]; simp
@[simp] theorem State.raiseAll_fpi_attached (s : State) (es : List Event) : (s.raiseAll es).fpi.attached = s.fpi.attached := by
  induction es generalizing s with
  | nil => rfl
  | cons e es ih => rw [State.raiseAll_cons, ih]; simp
@[simp] theorem State.raiseAll_fpi_width (s : State) (es : List Event) : (s.raiseAll es).fpi.width = s.fpi.width := by
  induction es generalizing s with
  | nil => rfl
  | cons e es ih => rw [State.raiseAll_cons, ih]; simp
@[simp] theorem State.raiseAll_fpi_height (s : State) (es : List Event) : (s.raiseAll es).fpi.height = s.fpi.height := by
  induction es generalizing s with
  | nil => rfl
  | cons e es ih => rw [State.raiseAll_cons, ih]; simp
@[simp] theorem State.raiseAll_fpi_latched (s : State) (es : List Event) : (s.raiseAll es).fpi.latched = s.fpi.latched := by
  induction es generalizing s with
  | nil => rfl
  | cons e es ih => rw [State.raiseAll_cons, ih]; simp
@[simp] theorem State.raiseAll_fpi_port_slot (s : State) (es : List Event) : (s.raiseAll es).fpi.port.slot = s.fpi.port.slot := by
  induction es generalizing s with
  | nil => rfl
  | cons e es ih => rw [State.raiseAll_cons, ih]; simp
@[simp] theorem State.raiseAll_fpi_port_mask (s : State) (es : List Event) : (s.raiseAll es).fpi.port.mask = s.fpi.port.mask := by
  induction es generalizing s with
  | nil => rfl
  | cons e es ih => rw [State.raiseAll_cons, ih]; simp
@[simp] theorem State.raiseAll_fpi_port_lastWarp (s : State) (es : List Event) : (s.raiseAll es).fpi.port.lastWarp = s.fpi.port.lastWarp := by
  induction es generalizing s with
  | nil => rfl
  | cons e es ih => rw [State.raiseAll_cons, ih]; simp
@[simp] theorem State.raiseAll_fpi_port_crossing (s : State) (es : List Event) : (s.raiseAll es).fpi.port.crossing = s.fpi.port.crossing := by
  induction es generalizing s with
  | nil => rfl
  | cons e es ih => rw [State.raiseAll_cons, ih]; simp
@[simp] theorem State.raiseAll_irm (s : State) (es : List Event) : (s.raiseAll es).irm = s.irm := by
  induction es generalizing s with
  | nil => rfl
  | cons e es ih => rw [State.raiseAll_cons, ih]; simp
@[simp] theorem State.raiseAll_lmc (s : State) (es : List Event) : (s.raiseAll es).lmc = s.lmc := by
  induction es generalizing s with
  | nil => rfl
  | cons e es ih => rw [State.raiseAll_cons, ih]; simp
@[simp] theorem State.raiseAll_ge (s : State) (es : List Event) : (s.raiseAll es).ge = s.ge := by
  induction es generalizing s with
  | nil => rfl
  | cons e es ih => rw [State.raiseAll_cons, ih]; simp
@[simp] theorem State.raiseAll_fmon (s : State) (es : List Event) : (s.raiseAll es).fmon = s.fmon := by
  induction es generalizing s with
  | nil => rfl
  | cons e es ih => rw [State.raiseAll_cons, ih]; simp
@[simp] theorem State.raiseAll_tmon (s : State) (es : List Event) : (s.raiseAll es).tmon = s.tmon := by
  induction es generalizing s with
  | nil => rfl
  | cons e es ih => rw [State.raiseAll_cons, ih]; simp
@[simp] theorem State.raiseAll_afc (s : State) (es : List Event) : (s.raiseAll es).afc = s.afc := by
  induction es generalizing s with
  | nil => rfl
  | cons e es ih => rw [State.raiseAll_cons, ih]; simp
@[simp] theorem State.raiseAll_lau (s : State) (es : List Event) : (s.raiseAll es).lau = s.lau := by
  induction es generalizing s with
  | nil => rfl
  | cons e es ih => rw [State.raiseAll_cons, ih]; simp

/-! ### An installation change -/

@[simp] theorem State.installChange_now (s : State) (o : Originator) : (s.installChange o).now = s.now := by simp [State.installChange]
@[simp] theorem State.installChange_inReset (s : State) (o : Originator) : (s.installChange o).inReset = s.inReset := by simp [State.installChange]
@[simp] theorem State.installChange_resetPulses (s : State) (o : Originator) : (s.installChange o).resetPulses = s.resetPulses := by simp [State.installChange]
@[simp] theorem State.installChange_pending (s : State) (o : Originator) : (s.installChange o).pending = s.pending := by simp [State.installChange]
@[simp] theorem State.installChange_cpi_address (s : State) (o : Originator) : (s.installChange o).cpi.address = s.cpi.address := by simp [State.installChange]
@[simp] theorem State.installChange_cpi_load (s : State) (o : Originator) : (s.installChange o).cpi.load = s.cpi.load := by simp [State.installChange]
@[simp] theorem State.installChange_cpi_port_slot (s : State) (o : Originator) : (s.installChange o).cpi.port.slot = s.cpi.port.slot := by simp [State.installChange]
@[simp] theorem State.installChange_cpi_port_mask (s : State) (o : Originator) : (s.installChange o).cpi.port.mask = s.cpi.port.mask := by simp [State.installChange]
@[simp] theorem State.installChange_cpi_port_lastWarp (s : State) (o : Originator) : (s.installChange o).cpi.port.lastWarp = s.cpi.port.lastWarp := by simp [State.installChange]
@[simp] theorem State.installChange_cpi_port_crossing (s : State) (o : Originator) : (s.installChange o).cpi.port.crossing = s.cpi.port.crossing := by simp [State.installChange]
@[simp] theorem State.installChange_fpi_attached (s : State) (o : Originator) : (s.installChange o).fpi.attached = s.fpi.attached := by simp [State.installChange]
@[simp] theorem State.installChange_fpi_width (s : State) (o : Originator) : (s.installChange o).fpi.width = s.fpi.width := by simp [State.installChange]
@[simp] theorem State.installChange_fpi_height (s : State) (o : Originator) : (s.installChange o).fpi.height = s.fpi.height := by simp [State.installChange]
@[simp] theorem State.installChange_fpi_latched (s : State) (o : Originator) : (s.installChange o).fpi.latched = s.fpi.latched := by simp [State.installChange]
@[simp] theorem State.installChange_fpi_port_slot (s : State) (o : Originator) : (s.installChange o).fpi.port.slot = s.fpi.port.slot := by simp [State.installChange]
@[simp] theorem State.installChange_fpi_port_mask (s : State) (o : Originator) : (s.installChange o).fpi.port.mask = s.fpi.port.mask := by simp [State.installChange]
@[simp] theorem State.installChange_fpi_port_lastWarp (s : State) (o : Originator) : (s.installChange o).fpi.port.lastWarp = s.fpi.port.lastWarp := by simp [State.installChange]
@[simp] theorem State.installChange_fpi_port_crossing (s : State) (o : Originator) : (s.installChange o).fpi.port.crossing = s.fpi.port.crossing := by simp [State.installChange]
@[simp] theorem State.installChange_lmc (s : State) (o : Originator) : (s.installChange o).lmc = s.lmc := by simp [State.installChange]
@[simp] theorem State.installChange_ge (s : State) (o : Originator) : (s.installChange o).ge = s.ge := by simp [State.installChange]
@[simp] theorem State.installChange_fmon (s : State) (o : Originator) : (s.installChange o).fmon = s.fmon := by simp [State.installChange]
@[simp] theorem State.installChange_tmon (s : State) (o : Originator) : (s.installChange o).tmon = s.tmon := by simp [State.installChange]
@[simp] theorem State.installChange_afc (s : State) (o : Originator) : (s.installChange o).afc = s.afc := by simp [State.installChange]
@[simp] theorem State.installChange_lau (s : State) (o : Originator) : (s.installChange o).lau = s.lau := by simp [State.installChange]
theorem State.installChange_irm (s : State) (o : Originator) :
    (s.installChange o).irm =
      { s.irm with generation := s.irm.generation + 1, reserveControl := none, reserveFrame := none } := rfl

/-! ### A part-originated change -/

@[simp] theorem State.partChange_now (s : State) (v h : Option Int) : (s.partChange v h).now = s.now := by
  cases v <;> cases h <;> simp [State.partChange]
@[simp] theorem State.partChange_inReset (s : State) (v h : Option Int) : (s.partChange v h).inReset = s.inReset := by
  cases v <;> cases h <;> simp [State.partChange]
@[simp] theorem State.partChange_resetPulses (s : State) (v h : Option Int) : (s.partChange v h).resetPulses = s.resetPulses := by
  cases v <;> cases h <;> simp [State.partChange]
@[simp] theorem State.partChange_pending (s : State) (v h : Option Int) : (s.partChange v h).pending = s.pending := by
  cases v <;> cases h <;> simp [State.partChange]
@[simp] theorem State.partChange_cpi_address (s : State) (v h : Option Int) : (s.partChange v h).cpi.address = s.cpi.address := by
  cases v <;> cases h <;> simp [State.partChange]
@[simp] theorem State.partChange_cpi_load (s : State) (v h : Option Int) : (s.partChange v h).cpi.load = s.cpi.load := by
  cases v <;> cases h <;> simp [State.partChange]
@[simp] theorem State.partChange_cpi_port_slot (s : State) (v h : Option Int) : (s.partChange v h).cpi.port.slot = s.cpi.port.slot := by
  cases v <;> cases h <;> simp [State.partChange]
@[simp] theorem State.partChange_cpi_port_mask (s : State) (v h : Option Int) : (s.partChange v h).cpi.port.mask = s.cpi.port.mask := by
  cases v <;> cases h <;> simp [State.partChange]
@[simp] theorem State.partChange_cpi_port_lastWarp (s : State) (v h : Option Int) : (s.partChange v h).cpi.port.lastWarp = s.cpi.port.lastWarp := by
  cases v <;> cases h <;> simp [State.partChange]
@[simp] theorem State.partChange_cpi_port_crossing (s : State) (v h : Option Int) : (s.partChange v h).cpi.port.crossing = s.cpi.port.crossing := by
  cases v <;> cases h <;> simp [State.partChange]
@[simp] theorem State.partChange_fpi_attached (s : State) (v h : Option Int) : (s.partChange v h).fpi.attached = s.fpi.attached := by
  cases v <;> cases h <;> simp [State.partChange]
@[simp] theorem State.partChange_fpi_width (s : State) (v h : Option Int) : (s.partChange v h).fpi.width = s.fpi.width := by
  cases v <;> cases h <;> simp [State.partChange]
@[simp] theorem State.partChange_fpi_height (s : State) (v h : Option Int) : (s.partChange v h).fpi.height = s.fpi.height := by
  cases v <;> cases h <;> simp [State.partChange]
@[simp] theorem State.partChange_fpi_latched (s : State) (v h : Option Int) : (s.partChange v h).fpi.latched = s.fpi.latched := by
  cases v <;> cases h <;> simp [State.partChange]
@[simp] theorem State.partChange_fpi_port_slot (s : State) (v h : Option Int) : (s.partChange v h).fpi.port.slot = s.fpi.port.slot := by
  cases v <;> cases h <;> simp [State.partChange]
@[simp] theorem State.partChange_fpi_port_mask (s : State) (v h : Option Int) : (s.partChange v h).fpi.port.mask = s.fpi.port.mask := by
  cases v <;> cases h <;> simp [State.partChange]
@[simp] theorem State.partChange_fpi_port_lastWarp (s : State) (v h : Option Int) : (s.partChange v h).fpi.port.lastWarp = s.fpi.port.lastWarp := by
  cases v <;> cases h <;> simp [State.partChange]
@[simp] theorem State.partChange_fpi_port_crossing (s : State) (v h : Option Int) : (s.partChange v h).fpi.port.crossing = s.fpi.port.crossing := by
  cases v <;> cases h <;> simp [State.partChange]
@[simp] theorem State.partChange_lmc (s : State) (v h : Option Int) : (s.partChange v h).lmc = s.lmc := by
  cases v <;> cases h <;> simp [State.partChange]
@[simp] theorem State.partChange_ge (s : State) (v h : Option Int) : (s.partChange v h).ge = s.ge := by
  cases v <;> cases h <;> simp [State.partChange]
@[simp] theorem State.partChange_fmon (s : State) (v h : Option Int) : (s.partChange v h).fmon = s.fmon := by
  cases v <;> cases h <;> simp [State.partChange]
@[simp] theorem State.partChange_tmon (s : State) (v h : Option Int) : (s.partChange v h).tmon = s.tmon := by
  cases v <;> cases h <;> simp [State.partChange]
@[simp] theorem State.partChange_afc (s : State) (v h : Option Int) : (s.partChange v h).afc = s.afc := by
  cases v <;> cases h <;> simp [State.partChange]
@[simp] theorem State.partChange_lau (s : State) (v h : Option Int) : (s.partChange v h).lau = s.lau := by
  cases v <;> cases h <;> simp [State.partChange]
@[simp] theorem State.partChange_none (s : State) : s.partChange none none = s := rfl
/-- What a part-originated change can do (R14): nothing when it affects no axis; else the targets it sets, the generation one
higher, both reservations INVALID. -/
theorem State.partChange_irm (s : State) (v h : Option Int) :
    (s.partChange v h).irm =
      if v = none ∧ h = none then s.irm
      else { s.irm with targetV := v.getD s.irm.targetV, targetH := h.getD s.irm.targetH,
                        generation := s.irm.generation + 1, reserveControl := none, reserveFrame := none } := by
  cases v <;> cases h <;> simp [State.partChange, State.installChange]

/-! ### A computation starts -/

@[simp] theorem State.startComputation_now (s : State) : (s.startComputation).now = s.now := rfl
@[simp] theorem State.startComputation_inReset (s : State) : (s.startComputation).inReset = s.inReset := rfl
@[simp] theorem State.startComputation_resetPulses (s : State) : (s.startComputation).resetPulses = s.resetPulses := rfl
@[simp] theorem State.startComputation_pending (s : State) : (s.startComputation).pending = s.pending := rfl
@[simp] theorem State.startComputation_cpi (s : State) : (s.startComputation).cpi = s.cpi := rfl
@[simp] theorem State.startComputation_fpi (s : State) : (s.startComputation).fpi = s.fpi := rfl
@[simp] theorem State.startComputation_irm (s : State) : (s.startComputation).irm = s.irm := rfl
@[simp] theorem State.startComputation_lmc (s : State) : (s.startComputation).lmc = s.lmc := rfl
@[simp] theorem State.startComputation_fmon (s : State) : (s.startComputation).fmon = s.fmon := rfl
@[simp] theorem State.startComputation_tmon (s : State) : (s.startComputation).tmon = s.tmon := rfl
@[simp] theorem State.startComputation_afc (s : State) : (s.startComputation).afc = s.afc := rfl
@[simp] theorem State.startComputation_lau (s : State) : (s.startComputation).lau = s.lau := rfl

/-! ### A recompute trigger -/

@[simp] theorem State.recompute_now (s : State) : (s.recompute).now = s.now := by
  unfold State.recompute; split <;> rfl
@[simp] theorem State.recompute_inReset (s : State) : (s.recompute).inReset = s.inReset := by
  unfold State.recompute; split <;> rfl
@[simp] theorem State.recompute_resetPulses (s : State) : (s.recompute).resetPulses = s.resetPulses := by
  unfold State.recompute; split <;> rfl
@[simp] theorem State.recompute_pending (s : State) : (s.recompute).pending = s.pending := by
  unfold State.recompute; split <;> rfl
@[simp] theorem State.recompute_cpi (s : State) : (s.recompute).cpi = s.cpi := by
  unfold State.recompute; split <;> rfl
@[simp] theorem State.recompute_fpi (s : State) : (s.recompute).fpi = s.fpi := by
  unfold State.recompute; split <;> rfl
@[simp] theorem State.recompute_irm (s : State) : (s.recompute).irm = s.irm := by
  unfold State.recompute; split <;> rfl
@[simp] theorem State.recompute_lmc (s : State) : (s.recompute).lmc = s.lmc := by
  unfold State.recompute; split <;> rfl
@[simp] theorem State.recompute_fmon (s : State) : (s.recompute).fmon = s.fmon := by
  unfold State.recompute; split <;> rfl
@[simp] theorem State.recompute_tmon (s : State) : (s.recompute).tmon = s.tmon := by
  unfold State.recompute; split <;> rfl
@[simp] theorem State.recompute_afc (s : State) : (s.recompute).afc = s.afc := by
  unfold State.recompute; split <;> rfl
@[simp] theorem State.recompute_lau (s : State) : (s.recompute).lau = s.lau := by
  unfold State.recompute; split <;> rfl

/-! ### A trigger that may be handed on -/

@[simp] theorem State.recomputeIf_now (s : State) (b : Bool) : (s.recomputeIf b).now = s.now := by cases b <;> simp [State.recomputeIf]
@[simp] theorem State.recomputeIf_inReset (s : State) (b : Bool) : (s.recomputeIf b).inReset = s.inReset := by cases b <;> simp [State.recomputeIf]
@[simp] theorem State.recomputeIf_resetPulses (s : State) (b : Bool) : (s.recomputeIf b).resetPulses = s.resetPulses := by cases b <;> simp [State.recomputeIf]
@[simp] theorem State.recomputeIf_pending (s : State) (b : Bool) : (s.recomputeIf b).pending = s.pending := by cases b <;> simp [State.recomputeIf]
@[simp] theorem State.recomputeIf_cpi (s : State) (b : Bool) : (s.recomputeIf b).cpi = s.cpi := by cases b <;> simp [State.recomputeIf]
@[simp] theorem State.recomputeIf_fpi (s : State) (b : Bool) : (s.recomputeIf b).fpi = s.fpi := by cases b <;> simp [State.recomputeIf]
@[simp] theorem State.recomputeIf_irm (s : State) (b : Bool) : (s.recomputeIf b).irm = s.irm := by cases b <;> simp [State.recomputeIf]
@[simp] theorem State.recomputeIf_lmc (s : State) (b : Bool) : (s.recomputeIf b).lmc = s.lmc := by cases b <;> simp [State.recomputeIf]
@[simp] theorem State.recomputeIf_fmon (s : State) (b : Bool) : (s.recomputeIf b).fmon = s.fmon := by cases b <;> simp [State.recomputeIf]
@[simp] theorem State.recomputeIf_tmon (s : State) (b : Bool) : (s.recomputeIf b).tmon = s.tmon := by cases b <;> simp [State.recomputeIf]
@[simp] theorem State.recomputeIf_afc (s : State) (b : Bool) : (s.recomputeIf b).afc = s.afc := by cases b <;> simp [State.recomputeIf]
@[simp] theorem State.recomputeIf_lau (s : State) (b : Bool) : (s.recomputeIf b).lau = s.lau := by cases b <;> simp [State.recomputeIf]
@[simp] theorem State.recomputeIf_false (s : State) : s.recomputeIf false = s := rfl
@[simp] theorem State.recomputeIf_true (s : State) : s.recomputeIf true = s.recompute := rfl

end Sys2Proof.Machine
end

