-- ==== Sys2Proof/Laws/Lens.lean ====
section
/-! SUPPORT. What the events of the axes leave unchanged in the rest of the part. -/

namespace Sys2Proof.Machine

/-! ### What both axes did -/

@[simp] theorem State.deliver_now (s : State) (v h : LensOut) : (s.deliver v h).now = s.now := by simp [State.deliver]
@[simp] theorem State.deliver_inReset (s : State) (v h : LensOut) : (s.deliver v h).inReset = s.inReset := by simp [State.deliver]
@[simp] theorem State.deliver_resetPulses (s : State) (v h : LensOut) : (s.deliver v h).resetPulses = s.resetPulses := by simp [State.deliver]
@[simp] theorem State.deliver_pending (s : State) (v h : LensOut) : (s.deliver v h).pending = s.pending := by simp [State.deliver]
@[simp] theorem State.deliver_cpi_address (s : State) (v h : LensOut) : (s.deliver v h).cpi.address = s.cpi.address := by simp [State.deliver]
@[simp] theorem State.deliver_cpi_load (s : State) (v h : LensOut) : (s.deliver v h).cpi.load = s.cpi.load := by simp [State.deliver]
@[simp] theorem State.deliver_cpi_port_slot (s : State) (v h : LensOut) : (s.deliver v h).cpi.port.slot = s.cpi.port.slot := by simp [State.deliver]
@[simp] theorem State.deliver_cpi_port_mask (s : State) (v h : LensOut) : (s.deliver v h).cpi.port.mask = s.cpi.port.mask := by simp [State.deliver]
@[simp] theorem State.deliver_cpi_port_lastWarp (s : State) (v h : LensOut) : (s.deliver v h).cpi.port.lastWarp = s.cpi.port.lastWarp := by simp [State.deliver]
@[simp] theorem State.deliver_cpi_port_crossing (s : State) (v h : LensOut) : (s.deliver v h).cpi.port.crossing = s.cpi.port.crossing := by simp [State.deliver]
@[simp] theorem State.deliver_fpi_attached (s : State) (v h : LensOut) : (s.deliver v h).fpi.attached = s.fpi.attached := by simp [State.deliver]
@[simp] theorem State.deliver_fpi_width (s : State) (v h : LensOut) : (s.deliver v h).fpi.width = s.fpi.width := by simp [State.deliver]
@[simp] theorem State.deliver_fpi_height (s : State) (v h : LensOut) : (s.deliver v h).fpi.height = s.fpi.height := by simp [State.deliver]
@[simp] theorem State.deliver_fpi_latched (s : State) (v h : LensOut) : (s.deliver v h).fpi.latched = s.fpi.latched := by simp [State.deliver]
@[simp] theorem State.deliver_fpi_port_slot (s : State) (v h : LensOut) : (s.deliver v h).fpi.port.slot = s.fpi.port.slot := by simp [State.deliver]
@[simp] theorem State.deliver_fpi_port_mask (s : State) (v h : LensOut) : (s.deliver v h).fpi.port.mask = s.fpi.port.mask := by simp [State.deliver]
@[simp] theorem State.deliver_fpi_port_lastWarp (s : State) (v h : LensOut) : (s.deliver v h).fpi.port.lastWarp = s.fpi.port.lastWarp := by simp [State.deliver]
@[simp] theorem State.deliver_fpi_port_crossing (s : State) (v h : LensOut) : (s.deliver v h).fpi.port.crossing = s.fpi.port.crossing := by simp [State.deliver]
@[simp] theorem State.deliver_ge (s : State) (v h : LensOut) : (s.deliver v h).ge = s.ge := by simp [State.deliver]
@[simp] theorem State.deliver_fmon (s : State) (v h : LensOut) : (s.deliver v h).fmon = s.fmon := by simp [State.deliver]
@[simp] theorem State.deliver_tmon (s : State) (v h : LensOut) : (s.deliver v h).tmon = s.tmon := by simp [State.deliver]
@[simp] theorem State.deliver_afc (s : State) (v h : LensOut) : (s.deliver v h).afc = s.afc := by simp [State.deliver]
@[simp] theorem State.deliver_lau (s : State) (v h : LensOut) : (s.deliver v h).lau = s.lau := by simp [State.deliver]
@[simp] theorem State.deliver_lmc (s : State) (v h : LensOut) : (s.deliver v h).lmc = ⟨v.axis, h.axis⟩ := by simp [State.deliver]
/-- What an event of the axes can do to the record: the part-originated change and nothing else (R14). -/
theorem State.deliver_irm (s : State) (v h : LensOut) :
    (s.deliver v h).irm =
      if v.change = none ∧ h.change = none then s.irm
      else { s.irm with targetV := v.change.getD s.irm.targetV, targetH := h.change.getD s.irm.targetH,
                        generation := s.irm.generation + 1, reserveControl := none, reserveFrame := none } := by
  simp [State.deliver, State.partChange_irm]

/-! ### What one axis did -/

@[simp] theorem State.deliverOne_now (s : State) (a : Axis) (o : LensOut) : (s.deliverOne a o).now = s.now := by cases a <;> simp [State.deliverOne]
@[simp] theorem State.deliverOne_inReset (s : State) (a : Axis) (o : LensOut) : (s.deliverOne a o).inReset = s.inReset := by cases a <;> simp [State.deliverOne]
@[simp] theorem State.deliverOne_resetPulses (s : State) (a : Axis) (o : LensOut) : (s.deliverOne a o).resetPulses = s.resetPulses := by cases a <;> simp [State.deliverOne]
@[simp] theorem State.deliverOne_pending (s : State) (a : Axis) (o : LensOut) : (s.deliverOne a o).pending = s.pending := by cases a <;> simp [State.deliverOne]
@[simp] theorem State.deliverOne_cpi_address (s : State) (a : Axis) (o : LensOut) : (s.deliverOne a o).cpi.address = s.cpi.address := by cases a <;> simp [State.deliverOne]
@[simp] theorem State.deliverOne_cpi_load (s : State) (a : Axis) (o : LensOut) : (s.deliverOne a o).cpi.load = s.cpi.load := by cases a <;> simp [State.deliverOne]
@[simp] theorem State.deliverOne_cpi_port_slot (s : State) (a : Axis) (o : LensOut) : (s.deliverOne a o).cpi.port.slot = s.cpi.port.slot := by cases a <;> simp [State.deliverOne]
@[simp] theorem State.deliverOne_cpi_port_mask (s : State) (a : Axis) (o : LensOut) : (s.deliverOne a o).cpi.port.mask = s.cpi.port.mask := by cases a <;> simp [State.deliverOne]
@[simp] theorem State.deliverOne_cpi_port_lastWarp (s : State) (a : Axis) (o : LensOut) : (s.deliverOne a o).cpi.port.lastWarp = s.cpi.port.lastWarp := by cases a <;> simp [State.deliverOne]
@[simp] theorem State.deliverOne_cpi_port_crossing (s : State) (a : Axis) (o : LensOut) : (s.deliverOne a o).cpi.port.crossing = s.cpi.port.crossing := by cases a <;> simp [State.deliverOne]
@[simp] theorem State.deliverOne_fpi_attached (s : State) (a : Axis) (o : LensOut) : (s.deliverOne a o).fpi.attached = s.fpi.attached := by cases a <;> simp [State.deliverOne]
@[simp] theorem State.deliverOne_fpi_width (s : State) (a : Axis) (o : LensOut) : (s.deliverOne a o).fpi.width = s.fpi.width := by cases a <;> simp [State.deliverOne]
@[simp] theorem State.deliverOne_fpi_height (s : State) (a : Axis) (o : LensOut) : (s.deliverOne a o).fpi.height = s.fpi.height := by cases a <;> simp [State.deliverOne]
@[simp] theorem State.deliverOne_fpi_latched (s : State) (a : Axis) (o : LensOut) : (s.deliverOne a o).fpi.latched = s.fpi.latched := by cases a <;> simp [State.deliverOne]
@[simp] theorem State.deliverOne_fpi_port_slot (s : State) (a : Axis) (o : LensOut) : (s.deliverOne a o).fpi.port.slot = s.fpi.port.slot := by cases a <;> simp [State.deliverOne]
@[simp] theorem State.deliverOne_fpi_port_mask (s : State) (a : Axis) (o : LensOut) : (s.deliverOne a o).fpi.port.mask = s.fpi.port.mask := by cases a <;> simp [State.deliverOne]
@[simp] theorem State.deliverOne_fpi_port_lastWarp (s : State) (a : Axis) (o : LensOut) : (s.deliverOne a o).fpi.port.lastWarp = s.fpi.port.lastWarp := by cases a <;> simp [State.deliverOne]
@[simp] theorem State.deliverOne_fpi_port_crossing (s : State) (a : Axis) (o : LensOut) : (s.deliverOne a o).fpi.port.crossing = s.fpi.port.crossing := by cases a <;> simp [State.deliverOne]
@[simp] theorem State.deliverOne_ge (s : State) (a : Axis) (o : LensOut) : (s.deliverOne a o).ge = s.ge := by cases a <;> simp [State.deliverOne]
@[simp] theorem State.deliverOne_fmon (s : State) (a : Axis) (o : LensOut) : (s.deliverOne a o).fmon = s.fmon := by cases a <;> simp [State.deliverOne]
@[simp] theorem State.deliverOne_tmon (s : State) (a : Axis) (o : LensOut) : (s.deliverOne a o).tmon = s.tmon := by cases a <;> simp [State.deliverOne]
@[simp] theorem State.deliverOne_afc (s : State) (a : Axis) (o : LensOut) : (s.deliverOne a o).afc = s.afc := by cases a <;> simp [State.deliverOne]
@[simp] theorem State.deliverOne_lau (s : State) (a : Axis) (o : LensOut) : (s.deliverOne a o).lau = s.lau := by cases a <;> simp [State.deliverOne]

/-! ### An event of one axis -/

@[simp] theorem State.axisEvent_now (s : State) (a : Axis) (f : AxisEnv → AxisState → LensOut) : (s.axisEvent a f).now = s.now := by simp [State.axisEvent]
@[simp] theorem State.axisEvent_inReset (s : State) (a : Axis) (f : AxisEnv → AxisState → LensOut) : (s.axisEvent a f).inReset = s.inReset := by simp [State.axisEvent]
@[simp] theorem State.axisEvent_resetPulses (s : State) (a : Axis) (f : AxisEnv → AxisState → LensOut) : (s.axisEvent a f).resetPulses = s.resetPulses := by simp [State.axisEvent]
@[simp] theorem State.axisEvent_pending (s : State) (a : Axis) (f : AxisEnv → AxisState → LensOut) : (s.axisEvent a f).pending = s.pending := by simp [State.axisEvent]
@[simp] theorem State.axisEvent_cpi_address (s : State) (a : Axis) (f : AxisEnv → AxisState → LensOut) : (s.axisEvent a f).cpi.address = s.cpi.address := by simp [State.axisEvent]
@[simp] theorem State.axisEvent_cpi_load (s : State) (a : Axis) (f : AxisEnv → AxisState → LensOut) : (s.axisEvent a f).cpi.load = s.cpi.load := by simp [State.axisEvent]
@[simp] theorem State.axisEvent_cpi_port_slot (s : State) (a : Axis) (f : AxisEnv → AxisState → LensOut) : (s.axisEvent a f).cpi.port.slot = s.cpi.port.slot := by simp [State.axisEvent]
@[simp] theorem State.axisEvent_cpi_port_mask (s : State) (a : Axis) (f : AxisEnv → AxisState → LensOut) : (s.axisEvent a f).cpi.port.mask = s.cpi.port.mask := by simp [State.axisEvent]
@[simp] theorem State.axisEvent_cpi_port_lastWarp (s : State) (a : Axis) (f : AxisEnv → AxisState → LensOut) : (s.axisEvent a f).cpi.port.lastWarp = s.cpi.port.lastWarp := by simp [State.axisEvent]
@[simp] theorem State.axisEvent_cpi_port_crossing (s : State) (a : Axis) (f : AxisEnv → AxisState → LensOut) : (s.axisEvent a f).cpi.port.crossing = s.cpi.port.crossing := by simp [State.axisEvent]
@[simp] theorem State.axisEvent_fpi_attached (s : State) (a : Axis) (f : AxisEnv → AxisState → LensOut) : (s.axisEvent a f).fpi.attached = s.fpi.attached := by simp [State.axisEvent]
@[simp] theorem State.axisEvent_fpi_width (s : State) (a : Axis) (f : AxisEnv → AxisState → LensOut) : (s.axisEvent a f).fpi.width = s.fpi.width := by simp [State.axisEvent]
@[simp] theorem State.axisEvent_fpi_height (s : State) (a : Axis) (f : AxisEnv → AxisState → LensOut) : (s.axisEvent a f).fpi.height = s.fpi.height := by simp [State.axisEvent]
@[simp] theorem State.axisEvent_fpi_latched (s : State) (a : Axis) (f : AxisEnv → AxisState → LensOut) : (s.axisEvent a f).fpi.latched = s.fpi.latched := by simp [State.axisEvent]
@[simp] theorem State.axisEvent_fpi_port_slot (s : State) (a : Axis) (f : AxisEnv → AxisState → LensOut) : (s.axisEvent a f).fpi.port.slot = s.fpi.port.slot := by simp [State.axisEvent]
@[simp] theorem State.axisEvent_fpi_port_mask (s : State) (a : Axis) (f : AxisEnv → AxisState → LensOut) : (s.axisEvent a f).fpi.port.mask = s.fpi.port.mask := by simp [State.axisEvent]
@[simp] theorem State.axisEvent_fpi_port_lastWarp (s : State) (a : Axis) (f : AxisEnv → AxisState → LensOut) : (s.axisEvent a f).fpi.port.lastWarp = s.fpi.port.lastWarp := by simp [State.axisEvent]
@[simp] theorem State.axisEvent_fpi_port_crossing (s : State) (a : Axis) (f : AxisEnv → AxisState → LensOut) : (s.axisEvent a f).fpi.port.crossing = s.fpi.port.crossing := by simp [State.axisEvent]
@[simp] theorem State.axisEvent_fmon (s : State) (a : Axis) (f : AxisEnv → AxisState → LensOut) : (s.axisEvent a f).fmon = s.fmon := by simp [State.axisEvent]
@[simp] theorem State.axisEvent_tmon (s : State) (a : Axis) (f : AxisEnv → AxisState → LensOut) : (s.axisEvent a f).tmon = s.tmon := by simp [State.axisEvent]
@[simp] theorem State.axisEvent_afc (s : State) (a : Axis) (f : AxisEnv → AxisState → LensOut) : (s.axisEvent a f).afc = s.afc := by simp [State.axisEvent]
@[simp] theorem State.axisEvent_lau (s : State) (a : Axis) (f : AxisEnv → AxisState → LensOut) : (s.axisEvent a f).lau = s.lau := by simp [State.axisEvent]

/-! ### An event of both axes -/

@[simp] theorem State.lensEvent_now (s : State) (f : Axis → AxisEnv → AxisState → LensOut) : (s.lensEvent f).now = s.now := by simp [State.lensEvent]
@[simp] theorem State.lensEvent_inReset (s : State) (f : Axis → AxisEnv → AxisState → LensOut) : (s.lensEvent f).inReset = s.inReset := by simp [State.lensEvent]
@[simp] theorem State.lensEvent_resetPulses (s : State) (f : Axis → AxisEnv → AxisState → LensOut) : (s.lensEvent f).resetPulses = s.resetPulses := by simp [State.lensEvent]
@[simp] theorem State.lensEvent_pending (s : State) (f : Axis → AxisEnv → AxisState → LensOut) : (s.lensEvent f).pending = s.pending := by simp [State.lensEvent]
@[simp] theorem State.lensEvent_cpi_address (s : State) (f : Axis → AxisEnv → AxisState → LensOut) : (s.lensEvent f).cpi.address = s.cpi.address := by simp [State.lensEvent]
@[simp] theorem State.lensEvent_cpi_load (s : State) (f : Axis → AxisEnv → AxisState → LensOut) : (s.lensEvent f).cpi.load = s.cpi.load := by simp [State.lensEvent]
@[simp] theorem State.lensEvent_cpi_port_slot (s : State) (f : Axis → AxisEnv → AxisState → LensOut) : (s.lensEvent f).cpi.port.slot = s.cpi.port.slot := by simp [State.lensEvent]
@[simp] theorem State.lensEvent_cpi_port_mask (s : State) (f : Axis → AxisEnv → AxisState → LensOut) : (s.lensEvent f).cpi.port.mask = s.cpi.port.mask := by simp [State.lensEvent]
@[simp] theorem State.lensEvent_cpi_port_lastWarp (s : State) (f : Axis → AxisEnv → AxisState → LensOut) : (s.lensEvent f).cpi.port.lastWarp = s.cpi.port.lastWarp := by simp [State.lensEvent]
@[simp] theorem State.lensEvent_cpi_port_crossing (s : State) (f : Axis → AxisEnv → AxisState → LensOut) : (s.lensEvent f).cpi.port.crossing = s.cpi.port.crossing := by simp [State.lensEvent]
@[simp] theorem State.lensEvent_fpi_attached (s : State) (f : Axis → AxisEnv → AxisState → LensOut) : (s.lensEvent f).fpi.attached = s.fpi.attached := by simp [State.lensEvent]
@[simp] theorem State.lensEvent_fpi_width (s : State) (f : Axis → AxisEnv → AxisState → LensOut) : (s.lensEvent f).fpi.width = s.fpi.width := by simp [State.lensEvent]
@[simp] theorem State.lensEvent_fpi_height (s : State) (f : Axis → AxisEnv → AxisState → LensOut) : (s.lensEvent f).fpi.height = s.fpi.height := by simp [State.lensEvent]
@[simp] theorem State.lensEvent_fpi_latched (s : State) (f : Axis → AxisEnv → AxisState → LensOut) : (s.lensEvent f).fpi.latched = s.fpi.latched := by simp [State.lensEvent]
@[simp] theorem State.lensEvent_fpi_port_slot (s : State) (f : Axis → AxisEnv → AxisState → LensOut) : (s.lensEvent f).fpi.port.slot = s.fpi.port.slot := by simp [State.lensEvent]
@[simp] theorem State.lensEvent_fpi_port_mask (s : State) (f : Axis → AxisEnv → AxisState → LensOut) : (s.lensEvent f).fpi.port.mask = s.fpi.port.mask := by simp [State.lensEvent]
@[simp] theorem State.lensEvent_fpi_port_lastWarp (s : State) (f : Axis → AxisEnv → AxisState → LensOut) : (s.lensEvent f).fpi.port.lastWarp = s.fpi.port.lastWarp := by simp [State.lensEvent]
@[simp] theorem State.lensEvent_fpi_port_crossing (s : State) (f : Axis → AxisEnv → AxisState → LensOut) : (s.lensEvent f).fpi.port.crossing = s.fpi.port.crossing := by simp [State.lensEvent]
@[simp] theorem State.lensEvent_fmon (s : State) (f : Axis → AxisEnv → AxisState → LensOut) : (s.lensEvent f).fmon = s.fmon := by simp [State.lensEvent]
@[simp] theorem State.lensEvent_tmon (s : State) (f : Axis → AxisEnv → AxisState → LensOut) : (s.lensEvent f).tmon = s.tmon := by simp [State.lensEvent]
@[simp] theorem State.lensEvent_afc (s : State) (f : Axis → AxisEnv → AxisState → LensOut) : (s.lensEvent f).afc = s.afc := by simp [State.lensEvent]
@[simp] theorem State.lensEvent_lau (s : State) (f : Axis → AxisEnv → AxisState → LensOut) : (s.lensEvent f).lau = s.lau := by simp [State.lensEvent]

/-! ### The thermal stop -/

@[simp] theorem State.thermalStop_now (s : State) : (s.thermalStop).now = s.now := by simp [State.thermalStop]
@[simp] theorem State.thermalStop_inReset (s : State) : (s.thermalStop).inReset = s.inReset := by simp [State.thermalStop]
@[simp] theorem State.thermalStop_resetPulses (s : State) : (s.thermalStop).resetPulses = s.resetPulses := by simp [State.thermalStop]
@[simp] theorem State.thermalStop_pending (s : State) : (s.thermalStop).pending = s.pending := by simp [State.thermalStop]
@[simp] theorem State.thermalStop_cpi_address (s : State) : (s.thermalStop).cpi.address = s.cpi.address := by simp [State.thermalStop]
@[simp] theorem State.thermalStop_cpi_load (s : State) : (s.thermalStop).cpi.load = s.cpi.load := by simp [State.thermalStop]
@[simp] theorem State.thermalStop_cpi_port_slot (s : State) : (s.thermalStop).cpi.port.slot = s.cpi.port.slot := by simp [State.thermalStop]
@[simp] theorem State.thermalStop_cpi_port_mask (s : State) : (s.thermalStop).cpi.port.mask = s.cpi.port.mask := by simp [State.thermalStop]
@[simp] theorem State.thermalStop_cpi_port_lastWarp (s : State) : (s.thermalStop).cpi.port.lastWarp = s.cpi.port.lastWarp := by simp [State.thermalStop]
@[simp] theorem State.thermalStop_cpi_port_crossing (s : State) : (s.thermalStop).cpi.port.crossing = s.cpi.port.crossing := by simp [State.thermalStop]
@[simp] theorem State.thermalStop_fpi_attached (s : State) : (s.thermalStop).fpi.attached = s.fpi.attached := by simp [State.thermalStop]
@[simp] theorem State.thermalStop_fpi_width (s : State) : (s.thermalStop).fpi.width = s.fpi.width := by simp [State.thermalStop]
@[simp] theorem State.thermalStop_fpi_height (s : State) : (s.thermalStop).fpi.height = s.fpi.height := by simp [State.thermalStop]
@[simp] theorem State.thermalStop_fpi_latched (s : State) : (s.thermalStop).fpi.latched = s.fpi.latched := by simp [State.thermalStop]
@[simp] theorem State.thermalStop_fpi_port_slot (s : State) : (s.thermalStop).fpi.port.slot = s.fpi.port.slot := by simp [State.thermalStop]
@[simp] theorem State.thermalStop_fpi_port_mask (s : State) : (s.thermalStop).fpi.port.mask = s.fpi.port.mask := by simp [State.thermalStop]
@[simp] theorem State.thermalStop_fpi_port_lastWarp (s : State) : (s.thermalStop).fpi.port.lastWarp = s.fpi.port.lastWarp := by simp [State.thermalStop]
@[simp] theorem State.thermalStop_fpi_port_crossing (s : State) : (s.thermalStop).fpi.port.crossing = s.fpi.port.crossing := by simp [State.thermalStop]
@[simp] theorem State.thermalStop_fmon (s : State) : (s.thermalStop).fmon = s.fmon := by simp [State.thermalStop]
@[simp] theorem State.thermalStop_tmon (s : State) : (s.thermalStop).tmon = s.tmon := by simp [State.thermalStop]
@[simp] theorem State.thermalStop_afc (s : State) : (s.thermalStop).afc = s.afc := by simp [State.thermalStop]
@[simp] theorem State.thermalStop_lau (s : State) : (s.thermalStop).lau = s.lau := by simp [State.thermalStop]

/-! ### The trip halt -/

@[simp] theorem State.tripHalt_now (s : State) : (s.tripHalt).now = s.now := by simp [State.tripHalt]
@[simp] theorem State.tripHalt_inReset (s : State) : (s.tripHalt).inReset = s.inReset := by simp [State.tripHalt]
@[simp] theorem State.tripHalt_resetPulses (s : State) : (s.tripHalt).resetPulses = s.resetPulses := by simp [State.tripHalt]
@[simp] theorem State.tripHalt_pending (s : State) : (s.tripHalt).pending = s.pending := by simp [State.tripHalt]
@[simp] theorem State.tripHalt_cpi_address (s : State) : (s.tripHalt).cpi.address = s.cpi.address := by simp [State.tripHalt]
@[simp] theorem State.tripHalt_cpi_load (s : State) : (s.tripHalt).cpi.load = s.cpi.load := by simp [State.tripHalt]
@[simp] theorem State.tripHalt_cpi_port_slot (s : State) : (s.tripHalt).cpi.port.slot = s.cpi.port.slot := by simp [State.tripHalt]
@[simp] theorem State.tripHalt_cpi_port_mask (s : State) : (s.tripHalt).cpi.port.mask = s.cpi.port.mask := by simp [State.tripHalt]
@[simp] theorem State.tripHalt_cpi_port_lastWarp (s : State) : (s.tripHalt).cpi.port.lastWarp = s.cpi.port.lastWarp := by simp [State.tripHalt]
@[simp] theorem State.tripHalt_cpi_port_crossing (s : State) : (s.tripHalt).cpi.port.crossing = s.cpi.port.crossing := by simp [State.tripHalt]
@[simp] theorem State.tripHalt_fpi_attached (s : State) : (s.tripHalt).fpi.attached = s.fpi.attached := by simp [State.tripHalt]
@[simp] theorem State.tripHalt_fpi_width (s : State) : (s.tripHalt).fpi.width = s.fpi.width := by simp [State.tripHalt]
@[simp] theorem State.tripHalt_fpi_height (s : State) : (s.tripHalt).fpi.height = s.fpi.height := by simp [State.tripHalt]
@[simp] theorem State.tripHalt_fpi_latched (s : State) : (s.tripHalt).fpi.latched = s.fpi.latched := by simp [State.tripHalt]
@[simp] theorem State.tripHalt_fpi_port_slot (s : State) : (s.tripHalt).fpi.port.slot = s.fpi.port.slot := by simp [State.tripHalt]
@[simp] theorem State.tripHalt_fpi_port_mask (s : State) : (s.tripHalt).fpi.port.mask = s.fpi.port.mask := by simp [State.tripHalt]
@[simp] theorem State.tripHalt_fpi_port_lastWarp (s : State) : (s.tripHalt).fpi.port.lastWarp = s.fpi.port.lastWarp := by simp [State.tripHalt]
@[simp] theorem State.tripHalt_fpi_port_crossing (s : State) : (s.tripHalt).fpi.port.crossing = s.fpi.port.crossing := by simp [State.tripHalt]
@[simp] theorem State.tripHalt_fmon (s : State) : (s.tripHalt).fmon = s.fmon := by simp [State.tripHalt]
@[simp] theorem State.tripHalt_tmon (s : State) : (s.tripHalt).tmon = s.tmon := by simp [State.tripHalt]
@[simp] theorem State.tripHalt_afc (s : State) : (s.tripHalt).afc = s.afc := by simp [State.tripHalt]
@[simp] theorem State.tripHalt_lau (s : State) : (s.tripHalt).lau = s.lau := by simp [State.tripHalt]

/-! ### The heads that start -/

@[simp] theorem State.startHeads_now (s : State) (b : Bool) : (s.startHeads b).now = s.now := by simp [State.startHeads]
@[simp] theorem State.startHeads_inReset (s : State) (b : Bool) : (s.startHeads b).inReset = s.inReset := by simp [State.startHeads]
@[simp] theorem State.startHeads_resetPulses (s : State) (b : Bool) : (s.startHeads b).resetPulses = s.resetPulses := by simp [State.startHeads]
@[simp] theorem State.startHeads_pending (s : State) (b : Bool) : (s.startHeads b).pending = s.pending := by simp [State.startHeads]
@[simp] theorem State.startHeads_cpi_address (s : State) (b : Bool) : (s.startHeads b).cpi.address = s.cpi.address := by simp [State.startHeads]
@[simp] theorem State.startHeads_cpi_load (s : State) (b : Bool) : (s.startHeads b).cpi.load = s.cpi.load := by simp [State.startHeads]
@[simp] theorem State.startHeads_cpi_port_slot (s : State) (b : Bool) : (s.startHeads b).cpi.port.slot = s.cpi.port.slot := by simp [State.startHeads]
@[simp] theorem State.startHeads_cpi_port_mask (s : State) (b : Bool) : (s.startHeads b).cpi.port.mask = s.cpi.port.mask := by simp [State.startHeads]
@[simp] theorem State.startHeads_cpi_port_lastWarp (s : State) (b : Bool) : (s.startHeads b).cpi.port.lastWarp = s.cpi.port.lastWarp := by simp [State.startHeads]
@[simp] theorem State.startHeads_cpi_port_crossing (s : State) (b : Bool) : (s.startHeads b).cpi.port.crossing = s.cpi.port.crossing := by simp [State.startHeads]
@[simp] theorem State.startHeads_fpi_attached (s : State) (b : Bool) : (s.startHeads b).fpi.attached = s.fpi.attached := by simp [State.startHeads]
@[simp] theorem State.startHeads_fpi_width (s : State) (b : Bool) : (s.startHeads b).fpi.width = s.fpi.width := by simp [State.startHeads]
@[simp] theorem State.startHeads_fpi_height (s : State) (b : Bool) : (s.startHeads b).fpi.height = s.fpi.height := by simp [State.startHeads]
@[simp] theorem State.startHeads_fpi_latched (s : State) (b : Bool) : (s.startHeads b).fpi.latched = s.fpi.latched := by simp [State.startHeads]
@[simp] theorem State.startHeads_fpi_port_slot (s : State) (b : Bool) : (s.startHeads b).fpi.port.slot = s.fpi.port.slot := by simp [State.startHeads]
@[simp] theorem State.startHeads_fpi_port_mask (s : State) (b : Bool) : (s.startHeads b).fpi.port.mask = s.fpi.port.mask := by simp [State.startHeads]
@[simp] theorem State.startHeads_fpi_port_lastWarp (s : State) (b : Bool) : (s.startHeads b).fpi.port.lastWarp = s.fpi.port.lastWarp := by simp [State.startHeads]
@[simp] theorem State.startHeads_fpi_port_crossing (s : State) (b : Bool) : (s.startHeads b).fpi.port.crossing = s.fpi.port.crossing := by simp [State.startHeads]
@[simp] theorem State.startHeads_fmon (s : State) (b : Bool) : (s.startHeads b).fmon = s.fmon := by simp [State.startHeads]
@[simp] theorem State.startHeads_tmon (s : State) (b : Bool) : (s.startHeads b).tmon = s.tmon := by simp [State.startHeads]
@[simp] theorem State.startHeads_afc (s : State) (b : Bool) : (s.startHeads b).afc = s.afc := by simp [State.startHeads]
@[simp] theorem State.startHeads_lau (s : State) (b : Bool) : (s.startHeads b).lau = s.lau := by simp [State.startHeads]

end Sys2Proof.Machine
end

