-- ==== Sys2Proof/Laws/Heat.lean ====
section
/-! SUPPORT. What the operations of the thermal, air and light blocks leave unchanged. -/

namespace Sys2Proof.Machine

/-! ### The LAU takes inputs -/

@[simp] theorem State.lauTake_now (s : State) (x : LauInputs) : (s.lauTake x).now = s.now := rfl
@[simp] theorem State.lauTake_inReset (s : State) (x : LauInputs) : (s.lauTake x).inReset = s.inReset := rfl
@[simp] theorem State.lauTake_resetPulses (s : State) (x : LauInputs) : (s.lauTake x).resetPulses = s.resetPulses := rfl
@[simp] theorem State.lauTake_pending (s : State) (x : LauInputs) : (s.lauTake x).pending = s.pending := rfl
@[simp] theorem State.lauTake_cpi (s : State) (x : LauInputs) : (s.lauTake x).cpi = s.cpi := rfl
@[simp] theorem State.lauTake_fpi (s : State) (x : LauInputs) : (s.lauTake x).fpi = s.fpi := rfl
@[simp] theorem State.lauTake_irm (s : State) (x : LauInputs) : (s.lauTake x).irm = s.irm := rfl
@[simp] theorem State.lauTake_lmc (s : State) (x : LauInputs) : (s.lauTake x).lmc = s.lmc := rfl
@[simp] theorem State.lauTake_ge (s : State) (x : LauInputs) : (s.lauTake x).ge = s.ge := rfl
@[simp] theorem State.lauTake_fmon (s : State) (x : LauInputs) : (s.lauTake x).fmon = s.fmon := rfl
@[simp] theorem State.lauTake_tmon (s : State) (x : LauInputs) : (s.lauTake x).tmon = s.tmon := rfl
@[simp] theorem State.lauTake_afc (s : State) (x : LauInputs) : (s.lauTake x).afc = s.afc := rfl

/-! ### The allowance is formed -/

@[simp] theorem State.lauForm_now (s : State) : (s.lauForm).now = s.now := rfl
@[simp] theorem State.lauForm_inReset (s : State) : (s.lauForm).inReset = s.inReset := rfl
@[simp] theorem State.lauForm_resetPulses (s : State) : (s.lauForm).resetPulses = s.resetPulses := rfl
@[simp] theorem State.lauForm_pending (s : State) : (s.lauForm).pending = s.pending := rfl
@[simp] theorem State.lauForm_cpi (s : State) : (s.lauForm).cpi = s.cpi := rfl
@[simp] theorem State.lauForm_fpi (s : State) : (s.lauForm).fpi = s.fpi := rfl
@[simp] theorem State.lauForm_irm (s : State) : (s.lauForm).irm = s.irm := rfl
@[simp] theorem State.lauForm_lmc (s : State) : (s.lauForm).lmc = s.lmc := rfl
@[simp] theorem State.lauForm_ge (s : State) : (s.lauForm).ge = s.ge := rfl
@[simp] theorem State.lauForm_fmon (s : State) : (s.lauForm).fmon = s.fmon := rfl
@[simp] theorem State.lauForm_tmon (s : State) : (s.lauForm).tmon = s.tmon := rfl
@[simp] theorem State.lauForm_afc (s : State) : (s.lauForm).afc = s.afc := rfl

/-! ### A fan selection -/

@[simp] theorem State.selectFans_now (s : State) : (s.selectFans).now = s.now := by
  simp only [State.selectFans]; split <;> rfl
@[simp] theorem State.selectFans_inReset (s : State) : (s.selectFans).inReset = s.inReset := by
  simp only [State.selectFans]; split <;> rfl
@[simp] theorem State.selectFans_resetPulses (s : State) : (s.selectFans).resetPulses = s.resetPulses := by
  simp only [State.selectFans]; split <;> rfl
@[simp] theorem State.selectFans_pending (s : State) : (s.selectFans).pending = s.pending := by
  simp only [State.selectFans]; split <;> rfl
@[simp] theorem State.selectFans_cpi (s : State) : (s.selectFans).cpi = s.cpi := by
  simp only [State.selectFans]; split <;> rfl
@[simp] theorem State.selectFans_fpi (s : State) : (s.selectFans).fpi = s.fpi := by
  simp only [State.selectFans]; split <;> rfl
@[simp] theorem State.selectFans_irm (s : State) : (s.selectFans).irm = s.irm := by
  simp only [State.selectFans]; split <;> rfl
@[simp] theorem State.selectFans_lmc (s : State) : (s.selectFans).lmc = s.lmc := by
  simp only [State.selectFans]; split <;> rfl
@[simp] theorem State.selectFans_ge (s : State) : (s.selectFans).ge = s.ge := by
  simp only [State.selectFans]; split <;> rfl
@[simp] theorem State.selectFans_fmon (s : State) : (s.selectFans).fmon = s.fmon := by
  simp only [State.selectFans]; split <;> rfl
@[simp] theorem State.selectFans_tmon (s : State) : (s.selectFans).tmon = s.tmon := by
  simp only [State.selectFans]; split <;> rfl
@[simp] theorem State.selectFans_afc (s : State) : s.selectFans.afc = s.afc.select s.airInputs := by
  simp only [State.selectFans]; split <;> rfl

/-! ### A session change -/

@[simp] theorem State.enterSession_now (s : State) (new : Session) (c : SessionCause) : (s.enterSession new c).now = s.now := by simp [State.enterSession]
@[simp] theorem State.enterSession_inReset (s : State) (new : Session) (c : SessionCause) : (s.enterSession new c).inReset = s.inReset := by simp [State.enterSession]
@[simp] theorem State.enterSession_resetPulses (s : State) (new : Session) (c : SessionCause) : (s.enterSession new c).resetPulses = s.resetPulses := by simp [State.enterSession]
@[simp] theorem State.enterSession_pending (s : State) (new : Session) (c : SessionCause) : (s.enterSession new c).pending = s.pending := by simp [State.enterSession]
@[simp] theorem State.enterSession_cpi_address (s : State) (new : Session) (c : SessionCause) : (s.enterSession new c).cpi.address = s.cpi.address := by simp [State.enterSession]
@[simp] theorem State.enterSession_cpi_load (s : State) (new : Session) (c : SessionCause) : (s.enterSession new c).cpi.load = s.cpi.load := by simp [State.enterSession]
@[simp] theorem State.enterSession_cpi_port_slot (s : State) (new : Session) (c : SessionCause) : (s.enterSession new c).cpi.port.slot = s.cpi.port.slot := by simp [State.enterSession]
@[simp] theorem State.enterSession_cpi_port_mask (s : State) (new : Session) (c : SessionCause) : (s.enterSession new c).cpi.port.mask = s.cpi.port.mask := by simp [State.enterSession]
@[simp] theorem State.enterSession_cpi_port_lastWarp (s : State) (new : Session) (c : SessionCause) : (s.enterSession new c).cpi.port.lastWarp = s.cpi.port.lastWarp := by simp [State.enterSession]
@[simp] theorem State.enterSession_cpi_port_crossing (s : State) (new : Session) (c : SessionCause) : (s.enterSession new c).cpi.port.crossing = s.cpi.port.crossing := by simp [State.enterSession]
@[simp] theorem State.enterSession_fpi_attached (s : State) (new : Session) (c : SessionCause) : (s.enterSession new c).fpi.attached = s.fpi.attached := by simp [State.enterSession]
@[simp] theorem State.enterSession_fpi_width (s : State) (new : Session) (c : SessionCause) : (s.enterSession new c).fpi.width = s.fpi.width := by simp [State.enterSession]
@[simp] theorem State.enterSession_fpi_height (s : State) (new : Session) (c : SessionCause) : (s.enterSession new c).fpi.height = s.fpi.height := by simp [State.enterSession]
@[simp] theorem State.enterSession_fpi_latched (s : State) (new : Session) (c : SessionCause) : (s.enterSession new c).fpi.latched = s.fpi.latched := by simp [State.enterSession]
@[simp] theorem State.enterSession_fpi_port_slot (s : State) (new : Session) (c : SessionCause) : (s.enterSession new c).fpi.port.slot = s.fpi.port.slot := by simp [State.enterSession]
@[simp] theorem State.enterSession_fpi_port_mask (s : State) (new : Session) (c : SessionCause) : (s.enterSession new c).fpi.port.mask = s.fpi.port.mask := by simp [State.enterSession]
@[simp] theorem State.enterSession_fpi_port_lastWarp (s : State) (new : Session) (c : SessionCause) : (s.enterSession new c).fpi.port.lastWarp = s.fpi.port.lastWarp := by simp [State.enterSession]
@[simp] theorem State.enterSession_fpi_port_crossing (s : State) (new : Session) (c : SessionCause) : (s.enterSession new c).fpi.port.crossing = s.fpi.port.crossing := by simp [State.enterSession]
@[simp] theorem State.enterSession_irm (s : State) (new : Session) (c : SessionCause) : (s.enterSession new c).irm = s.irm := by simp [State.enterSession]
@[simp] theorem State.enterSession_lmc (s : State) (new : Session) (c : SessionCause) : (s.enterSession new c).lmc = s.lmc := by simp [State.enterSession]
@[simp] theorem State.enterSession_ge (s : State) (new : Session) (c : SessionCause) : (s.enterSession new c).ge = s.ge := by simp [State.enterSession]
@[simp] theorem State.enterSession_fmon (s : State) (new : Session) (c : SessionCause) : (s.enterSession new c).fmon = s.fmon := by simp [State.enterSession]
@[simp] theorem State.enterSession_tmon (s : State) (new : Session) (c : SessionCause) : (s.enterSession new c).tmon = s.tmon := by simp [State.enterSession]

/-! ### A check of the cool-down -/

@[simp] theorem State.checkCooled_now (s : State) : (s.checkCooled).now = s.now := by
  unfold State.checkCooled; split <;> simp
@[simp] theorem State.checkCooled_inReset (s : State) : (s.checkCooled).inReset = s.inReset := by
  unfold State.checkCooled; split <;> simp
@[simp] theorem State.checkCooled_resetPulses (s : State) : (s.checkCooled).resetPulses = s.resetPulses := by
  unfold State.checkCooled; split <;> simp
@[simp] theorem State.checkCooled_pending (s : State) : (s.checkCooled).pending = s.pending := by
  unfold State.checkCooled; split <;> simp
@[simp] theorem State.checkCooled_cpi_address (s : State) : (s.checkCooled).cpi.address = s.cpi.address := by
  unfold State.checkCooled; split <;> simp
@[simp] theorem State.checkCooled_cpi_load (s : State) : (s.checkCooled).cpi.load = s.cpi.load := by
  unfold State.checkCooled; split <;> simp
@[simp] theorem State.checkCooled_cpi_port_slot (s : State) : (s.checkCooled).cpi.port.slot = s.cpi.port.slot := by
  unfold State.checkCooled; split <;> simp
@[simp] theorem State.checkCooled_cpi_port_mask (s : State) : (s.checkCooled).cpi.port.mask = s.cpi.port.mask := by
  unfold State.checkCooled; split <;> simp
@[simp] theorem State.checkCooled_cpi_port_lastWarp (s : State) : (s.checkCooled).cpi.port.lastWarp = s.cpi.port.lastWarp := by
  unfold State.checkCooled; split <;> simp
@[simp] theorem State.checkCooled_cpi_port_crossing (s : State) : (s.checkCooled).cpi.port.crossing = s.cpi.port.crossing := by
  unfold State.checkCooled; split <;> simp
@[simp] theorem State.checkCooled_fpi_attached (s : State) : (s.checkCooled).fpi.attached = s.fpi.attached := by
  unfold State.checkCooled; split <;> simp
@[simp] theorem State.checkCooled_fpi_width (s : State) : (s.checkCooled).fpi.width = s.fpi.width := by
  unfold State.checkCooled; split <;> simp
@[simp] theorem State.checkCooled_fpi_height (s : State) : (s.checkCooled).fpi.height = s.fpi.height := by
  unfold State.checkCooled; split <;> simp
@[simp] theorem State.checkCooled_fpi_latched (s : State) : (s.checkCooled).fpi.latched = s.fpi.latched := by
  unfold State.checkCooled; split <;> simp
@[simp] theorem State.checkCooled_fpi_port_slot (s : State) : (s.checkCooled).fpi.port.slot = s.fpi.port.slot := by
  unfold State.checkCooled; split <;> simp
@[simp] theorem State.checkCooled_fpi_port_mask (s : State) : (s.checkCooled).fpi.port.mask = s.fpi.port.mask := by
  unfold State.checkCooled; split <;> simp
@[simp] theorem State.checkCooled_fpi_port_lastWarp (s : State) : (s.checkCooled).fpi.port.lastWarp = s.fpi.port.lastWarp := by
  unfold State.checkCooled; split <;> simp
@[simp] theorem State.checkCooled_fpi_port_crossing (s : State) : (s.checkCooled).fpi.port.crossing = s.fpi.port.crossing := by
  unfold State.checkCooled; split <;> simp
@[simp] theorem State.checkCooled_irm (s : State) : (s.checkCooled).irm = s.irm := by
  unfold State.checkCooled; split <;> simp
@[simp] theorem State.checkCooled_lmc (s : State) : (s.checkCooled).lmc = s.lmc := by
  unfold State.checkCooled; split <;> simp
@[simp] theorem State.checkCooled_ge (s : State) : (s.checkCooled).ge = s.ge := by
  unfold State.checkCooled; split <;> simp
@[simp] theorem State.checkCooled_fmon (s : State) : (s.checkCooled).fmon = s.fmon := by
  unfold State.checkCooled; split <;> simp
@[simp] theorem State.checkCooled_tmon (s : State) : (s.checkCooled).tmon = s.tmon := by
  unfold State.checkCooled; split <;> simp

/-! ### Entry to COOLDOWN -/

@[simp] theorem State.enterCooldown_now (s : State) (c : SessionCause) : (s.enterCooldown c).now = s.now := by simp [State.enterCooldown]
@[simp] theorem State.enterCooldown_inReset (s : State) (c : SessionCause) : (s.enterCooldown c).inReset = s.inReset := by simp [State.enterCooldown]
@[simp] theorem State.enterCooldown_resetPulses (s : State) (c : SessionCause) : (s.enterCooldown c).resetPulses = s.resetPulses := by simp [State.enterCooldown]
@[simp] theorem State.enterCooldown_pending (s : State) (c : SessionCause) : (s.enterCooldown c).pending = s.pending := by simp [State.enterCooldown]
@[simp] theorem State.enterCooldown_cpi_address (s : State) (c : SessionCause) : (s.enterCooldown c).cpi.address = s.cpi.address := by simp [State.enterCooldown]
@[simp] theorem State.enterCooldown_cpi_load (s : State) (c : SessionCause) : (s.enterCooldown c).cpi.load = s.cpi.load := by simp [State.enterCooldown]
@[simp] theorem State.enterCooldown_cpi_port_slot (s : State) (c : SessionCause) : (s.enterCooldown c).cpi.port.slot = s.cpi.port.slot := by simp [State.enterCooldown]
@[simp] theorem State.enterCooldown_cpi_port_mask (s : State) (c : SessionCause) : (s.enterCooldown c).cpi.port.mask = s.cpi.port.mask := by simp [State.enterCooldown]
@[simp] theorem State.enterCooldown_cpi_port_lastWarp (s : State) (c : SessionCause) : (s.enterCooldown c).cpi.port.lastWarp = s.cpi.port.lastWarp := by simp [State.enterCooldown]
@[simp] theorem State.enterCooldown_cpi_port_crossing (s : State) (c : SessionCause) : (s.enterCooldown c).cpi.port.crossing = s.cpi.port.crossing := by simp [State.enterCooldown]
@[simp] theorem State.enterCooldown_fpi_attached (s : State) (c : SessionCause) : (s.enterCooldown c).fpi.attached = s.fpi.attached := by simp [State.enterCooldown]
@[simp] theorem State.enterCooldown_fpi_width (s : State) (c : SessionCause) : (s.enterCooldown c).fpi.width = s.fpi.width := by simp [State.enterCooldown]
@[simp] theorem State.enterCooldown_fpi_height (s : State) (c : SessionCause) : (s.enterCooldown c).fpi.height = s.fpi.height := by simp [State.enterCooldown]
@[simp] theorem State.enterCooldown_fpi_latched (s : State) (c : SessionCause) : (s.enterCooldown c).fpi.latched = s.fpi.latched := by simp [State.enterCooldown]
@[simp] theorem State.enterCooldown_fpi_port_slot (s : State) (c : SessionCause) : (s.enterCooldown c).fpi.port.slot = s.fpi.port.slot := by simp [State.enterCooldown]
@[simp] theorem State.enterCooldown_fpi_port_mask (s : State) (c : SessionCause) : (s.enterCooldown c).fpi.port.mask = s.fpi.port.mask := by simp [State.enterCooldown]
@[simp] theorem State.enterCooldown_fpi_port_lastWarp (s : State) (c : SessionCause) : (s.enterCooldown c).fpi.port.lastWarp = s.fpi.port.lastWarp := by simp [State.enterCooldown]
@[simp] theorem State.enterCooldown_fpi_port_crossing (s : State) (c : SessionCause) : (s.enterCooldown c).fpi.port.crossing = s.fpi.port.crossing := by simp [State.enterCooldown]
@[simp] theorem State.enterCooldown_irm (s : State) (c : SessionCause) : (s.enterCooldown c).irm = s.irm := by simp [State.enterCooldown]
@[simp] theorem State.enterCooldown_lmc (s : State) (c : SessionCause) : (s.enterCooldown c).lmc = s.lmc := by simp [State.enterCooldown]
@[simp] theorem State.enterCooldown_ge (s : State) (c : SessionCause) : (s.enterCooldown c).ge = s.ge := by simp [State.enterCooldown]
@[simp] theorem State.enterCooldown_fmon (s : State) (c : SessionCause) : (s.enterCooldown c).fmon = s.fmon := by simp [State.enterCooldown]
@[simp] theorem State.enterCooldown_tmon (s : State) (c : SessionCause) : (s.enterCooldown c).tmon = s.tmon := by simp [State.enterCooldown]

/-! ### A light fault -/

@[simp] theorem State.lightFault_now (s : State) (r : FaultReason) : (s.lightFault r).now = s.now := by simp [State.lightFault]
@[simp] theorem State.lightFault_inReset (s : State) (r : FaultReason) : (s.lightFault r).inReset = s.inReset := by simp [State.lightFault]
@[simp] theorem State.lightFault_resetPulses (s : State) (r : FaultReason) : (s.lightFault r).resetPulses = s.resetPulses := by simp [State.lightFault]
@[simp] theorem State.lightFault_pending (s : State) (r : FaultReason) : (s.lightFault r).pending = s.pending := by simp [State.lightFault]
@[simp] theorem State.lightFault_cpi_address (s : State) (r : FaultReason) : (s.lightFault r).cpi.address = s.cpi.address := by simp [State.lightFault]
@[simp] theorem State.lightFault_cpi_load (s : State) (r : FaultReason) : (s.lightFault r).cpi.load = s.cpi.load := by simp [State.lightFault]
@[simp] theorem State.lightFault_cpi_port_slot (s : State) (r : FaultReason) : (s.lightFault r).cpi.port.slot = s.cpi.port.slot := by simp [State.lightFault]
@[simp] theorem State.lightFault_cpi_port_mask (s : State) (r : FaultReason) : (s.lightFault r).cpi.port.mask = s.cpi.port.mask := by simp [State.lightFault]
@[simp] theorem State.lightFault_cpi_port_lastWarp (s : State) (r : FaultReason) : (s.lightFault r).cpi.port.lastWarp = s.cpi.port.lastWarp := by simp [State.lightFault]
@[simp] theorem State.lightFault_cpi_port_crossing (s : State) (r : FaultReason) : (s.lightFault r).cpi.port.crossing = s.cpi.port.crossing := by simp [State.lightFault]
@[simp] theorem State.lightFault_fpi_attached (s : State) (r : FaultReason) : (s.lightFault r).fpi.attached = s.fpi.attached := by simp [State.lightFault]
@[simp] theorem State.lightFault_fpi_width (s : State) (r : FaultReason) : (s.lightFault r).fpi.width = s.fpi.width := by simp [State.lightFault]
@[simp] theorem State.lightFault_fpi_height (s : State) (r : FaultReason) : (s.lightFault r).fpi.height = s.fpi.height := by simp [State.lightFault]
@[simp] theorem State.lightFault_fpi_latched (s : State) (r : FaultReason) : (s.lightFault r).fpi.latched = s.fpi.latched := by simp [State.lightFault]
@[simp] theorem State.lightFault_fpi_port_slot (s : State) (r : FaultReason) : (s.lightFault r).fpi.port.slot = s.fpi.port.slot := by simp [State.lightFault]
@[simp] theorem State.lightFault_fpi_port_mask (s : State) (r : FaultReason) : (s.lightFault r).fpi.port.mask = s.fpi.port.mask := by simp [State.lightFault]
@[simp] theorem State.lightFault_fpi_port_lastWarp (s : State) (r : FaultReason) : (s.lightFault r).fpi.port.lastWarp = s.fpi.port.lastWarp := by simp [State.lightFault]
@[simp] theorem State.lightFault_fpi_port_crossing (s : State) (r : FaultReason) : (s.lightFault r).fpi.port.crossing = s.fpi.port.crossing := by simp [State.lightFault]
@[simp] theorem State.lightFault_irm (s : State) (r : FaultReason) : (s.lightFault r).irm = s.irm := by simp [State.lightFault]
@[simp] theorem State.lightFault_lmc (s : State) (r : FaultReason) : (s.lightFault r).lmc = s.lmc := by simp [State.lightFault]
@[simp] theorem State.lightFault_ge (s : State) (r : FaultReason) : (s.lightFault r).ge = s.ge := by simp [State.lightFault]
@[simp] theorem State.lightFault_fmon (s : State) (r : FaultReason) : (s.lightFault r).fmon = s.fmon := by simp [State.lightFault]
@[simp] theorem State.lightFault_tmon (s : State) (r : FaultReason) : (s.lightFault r).tmon = s.tmon := by simp [State.lightFault]

/-! ### The device thermal state -/

@[simp] theorem State.formDevice_now (s : State) : (s.formDevice).now = s.now := by
  simp only [State.formDevice]; split <;> [skip; split] <;> simp
@[simp] theorem State.formDevice_inReset (s : State) : (s.formDevice).inReset = s.inReset := by
  simp only [State.formDevice]; split <;> [skip; split] <;> simp
@[simp] theorem State.formDevice_resetPulses (s : State) : (s.formDevice).resetPulses = s.resetPulses := by
  simp only [State.formDevice]; split <;> [skip; split] <;> simp
@[simp] theorem State.formDevice_pending (s : State) : (s.formDevice).pending = s.pending := by
  simp only [State.formDevice]; split <;> [skip; split] <;> simp
@[simp] theorem State.formDevice_cpi_address (s : State) : (s.formDevice).cpi.address = s.cpi.address := by
  simp only [State.formDevice]; split <;> [skip; split] <;> simp
@[simp] theorem State.formDevice_cpi_load (s : State) : (s.formDevice).cpi.load = s.cpi.load := by
  simp only [State.formDevice]; split <;> [skip; split] <;> simp
@[simp] theorem State.formDevice_cpi_port_slot (s : State) : (s.formDevice).cpi.port.slot = s.cpi.port.slot := by
  simp only [State.formDevice]; split <;> [skip; split] <;> simp
@[simp] theorem State.formDevice_cpi_port_mask (s : State) : (s.formDevice).cpi.port.mask = s.cpi.port.mask := by
  simp only [State.formDevice]; split <;> [skip; split] <;> simp
@[simp] theorem State.formDevice_cpi_port_lastWarp (s : State) : (s.formDevice).cpi.port.lastWarp = s.cpi.port.lastWarp := by
  simp only [State.formDevice]; split <;> [skip; split] <;> simp
@[simp] theorem State.formDevice_cpi_port_crossing (s : State) : (s.formDevice).cpi.port.crossing = s.cpi.port.crossing := by
  simp only [State.formDevice]; split <;> [skip; split] <;> simp
@[simp] theorem State.formDevice_fpi_attached (s : State) : (s.formDevice).fpi.attached = s.fpi.attached := by
  simp only [State.formDevice]; split <;> [skip; split] <;> simp
@[simp] theorem State.formDevice_fpi_width (s : State) : (s.formDevice).fpi.width = s.fpi.width := by
  simp only [State.formDevice]; split <;> [skip; split] <;> simp
@[simp] theorem State.formDevice_fpi_height (s : State) : (s.formDevice).fpi.height = s.fpi.height := by
  simp only [State.formDevice]; split <;> [skip; split] <;> simp
@[simp] theorem State.formDevice_fpi_latched (s : State) : (s.formDevice).fpi.latched = s.fpi.latched := by
  simp only [State.formDevice]; split <;> [skip; split] <;> simp
@[simp] theorem State.formDevice_fpi_port_slot (s : State) : (s.formDevice).fpi.port.slot = s.fpi.port.slot := by
  simp only [State.formDevice]; split <;> [skip; split] <;> simp
@[simp] theorem State.formDevice_fpi_port_mask (s : State) : (s.formDevice).fpi.port.mask = s.fpi.port.mask := by
  simp only [State.formDevice]; split <;> [skip; split] <;> simp
@[simp] theorem State.formDevice_fpi_port_lastWarp (s : State) : (s.formDevice).fpi.port.lastWarp = s.fpi.port.lastWarp := by
  simp only [State.formDevice]; split <;> [skip; split] <;> simp
@[simp] theorem State.formDevice_fpi_port_crossing (s : State) : (s.formDevice).fpi.port.crossing = s.fpi.port.crossing := by
  simp only [State.formDevice]; split <;> [skip; split] <;> simp
@[simp] theorem State.formDevice_fmon (s : State) : (s.formDevice).fmon = s.fmon := by
  simp only [State.formDevice]; split <;> [skip; split] <;> simp

/-! ### A changed stalled set -/

@[simp] theorem State.handStalled_now (s : State) (f : Fan) (b : Bool) : (s.handStalled f b).now = s.now := by simp [State.handStalled]
@[simp] theorem State.handStalled_inReset (s : State) (f : Fan) (b : Bool) : (s.handStalled f b).inReset = s.inReset := by simp [State.handStalled]
@[simp] theorem State.handStalled_resetPulses (s : State) (f : Fan) (b : Bool) : (s.handStalled f b).resetPulses = s.resetPulses := by simp [State.handStalled]
@[simp] theorem State.handStalled_pending (s : State) (f : Fan) (b : Bool) : (s.handStalled f b).pending = s.pending := by simp [State.handStalled]
@[simp] theorem State.handStalled_cpi_address (s : State) (f : Fan) (b : Bool) : (s.handStalled f b).cpi.address = s.cpi.address := by simp [State.handStalled]
@[simp] theorem State.handStalled_cpi_load (s : State) (f : Fan) (b : Bool) : (s.handStalled f b).cpi.load = s.cpi.load := by simp [State.handStalled]
@[simp] theorem State.handStalled_cpi_port_slot (s : State) (f : Fan) (b : Bool) : (s.handStalled f b).cpi.port.slot = s.cpi.port.slot := by simp [State.handStalled]
@[simp] theorem State.handStalled_cpi_port_mask (s : State) (f : Fan) (b : Bool) : (s.handStalled f b).cpi.port.mask = s.cpi.port.mask := by simp [State.handStalled]
@[simp] theorem State.handStalled_cpi_port_lastWarp (s : State) (f : Fan) (b : Bool) : (s.handStalled f b).cpi.port.lastWarp = s.cpi.port.lastWarp := by simp [State.handStalled]
@[simp] theorem State.handStalled_cpi_port_crossing (s : State) (f : Fan) (b : Bool) : (s.handStalled f b).cpi.port.crossing = s.cpi.port.crossing := by simp [State.handStalled]
@[simp] theorem State.handStalled_fpi_attached (s : State) (f : Fan) (b : Bool) : (s.handStalled f b).fpi.attached = s.fpi.attached := by simp [State.handStalled]
@[simp] theorem State.handStalled_fpi_width (s : State) (f : Fan) (b : Bool) : (s.handStalled f b).fpi.width = s.fpi.width := by simp [State.handStalled]
@[simp] theorem State.handStalled_fpi_height (s : State) (f : Fan) (b : Bool) : (s.handStalled f b).fpi.height = s.fpi.height := by simp [State.handStalled]
@[simp] theorem State.handStalled_fpi_latched (s : State) (f : Fan) (b : Bool) : (s.handStalled f b).fpi.latched = s.fpi.latched := by simp [State.handStalled]
@[simp] theorem State.handStalled_fpi_port_slot (s : State) (f : Fan) (b : Bool) : (s.handStalled f b).fpi.port.slot = s.fpi.port.slot := by simp [State.handStalled]
@[simp] theorem State.handStalled_fpi_port_mask (s : State) (f : Fan) (b : Bool) : (s.handStalled f b).fpi.port.mask = s.fpi.port.mask := by simp [State.handStalled]
@[simp] theorem State.handStalled_fpi_port_lastWarp (s : State) (f : Fan) (b : Bool) : (s.handStalled f b).fpi.port.lastWarp = s.fpi.port.lastWarp := by simp [State.handStalled]
@[simp] theorem State.handStalled_fpi_port_crossing (s : State) (f : Fan) (b : Bool) : (s.handStalled f b).fpi.port.crossing = s.fpi.port.crossing := by simp [State.handStalled]
@[simp] theorem State.handStalled_fmon (s : State) (f : Fan) (b : Bool) : (s.handStalled f b).fmon = s.fmon := by simp [State.handStalled]

/-! ### A trip -/

@[simp] theorem State.declareTrip_now (s : State) (c : TripCause) (z : Source) : (s.declareTrip c z).now = s.now := by
  simp only [State.declareTrip]; split <;> simp
@[simp] theorem State.declareTrip_inReset (s : State) (c : TripCause) (z : Source) : (s.declareTrip c z).inReset = s.inReset := by
  simp only [State.declareTrip]; split <;> simp
@[simp] theorem State.declareTrip_resetPulses (s : State) (c : TripCause) (z : Source) : (s.declareTrip c z).resetPulses = s.resetPulses := by
  simp only [State.declareTrip]; split <;> simp
@[simp] theorem State.declareTrip_pending (s : State) (c : TripCause) (z : Source) : (s.declareTrip c z).pending = s.pending := by
  simp only [State.declareTrip]; split <;> simp
@[simp] theorem State.declareTrip_cpi_address (s : State) (c : TripCause) (z : Source) : (s.declareTrip c z).cpi.address = s.cpi.address := by
  simp only [State.declareTrip]; split <;> simp
@[simp] theorem State.declareTrip_cpi_load (s : State) (c : TripCause) (z : Source) : (s.declareTrip c z).cpi.load = s.cpi.load := by
  simp only [State.declareTrip]; split <;> simp
@[simp] theorem State.declareTrip_cpi_port_slot (s : State) (c : TripCause) (z : Source) : (s.declareTrip c z).cpi.port.slot = s.cpi.port.slot := by
  simp only [State.declareTrip]; split <;> simp
@[simp] theorem State.declareTrip_cpi_port_mask (s : State) (c : TripCause) (z : Source) : (s.declareTrip c z).cpi.port.mask = s.cpi.port.mask := by
  simp only [State.declareTrip]; split <;> simp
@[simp] theorem State.declareTrip_cpi_port_lastWarp (s : State) (c : TripCause) (z : Source) : (s.declareTrip c z).cpi.port.lastWarp = s.cpi.port.lastWarp := by
  simp only [State.declareTrip]; split <;> simp
@[simp] theorem State.declareTrip_cpi_port_crossing (s : State) (c : TripCause) (z : Source) : (s.declareTrip c z).cpi.port.crossing = s.cpi.port.crossing := by
  simp only [State.declareTrip]; split <;> simp
@[simp] theorem State.declareTrip_fpi_attached (s : State) (c : TripCause) (z : Source) : (s.declareTrip c z).fpi.attached = s.fpi.attached := by
  simp only [State.declareTrip]; split <;> simp
@[simp] theorem State.declareTrip_fpi_width (s : State) (c : TripCause) (z : Source) : (s.declareTrip c z).fpi.width = s.fpi.width := by
  simp only [State.declareTrip]; split <;> simp
@[simp] theorem State.declareTrip_fpi_height (s : State) (c : TripCause) (z : Source) : (s.declareTrip c z).fpi.height = s.fpi.height := by
  simp only [State.declareTrip]; split <;> simp
@[simp] theorem State.declareTrip_fpi_latched (s : State) (c : TripCause) (z : Source) : (s.declareTrip c z).fpi.latched = s.fpi.latched := by
  simp only [State.declareTrip]; split <;> simp
@[simp] theorem State.declareTrip_fpi_port_slot (s : State) (c : TripCause) (z : Source) : (s.declareTrip c z).fpi.port.slot = s.fpi.port.slot := by
  simp only [State.declareTrip]; split <;> simp
@[simp] theorem State.declareTrip_fpi_port_mask (s : State) (c : TripCause) (z : Source) : (s.declareTrip c z).fpi.port.mask = s.fpi.port.mask := by
  simp only [State.declareTrip]; split <;> simp
@[simp] theorem State.declareTrip_fpi_port_lastWarp (s : State) (c : TripCause) (z : Source) : (s.declareTrip c z).fpi.port.lastWarp = s.fpi.port.lastWarp := by
  simp only [State.declareTrip]; split <;> simp
@[simp] theorem State.declareTrip_fpi_port_crossing (s : State) (c : TripCause) (z : Source) : (s.declareTrip c z).fpi.port.crossing = s.fpi.port.crossing := by
  simp only [State.declareTrip]; split <;> simp
@[simp] theorem State.declareTrip_fmon (s : State) (c : TripCause) (z : Source) : (s.declareTrip c z).fmon = s.fmon := by
  simp only [State.declareTrip]; split <;> simp

/-! ### Stage 4 of an evaluation -/

@[simp] theorem State.checkAbsolute_now (s : State) : (s.checkAbsolute).now = s.now := by
  unfold State.checkAbsolute; split <;> simp
@[simp] theorem State.checkAbsolute_inReset (s : State) : (s.checkAbsolute).inReset = s.inReset := by
  unfold State.checkAbsolute; split <;> simp
@[simp] theorem State.checkAbsolute_resetPulses (s : State) : (s.checkAbsolute).resetPulses = s.resetPulses := by
  unfold State.checkAbsolute; split <;> simp
@[simp] theorem State.checkAbsolute_pending (s : State) : (s.checkAbsolute).pending = s.pending := by
  unfold State.checkAbsolute; split <;> simp
@[simp] theorem State.checkAbsolute_cpi_address (s : State) : (s.checkAbsolute).cpi.address = s.cpi.address := by
  unfold State.checkAbsolute; split <;> simp
@[simp] theorem State.checkAbsolute_cpi_load (s : State) : (s.checkAbsolute).cpi.load = s.cpi.load := by
  unfold State.checkAbsolute; split <;> simp
@[simp] theorem State.checkAbsolute_cpi_port_slot (s : State) : (s.checkAbsolute).cpi.port.slot = s.cpi.port.slot := by
  unfold State.checkAbsolute; split <;> simp
@[simp] theorem State.checkAbsolute_cpi_port_mask (s : State) : (s.checkAbsolute).cpi.port.mask = s.cpi.port.mask := by
  unfold State.checkAbsolute; split <;> simp
@[simp] theorem State.checkAbsolute_cpi_port_lastWarp (s : State) : (s.checkAbsolute).cpi.port.lastWarp = s.cpi.port.lastWarp := by
  unfold State.checkAbsolute; split <;> simp
@[simp] theorem State.checkAbsolute_cpi_port_crossing (s : State) : (s.checkAbsolute).cpi.port.crossing = s.cpi.port.crossing := by
  unfold State.checkAbsolute; split <;> simp
@[simp] theorem State.checkAbsolute_fpi_attached (s : State) : (s.checkAbsolute).fpi.attached = s.fpi.attached := by
  unfold State.checkAbsolute; split <;> simp
@[simp] theorem State.checkAbsolute_fpi_width (s : State) : (s.checkAbsolute).fpi.width = s.fpi.width := by
  unfold State.checkAbsolute; split <;> simp
@[simp] theorem State.checkAbsolute_fpi_height (s : State) : (s.checkAbsolute).fpi.height = s.fpi.height := by
  unfold State.checkAbsolute; split <;> simp
@[simp] theorem State.checkAbsolute_fpi_latched (s : State) : (s.checkAbsolute).fpi.latched = s.fpi.latched := by
  unfold State.checkAbsolute; split <;> simp
@[simp] theorem State.checkAbsolute_fpi_port_slot (s : State) : (s.checkAbsolute).fpi.port.slot = s.fpi.port.slot := by
  unfold State.checkAbsolute; split <;> simp
@[simp] theorem State.checkAbsolute_fpi_port_mask (s : State) : (s.checkAbsolute).fpi.port.mask = s.fpi.port.mask := by
  unfold State.checkAbsolute; split <;> simp
@[simp] theorem State.checkAbsolute_fpi_port_lastWarp (s : State) : (s.checkAbsolute).fpi.port.lastWarp = s.fpi.port.lastWarp := by
  unfold State.checkAbsolute; split <;> simp
@[simp] theorem State.checkAbsolute_fpi_port_crossing (s : State) : (s.checkAbsolute).fpi.port.crossing = s.fpi.port.crossing := by
  unfold State.checkAbsolute; split <;> simp
@[simp] theorem State.checkAbsolute_fmon (s : State) : (s.checkAbsolute).fmon = s.fmon := by
  unfold State.checkAbsolute; split <;> simp

/-! ### Stage 5 of an evaluation -/

@[simp] theorem State.countScan_now (s : State) : (s.countScan).now = s.now := rfl
@[simp] theorem State.countScan_inReset (s : State) : (s.countScan).inReset = s.inReset := rfl
@[simp] theorem State.countScan_resetPulses (s : State) : (s.countScan).resetPulses = s.resetPulses := rfl
@[simp] theorem State.countScan_pending (s : State) : (s.countScan).pending = s.pending := rfl
@[simp] theorem State.countScan_cpi (s : State) : (s.countScan).cpi = s.cpi := rfl
@[simp] theorem State.countScan_fpi (s : State) : (s.countScan).fpi = s.fpi := rfl
@[simp] theorem State.countScan_irm (s : State) : (s.countScan).irm = s.irm := rfl
@[simp] theorem State.countScan_lmc (s : State) : (s.countScan).lmc = s.lmc := rfl
@[simp] theorem State.countScan_ge (s : State) : (s.countScan).ge = s.ge := rfl
@[simp] theorem State.countScan_fmon (s : State) : (s.countScan).fmon = s.fmon := rfl
@[simp] theorem State.countScan_afc (s : State) : (s.countScan).afc = s.afc := rfl

/-! ### Stage 6 of an evaluation -/

@[simp] theorem State.handResults_now (s : State) : (s.handResults).now = s.now := by simp [State.handResults]
@[simp] theorem State.handResults_inReset (s : State) : (s.handResults).inReset = s.inReset := by simp [State.handResults]
@[simp] theorem State.handResults_resetPulses (s : State) : (s.handResults).resetPulses = s.resetPulses := by simp [State.handResults]
@[simp] theorem State.handResults_pending (s : State) : (s.handResults).pending = s.pending := by simp [State.handResults]
@[simp] theorem State.handResults_cpi_address (s : State) : (s.handResults).cpi.address = s.cpi.address := by simp [State.handResults]
@[simp] theorem State.handResults_cpi_load (s : State) : (s.handResults).cpi.load = s.cpi.load := by simp [State.handResults]
@[simp] theorem State.handResults_cpi_port_slot (s : State) : (s.handResults).cpi.port.slot = s.cpi.port.slot := by simp [State.handResults]
@[simp] theorem State.handResults_cpi_port_mask (s : State) : (s.handResults).cpi.port.mask = s.cpi.port.mask := by simp [State.handResults]
@[simp] theorem State.handResults_cpi_port_lastWarp (s : State) : (s.handResults).cpi.port.lastWarp = s.cpi.port.lastWarp := by simp [State.handResults]
@[simp] theorem State.handResults_cpi_port_crossing (s : State) : (s.handResults).cpi.port.crossing = s.cpi.port.crossing := by simp [State.handResults]
@[simp] theorem State.handResults_fpi_attached (s : State) : (s.handResults).fpi.attached = s.fpi.attached := by simp [State.handResults]
@[simp] theorem State.handResults_fpi_width (s : State) : (s.handResults).fpi.width = s.fpi.width := by simp [State.handResults]
@[simp] theorem State.handResults_fpi_height (s : State) : (s.handResults).fpi.height = s.fpi.height := by simp [State.handResults]
@[simp] theorem State.handResults_fpi_latched (s : State) : (s.handResults).fpi.latched = s.fpi.latched := by simp [State.handResults]
@[simp] theorem State.handResults_fpi_port_slot (s : State) : (s.handResults).fpi.port.slot = s.fpi.port.slot := by simp [State.handResults]
@[simp] theorem State.handResults_fpi_port_mask (s : State) : (s.handResults).fpi.port.mask = s.fpi.port.mask := by simp [State.handResults]
@[simp] theorem State.handResults_fpi_port_lastWarp (s : State) : (s.handResults).fpi.port.lastWarp = s.fpi.port.lastWarp := by simp [State.handResults]
@[simp] theorem State.handResults_fpi_port_crossing (s : State) : (s.handResults).fpi.port.crossing = s.fpi.port.crossing := by simp [State.handResults]
@[simp] theorem State.handResults_irm (s : State) : (s.handResults).irm = s.irm := by simp [State.handResults]
@[simp] theorem State.handResults_lmc (s : State) : (s.handResults).lmc = s.lmc := by simp [State.handResults]
@[simp] theorem State.handResults_ge (s : State) : (s.handResults).ge = s.ge := by simp [State.handResults]
@[simp] theorem State.handResults_fmon (s : State) : (s.handResults).fmon = s.fmon := by simp [State.handResults]
@[simp] theorem State.handResults_tmon (s : State) : (s.handResults).tmon = s.tmon := by simp [State.handResults]

/-! ### An evaluation -/

@[simp] theorem State.evaluate_now (s : State) (b : BusCondition) : (s.evaluate b).now = s.now := by simp [State.evaluate]
@[simp] theorem State.evaluate_inReset (s : State) (b : BusCondition) : (s.evaluate b).inReset = s.inReset := by simp [State.evaluate]
@[simp] theorem State.evaluate_resetPulses (s : State) (b : BusCondition) : (s.evaluate b).resetPulses = s.resetPulses := by simp [State.evaluate]
@[simp] theorem State.evaluate_pending (s : State) (b : BusCondition) : (s.evaluate b).pending = s.pending := by simp [State.evaluate]
@[simp] theorem State.evaluate_cpi_address (s : State) (b : BusCondition) : (s.evaluate b).cpi.address = s.cpi.address := by simp [State.evaluate]
@[simp] theorem State.evaluate_cpi_load (s : State) (b : BusCondition) : (s.evaluate b).cpi.load = s.cpi.load := by simp [State.evaluate]
@[simp] theorem State.evaluate_cpi_port_slot (s : State) (b : BusCondition) : (s.evaluate b).cpi.port.slot = s.cpi.port.slot := by simp [State.evaluate]
@[simp] theorem State.evaluate_cpi_port_mask (s : State) (b : BusCondition) : (s.evaluate b).cpi.port.mask = s.cpi.port.mask := by simp [State.evaluate]
@[simp] theorem State.evaluate_cpi_port_lastWarp (s : State) (b : BusCondition) : (s.evaluate b).cpi.port.lastWarp = s.cpi.port.lastWarp := by simp [State.evaluate]
@[simp] theorem State.evaluate_cpi_port_crossing (s : State) (b : BusCondition) : (s.evaluate b).cpi.port.crossing = s.cpi.port.crossing := by simp [State.evaluate]
@[simp] theorem State.evaluate_fpi_attached (s : State) (b : BusCondition) : (s.evaluate b).fpi.attached = s.fpi.attached := by simp [State.evaluate]
@[simp] theorem State.evaluate_fpi_width (s : State) (b : BusCondition) : (s.evaluate b).fpi.width = s.fpi.width := by simp [State.evaluate]
@[simp] theorem State.evaluate_fpi_height (s : State) (b : BusCondition) : (s.evaluate b).fpi.height = s.fpi.height := by simp [State.evaluate]
@[simp] theorem State.evaluate_fpi_latched (s : State) (b : BusCondition) : (s.evaluate b).fpi.latched = s.fpi.latched := by simp [State.evaluate]
@[simp] theorem State.evaluate_fpi_port_slot (s : State) (b : BusCondition) : (s.evaluate b).fpi.port.slot = s.fpi.port.slot := by simp [State.evaluate]
@[simp] theorem State.evaluate_fpi_port_mask (s : State) (b : BusCondition) : (s.evaluate b).fpi.port.mask = s.fpi.port.mask := by simp [State.evaluate]
@[simp] theorem State.evaluate_fpi_port_lastWarp (s : State) (b : BusCondition) : (s.evaluate b).fpi.port.lastWarp = s.fpi.port.lastWarp := by simp [State.evaluate]
@[simp] theorem State.evaluate_fpi_port_crossing (s : State) (b : BusCondition) : (s.evaluate b).fpi.port.crossing = s.fpi.port.crossing := by simp [State.evaluate]
@[simp] theorem State.evaluate_fmon (s : State) (b : BusCondition) : (s.evaluate b).fmon = s.fmon := by simp [State.evaluate]

/-! ### The next slot of a scan -/

@[simp] theorem State.nextSlot_now (s : State) (l : List Nat) (b : BusCondition) (x : BusSample) : (s.nextSlot l b x).now = s.now := by
  unfold State.nextSlot; split
  · simp
  · dsimp only; split <;> simp
@[simp] theorem State.nextSlot_inReset (s : State) (l : List Nat) (b : BusCondition) (x : BusSample) : (s.nextSlot l b x).inReset = s.inReset := by
  unfold State.nextSlot; split
  · simp
  · dsimp only; split <;> simp
@[simp] theorem State.nextSlot_resetPulses (s : State) (l : List Nat) (b : BusCondition) (x : BusSample) : (s.nextSlot l b x).resetPulses = s.resetPulses := by
  unfold State.nextSlot; split
  · simp
  · dsimp only; split <;> simp
@[simp] theorem State.nextSlot_pending (s : State) (l : List Nat) (b : BusCondition) (x : BusSample) : (s.nextSlot l b x).pending = s.pending := by
  unfold State.nextSlot; split
  · simp
  · dsimp only; split <;> simp
@[simp] theorem State.nextSlot_cpi_address (s : State) (l : List Nat) (b : BusCondition) (x : BusSample) : (s.nextSlot l b x).cpi.address = s.cpi.address := by
  unfold State.nextSlot; split
  · simp
  · dsimp only; split <;> simp
@[simp] theorem State.nextSlot_cpi_load (s : State) (l : List Nat) (b : BusCondition) (x : BusSample) : (s.nextSlot l b x).cpi.load = s.cpi.load := by
  unfold State.nextSlot; split
  · simp
  · dsimp only; split <;> simp
@[simp] theorem State.nextSlot_cpi_port_slot (s : State) (l : List Nat) (b : BusCondition) (x : BusSample) : (s.nextSlot l b x).cpi.port.slot = s.cpi.port.slot := by
  unfold State.nextSlot; split
  · simp
  · dsimp only; split <;> simp
@[simp] theorem State.nextSlot_cpi_port_mask (s : State) (l : List Nat) (b : BusCondition) (x : BusSample) : (s.nextSlot l b x).cpi.port.mask = s.cpi.port.mask := by
  unfold State.nextSlot; split
  · simp
  · dsimp only; split <;> simp
@[simp] theorem State.nextSlot_cpi_port_lastWarp (s : State) (l : List Nat) (b : BusCondition) (x : BusSample) : (s.nextSlot l b x).cpi.port.lastWarp = s.cpi.port.lastWarp := by
  unfold State.nextSlot; split
  · simp
  · dsimp only; split <;> simp
@[simp] theorem State.nextSlot_cpi_port_crossing (s : State) (l : List Nat) (b : BusCondition) (x : BusSample) : (s.nextSlot l b x).cpi.port.crossing = s.cpi.port.crossing := by
  unfold State.nextSlot; split
  · simp
  · dsimp only; split <;> simp
@[simp] theorem State.nextSlot_fpi_attached (s : State) (l : List Nat) (b : BusCondition) (x : BusSample) : (s.nextSlot l b x).fpi.attached = s.fpi.attached := by
  unfold State.nextSlot; split
  · simp
  · dsimp only; split <;> simp
@[simp] theorem State.nextSlot_fpi_width (s : State) (l : List Nat) (b : BusCondition) (x : BusSample) : (s.nextSlot l b x).fpi.width = s.fpi.width := by
  unfold State.nextSlot; split
  · simp
  · dsimp only; split <;> simp
@[simp] theorem State.nextSlot_fpi_height (s : State) (l : List Nat) (b : BusCondition) (x : BusSample) : (s.nextSlot l b x).fpi.height = s.fpi.height := by
  unfold State.nextSlot; split
  · simp
  · dsimp only; split <;> simp
@[simp] theorem State.nextSlot_fpi_latched (s : State) (l : List Nat) (b : BusCondition) (x : BusSample) : (s.nextSlot l b x).fpi.latched = s.fpi.latched := by
  unfold State.nextSlot; split
  · simp
  · dsimp only; split <;> simp
@[simp] theorem State.nextSlot_fpi_port_slot (s : State) (l : List Nat) (b : BusCondition) (x : BusSample) : (s.nextSlot l b x).fpi.port.slot = s.fpi.port.slot := by
  unfold State.nextSlot; split
  · simp
  · dsimp only; split <;> simp
@[simp] theorem State.nextSlot_fpi_port_mask (s : State) (l : List Nat) (b : BusCondition) (x : BusSample) : (s.nextSlot l b x).fpi.port.mask = s.fpi.port.mask := by
  unfold State.nextSlot; split
  · simp
  · dsimp only; split <;> simp
@[simp] theorem State.nextSlot_fpi_port_lastWarp (s : State) (l : List Nat) (b : BusCondition) (x : BusSample) : (s.nextSlot l b x).fpi.port.lastWarp = s.fpi.port.lastWarp := by
  unfold State.nextSlot; split
  · simp
  · dsimp only; split <;> simp
@[simp] theorem State.nextSlot_fpi_port_crossing (s : State) (l : List Nat) (b : BusCondition) (x : BusSample) : (s.nextSlot l b x).fpi.port.crossing = s.fpi.port.crossing := by
  unfold State.nextSlot; split
  · simp
  · dsimp only; split <;> simp
@[simp] theorem State.nextSlot_fmon (s : State) (l : List Nat) (b : BusCondition) (x : BusSample) : (s.nextSlot l b x).fmon = s.fmon := by
  unfold State.nextSlot; split
  · simp
  · dsimp only; split <;> simp

/-! ### A scan starts -/

@[simp] theorem State.startScan_now (s : State) (x : BusSample) : (s.startScan x).now = s.now := by simp [State.startScan]
@[simp] theorem State.startScan_inReset (s : State) (x : BusSample) : (s.startScan x).inReset = s.inReset := by simp [State.startScan]
@[simp] theorem State.startScan_resetPulses (s : State) (x : BusSample) : (s.startScan x).resetPulses = s.resetPulses := by simp [State.startScan]
@[simp] theorem State.startScan_pending (s : State) (x : BusSample) : (s.startScan x).pending = s.pending := by simp [State.startScan]
@[simp] theorem State.startScan_cpi_address (s : State) (x : BusSample) : (s.startScan x).cpi.address = s.cpi.address := by simp [State.startScan]
@[simp] theorem State.startScan_cpi_load (s : State) (x : BusSample) : (s.startScan x).cpi.load = s.cpi.load := by simp [State.startScan]
@[simp] theorem State.startScan_cpi_port_slot (s : State) (x : BusSample) : (s.startScan x).cpi.port.slot = s.cpi.port.slot := by simp [State.startScan]
@[simp] theorem State.startScan_cpi_port_mask (s : State) (x : BusSample) : (s.startScan x).cpi.port.mask = s.cpi.port.mask := by simp [State.startScan]
@[simp] theorem State.startScan_cpi_port_lastWarp (s : State) (x : BusSample) : (s.startScan x).cpi.port.lastWarp = s.cpi.port.lastWarp := by simp [State.startScan]
@[simp] theorem State.startScan_cpi_port_crossing (s : State) (x : BusSample) : (s.startScan x).cpi.port.crossing = s.cpi.port.crossing := by simp [State.startScan]
@[simp] theorem State.startScan_fpi_attached (s : State) (x : BusSample) : (s.startScan x).fpi.attached = s.fpi.attached := by simp [State.startScan]
@[simp] theorem State.startScan_fpi_width (s : State) (x : BusSample) : (s.startScan x).fpi.width = s.fpi.width := by simp [State.startScan]
@[simp] theorem State.startScan_fpi_height (s : State) (x : BusSample) : (s.startScan x).fpi.height = s.fpi.height := by simp [State.startScan]
@[simp] theorem State.startScan_fpi_latched (s : State) (x : BusSample) : (s.startScan x).fpi.latched = s.fpi.latched := by simp [State.startScan]
@[simp] theorem State.startScan_fpi_port_slot (s : State) (x : BusSample) : (s.startScan x).fpi.port.slot = s.fpi.port.slot := by simp [State.startScan]
@[simp] theorem State.startScan_fpi_port_mask (s : State) (x : BusSample) : (s.startScan x).fpi.port.mask = s.fpi.port.mask := by simp [State.startScan]
@[simp] theorem State.startScan_fpi_port_lastWarp (s : State) (x : BusSample) : (s.startScan x).fpi.port.lastWarp = s.fpi.port.lastWarp := by simp [State.startScan]
@[simp] theorem State.startScan_fpi_port_crossing (s : State) (x : BusSample) : (s.startScan x).fpi.port.crossing = s.fpi.port.crossing := by simp [State.startScan]
@[simp] theorem State.startScan_fmon (s : State) (x : BusSample) : (s.startScan x).fmon = s.fmon := by simp [State.startScan]

/-! ### A read finishes -/

@[simp] theorem State.finishSlot_now (s : State) (f : Int → Except ReadCause Int) (x : BusSample) : (s.finishSlot f x).now = s.now := by
  unfold State.finishSlot; split <;> simp
@[simp] theorem State.finishSlot_inReset (s : State) (f : Int → Except ReadCause Int) (x : BusSample) : (s.finishSlot f x).inReset = s.inReset := by
  unfold State.finishSlot; split <;> simp
@[simp] theorem State.finishSlot_resetPulses (s : State) (f : Int → Except ReadCause Int) (x : BusSample) : (s.finishSlot f x).resetPulses = s.resetPulses := by
  unfold State.finishSlot; split <;> simp
@[simp] theorem State.finishSlot_pending (s : State) (f : Int → Except ReadCause Int) (x : BusSample) : (s.finishSlot f x).pending = s.pending := by
  unfold State.finishSlot; split <;> simp
@[simp] theorem State.finishSlot_cpi_address (s : State) (f : Int → Except ReadCause Int) (x : BusSample) : (s.finishSlot f x).cpi.address = s.cpi.address := by
  unfold State.finishSlot; split <;> simp
@[simp] theorem State.finishSlot_cpi_load (s : State) (f : Int → Except ReadCause Int) (x : BusSample) : (s.finishSlot f x).cpi.load = s.cpi.load := by
  unfold State.finishSlot; split <;> simp
@[simp] theorem State.finishSlot_cpi_port_slot (s : State) (f : Int → Except ReadCause Int) (x : BusSample) : (s.finishSlot f x).cpi.port.slot = s.cpi.port.slot := by
  unfold State.finishSlot; split <;> simp
@[simp] theorem State.finishSlot_cpi_port_mask (s : State) (f : Int → Except ReadCause Int) (x : BusSample) : (s.finishSlot f x).cpi.port.mask = s.cpi.port.mask := by
  unfold State.finishSlot; split <;> simp
@[simp] theorem State.finishSlot_cpi_port_lastWarp (s : State) (f : Int → Except ReadCause Int) (x : BusSample) : (s.finishSlot f x).cpi.port.lastWarp = s.cpi.port.lastWarp := by
  unfold State.finishSlot; split <;> simp
@[simp] theorem State.finishSlot_cpi_port_crossing (s : State) (f : Int → Except ReadCause Int) (x : BusSample) : (s.finishSlot f x).cpi.port.crossing = s.cpi.port.crossing := by
  unfold State.finishSlot; split <;> simp
@[simp] theorem State.finishSlot_fpi_attached (s : State) (f : Int → Except ReadCause Int) (x : BusSample) : (s.finishSlot f x).fpi.attached = s.fpi.attached := by
  unfold State.finishSlot; split <;> simp
@[simp] theorem State.finishSlot_fpi_width (s : State) (f : Int → Except ReadCause Int) (x : BusSample) : (s.finishSlot f x).fpi.width = s.fpi.width := by
  unfold State.finishSlot; split <;> simp
@[simp] theorem State.finishSlot_fpi_height (s : State) (f : Int → Except ReadCause Int) (x : BusSample) : (s.finishSlot f x).fpi.height = s.fpi.height := by
  unfold State.finishSlot; split <;> simp
@[simp] theorem State.finishSlot_fpi_latched (s : State) (f : Int → Except ReadCause Int) (x : BusSample) : (s.finishSlot f x).fpi.latched = s.fpi.latched := by
  unfold State.finishSlot; split <;> simp
@[simp] theorem State.finishSlot_fpi_port_slot (s : State) (f : Int → Except ReadCause Int) (x : BusSample) : (s.finishSlot f x).fpi.port.slot = s.fpi.port.slot := by
  unfold State.finishSlot; split <;> simp
@[simp] theorem State.finishSlot_fpi_port_mask (s : State) (f : Int → Except ReadCause Int) (x : BusSample) : (s.finishSlot f x).fpi.port.mask = s.fpi.port.mask := by
  unfold State.finishSlot; split <;> simp
@[simp] theorem State.finishSlot_fpi_port_lastWarp (s : State) (f : Int → Except ReadCause Int) (x : BusSample) : (s.finishSlot f x).fpi.port.lastWarp = s.fpi.port.lastWarp := by
  unfold State.finishSlot; split <;> simp
@[simp] theorem State.finishSlot_fpi_port_crossing (s : State) (f : Int → Except ReadCause Int) (x : BusSample) : (s.finishSlot f x).fpi.port.crossing = s.fpi.port.crossing := by
  unfold State.finishSlot; split <;> simp
@[simp] theorem State.finishSlot_fmon (s : State) (f : Int → Except ReadCause Int) (x : BusSample) : (s.finishSlot f x).fmon = s.fmon := by
  unfold State.finishSlot; split <;> simp

/-! ### A fan record replaced -/

@[simp] theorem State.setFan_now (s : State) (f : Fan) (x : FanRecord) : (s.setFan f x).now = s.now := rfl
@[simp] theorem State.setFan_inReset (s : State) (f : Fan) (x : FanRecord) : (s.setFan f x).inReset = s.inReset := rfl
@[simp] theorem State.setFan_resetPulses (s : State) (f : Fan) (x : FanRecord) : (s.setFan f x).resetPulses = s.resetPulses := rfl
@[simp] theorem State.setFan_pending (s : State) (f : Fan) (x : FanRecord) : (s.setFan f x).pending = s.pending := rfl
@[simp] theorem State.setFan_cpi (s : State) (f : Fan) (x : FanRecord) : (s.setFan f x).cpi = s.cpi := rfl
@[simp] theorem State.setFan_fpi (s : State) (f : Fan) (x : FanRecord) : (s.setFan f x).fpi = s.fpi := rfl
@[simp] theorem State.setFan_irm (s : State) (f : Fan) (x : FanRecord) : (s.setFan f x).irm = s.irm := rfl
@[simp] theorem State.setFan_lmc (s : State) (f : Fan) (x : FanRecord) : (s.setFan f x).lmc = s.lmc := rfl
@[simp] theorem State.setFan_ge (s : State) (f : Fan) (x : FanRecord) : (s.setFan f x).ge = s.ge := rfl
@[simp] theorem State.setFan_fmon (s : State) (f : Fan) (x : FanRecord) : (s.setFan f x).fmon = s.fmon := rfl
@[simp] theorem State.setFan_tmon (s : State) (f : Fan) (x : FanRecord) : (s.setFan f x).tmon = s.tmon := rfl
@[simp] theorem State.setFan_lau (s : State) (f : Fan) (x : FanRecord) : (s.setFan f x).lau = s.lau := rfl

/-! ### A stall -/

@[simp] theorem State.stallFan_now (s : State) (f : Fan) : (s.stallFan f).now = s.now := by simp [State.stallFan]
@[simp] theorem State.stallFan_inReset (s : State) (f : Fan) : (s.stallFan f).inReset = s.inReset := by simp [State.stallFan]
@[simp] theorem State.stallFan_resetPulses (s : State) (f : Fan) : (s.stallFan f).resetPulses = s.resetPulses := by simp [State.stallFan]
@[simp] theorem State.stallFan_pending (s : State) (f : Fan) : (s.stallFan f).pending = s.pending := by simp [State.stallFan]
@[simp] theorem State.stallFan_cpi_address (s : State) (f : Fan) : (s.stallFan f).cpi.address = s.cpi.address := by simp [State.stallFan]
@[simp] theorem State.stallFan_cpi_load (s : State) (f : Fan) : (s.stallFan f).cpi.load = s.cpi.load := by simp [State.stallFan]
@[simp] theorem State.stallFan_cpi_port_slot (s : State) (f : Fan) : (s.stallFan f).cpi.port.slot = s.cpi.port.slot := by simp [State.stallFan]
@[simp] theorem State.stallFan_cpi_port_mask (s : State) (f : Fan) : (s.stallFan f).cpi.port.mask = s.cpi.port.mask := by simp [State.stallFan]
@[simp] theorem State.stallFan_cpi_port_lastWarp (s : State) (f : Fan) : (s.stallFan f).cpi.port.lastWarp = s.cpi.port.lastWarp := by simp [State.stallFan]
@[simp] theorem State.stallFan_cpi_port_crossing (s : State) (f : Fan) : (s.stallFan f).cpi.port.crossing = s.cpi.port.crossing := by simp [State.stallFan]
@[simp] theorem State.stallFan_fpi_attached (s : State) (f : Fan) : (s.stallFan f).fpi.attached = s.fpi.attached := by simp [State.stallFan]
@[simp] theorem State.stallFan_fpi_width (s : State) (f : Fan) : (s.stallFan f).fpi.width = s.fpi.width := by simp [State.stallFan]
@[simp] theorem State.stallFan_fpi_height (s : State) (f : Fan) : (s.stallFan f).fpi.height = s.fpi.height := by simp [State.stallFan]
@[simp] theorem State.stallFan_fpi_latched (s : State) (f : Fan) : (s.stallFan f).fpi.latched = s.fpi.latched := by simp [State.stallFan]
@[simp] theorem State.stallFan_fpi_port_slot (s : State) (f : Fan) : (s.stallFan f).fpi.port.slot = s.fpi.port.slot := by simp [State.stallFan]
@[simp] theorem State.stallFan_fpi_port_mask (s : State) (f : Fan) : (s.stallFan f).fpi.port.mask = s.fpi.port.mask := by simp [State.stallFan]
@[simp] theorem State.stallFan_fpi_port_lastWarp (s : State) (f : Fan) : (s.stallFan f).fpi.port.lastWarp = s.fpi.port.lastWarp := by simp [State.stallFan]
@[simp] theorem State.stallFan_fpi_port_crossing (s : State) (f : Fan) : (s.stallFan f).fpi.port.crossing = s.fpi.port.crossing := by simp [State.stallFan]
@[simp] theorem State.stallFan_fmon (s : State) (f : Fan) : (s.stallFan f).fmon = s.fmon := by simp [State.stallFan]

/-! ### A recovery -/

@[simp] theorem State.recoverFan_now (s : State) (f : Fan) (n : Nat) (x : FanRecord) : (s.recoverFan f n x).now = s.now := by simp [State.recoverFan]
@[simp] theorem State.recoverFan_inReset (s : State) (f : Fan) (n : Nat) (x : FanRecord) : (s.recoverFan f n x).inReset = s.inReset := by simp [State.recoverFan]
@[simp] theorem State.recoverFan_resetPulses (s : State) (f : Fan) (n : Nat) (x : FanRecord) : (s.recoverFan f n x).resetPulses = s.resetPulses := by simp [State.recoverFan]
@[simp] theorem State.recoverFan_pending (s : State) (f : Fan) (n : Nat) (x : FanRecord) : (s.recoverFan f n x).pending = s.pending := by simp [State.recoverFan]
@[simp] theorem State.recoverFan_cpi_address (s : State) (f : Fan) (n : Nat) (x : FanRecord) : (s.recoverFan f n x).cpi.address = s.cpi.address := by simp [State.recoverFan]
@[simp] theorem State.recoverFan_cpi_load (s : State) (f : Fan) (n : Nat) (x : FanRecord) : (s.recoverFan f n x).cpi.load = s.cpi.load := by simp [State.recoverFan]
@[simp] theorem State.recoverFan_cpi_port_slot (s : State) (f : Fan) (n : Nat) (x : FanRecord) : (s.recoverFan f n x).cpi.port.slot = s.cpi.port.slot := by simp [State.recoverFan]
@[simp] theorem State.recoverFan_cpi_port_mask (s : State) (f : Fan) (n : Nat) (x : FanRecord) : (s.recoverFan f n x).cpi.port.mask = s.cpi.port.mask := by simp [State.recoverFan]
@[simp] theorem State.recoverFan_cpi_port_lastWarp (s : State) (f : Fan) (n : Nat) (x : FanRecord) : (s.recoverFan f n x).cpi.port.lastWarp = s.cpi.port.lastWarp := by simp [State.recoverFan]
@[simp] theorem State.recoverFan_cpi_port_crossing (s : State) (f : Fan) (n : Nat) (x : FanRecord) : (s.recoverFan f n x).cpi.port.crossing = s.cpi.port.crossing := by simp [State.recoverFan]
@[simp] theorem State.recoverFan_fpi_attached (s : State) (f : Fan) (n : Nat) (x : FanRecord) : (s.recoverFan f n x).fpi.attached = s.fpi.attached := by simp [State.recoverFan]
@[simp] theorem State.recoverFan_fpi_width (s : State) (f : Fan) (n : Nat) (x : FanRecord) : (s.recoverFan f n x).fpi.width = s.fpi.width := by simp [State.recoverFan]
@[simp] theorem State.recoverFan_fpi_height (s : State) (f : Fan) (n : Nat) (x : FanRecord) : (s.recoverFan f n x).fpi.height = s.fpi.height := by simp [State.recoverFan]
@[simp] theorem State.recoverFan_fpi_latched (s : State) (f : Fan) (n : Nat) (x : FanRecord) : (s.recoverFan f n x).fpi.latched = s.fpi.latched := by simp [State.recoverFan]
@[simp] theorem State.recoverFan_fpi_port_slot (s : State) (f : Fan) (n : Nat) (x : FanRecord) : (s.recoverFan f n x).fpi.port.slot = s.fpi.port.slot := by simp [State.recoverFan]
@[simp] theorem State.recoverFan_fpi_port_mask (s : State) (f : Fan) (n : Nat) (x : FanRecord) : (s.recoverFan f n x).fpi.port.mask = s.fpi.port.mask := by simp [State.recoverFan]
@[simp] theorem State.recoverFan_fpi_port_lastWarp (s : State) (f : Fan) (n : Nat) (x : FanRecord) : (s.recoverFan f n x).fpi.port.lastWarp = s.fpi.port.lastWarp := by simp [State.recoverFan]
@[simp] theorem State.recoverFan_fpi_port_crossing (s : State) (f : Fan) (n : Nat) (x : FanRecord) : (s.recoverFan f n x).fpi.port.crossing = s.fpi.port.crossing := by simp [State.recoverFan]
@[simp] theorem State.recoverFan_fmon (s : State) (f : Fan) (n : Nat) (x : FanRecord) : (s.recoverFan f n x).fmon = s.fmon := by simp [State.recoverFan]

/-! ### The end of a lapse -/

@[simp] theorem State.endLapse_now (s : State) (c : FrameCause) : (s.endLapse c).now = s.now := by
  unfold State.endLapse; split <;> simp
@[simp] theorem State.endLapse_inReset (s : State) (c : FrameCause) : (s.endLapse c).inReset = s.inReset := by
  unfold State.endLapse; split <;> simp
@[simp] theorem State.endLapse_resetPulses (s : State) (c : FrameCause) : (s.endLapse c).resetPulses = s.resetPulses := by
  unfold State.endLapse; split <;> simp
@[simp] theorem State.endLapse_pending (s : State) (c : FrameCause) : (s.endLapse c).pending = s.pending := by
  unfold State.endLapse; split <;> simp
@[simp] theorem State.endLapse_cpi_address (s : State) (c : FrameCause) : (s.endLapse c).cpi.address = s.cpi.address := by
  unfold State.endLapse; split <;> simp
@[simp] theorem State.endLapse_cpi_load (s : State) (c : FrameCause) : (s.endLapse c).cpi.load = s.cpi.load := by
  unfold State.endLapse; split <;> simp
@[simp] theorem State.endLapse_cpi_port_slot (s : State) (c : FrameCause) : (s.endLapse c).cpi.port.slot = s.cpi.port.slot := by
  unfold State.endLapse; split <;> simp
@[simp] theorem State.endLapse_cpi_port_mask (s : State) (c : FrameCause) : (s.endLapse c).cpi.port.mask = s.cpi.port.mask := by
  unfold State.endLapse; split <;> simp
@[simp] theorem State.endLapse_cpi_port_lastWarp (s : State) (c : FrameCause) : (s.endLapse c).cpi.port.lastWarp = s.cpi.port.lastWarp := by
  unfold State.endLapse; split <;> simp
@[simp] theorem State.endLapse_cpi_port_crossing (s : State) (c : FrameCause) : (s.endLapse c).cpi.port.crossing = s.cpi.port.crossing := by
  unfold State.endLapse; split <;> simp
@[simp] theorem State.endLapse_fpi_attached (s : State) (c : FrameCause) : (s.endLapse c).fpi.attached = s.fpi.attached := by
  unfold State.endLapse; split <;> simp
@[simp] theorem State.endLapse_fpi_width (s : State) (c : FrameCause) : (s.endLapse c).fpi.width = s.fpi.width := by
  unfold State.endLapse; split <;> simp
@[simp] theorem State.endLapse_fpi_height (s : State) (c : FrameCause) : (s.endLapse c).fpi.height = s.fpi.height := by
  unfold State.endLapse; split <;> simp
@[simp] theorem State.endLapse_fpi_latched (s : State) (c : FrameCause) : (s.endLapse c).fpi.latched = s.fpi.latched := by
  unfold State.endLapse; split <;> simp
@[simp] theorem State.endLapse_fpi_port_slot (s : State) (c : FrameCause) : (s.endLapse c).fpi.port.slot = s.fpi.port.slot := by
  unfold State.endLapse; split <;> simp
@[simp] theorem State.endLapse_fpi_port_mask (s : State) (c : FrameCause) : (s.endLapse c).fpi.port.mask = s.fpi.port.mask := by
  unfold State.endLapse; split <;> simp
@[simp] theorem State.endLapse_fpi_port_lastWarp (s : State) (c : FrameCause) : (s.endLapse c).fpi.port.lastWarp = s.fpi.port.lastWarp := by
  unfold State.endLapse; split <;> simp
@[simp] theorem State.endLapse_fpi_port_crossing (s : State) (c : FrameCause) : (s.endLapse c).fpi.port.crossing = s.fpi.port.crossing := by
  unfold State.endLapse; split <;> simp
@[simp] theorem State.endLapse_irm (s : State) (c : FrameCause) : (s.endLapse c).irm = s.irm := by
  unfold State.endLapse; split <;> simp
@[simp] theorem State.endLapse_lmc (s : State) (c : FrameCause) : (s.endLapse c).lmc = s.lmc := by
  unfold State.endLapse; split <;> simp
@[simp] theorem State.endLapse_ge (s : State) (c : FrameCause) : (s.endLapse c).ge = s.ge := by
  unfold State.endLapse; split <;> simp
@[simp] theorem State.endLapse_fmon (s : State) (c : FrameCause) : (s.endLapse c).fmon = s.fmon := by
  unfold State.endLapse; split <;> simp
@[simp] theorem State.endLapse_tmon (s : State) (c : FrameCause) : (s.endLapse c).tmon = s.tmon := by
  unfold State.endLapse; split <;> simp
@[simp] theorem State.endLapse_afc (s : State) (c : FrameCause) : (s.endLapse c).afc = s.afc := by
  unfold State.endLapse; split <;> simp
@[simp] theorem State.endLapse_lau (s : State) (c : FrameCause) : (s.endLapse c).lau = s.lau := by
  unfold State.endLapse; split <;> simp

/-! ### The frame state handed to the LAU -/

@[simp] theorem State.handFrameState_now (s : State) : (s.handFrameState).now = s.now := rfl
@[simp] theorem State.handFrameState_inReset (s : State) : (s.handFrameState).inReset = s.inReset := rfl
@[simp] theorem State.handFrameState_resetPulses (s : State) : (s.handFrameState).resetPulses = s.resetPulses := rfl
@[simp] theorem State.handFrameState_pending (s : State) : (s.handFrameState).pending = s.pending := rfl
@[simp] theorem State.handFrameState_cpi (s : State) : (s.handFrameState).cpi = s.cpi := rfl
@[simp] theorem State.handFrameState_fpi (s : State) : (s.handFrameState).fpi = s.fpi := rfl
@[simp] theorem State.handFrameState_irm (s : State) : (s.handFrameState).irm = s.irm := rfl
@[simp] theorem State.handFrameState_lmc (s : State) : (s.handFrameState).lmc = s.lmc := rfl
@[simp] theorem State.handFrameState_ge (s : State) : (s.handFrameState).ge = s.ge := rfl
@[simp] theorem State.handFrameState_fmon (s : State) : (s.handFrameState).fmon = s.fmon := rfl
@[simp] theorem State.handFrameState_tmon (s : State) : (s.handFrameState).tmon = s.tmon := rfl
@[simp] theorem State.handFrameState_afc (s : State) : (s.handFrameState).afc = s.afc := rfl

end Sys2Proof.Machine
end

