-- ==== Sys2Proof/Laws/Frames.lean ====
section
/-! SUPPORT. What the operations of the frame side leave unchanged. -/

namespace Sys2Proof.Machine

/-! ### A publication -/

@[simp] theorem State.publish_now (s : State) (c : FrameCause) : (s.publish c).now = s.now := by simp [State.publish]
@[simp] theorem State.publish_inReset (s : State) (c : FrameCause) : (s.publish c).inReset = s.inReset := by simp [State.publish]
@[simp] theorem State.publish_resetPulses (s : State) (c : FrameCause) : (s.publish c).resetPulses = s.resetPulses := by simp [State.publish]
@[simp] theorem State.publish_pending (s : State) (c : FrameCause) : (s.publish c).pending = s.pending := by simp [State.publish]
@[simp] theorem State.publish_cpi (s : State) (c : FrameCause) : (s.publish c).cpi = s.cpi := by simp [State.publish, State.raise, PortState.place, routed, Event.kind]
@[simp] theorem State.publish_fpi_attached (s : State) (c : FrameCause) : (s.publish c).fpi.attached = s.fpi.attached := by simp [State.publish]
@[simp] theorem State.publish_fpi_width (s : State) (c : FrameCause) : (s.publish c).fpi.width = s.fpi.width := by simp [State.publish]
@[simp] theorem State.publish_fpi_height (s : State) (c : FrameCause) : (s.publish c).fpi.height = s.fpi.height := by simp [State.publish]
@[simp] theorem State.publish_fpi_latched (s : State) (c : FrameCause) : (s.publish c).fpi.latched = s.fpi.latched := by simp [State.publish]
@[simp] theorem State.publish_fpi_port_slot (s : State) (c : FrameCause) : (s.publish c).fpi.port.slot = s.fpi.port.slot := by simp [State.publish]
@[simp] theorem State.publish_fpi_port_mask (s : State) (c : FrameCause) : (s.publish c).fpi.port.mask = s.fpi.port.mask := by simp [State.publish]
@[simp] theorem State.publish_fpi_port_lastWarp (s : State) (c : FrameCause) : (s.publish c).fpi.port.lastWarp = s.fpi.port.lastWarp := by simp [State.publish]
@[simp] theorem State.publish_fpi_port_crossing (s : State) (c : FrameCause) : (s.publish c).fpi.port.crossing = s.fpi.port.crossing := by simp [State.publish]
@[simp] theorem State.publish_irm (s : State) (c : FrameCause) : (s.publish c).irm = s.irm := by simp [State.publish]
@[simp] theorem State.publish_lmc (s : State) (c : FrameCause) : (s.publish c).lmc = s.lmc := by simp [State.publish]
@[simp] theorem State.publish_fmon (s : State) (c : FrameCause) : (s.publish c).fmon = s.fmon := by simp [State.publish]
@[simp] theorem State.publish_tmon (s : State) (c : FrameCause) : (s.publish c).tmon = s.tmon := by simp [State.publish]
@[simp] theorem State.publish_afc (s : State) (c : FrameCause) : (s.publish c).afc = s.afc := by simp [State.publish]
@[simp] theorem State.publish_lau (s : State) (c : FrameCause) : (s.publish c).lau = s.lau := by simp [State.publish]

/-! ### The completion of a computation -/

@[simp] theorem State.completeComputation_now (s : State) (c : Computation) : (s.completeComputation c).now = s.now := by
  unfold State.completeComputation; dsimp only; split <;> split <;> simp
@[simp] theorem State.completeComputation_inReset (s : State) (c : Computation) : (s.completeComputation c).inReset = s.inReset := by
  unfold State.completeComputation; dsimp only; split <;> split <;> simp
@[simp] theorem State.completeComputation_resetPulses (s : State) (c : Computation) : (s.completeComputation c).resetPulses = s.resetPulses := by
  unfold State.completeComputation; dsimp only; split <;> split <;> simp
@[simp] theorem State.completeComputation_pending (s : State) (c : Computation) : (s.completeComputation c).pending = s.pending := by
  unfold State.completeComputation; dsimp only; split <;> split <;> simp
@[simp] theorem State.completeComputation_cpi (s : State) (c : Computation) : (s.completeComputation c).cpi = s.cpi := by
  unfold State.completeComputation; dsimp only; split <;> split <;> simp
@[simp] theorem State.completeComputation_fpi_attached (s : State) (c : Computation) : (s.completeComputation c).fpi.attached = s.fpi.attached := by
  unfold State.completeComputation; dsimp only; split <;> split <;> simp
@[simp] theorem State.completeComputation_fpi_width (s : State) (c : Computation) : (s.completeComputation c).fpi.width = s.fpi.width := by
  unfold State.completeComputation; dsimp only; split <;> split <;> simp
@[simp] theorem State.completeComputation_fpi_height (s : State) (c : Computation) : (s.completeComputation c).fpi.height = s.fpi.height := by
  unfold State.completeComputation; dsimp only; split <;> split <;> simp
@[simp] theorem State.completeComputation_fpi_latched (s : State) (c : Computation) : (s.completeComputation c).fpi.latched = s.fpi.latched := by
  unfold State.completeComputation; dsimp only; split <;> split <;> simp
@[simp] theorem State.completeComputation_fpi_port_slot (s : State) (c : Computation) : (s.completeComputation c).fpi.port.slot = s.fpi.port.slot := by
  unfold State.completeComputation; dsimp only; split <;> split <;> simp
@[simp] theorem State.completeComputation_fpi_port_mask (s : State) (c : Computation) : (s.completeComputation c).fpi.port.mask = s.fpi.port.mask := by
  unfold State.completeComputation; dsimp only; split <;> split <;> simp
@[simp] theorem State.completeComputation_fpi_port_lastWarp (s : State) (c : Computation) : (s.completeComputation c).fpi.port.lastWarp = s.fpi.port.lastWarp := by
  unfold State.completeComputation; dsimp only; split <;> split <;> simp
@[simp] theorem State.completeComputation_fpi_port_crossing (s : State) (c : Computation) : (s.completeComputation c).fpi.port.crossing = s.fpi.port.crossing := by
  unfold State.completeComputation; dsimp only; split <;> split <;> simp
@[simp] theorem State.completeComputation_irm (s : State) (c : Computation) : (s.completeComputation c).irm = s.irm := by
  unfold State.completeComputation; dsimp only; split <;> split <;> simp
@[simp] theorem State.completeComputation_lmc (s : State) (c : Computation) : (s.completeComputation c).lmc = s.lmc := by
  unfold State.completeComputation; dsimp only; split <;> split <;> simp
@[simp] theorem State.completeComputation_fmon (s : State) (c : Computation) : (s.completeComputation c).fmon = s.fmon := by
  unfold State.completeComputation; dsimp only; split <;> split <;> simp
@[simp] theorem State.completeComputation_tmon (s : State) (c : Computation) : (s.completeComputation c).tmon = s.tmon := by
  unfold State.completeComputation; dsimp only; split <;> split <;> simp
@[simp] theorem State.completeComputation_afc (s : State) (c : Computation) : (s.completeComputation c).afc = s.afc := by
  unfold State.completeComputation; dsimp only; split <;> split <;> simp
@[simp] theorem State.completeComputation_lau (s : State) (c : Computation) : (s.completeComputation c).lau = s.lau := by
  unfold State.completeComputation; dsimp only; split <;> split <;> simp

/-! ### A promotion at a frame mark -/

@[simp] theorem State.promote_now (s : State) : (s.promote).now = s.now := by
  unfold State.promote; split <;> simp
@[simp] theorem State.promote_inReset (s : State) : (s.promote).inReset = s.inReset := by
  unfold State.promote; split <;> simp
@[simp] theorem State.promote_resetPulses (s : State) : (s.promote).resetPulses = s.resetPulses := by
  unfold State.promote; split <;> simp
@[simp] theorem State.promote_pending (s : State) : (s.promote).pending = s.pending := by
  unfold State.promote; split <;> simp
@[simp] theorem State.promote_cpi (s : State) : (s.promote).cpi = s.cpi := by
  unfold State.promote; split <;> simp
@[simp] theorem State.promote_fpi_attached (s : State) : (s.promote).fpi.attached = s.fpi.attached := by
  unfold State.promote; split <;> simp
@[simp] theorem State.promote_fpi_width (s : State) : (s.promote).fpi.width = s.fpi.width := by
  unfold State.promote; split <;> simp
@[simp] theorem State.promote_fpi_height (s : State) : (s.promote).fpi.height = s.fpi.height := by
  unfold State.promote; split <;> simp
@[simp] theorem State.promote_fpi_latched (s : State) : (s.promote).fpi.latched = s.fpi.latched := by
  unfold State.promote; split <;> simp
@[simp] theorem State.promote_fpi_port_slot (s : State) : (s.promote).fpi.port.slot = s.fpi.port.slot := by
  unfold State.promote; split <;> simp
@[simp] theorem State.promote_fpi_port_mask (s : State) : (s.promote).fpi.port.mask = s.fpi.port.mask := by
  unfold State.promote; split <;> simp
@[simp] theorem State.promote_fpi_port_lastWarp (s : State) : (s.promote).fpi.port.lastWarp = s.fpi.port.lastWarp := by
  unfold State.promote; split <;> simp
@[simp] theorem State.promote_fpi_port_crossing (s : State) : (s.promote).fpi.port.crossing = s.fpi.port.crossing := by
  unfold State.promote; split <;> simp
@[simp] theorem State.promote_irm (s : State) : (s.promote).irm = s.irm := by
  unfold State.promote; split <;> simp
@[simp] theorem State.promote_lmc (s : State) : (s.promote).lmc = s.lmc := by
  unfold State.promote; split <;> simp
@[simp] theorem State.promote_fmon (s : State) : (s.promote).fmon = s.fmon := by
  unfold State.promote; split <;> simp
@[simp] theorem State.promote_tmon (s : State) : (s.promote).tmon = s.tmon := by
  unfold State.promote; split <;> simp
@[simp] theorem State.promote_afc (s : State) : (s.promote).afc = s.afc := by
  unfold State.promote; split <;> simp
@[simp] theorem State.promote_lau (s : State) : (s.promote).lau = s.lau := by
  unfold State.promote; split <;> simp

/-! ### Light requests dropped -/

@[simp] theorem State.dropRequests_now (s : State) : (s.dropRequests).now = s.now := rfl
@[simp] theorem State.dropRequests_inReset (s : State) : (s.dropRequests).inReset = s.inReset := rfl
@[simp] theorem State.dropRequests_resetPulses (s : State) : (s.dropRequests).resetPulses = s.resetPulses := rfl
@[simp] theorem State.dropRequests_pending (s : State) : (s.dropRequests).pending = s.pending := rfl
@[simp] theorem State.dropRequests_cpi (s : State) : (s.dropRequests).cpi = s.cpi := rfl
@[simp] theorem State.dropRequests_irm (s : State) : (s.dropRequests).irm = s.irm := rfl
@[simp] theorem State.dropRequests_lmc (s : State) : (s.dropRequests).lmc = s.lmc := rfl
@[simp] theorem State.dropRequests_ge (s : State) : (s.dropRequests).ge = s.ge := rfl
@[simp] theorem State.dropRequests_fmon (s : State) : (s.dropRequests).fmon = s.fmon := rfl
@[simp] theorem State.dropRequests_tmon (s : State) : (s.dropRequests).tmon = s.tmon := rfl
@[simp] theorem State.dropRequests_afc (s : State) : (s.dropRequests).afc = s.afc := rfl
@[simp] theorem State.dropRequests_fpi_attached (s : State) : s.dropRequests.fpi.attached = s.fpi.attached := rfl
@[simp] theorem State.dropRequests_fpi_width (s : State) : s.dropRequests.fpi.width = s.fpi.width := rfl
@[simp] theorem State.dropRequests_fpi_height (s : State) : s.dropRequests.fpi.height = s.fpi.height := rfl
@[simp] theorem State.dropRequests_fpi_port (s : State) : s.dropRequests.fpi.port = s.fpi.port := rfl

/-! ### A request applied at a frame mark -/

@[simp] theorem State.applyRequest_now (s : State) : (s.applyRequest).now = s.now := by
  unfold State.applyRequest; split <;> rfl
@[simp] theorem State.applyRequest_inReset (s : State) : (s.applyRequest).inReset = s.inReset := by
  unfold State.applyRequest; split <;> rfl
@[simp] theorem State.applyRequest_resetPulses (s : State) : (s.applyRequest).resetPulses = s.resetPulses := by
  unfold State.applyRequest; split <;> rfl
@[simp] theorem State.applyRequest_pending (s : State) : (s.applyRequest).pending = s.pending := by
  unfold State.applyRequest; split <;> rfl
@[simp] theorem State.applyRequest_cpi (s : State) : (s.applyRequest).cpi = s.cpi := by
  unfold State.applyRequest; split <;> rfl
@[simp] theorem State.applyRequest_irm (s : State) : (s.applyRequest).irm = s.irm := by
  unfold State.applyRequest; split <;> rfl
@[simp] theorem State.applyRequest_lmc (s : State) : (s.applyRequest).lmc = s.lmc := by
  unfold State.applyRequest; split <;> rfl
@[simp] theorem State.applyRequest_ge (s : State) : (s.applyRequest).ge = s.ge := by
  unfold State.applyRequest; split <;> rfl
@[simp] theorem State.applyRequest_fmon (s : State) : (s.applyRequest).fmon = s.fmon := by
  unfold State.applyRequest; split <;> rfl
@[simp] theorem State.applyRequest_tmon (s : State) : (s.applyRequest).tmon = s.tmon := by
  unfold State.applyRequest; split <;> rfl
@[simp] theorem State.applyRequest_afc (s : State) : (s.applyRequest).afc = s.afc := by
  unfold State.applyRequest; split <;> rfl
@[simp] theorem State.applyRequest_fpi_attached (s : State) : s.applyRequest.fpi.attached = s.fpi.attached := by
  unfold State.applyRequest; split <;> rfl
@[simp] theorem State.applyRequest_fpi_width (s : State) : s.applyRequest.fpi.width = s.fpi.width := by
  unfold State.applyRequest; split <;> rfl
@[simp] theorem State.applyRequest_fpi_height (s : State) : s.applyRequest.fpi.height = s.fpi.height := by
  unfold State.applyRequest; split <;> rfl
@[simp] theorem State.applyRequest_fpi_port (s : State) : s.applyRequest.fpi.port = s.fpi.port := by
  unfold State.applyRequest; split <;> rfl

/-! ### The FMON at a frame mark -/

@[simp] theorem State.markFrame_now (s : State) : (s.markFrame).now = s.now := by
  unfold State.markFrame; dsimp only; split <;> simp
@[simp] theorem State.markFrame_inReset (s : State) : (s.markFrame).inReset = s.inReset := by
  unfold State.markFrame; dsimp only; split <;> simp
@[simp] theorem State.markFrame_resetPulses (s : State) : (s.markFrame).resetPulses = s.resetPulses := by
  unfold State.markFrame; dsimp only; split <;> simp
@[simp] theorem State.markFrame_pending (s : State) : (s.markFrame).pending = s.pending := by
  unfold State.markFrame; dsimp only; split <;> simp
@[simp] theorem State.markFrame_cpi_address (s : State) : (s.markFrame).cpi.address = s.cpi.address := by
  unfold State.markFrame; dsimp only; split <;> simp
@[simp] theorem State.markFrame_cpi_load (s : State) : (s.markFrame).cpi.load = s.cpi.load := by
  unfold State.markFrame; dsimp only; split <;> simp
@[simp] theorem State.markFrame_cpi_port_slot (s : State) : (s.markFrame).cpi.port.slot = s.cpi.port.slot := by
  unfold State.markFrame; dsimp only; split <;> simp
@[simp] theorem State.markFrame_cpi_port_mask (s : State) : (s.markFrame).cpi.port.mask = s.cpi.port.mask := by
  unfold State.markFrame; dsimp only; split <;> simp
@[simp] theorem State.markFrame_cpi_port_lastWarp (s : State) : (s.markFrame).cpi.port.lastWarp = s.cpi.port.lastWarp := by
  unfold State.markFrame; dsimp only; split <;> simp
@[simp] theorem State.markFrame_cpi_port_crossing (s : State) : (s.markFrame).cpi.port.crossing = s.cpi.port.crossing := by
  unfold State.markFrame; dsimp only; split <;> simp
@[simp] theorem State.markFrame_fpi_attached (s : State) : (s.markFrame).fpi.attached = s.fpi.attached := by
  unfold State.markFrame; dsimp only; split <;> simp
@[simp] theorem State.markFrame_fpi_width (s : State) : (s.markFrame).fpi.width = s.fpi.width := by
  unfold State.markFrame; dsimp only; split <;> simp
@[simp] theorem State.markFrame_fpi_height (s : State) : (s.markFrame).fpi.height = s.fpi.height := by
  unfold State.markFrame; dsimp only; split <;> simp
@[simp] theorem State.markFrame_fpi_latched (s : State) : (s.markFrame).fpi.latched = s.fpi.latched := by
  unfold State.markFrame; dsimp only; split <;> simp
@[simp] theorem State.markFrame_fpi_port_slot (s : State) : (s.markFrame).fpi.port.slot = s.fpi.port.slot := by
  unfold State.markFrame; dsimp only; split <;> simp
@[simp] theorem State.markFrame_fpi_port_mask (s : State) : (s.markFrame).fpi.port.mask = s.fpi.port.mask := by
  unfold State.markFrame; dsimp only; split <;> simp
@[simp] theorem State.markFrame_fpi_port_lastWarp (s : State) : (s.markFrame).fpi.port.lastWarp = s.fpi.port.lastWarp := by
  unfold State.markFrame; dsimp only; split <;> simp
@[simp] theorem State.markFrame_fpi_port_crossing (s : State) : (s.markFrame).fpi.port.crossing = s.fpi.port.crossing := by
  unfold State.markFrame; dsimp only; split <;> simp
@[simp] theorem State.markFrame_irm (s : State) : (s.markFrame).irm = s.irm := by
  unfold State.markFrame; dsimp only; split <;> simp
@[simp] theorem State.markFrame_lmc (s : State) : (s.markFrame).lmc = s.lmc := by
  unfold State.markFrame; dsimp only; split <;> simp
@[simp] theorem State.markFrame_ge (s : State) : (s.markFrame).ge = s.ge := by
  unfold State.markFrame; dsimp only; split <;> simp
@[simp] theorem State.markFrame_tmon (s : State) : (s.markFrame).tmon = s.tmon := by
  unfold State.markFrame; dsimp only; split <;> simp
@[simp] theorem State.markFrame_afc (s : State) : (s.markFrame).afc = s.afc := by
  unfold State.markFrame; dsimp only; split <;> simp

end Sys2Proof.Machine
end

