-- ==== Sys2Proof/Laws/Light.lean ====
section
/-! SUPPORT. What the operations of the LAU's own record leave unchanged, and what they can do to the drive. -/

namespace Sys2Proof.Machine

/-! ### What an operation of the LAU leaves unchanged -/

@[simp] theorem Lau.followTarget_session (now : Nat) (l : Lau) : (l.followTarget now).session = l.session := by
  unfold Lau.followTarget; split <;> [rfl; (split <;> rfl)]
@[simp] theorem Lau.followTarget_mode (now : Nat) (l : Lau) : (l.followTarget now).mode = l.mode := by
  unfold Lau.followTarget; split <;> [rfl; (split <;> rfl)]
@[simp] theorem Lau.followTarget_fault (now : Nat) (l : Lau) : (l.followTarget now).fault = l.fault := by
  unfold Lau.followTarget; split <;> [rfl; (split <;> rfl)]
@[simp] theorem Lau.followTarget_ignition (now : Nat) (l : Lau) : (l.followTarget now).ignition = l.ignition := by
  unfold Lau.followTarget; split <;> [rfl; (split <;> rfl)]
@[simp] theorem Lau.followTarget_ignitionStart (now : Nat) (l : Lau) : (l.followTarget now).ignitionStart = l.ignitionStart := by
  unfold Lau.followTarget; split <;> [rfl; (split <;> rfl)]
@[simp] theorem Lau.followTarget_coolMin (now : Nat) (l : Lau) : (l.followTarget now).coolMin = l.coolMin := by
  unfold Lau.followTarget; split <;> [rfl; (split <;> rfl)]
@[simp] theorem Lau.followTarget_coolMax (now : Nat) (l : Lau) : (l.followTarget now).coolMax = l.coolMax := by
  unfold Lau.followTarget; split <;> [rfl; (split <;> rfl)]
@[simp] theorem Lau.followTarget_applied (now : Nat) (l : Lau) : (l.followTarget now).applied = l.applied := by
  unfold Lau.followTarget; split <;> [rfl; (split <;> rfl)]
@[simp] theorem Lau.followTarget_components (now : Nat) (l : Lau) : (l.followTarget now).components = l.components := by
  unfold Lau.followTarget; split <;> [rfl; (split <;> rfl)]
@[simp] theorem Lau.followTarget_allowance (now : Nat) (l : Lau) : (l.followTarget now).allowance = l.allowance := by
  unfold Lau.followTarget; split <;> [rfl; (split <;> rfl)]
@[simp] theorem Lau.followTarget_held (now : Nat) (l : Lau) : (l.followTarget now).held = l.held := by
  unfold Lau.followTarget; split <;> [rfl; (split <;> rfl)]
@[simp] theorem Lau.followTarget_params (now : Nat) (l : Lau) : (l.followTarget now).params = l.params := by
  unfold Lau.followTarget; split <;> [rfl; (split <;> rfl)]
@[simp] theorem Lau.followTarget_lightOk (now : Nat) (l : Lau) : (l.followTarget now).lightOk = l.lightOk := by
  unfold Lau.followTarget; split <;> [rfl; (split <;> rfl)]
@[simp] theorem Lau.followTarget_lightFlt (now : Nat) (l : Lau) : (l.followTarget now).lightFlt = l.lightFlt := by
  unfold Lau.followTarget; split <;> [rfl; (split <;> rfl)]
@[simp] theorem Lau.form_session (now : Nat) (l : Lau) : (l.form now).session = l.session := by simp [Lau.form]
@[simp] theorem Lau.form_mode (now : Nat) (l : Lau) : (l.form now).mode = l.mode := by simp [Lau.form]
@[simp] theorem Lau.form_fault (now : Nat) (l : Lau) : (l.form now).fault = l.fault := by simp [Lau.form]
@[simp] theorem Lau.form_ignition (now : Nat) (l : Lau) : (l.form now).ignition = l.ignition := by simp [Lau.form]
@[simp] theorem Lau.form_ignitionStart (now : Nat) (l : Lau) : (l.form now).ignitionStart = l.ignitionStart := by simp [Lau.form]
@[simp] theorem Lau.form_coolMin (now : Nat) (l : Lau) : (l.form now).coolMin = l.coolMin := by simp [Lau.form]
@[simp] theorem Lau.form_coolMax (now : Nat) (l : Lau) : (l.form now).coolMax = l.coolMax := by simp [Lau.form]
@[simp] theorem Lau.form_applied (now : Nat) (l : Lau) : (l.form now).applied = l.applied := by simp [Lau.form]
@[simp] theorem Lau.form_held (now : Nat) (l : Lau) : (l.form now).held = l.held := by simp [Lau.form]
@[simp] theorem Lau.form_params (now : Nat) (l : Lau) : (l.form now).params = l.params := by simp [Lau.form]
@[simp] theorem Lau.form_lightOk (now : Nat) (l : Lau) : (l.form now).lightOk = l.lightOk := by simp [Lau.form]
@[simp] theorem Lau.form_lightFlt (now : Nat) (l : Lau) : (l.form now).lightFlt = l.lightFlt := by simp [Lau.form]
@[simp] theorem Lau.slewStep_session (now : Nat) (l : Lau) : (l.slewStep now).session = l.session := by
  unfold Lau.slewStep; split <;> rfl
@[simp] theorem Lau.slewStep_mode (now : Nat) (l : Lau) : (l.slewStep now).mode = l.mode := by
  unfold Lau.slewStep; split <;> rfl
@[simp] theorem Lau.slewStep_fault (now : Nat) (l : Lau) : (l.slewStep now).fault = l.fault := by
  unfold Lau.slewStep; split <;> rfl
@[simp] theorem Lau.slewStep_ignition (now : Nat) (l : Lau) : (l.slewStep now).ignition = l.ignition := by
  unfold Lau.slewStep; split <;> rfl
@[simp] theorem Lau.slewStep_ignitionStart (now : Nat) (l : Lau) : (l.slewStep now).ignitionStart = l.ignitionStart := by
  unfold Lau.slewStep; split <;> rfl
@[simp] theorem Lau.slewStep_coolMin (now : Nat) (l : Lau) : (l.slewStep now).coolMin = l.coolMin := by
  unfold Lau.slewStep; split <;> rfl
@[simp] theorem Lau.slewStep_coolMax (now : Nat) (l : Lau) : (l.slewStep now).coolMax = l.coolMax := by
  unfold Lau.slewStep; split <;> rfl
@[simp] theorem Lau.slewStep_applied (now : Nat) (l : Lau) : (l.slewStep now).applied = l.applied := by
  unfold Lau.slewStep; split <;> rfl
@[simp] theorem Lau.slewStep_components (now : Nat) (l : Lau) : (l.slewStep now).components = l.components := by
  unfold Lau.slewStep; split <;> rfl
@[simp] theorem Lau.slewStep_allowance (now : Nat) (l : Lau) : (l.slewStep now).allowance = l.allowance := by
  unfold Lau.slewStep; split <;> rfl
@[simp] theorem Lau.slewStep_held (now : Nat) (l : Lau) : (l.slewStep now).held = l.held := by
  unfold Lau.slewStep; split <;> rfl
@[simp] theorem Lau.slewStep_params (now : Nat) (l : Lau) : (l.slewStep now).params = l.params := by
  unfold Lau.slewStep; split <;> rfl
@[simp] theorem Lau.slewStep_lightOk (now : Nat) (l : Lau) : (l.slewStep now).lightOk = l.lightOk := by
  unfold Lau.slewStep; split <;> rfl
@[simp] theorem Lau.slewStep_lightFlt (now : Nat) (l : Lau) : (l.slewStep now).lightFlt = l.lightFlt := by
  unfold Lau.slewStep; split <;> rfl
@[simp] theorem Lau.switch_mode (now : Nat) (l : Lau) (x : Session) : (l.switch now x).mode = l.mode := by cases x <;> rfl
@[simp] theorem Lau.switch_fault (now : Nat) (l : Lau) (x : Session) : (l.switch now x).fault = l.fault := by cases x <;> rfl
@[simp] theorem Lau.switch_applied (now : Nat) (l : Lau) (x : Session) : (l.switch now x).applied = l.applied := by cases x <;> rfl
@[simp] theorem Lau.switch_components (now : Nat) (l : Lau) (x : Session) : (l.switch now x).components = l.components := by cases x <;> rfl
@[simp] theorem Lau.switch_allowance (now : Nat) (l : Lau) (x : Session) : (l.switch now x).allowance = l.allowance := by cases x <;> rfl
@[simp] theorem Lau.switch_held (now : Nat) (l : Lau) (x : Session) : (l.switch now x).held = l.held := by cases x <;> rfl
@[simp] theorem Lau.switch_params (now : Nat) (l : Lau) (x : Session) : (l.switch now x).params = l.params := by cases x <;> rfl
@[simp] theorem Lau.switch_lightOk (now : Nat) (l : Lau) (x : Session) : (l.switch now x).lightOk = l.lightOk := by cases x <;> rfl
@[simp] theorem Lau.switch_lightFlt (now : Nat) (l : Lau) (x : Session) : (l.switch now x).lightFlt = l.lightFlt := by cases x <;> rfl
@[simp] theorem Lau.switch_session (now : Nat) (l : Lau) (x : Session) : (l.switch now x).session = x := by cases x <;> rfl

/-! ### The drive follows the target (R159, R160) -/

/-- The drive never rises when a target is formed. -/
theorem Lau.followTarget_drive_le (now : Nat) (l : Lau) : (l.followTarget now).drive ≤ l.drive := by
  unfold Lau.followTarget; split <;> [simp; (split <;> simp_all)]
/-- The drive that follows a target is at most the target, unless it lay below it. -/
theorem Lau.followTarget_drive_of_target {now t : Nat} {l : Lau} (h : l.target = some t) :
    (l.followTarget now).drive = min t l.drive := by
  unfold Lau.followTarget; rw [h]; dsimp only; split <;> simp_all; omega
theorem Lau.followTarget_drive_of_none {now : Nat} {l : Lau} (h : l.target = none) : (l.followTarget now).drive = 0 := by
  simp [Lau.followTarget, h]
theorem Lau.form_components (now : Nat) (l : Lau) : (l.form now).components = l.formComponents := by simp [Lau.form]
theorem Lau.form_allowance (now : Nat) (l : Lau) : (l.form now).allowance = l.formComponents.least l.params := by
  simp [Lau.form]
/-- The least of the components is at most the mode's ceiling (R152). -/
theorem Components.least_le_modeCeiling (c : Components) (p : LauParams) : c.least p ≤ c.modeCeiling := by
  unfold Components.least; omega

/-! ### The drive and the allowance as R152 and R159 say them -/

theorem Lau.followTarget_eq_driven (now : Nat) (l : Lau) : l.followTarget now = l.driven now := by
  unfold Lau.followTarget Lau.target Lau.request Lau.driven
  cases l.session.lightEn <;> simp [Config.slewTime]

theorem Lau.form_eq_formed (now : Nat) (l : Lau) : l.form now = l.formed now := Lau.followTarget_eq_driven _ _

end Sys2Proof.Machine
end

