-- ==== Sys2Proof/Laws/Motion.lean ====
section
/-! SUPPORT. What the small operations of one axis leave unchanged, and what they can do to its count. -/

namespace Sys2Proof.Machine

/-! ### What an operation of one axis leaves unchanged -/

@[simp] theorem AxisState.clearFlags_params (x : AxisState) : (x.clearFlags).params = x.params := rfl
@[simp] theorem AxisState.clearFlags_motion (x : AxisState) : (x.clearFlags).motion = x.motion := rfl
@[simp] theorem AxisState.clearFlags_trust (x : AxisState) : (x.clearFlags).trust = x.trust := rfl
@[simp] theorem AxisState.clearFlags_position (x : AxisState) : (x.clearFlags).position = x.position := rfl
@[simp] theorem AxisState.clearFlags_index (x : AxisState) : (x.clearFlags).index = x.index := rfl
@[simp] theorem AxisState.clearFlags_queue (x : AxisState) : (x.clearFlags).queue = x.queue := rfl
@[simp] theorem AxisState.clearFlags_pendingHome (x : AxisState) : (x.clearFlags).pendingHome = x.pendingHome := rfl
@[simp] theorem AxisState.clearFlags_phase (x : AxisState) : (x.clearFlags).phase = x.phase := rfl
@[simp] theorem AxisState.clearFlags_stepTimer (x : AxisState) : (x.clearFlags).stepTimer = x.stepTimer := rfl
@[simp] theorem AxisState.clearFlags_holdTimer (x : AxisState) : (x.clearFlags).holdTimer = x.holdTimer := rfl
@[simp] theorem AxisState.clearFlags_lastStepAt (x : AxisState) : (x.clearFlags).lastStepAt = x.lastStepAt := rfl
@[simp] theorem AxisState.clearFlags_endLo (x : AxisState) : (x.clearFlags).endLo = x.endLo := rfl
@[simp] theorem AxisState.clearFlags_endHi (x : AxisState) : (x.clearFlags).endHi = x.endHi := rfl
@[simp] theorem AxisState.clearFlags_drvFlt (x : AxisState) : (x.clearFlags).drvFlt = x.drvFlt := rfl
@[simp] theorem AxisState.clearFlags_refMk (x : AxisState) : (x.clearFlags).refMk = x.refMk := rfl
@[simp] theorem AxisState.clearFlags_freeCount (x : AxisState) : (x.clearFlags).freeCount = x.freeCount := rfl
@[simp] theorem AxisState.enterRun_params (x : AxisState) : (x.enterRun).params = x.params := rfl
@[simp] theorem AxisState.enterRun_motion (x : AxisState) : (x.enterRun).motion = x.motion := rfl
@[simp] theorem AxisState.enterRun_trust (x : AxisState) : (x.enterRun).trust = x.trust := rfl
@[simp] theorem AxisState.enterRun_position (x : AxisState) : (x.enterRun).position = x.position := rfl
@[simp] theorem AxisState.enterRun_index (x : AxisState) : (x.enterRun).index = x.index := rfl
@[simp] theorem AxisState.enterRun_queue (x : AxisState) : (x.enterRun).queue = x.queue := rfl
@[simp] theorem AxisState.enterRun_pendingHome (x : AxisState) : (x.enterRun).pendingHome = x.pendingHome := rfl
@[simp] theorem AxisState.enterRun_stepTimer (x : AxisState) : (x.enterRun).stepTimer = x.stepTimer := rfl
@[simp] theorem AxisState.enterRun_lastStepAt (x : AxisState) : (x.enterRun).lastStepAt = x.lastStepAt := rfl
@[simp] theorem AxisState.enterRun_flagLo (x : AxisState) : (x.enterRun).flagLo = x.flagLo := rfl
@[simp] theorem AxisState.enterRun_flagHi (x : AxisState) : (x.enterRun).flagHi = x.flagHi := rfl
@[simp] theorem AxisState.enterRun_endLo (x : AxisState) : (x.enterRun).endLo = x.endLo := rfl
@[simp] theorem AxisState.enterRun_endHi (x : AxisState) : (x.enterRun).endHi = x.endHi := rfl
@[simp] theorem AxisState.enterRun_drvFlt (x : AxisState) : (x.enterRun).drvFlt = x.drvFlt := rfl
@[simp] theorem AxisState.enterRun_refMk (x : AxisState) : (x.enterRun).refMk = x.refMk := rfl
@[simp] theorem AxisState.enterRun_freeCount (x : AxisState) : (x.enterRun).freeCount = x.freeCount := rfl
@[simp] theorem AxisState.loadTimer_params (env : AxisEnv) (x : AxisState) (n : Nat) : (x.loadTimer env n).params = x.params := rfl
@[simp] theorem AxisState.loadTimer_motion (env : AxisEnv) (x : AxisState) (n : Nat) : (x.loadTimer env n).motion = x.motion := rfl
@[simp] theorem AxisState.loadTimer_trust (env : AxisEnv) (x : AxisState) (n : Nat) : (x.loadTimer env n).trust = x.trust := rfl
@[simp] theorem AxisState.loadTimer_position (env : AxisEnv) (x : AxisState) (n : Nat) : (x.loadTimer env n).position = x.position := rfl
@[simp] theorem AxisState.loadTimer_index (env : AxisEnv) (x : AxisState) (n : Nat) : (x.loadTimer env n).index = x.index := rfl
@[simp] theorem AxisState.loadTimer_queue (env : AxisEnv) (x : AxisState) (n : Nat) : (x.loadTimer env n).queue = x.queue := rfl
@[simp] theorem AxisState.loadTimer_pendingHome (env : AxisEnv) (x : AxisState) (n : Nat) : (x.loadTimer env n).pendingHome = x.pendingHome := rfl
@[simp] theorem AxisState.loadTimer_phase (env : AxisEnv) (x : AxisState) (n : Nat) : (x.loadTimer env n).phase = x.phase := rfl
@[simp] theorem AxisState.loadTimer_holdTimer (env : AxisEnv) (x : AxisState) (n : Nat) : (x.loadTimer env n).holdTimer = x.holdTimer := rfl
@[simp] theorem AxisState.loadTimer_flagLo (env : AxisEnv) (x : AxisState) (n : Nat) : (x.loadTimer env n).flagLo = x.flagLo := rfl
@[simp] theorem AxisState.loadTimer_flagHi (env : AxisEnv) (x : AxisState) (n : Nat) : (x.loadTimer env n).flagHi = x.flagHi := rfl
@[simp] theorem AxisState.loadTimer_endLo (env : AxisEnv) (x : AxisState) (n : Nat) : (x.loadTimer env n).endLo = x.endLo := rfl
@[simp] theorem AxisState.loadTimer_endHi (env : AxisEnv) (x : AxisState) (n : Nat) : (x.loadTimer env n).endHi = x.endHi := rfl
@[simp] theorem AxisState.loadTimer_drvFlt (env : AxisEnv) (x : AxisState) (n : Nat) : (x.loadTimer env n).drvFlt = x.drvFlt := rfl
@[simp] theorem AxisState.loadTimer_refMk (env : AxisEnv) (x : AxisState) (n : Nat) : (x.loadTimer env n).refMk = x.refMk := rfl
@[simp] theorem AxisState.loadTimer_freeCount (env : AxisEnv) (x : AxisState) (n : Nat) : (x.loadTimer env n).freeCount = x.freeCount := rfl
@[simp] theorem AxisState.enterHold_params (env : AxisEnv) (x : AxisState) : (x.enterHold env).params = x.params := by
  unfold AxisState.enterHold; split <;> rfl
@[simp] theorem AxisState.enterHold_motion (env : AxisEnv) (x : AxisState) : (x.enterHold env).motion = x.motion := by
  unfold AxisState.enterHold; split <;> rfl
@[simp] theorem AxisState.enterHold_trust (env : AxisEnv) (x : AxisState) : (x.enterHold env).trust = x.trust := by
  unfold AxisState.enterHold; split <;> rfl
@[simp] theorem AxisState.enterHold_position (env : AxisEnv) (x : AxisState) : (x.enterHold env).position = x.position := by
  unfold AxisState.enterHold; split <;> rfl
@[simp] theorem AxisState.enterHold_index (env : AxisEnv) (x : AxisState) : (x.enterHold env).index = x.index := by
  unfold AxisState.enterHold; split <;> rfl
@[simp] theorem AxisState.enterHold_queue (env : AxisEnv) (x : AxisState) : (x.enterHold env).queue = x.queue := by
  unfold AxisState.enterHold; split <;> rfl
@[simp] theorem AxisState.enterHold_pendingHome (env : AxisEnv) (x : AxisState) : (x.enterHold env).pendingHome = x.pendingHome := by
  unfold AxisState.enterHold; split <;> rfl
@[simp] theorem AxisState.enterHold_stepTimer (env : AxisEnv) (x : AxisState) : (x.enterHold env).stepTimer = x.stepTimer := by
  unfold AxisState.enterHold; split <;> rfl
@[simp] theorem AxisState.enterHold_lastStepAt (env : AxisEnv) (x : AxisState) : (x.enterHold env).lastStepAt = x.lastStepAt := by
  unfold AxisState.enterHold; split <;> rfl
@[simp] theorem AxisState.enterHold_flagLo (env : AxisEnv) (x : AxisState) : (x.enterHold env).flagLo = x.flagLo := by
  unfold AxisState.enterHold; split <;> rfl
@[simp] theorem AxisState.enterHold_flagHi (env : AxisEnv) (x : AxisState) : (x.enterHold env).flagHi = x.flagHi := by
  unfold AxisState.enterHold; split <;> rfl
@[simp] theorem AxisState.enterHold_endLo (env : AxisEnv) (x : AxisState) : (x.enterHold env).endLo = x.endLo := by
  unfold AxisState.enterHold; split <;> rfl
@[simp] theorem AxisState.enterHold_endHi (env : AxisEnv) (x : AxisState) : (x.enterHold env).endHi = x.endHi := by
  unfold AxisState.enterHold; split <;> rfl
@[simp] theorem AxisState.enterHold_drvFlt (env : AxisEnv) (x : AxisState) : (x.enterHold env).drvFlt = x.drvFlt := by
  unfold AxisState.enterHold; split <;> rfl
@[simp] theorem AxisState.enterHold_refMk (env : AxisEnv) (x : AxisState) : (x.enterHold env).refMk = x.refMk := by
  unfold AxisState.enterHold; split <;> rfl
@[simp] theorem AxisState.enterHold_freeCount (env : AxisEnv) (x : AxisState) : (x.enterHold env).freeCount = x.freeCount := by
  unfold AxisState.enterHold; split <;> rfl
@[simp] theorem AxisState.countTo_params (a : Axis) (x : AxisState) (p : Int) : (x.countTo a p).params = x.params := by
  unfold AxisState.countTo; split <;> rfl
@[simp] theorem AxisState.countTo_motion (a : Axis) (x : AxisState) (p : Int) : (x.countTo a p).motion = x.motion := by
  unfold AxisState.countTo; split <;> rfl
@[simp] theorem AxisState.countTo_trust (a : Axis) (x : AxisState) (p : Int) : (x.countTo a p).trust = x.trust := by
  unfold AxisState.countTo; split <;> rfl
@[simp] theorem AxisState.countTo_index (a : Axis) (x : AxisState) (p : Int) : (x.countTo a p).index = x.index := by
  unfold AxisState.countTo; split <;> rfl
@[simp] theorem AxisState.countTo_queue (a : Axis) (x : AxisState) (p : Int) : (x.countTo a p).queue = x.queue := by
  unfold AxisState.countTo; split <;> rfl
@[simp] theorem AxisState.countTo_pendingHome (a : Axis) (x : AxisState) (p : Int) : (x.countTo a p).pendingHome = x.pendingHome := by
  unfold AxisState.countTo; split <;> rfl
@[simp] theorem AxisState.countTo_phase (a : Axis) (x : AxisState) (p : Int) : (x.countTo a p).phase = x.phase := by
  unfold AxisState.countTo; split <;> rfl
@[simp] theorem AxisState.countTo_stepTimer (a : Axis) (x : AxisState) (p : Int) : (x.countTo a p).stepTimer = x.stepTimer := by
  unfold AxisState.countTo; split <;> rfl
@[simp] theorem AxisState.countTo_holdTimer (a : Axis) (x : AxisState) (p : Int) : (x.countTo a p).holdTimer = x.holdTimer := by
  unfold AxisState.countTo; split <;> rfl
@[simp] theorem AxisState.countTo_lastStepAt (a : Axis) (x : AxisState) (p : Int) : (x.countTo a p).lastStepAt = x.lastStepAt := by
  unfold AxisState.countTo; split <;> rfl
@[simp] theorem AxisState.countTo_flagLo (a : Axis) (x : AxisState) (p : Int) : (x.countTo a p).flagLo = x.flagLo := by
  unfold AxisState.countTo; split <;> rfl
@[simp] theorem AxisState.countTo_flagHi (a : Axis) (x : AxisState) (p : Int) : (x.countTo a p).flagHi = x.flagHi := by
  unfold AxisState.countTo; split <;> rfl
@[simp] theorem AxisState.countTo_endLo (a : Axis) (x : AxisState) (p : Int) : (x.countTo a p).endLo = x.endLo := by
  unfold AxisState.countTo; split <;> rfl
@[simp] theorem AxisState.countTo_endHi (a : Axis) (x : AxisState) (p : Int) : (x.countTo a p).endHi = x.endHi := by
  unfold AxisState.countTo; split <;> rfl
@[simp] theorem AxisState.countTo_drvFlt (a : Axis) (x : AxisState) (p : Int) : (x.countTo a p).drvFlt = x.drvFlt := by
  unfold AxisState.countTo; split <;> rfl
@[simp] theorem AxisState.countTo_refMk (a : Axis) (x : AxisState) (p : Int) : (x.countTo a p).refMk = x.refMk := by
  unfold AxisState.countTo; split <;> rfl
@[simp] theorem AxisState.microstep_params (a : Axis) (x : AxisState) (d : Dir) : (x.microstep a d).params = x.params := by simp [AxisState.microstep]
@[simp] theorem AxisState.microstep_motion (a : Axis) (x : AxisState) (d : Dir) : (x.microstep a d).motion = x.motion := by simp [AxisState.microstep]
@[simp] theorem AxisState.microstep_trust (a : Axis) (x : AxisState) (d : Dir) : (x.microstep a d).trust = x.trust := by simp [AxisState.microstep]
@[simp] theorem AxisState.microstep_queue (a : Axis) (x : AxisState) (d : Dir) : (x.microstep a d).queue = x.queue := by simp [AxisState.microstep]
@[simp] theorem AxisState.microstep_pendingHome (a : Axis) (x : AxisState) (d : Dir) : (x.microstep a d).pendingHome = x.pendingHome := by simp [AxisState.microstep]
@[simp] theorem AxisState.microstep_phase (a : Axis) (x : AxisState) (d : Dir) : (x.microstep a d).phase = x.phase := by simp [AxisState.microstep]
@[simp] theorem AxisState.microstep_stepTimer (a : Axis) (x : AxisState) (d : Dir) : (x.microstep a d).stepTimer = x.stepTimer := by simp [AxisState.microstep]
@[simp] theorem AxisState.microstep_holdTimer (a : Axis) (x : AxisState) (d : Dir) : (x.microstep a d).holdTimer = x.holdTimer := by simp [AxisState.microstep]
@[simp] theorem AxisState.microstep_lastStepAt (a : Axis) (x : AxisState) (d : Dir) : (x.microstep a d).lastStepAt = x.lastStepAt := by simp [AxisState.microstep]
@[simp] theorem AxisState.microstep_flagLo (a : Axis) (x : AxisState) (d : Dir) : (x.microstep a d).flagLo = x.flagLo := by simp [AxisState.microstep]
@[simp] theorem AxisState.microstep_flagHi (a : Axis) (x : AxisState) (d : Dir) : (x.microstep a d).flagHi = x.flagHi := by simp [AxisState.microstep]
@[simp] theorem AxisState.microstep_endLo (a : Axis) (x : AxisState) (d : Dir) : (x.microstep a d).endLo = x.endLo := by simp [AxisState.microstep]
@[simp] theorem AxisState.microstep_endHi (a : Axis) (x : AxisState) (d : Dir) : (x.microstep a d).endHi = x.endHi := by simp [AxisState.microstep]
@[simp] theorem AxisState.microstep_drvFlt (a : Axis) (x : AxisState) (d : Dir) : (x.microstep a d).drvFlt = x.drvFlt := by simp [AxisState.microstep]
@[simp] theorem AxisState.microstep_refMk (a : Axis) (x : AxisState) (d : Dir) : (x.microstep a d).refMk = x.refMk := by simp [AxisState.microstep]

/-! ### The count (R32; notes/assumptions/6.md) -/

theorem AxisState.countTo_of_fits {a : Axis} {x : AxisState} {p : Int} (h : fitsCount p = true) :
    x.countTo a p = { x with position := p } := by simp [AxisState.countTo, h]
/-- A count always fits signed 32 bits, the free one included. -/
theorem AxisState.countTo_fits (a : Axis) (x : AxisState) (p : Int) : fitsCount (x.countTo a p).position = true := by
  unfold AxisState.countTo; split
  · assumption
  · have lo := BitVec.le_toInt (Config.positionBeyondRange a x.freeCount)
    have hi := BitVec.toInt_lt (x := Config.positionBeyondRange a x.freeCount)
    simp only [fitsCount, Bool.and_eq_true, decide_eq_true_eq]
    omega
theorem AxisState.microstep_of_fits {a : Axis} {x : AxisState} {d : Dir} :
    fitsCount (x.position + d.sign) = true → x.microstep a d =
      { x with position := x.position + d.sign, index := match d with | .plus => x.index + 1 | .minus => x.index - 1 } := by
  cases d <;> intro h <;> simp [AxisState.microstep, AxisState.countTo_of_fits h]

/-- The start of BACKOFF: its phase, its first microstep one P_home away, the flags clear, the last step's time kept. -/
theorem AxisState.beginBackoff_eq (env : AxisEnv) (x : AxisState) (contact : Int) :
    x.beginBackoff env contact =
      { x with motion := .homing ⟨.backoff, 0, x.params.homeDistance, contact⟩, flagLo := false, flagHi := false,
               stepTimer := some (env.now + x.params.pHome) } := rfl

end Sys2Proof.Machine
end

