-- ==== Sys2Proof/Laws/PerInstr.lean ====
section
/-! SUPPORT. One lemma for each command: its place on the wire. A request has a kind byte exactly when it names a port, and a
well-formed one has a payload whose length its kind allows (R166, R196). -/

namespace Sys2Proof.Laws.Wire

/-- A command is a request exactly when it has a kind byte, and then its payload length lies between the bounds of its kind. -/
def Statement (i : Instr) : Prop :=
  (kindByte i).isSome = (portOf i).isSome ∧
    (WellFormed i = true → ∀ kind, kindByte i = some kind → ∃ bounds, kindLengths kind.toNat = some bounds ∧
      bounds.1 ≤ (payloadOf i).length ∧ (payloadOf i).length ≤ bounds.2 ∧ bounds.2 ≤ 60)

/-- A request of a kind of one length. -/
theorem of_fixed {i : Instr} {kind : Byte} {n : Nat} (hk : kindByte i = some kind) (hp : (portOf i).isSome = true)
    (hl : kindLengths kind.toNat = some (n, n)) (hn : (payloadOf i).length = n) (h60 : n ≤ 60) : Statement i := by
  refine ⟨by rw [hk, hp]; rfl, fun _ k h => ⟨(n, n), ?_, ?_, ?_, h60⟩⟩
  · rw [hk] at h; cases h; exact hl
  · exact hn.ge
  · exact hn.le

/-- A command that is no request. -/
theorem of_none {i : Instr} (hk : kindByte i = none) (hp : portOf i = none) : Statement i :=
  ⟨by rw [hk, hp]; rfl, fun _ k h => by rw [hk] at h; cases h⟩

theorem readInstall (port : Port) (reserve : Byte) : Statement (.readInstall port reserve) := of_fixed rfl rfl rfl rfl (by decide)
theorem writeInstall (port : Port) (presence orientation kv kh : Byte) (targetV targetH : Word32) (speed conditional : Byte) : Statement (.writeInstall port presence orientation kv kh targetV targetH speed conditional) := of_fixed rfl rfl rfl rfl (by decide)
theorem jog (port : Port) (axis : Byte) (delta : Word32) (speed conditional : Byte) : Statement (.jog port axis delta speed conditional) := of_fixed rfl rfl rfl rfl (by decide)
theorem readAxis (port : Port) (axis : Byte) : Statement (.readAxis port axis) := of_fixed rfl rfl rfl rfl (by decide)
theorem readThermal (port : Port) : Statement (.readThermal port) := of_fixed rfl rfl rfl rfl (by decide)
theorem readLight (port : Port) : Statement (.readLight port) := of_fixed rfl rfl rfl rfl (by decide)
theorem readWarp (port : Port) : Statement (.readWarp port) := of_fixed rfl rfl rfl rfl (by decide)
theorem readPreset (port : Port) (slot : Byte) : Statement (.readPreset port slot) := of_fixed rfl rfl rfl rfl (by decide)
theorem getEvents (port : Port) : Statement (.getEvents port) := of_fixed rfl rfl rfl rfl (by decide)
theorem setEventMask (port : Port) (mask : BitVec 24) : Statement (.setEventMask port mask) := of_fixed rfl rfl rfl rfl (by decide)
theorem attach (port : Port) (width height : Word16) : Statement (.attach port width height) := of_fixed rfl rfl rfl rfl (by decide)
theorem detach (port : Port) : Statement (.detach port) := of_fixed rfl rfl rfl rfl (by decide)
theorem lightRequest (port : Port) (level : Word16) : Statement (.lightRequest port level) := of_fixed rfl rfl rfl rfl (by decide)
theorem abortMotion (port : Port) (axes : Byte) : Statement (.abortMotion port axes) := of_fixed rfl rfl rfl rfl (by decide)
theorem home (port : Port) (axes : Byte) : Statement (.home port axes) := of_fixed rfl rfl rfl rfl (by decide)
theorem axisRecover (port : Port) (axes : Byte) : Statement (.axisRecover port axes) := of_fixed rfl rfl rfl rfl (by decide)
theorem storePreset (port : Port) (slot source includeKeystone : Byte) (targetV targetH : Word32) (kv kh : Byte) : Statement (.storePreset port slot source includeKeystone targetV targetH kv kh) := of_fixed rfl rfl rfl rfl (by decide)
theorem recallPreset (port : Port) (slot speed conditional : Byte) : Statement (.recallPreset port slot speed conditional) := of_fixed rfl rfl rfl rfl (by decide)
theorem clearPreset (port : Port) (slot : Byte) : Statement (.clearPreset port slot) := of_fixed rfl rfl rfl rfl (by decide)
theorem lightOn (port : Port) : Statement (.lightOn port) := of_fixed rfl rfl rfl rfl (by decide)
theorem lightOff (port : Port) : Statement (.lightOff port) := of_fixed rfl rfl rfl rfl (by decide)
theorem setLightMode (port : Port) (mode : Byte) : Statement (.setLightMode port mode) := of_fixed rfl rfl rfl rfl (by decide)
theorem setQuiet (port : Port) (quiet : Byte) : Statement (.setQuiet port quiet) := of_fixed rfl rfl rfl rfl (by decide)
theorem clearLightFault (port : Port) : Statement (.clearLightFault port) := of_fixed rfl rfl rfl rfl (by decide)
theorem setParamAxis (port : Port) (param index : Byte) (value : Word32) : Statement (.setParamAxis port param index value) := of_fixed rfl rfl rfl rfl (by decide)
theorem setParam (port : Port) (param index : Byte) (value : Word32) : Statement (.setParam port param index value) := of_fixed rfl rfl rfl rfl (by decide)
theorem getParam (port : Port) (param index : Byte) : Statement (.getParam port param index) := of_fixed rfl rfl rfl rfl (by decide)
theorem beginLoad (port : Port) (table : Byte) (total : Word16) : Statement (.beginLoad port table total) := of_fixed rfl rfl rfl rfl (by decide)
theorem loadSegment (port : Port) (offset : Word16) (data : List Byte) : Statement (.loadSegment port offset data) := by
  refine ⟨rfl, fun h kind hk => ⟨(3, 58), ?_, ?_, ?_, by decide⟩⟩
  · cases hk; rfl
  all_goals
    simp only [WellFormed, segmentFits, Bool.and_eq_true, decide_eq_true_eq] at h
    simp [payloadOf, Machine.le16]
    omega
theorem endLoad (port : Port) : Statement (.endLoad port) := of_fixed rfl rfl rfl rfl (by decide)
theorem readTable (port : Port) (table : Byte) (offset : Word16) : Statement (.readTable port table offset) := of_fixed rfl rfl rfl rfl (by decide)
theorem restart (port : Port) : Statement (.restart port) := of_fixed rfl rfl rfl rfl (by decide)
theorem malformedRequest (port : Port) (bytes : List Byte) : Statement (.malformedRequest port bytes) := of_none rfl rfl
theorem responseFormed (port : Port) : Statement (.responseFormed port) := of_none rfl rfl
theorem hardReset (lowNs : Option Nat) : Statement (.hardReset lowNs) := of_none rfl rfl
theorem hardResetEnd (ports : PortsFound) (bus : BusSample) : Statement (.hardResetEnd ports bus) := of_none rfl rfl
theorem fmark (time : Nat) : Statement (.fmark time) := of_none rfl rfl
theorem lapseWindowExpiry : Statement .lapseWindowExpiry := of_none rfl rfl
theorem stepTimerExpiry (axis : Axis) : Statement (.stepTimerExpiry axis) := of_none rfl rfl
theorem endStopEdge (axis : Axis) (stop : EndStop) (active : Bool) : Statement (.endStopEdge axis stop active) := of_none rfl rfl
theorem refMkEdge (axis : Axis) (rising : Bool) : Statement (.refMkEdge axis rising) := of_none rfl rfl
theorem drvFlt (axis : Axis) (active : Bool) : Statement (.drvFlt axis active) := of_none rfl rfl
theorem holdTimerExpiry (axis : Axis) : Statement (.holdTimerExpiry axis) := of_none rfl rfl
theorem computationComplete : Statement .computationComplete := of_none rfl rfl
theorem scanStart (bus : BusSample) : Statement (.scanStart bus) := of_none rfl rfl
theorem slotReadDone (result : ReadResult) (bus : BusSample) : Statement (.slotReadDone result bus) := of_none rfl rfl
theorem probeBusTimeout (timedOut : TimedOut) : Statement (.probeBusTimeout timedOut) := of_none rfl rfl
theorem criticalDwellExpiry : Statement .criticalDwellExpiry := of_none rfl rfl
theorem kickExpiry (fan : Fan) : Statement (.kickExpiry fan) := of_none rfl rfl
theorem tachEdgeAccepted (fan : Fan) (fall low : Nat) : Statement (.tachEdgeAccepted fan fall low) := of_none rfl rfl
theorem graceTimerExpiry (fan : Fan) : Statement (.graceTimerExpiry fan) := of_none rfl rfl
theorem edgeTimerExpiry (fan : Fan) : Statement (.edgeTimerExpiry fan) := of_none rfl rfl
theorem lightOkRise (time : Nat) : Statement (.lightOkRise time) := of_none rfl rfl
theorem lightOkFall (time : Nat) : Statement (.lightOkFall time) := of_none rfl rfl
theorem lightFlt (active : Bool) (time : Nat) : Statement (.lightFlt active time) := of_none rfl rfl
theorem ignitionTimerExpiry : Statement .ignitionTimerExpiry := of_none rfl rfl
theorem cooldownMinExpiry : Statement .cooldownMinExpiry := of_none rfl rfl
theorem coolMax : Statement .coolMax := of_none rfl rfl
theorem slewTimerExpiry : Statement .slewTimerExpiry := of_none rfl rfl

end Sys2Proof.Laws.Wire
end

