-- ==== Sys2Proof/Laws/Requests.lean ====
section
/-! SUPPORT. What taking and judging a request can do, said once. -/

namespace Sys2Proof.Machine

/-! ### A request, and a command that hard reset suppresses (R166, R167, R169, R180) -/

theorem takeRequest_inReset {s : State} (p : Port) (kind : Byte) (f : State → State × Answer) (h : s.inReset = true) :
    takeRequest p kind s f = .next s := by simp [takeRequest, h]
theorem takeRequest_crossing {s : State} (p : Port) (kind : Byte) (f : State → State × Answer) (h : s.inReset = false)
    (hc : (s.port p).crossing = true) : takeRequest p kind s f = .next (s.setCrossing p false) := by
  simp [takeRequest, h, hc]
/-- What taking a request does out of hard reset, on a port with no transaction left from it: the owner's effect, then its
answer in the slot. -/
theorem takeRequest_awake {s : State} (p : Port) (kind : Byte) (f : State → State × Answer) (h : s.inReset = false)
    (hc : (s.port p).crossing = false) :
    takeRequest p kind s f = .next ((f s).1.setSlot p (.pending kind (f s).2.status (f s).2.body)) := by
  simp [takeRequest, h, hc]
/-- Everything that taking a request can do. -/
theorem takeRequest_cases {s t : State} {p : Port} {kind : Byte} {f : State → State × Answer}
    (h : takeRequest p kind s f = .next t) :
    (s.inReset = true ∧ t = s) ∨
      (s.inReset = false ∧ (s.port p).crossing = true ∧ t = s.setCrossing p false) ∨
      (s.inReset = false ∧ (s.port p).crossing = false ∧
        t = (f s).1.setSlot p (.pending kind (f s).2.status (f s).2.body)) := by
  unfold takeRequest at h
  split at h
  · exact .inl ⟨‹_›, (Host.Outcome.next.inj h).symm⟩
  · split at h
    · exact .inr (.inl ⟨by simp_all, ‹_›, (Host.Outcome.next.inj h).symm⟩)
    · exact .inr (.inr ⟨by simp_all, by simp_all, (Host.Outcome.next.inj h).symm⟩)
/-- Everything that judging a request can do: a BAD_REQUEST, a refusal, the effect. -/
theorem judge_cases (fields : List (Nat × Bool)) (checks : List (Bool × Status)) (refuse : State → List Byte)
    (effect : State → State × Answer) (s : State) :
    (∃ offset, firstFault fields = some offset ∧ judge fields checks refuse effect s = (s, badRequest .field offset)) ∨
      (∃ status, firstFault fields = none ∧ firstFail checks = some status ∧
        judge fields checks refuse effect s = (s, ⟨status, refuse s⟩)) ∨
      (firstFault fields = none ∧ firstFail checks = none ∧ judge fields checks refuse effect s = effect s) := by
  unfold judge; cases firstFault fields <;> cases firstFail checks <;> simp
@[simp] theorem firstFault_nil : firstFault [] = none := rfl
@[simp] theorem firstFault_cons (n : Nat) (good : Bool) (l : List (Nat × Bool)) :
    firstFault ((n, good) :: l) = if good then firstFault l else some n := rfl
@[simp] theorem firstFail_nil : firstFail [] = none := rfl
@[simp] theorem firstFail_cons (good : Bool) (st : Status) (l : List (Bool × Status)) :
    firstFail ((good, st) :: l) = if good then firstFail l else some st := rfl
theorem unlessReset_inReset {s : State} (f : State → State) (h : s.inReset = true) : unlessReset s f = .next s := by
  simp [unlessReset, h]
theorem unlessReset_awake {s : State} (f : State → State) (h : s.inReset = false) : unlessReset s f = .next (f s) := by
  simp [unlessReset, h]

end Sys2Proof.Machine
end

