-- ==== Sys2Proof/Laws/Wires.lean ====
section
/-! SUPPORT. What the part drives on its buses: the shape of every copy, every transaction and every recovery. -/

namespace Sys2Proof.Machine

@[simp] theorem readOut_length (x : Slot) (n : Nat) : (readOut x n).length = n := by
  simp [readOut, padTo]; omega

/-! ### Transactions -/

@[simp] theorem Transaction.bits_append (t u : Transaction) : Transaction.bits (t ++ u) = t.bits ++ u.bits :=
  List.flatMap_append

@[simp] theorem Transaction.lost_append (t u : Transaction) : Transaction.lost (t ++ u) = (t.lost || u.lost) :=
  List.any_append

/-- A transaction is lost exactly when it has a moment in hard reset. -/
theorem Transaction.lost_iff (t : Transaction) : t.lost = true ↔ ∃ x ∈ t, x.state.inReset = true := List.any_eq_true

/-- The state of a clock is that of the stretch whose bits hold it. -/
theorem Transaction.stateAt_append (t : Transaction) (x : Stretch) (u : Transaction) {n : Nat} (h : n < x.clocked.length) :
    Transaction.stateAt (t ++ x :: u) ((Transaction.bits t).length + n) = some x.state := by
  induction t with
  | nil => simp [Transaction.stateAt, Transaction.bits, h]
  | cons y t ih =>
    have hy : Transaction.bits (y :: t) = y.clocked ++ Transaction.bits t := rfl
    have hlt : ¬ (y.clocked.length + (Transaction.bits t).length + n < y.clocked.length) := by omega
    have heq : y.clocked.length + (Transaction.bits t).length + n - y.clocked.length = (Transaction.bits t).length + n := by omega
    rw [List.cons_append, hy, List.length_append, Transaction.stateAt, if_neg hlt, heq, ih]

/-- Every clock that has ended has a state, which is one of the transaction's. -/
theorem Transaction.stateAt_of_lt (t : Transaction) {n : Nat} (h : n < t.bits.length) :
    ∃ x ∈ t, t.stateAt n = some x.state := by
  induction t generalizing n with
  | nil => simp [Transaction.bits] at h
  | cons y t ih =>
    have hy : Transaction.bits (y :: t) = y.clocked ++ Transaction.bits t := rfl
    rw [hy, List.length_append] at h
    rw [Transaction.stateAt]
    split
    · exact ⟨y, by simp, rfl⟩
    · obtain ⟨x, hx, e⟩ := ih (n := n - y.clocked.length) (by omega)
      exact ⟨x, by simp [hx], e⟩

/-- A clock that has not ended has no state. -/
theorem Transaction.stateAt_of_le (t : Transaction) {n : Nat} (h : t.bits.length ≤ n) : t.stateAt n = none := by
  induction t generalizing n with
  | nil => rfl
  | cons y t ih =>
    have hy : Transaction.bits (y :: t) = y.clocked ++ Transaction.bits t := rfl
    rw [hy, List.length_append] at h
    rw [Transaction.stateAt, if_neg (by omega)]
    exact ih (by omega)

/-- The first byte is the one whose bits, most significant first, the first eight clocks carry. -/
theorem Transaction.firstByte_eq (t : Transaction) (b : Byte) (h : t.bits.take 8 = (List.range 8).map b.getMsbD) :
    t.firstByte = b := by
  have value : ∀ b : Byte, BitVec.ofNat 8 (((List.range 8).map b.getMsbD).foldl (fun n x => 2 * n + x.toNat) 0) = b := by
    decide
  rw [Transaction.firstByte, h]
  exact value b

/-- Bit i of byte n of a copy's bytes. -/
theorem Slot.sends_bit (x : Slot) (n : Nat) {i : Nat} (h : i < 8) :
    x.sends (8 * n + i) = ((readOut x (n + 1)).getD n 0).getMsbD i := by
  have hn : (8 * n + i) / 8 = n := by omega
  have hi : (8 * n + i) % 8 = i := by omega
  rw [Slot.sends, hn, hi]

/-- A moment in hard reset releases both lines from there to the end of the transaction. -/
theorem lines_released_of_lost (t : Transaction) (h : t.lost = true) : cpSda (some t) = false ∧ fpSdo (some t) = none := by
  simp [cpSda, fpSdo, h]

/-- Every transaction begins with its START and ends with both lines released. -/
theorem ScanSlot.drives_ends (x : ScanSlot) (r : ReadResult) :
    (x.drives r).head? = some .start ∧ (x.drives r).getLast? = some .release := by
  cases r <;> simp [ScanSlot.drives, ScanSlot.parts, partsMade]

/-- A transaction that times out is ended without a STOP. -/
theorem ScanSlot.drivesUntilTimeout_no_stop (x : ScanSlot) (parts : Nat) : .stop ∉ x.drivesUntilTimeout parts := by
  have h : min parts 7 ≤ 7 := by omega
  simp only [ScanSlot.drivesUntilTimeout, ScanSlot.parts, List.mem_append, not_or]
  refine ⟨?_, by simp⟩
  intro m
  have := (List.take_subset_take_left _ h) m
  simp at this

/-- A recovery makes nine pulses at most, and none with PB_SCL low. -/
theorem recoveryActs_pulses (b : BusSample) :
    (recoveryActs b).count .pulse ≤ 9 ∧ (b.scl = false → recoveryActs b = []) := by
  refine ⟨?_, fun h => by simp [recoveryActs, h]⟩
  unfold recoveryActs
  split
  · simp
  · split
    · split <;> (simp; try omega)
    · simp

end Sys2Proof.Machine
end

