-- ==== Sys2Proof/Tests/Slice0.lean ====
section
/-! SUPPORT. Tests. Expected results are those of the spec's worked sequences and tables, named at each test; the model's own
answers are used nowhere. The last part shows, for each statement that has hypotheses, states and operands that meet them. -/

namespace Sys2Proof.Tests

open Sys2Proof.Machine

/-- A value read from the state a command leaves. -/
def after {α : Type} (c : Instr) (s : State) (f : State → α) : Option α :=
  match exec c s with
  | .next t => some (f t)
  | .fault _ | .refused _ => none

/-- Several commands, one after another. -/
def run : List Instr → State → State
  | [], s => s
  | c :: cs, s =>
    match exec c s with
    | .next t => run cs t
    | .fault _ | .refused _ => s

/-- The answer that waits in a port's slot: its status and its payload behind the event summary. -/
def answer (p : Port) (s : State) : Option (Status × List Byte) :=
  match (s.port p).slot with
  | .pending _ status body => some (status, body)
  | .empty | .full .. => none

/-- The status of the answer to a Control Port request. -/
def statusOf (c : Instr) (s : State) : Option Status := (after c s (answer .control)).join.map Prod.fst

/-- Nothing holds the Probe Bus. -/
def free : BusSample := ⟨true, true, none⟩

/-! ### States -/

def withV (s : State) (f : AxisState → AxisState) : State := s.setAxis .v (f s.lmc.v)
def withH (s : State) (f : AxisState → AxisState) : State := s.setAxis .h (f s.lmc.h)
def withLau (s : State) (f : Lau → Lau) : State := { s with lau := f s.lau }
def withTmon (s : State) (f : Tmon → Tmon) : State := { s with tmon := f s.tmon }

/-- Both axes HOMED, at the middle of their travel. -/
def homed : State := withH (withV State.reset fun x => { x with trust := .homed }) fun x => { x with trust := .homed }

/-- The same in CEILING. -/
def ceiling : State := { homed with irm := { homed.irm with orientation := .ceiling } }

/-- V RUNNING in a cruise from 24000 to 30000, at 27310 (1.6, "An abort"). -/
def cruising : State :=
  let s := withV ceiling fun x => { x with
    motion := .running { number := 1, kind := .final, dir := .plus, endPoint := 30000, n := 6000, nAcc := 256,
                         issued := 3310, pRun := 100, lastRamp := 256 },
    position := 27310, phase := .run, stepTimer := some 100, queue := [⟨.absolute, .frame, 30000, .normal, true⟩] }
  { s with irm := { s.irm with targetV := 30000, kv := -12, generation := 47 } }

/-- V STOPPING with one microstep to take. -/
def stopping : State :=
  withV homed fun x => { x with
    motion := .stopping { position := 24001, remaining := 1, dir := .plus, reason := .aborted, pRun := 100,
                          abandoned := false },
    phase := .run, stepTimer := some 100, queue := [⟨.absolute, .control, 24001, .normal, true⟩] }

/-- V in a homing run. -/
def homing (phase : HomingPhase) (taken limit : Nat) (position : Int) : State :=
  withV State.reset fun x => { x with
    motion := .homing ⟨phase, taken, limit, 0⟩, position := position, phase := .run, stepTimer := some 300 }

/-- V in a homing run, with a ramp of four microsteps. -/
def shortRamp : State := withV (homing .approach 0 54000 24000) fun x => { x with params := { x.params with nRamp := 4 } }

/-- V at the last microstep of its final leg, from 29999 to 30000, with entries waiting. -/
def arriving (waiting : List Entry) : State :=
  withV cruising fun x => { x with
    motion := .running ⟨1, .final, .plus, 30000, 6000, 256, 5999, 100, 0⟩, position := 29999,
    queue := ⟨.absolute, .frame, 30000, .normal, true⟩ :: waiting }

/-- V in FAULT. -/
def faulted : State := withV State.reset fun x => { x with motion := .fault, phase := .off }

/-- The session in a state. -/
def inSession (x : Session) : State := withLau State.reset fun l => { l with session := x }

/-- Every zone LIVE at 25 degrees, thermally ready (8.9). -/
def ready : State :=
  let zones : PerZone ZoneRecord := .same ⟨.live, some 100, .normal⟩
  withTmon (withLau State.reset fun l => { l with held := { l.held with zones := zones, ready := true } })
    fun t => { t with zones := zones, ready := true }

/-- The picture processor attached, the lapse window running. -/
def attached : State :=
  let s := { State.reset with fpi := { State.reset.fpi with attached := true, latched := some 10000 } }
  { s with fmon := { s.fmon with state := .armed, window := some 100000, windowLength := 100 },
           lau := { s.lau with held := { s.lau.held with attached := true, lapse := .armed } } }

/-- The part CRITICAL with the dwell timer running. -/
def critical : State :=
  withTmon State.reset fun t => { t with
    device := .critical, dwell := some 12800000,
    zones := { t.zones with exhaust := ⟨.live, some 301, .critical⟩ } }

/-- The part tripped. -/
def tripped : State :=
  withTmon (inSession .tripped) fun t => { t with trip := some ⟨.absolute, .zone .src, some 360⟩, device := .hot }

/-- A fan's record. -/
def withFan (s : State) (f : Fan) (x : FanRecord) : State := { s with afc := { s.afc with fans := s.afc.fans.set f x } }

/-- A fan that turns at duty 30, its last edge at 0 (7.8). -/
def turning : FanRecord :=
  { FanRecord.reset with demand := 52, selected := 30, output := 30, tach := .turning, edge := some 500000,
                         lastEdge := some 0, period := 12500, rpm := 2400, drivenFrom := some 0 }

/-- An open ZONES load with the first 56 bytes of an image received. -/
def loading (image : List Byte) : State :=
  { State.reset with cpi := { State.reset.cpi with load := some ⟨.zones, 66, 56, image.take 56, none⟩ } }

/-! ### Well-formed commands: one that each check refuses -/

theorem test_axisParamRow_refuses_blockParam : WellFormed (.setParamAxis .control 0x20 0xFF 1) = false := by decide
theorem test_blockParamRow_refuses_axisParam : WellFormed (.setParam .control 0x01 0 1) = false := by decide
theorem test_segment_refuses_no_data : WellFormed (.loadSegment .control 0 []) = false := by decide
theorem test_segment_refuses_57_bytes : WellFormed (.loadSegment .control 0 (List.replicate 57 0)) = false := by decide
theorem test_malformed_refuses_good_frame : WellFormed (.malformedRequest .control [0x05, 0x00]) = false := by decide
theorem test_malformed_refuses_no_byte : WellFormed (.malformedRequest .control []) = false := by decide
theorem test_bus_refuses_ten_pulses : WellFormed (.scanStart ⟨true, false, some 10⟩) = false := by decide
theorem test_bus_refuses_ten_pulses_at_reset_end :
    WellFormed (.hardResetEnd ⟨false, false, false⟩ ⟨true, false, some 10⟩) = false := by decide
theorem test_bus_refuses_pulse_zero : WellFormed (.slotReadDone .noAckAddr ⟨true, false, some 0⟩) = false := by decide
theorem test_bus_refuses_ten_pulses_at_timeout :
    WellFormed (.probeBusTimeout ⟨0, true, false, some 10⟩) = false := by decide
theorem test_timeout_refuses_eight_parts : WellFormed (.probeBusTimeout ⟨8, free⟩) = false := by decide

/-! ### Words and frames -/

theorem test_no_table_word : decodeTableWord 8 0x01 = none := by decide
theorem test_withFetchWord_keeps_state : State.reset.withFetchWord 16 5 = State.reset := by decide

/-- The write of 11.6: kind 0x49, length 12, offset 56 as 0x38 then 0x00, ten image bytes. -/
theorem test_loadSegment_frame :
    readFrame .control [0x49, 0x0C, 0x38, 0x00, 1, 2, 3, 4, 5, 6, 7, 8, 9, 10] =
      .request (.loadSegment .control 56 [1, 2, 3, 4, 5, 6, 7, 8, 9, 10]) := by decide
/-- R196: JOG is 0x03 with axis, delta (4 bytes), speed, conditional; -10 is F6 FF FF FF. -/
theorem test_jog_frame :
    readFrame .frame [0x03, 0x07, 0x00, 0xF6, 0xFF, 0xFF, 0xFF, 0x01, 0x00] =
      .request (.jog .frame 0 0xFFFFFFF6 1 0) := by decide
/-- R196: ATTACH is 0x10 with W and H; 3840 is 0x0F00 and 2160 is 0x0870. -/
theorem test_attach_frame :
    readFrame .frame [0x10, 0x04, 0x00, 0x0F, 0x70, 0x08] = .request (.attach .frame 3840 2160) := by decide
/-- R196: SET_PARAM is 0x40 with the code, the index and the value; code 0x20 is Q. -/
theorem test_setParam_frame :
    readFrame .control [0x40, 0x06, 0x20, 0xFF, 0x40, 0x00, 0x00, 0x00] =
      .request (.setParam .control 0x20 0xFF 64) := by decide
theorem test_lightOn_frame : readFrame .control [0x30, 0x00] = .request (.lightOn .control) := by decide
theorem test_unknown_kind : readFrame .control [0x00, 0x00] = .malformed 0x00 .unknownKind := by decide
theorem test_length_before_count : readFrame .control [0x01, 0x02, 0x00] = .malformed 0x01 .length := by decide

/-! ### The installation record (1.6) -/

/-- 1.6: the Control Port write of kv = -12 is accepted OK at generation 42 with both reservations INVALID. -/
theorem test_writeInstall_code :
    after (.writeInstall .control 2 0 0xF4 0 0 0 1 0) { ceiling with irm := { ceiling.irm with generation := 41 } }
      (fun s => ((answer .control s).map Prod.fst, s.irm.generation, s.irm.kv, s.irm.reserveFrame)) =
      some (some .ok, 42, -12, none) := by decide
/-- 1.6: the Frame Port write of target V = 30000 is ACCEPTED and its entry runs. -/
theorem test_writeInstall_target :
    after (.writeInstall .frame 8 0 0 0 30000 0 1 0) ceiling
      (fun s => (s.irm.targetV, s.lmc.v.queue)) = some (30000, [⟨.absolute, .frame, 30000, .normal, true⟩]) := by decide
/-- 1.6, step 1: JOG V +800 is appended at the drain position plus 800. -/
theorem test_jog_appends :
    after (.jog .frame 0 800 1 0) cruising (fun s => (s.irm.targetV, s.irm.generation, s.lmc.v.queue.length)) =
      some (30800, 48, 2) := by decide
/-- 1.6, steps 2 and 3: an ABSOLUTE entry is appended behind a RELATIVE one, then replaced in place. -/
theorem test_write_replaces_waiting_absolute :
    (run [.jog .frame 0 800 1 0, .writeInstall .control 8 0 0 0 26000 0 1 0, .writeInstall .control 8 0 0 0 25000 0 1 0]
      cruising).lmc.v.queue.map Entry.target = [30000, 30800, 25000] := by decide
theorem test_readInstall_reserves :
    after (.readInstall .frame 1) ceiling (fun s => (s.irm.reserveFrame, s.irm.reserveControl)) = some (some 0, none) := by
  decide
/-- 1.6: the loser of two conditional writes is refused STALE. -/
theorem test_conditional_write_stale : statusOf (.writeInstall .control 2 0 0xF4 0 0 0 1 1) ceiling = some .stale := by decide
/-- R18: a CURRENT store takes the record. -/
theorem test_storePreset_current :
    after (.storePreset .control 7 0 1 0 0 0 0) homed (fun s => s.irm.presets.getD 7 none) =
      some (some ⟨24000, 9600, some (0, 0)⟩) := by decide
theorem test_recallPreset_empty : statusOf (.recallPreset .control 0 1 0) homed = some .empty := by decide
theorem test_recallPreset_runs :
    (run [.storePreset .control 0 1 0 25000 9600 0 0, .recallPreset .control 0 1 0] homed).lmc.v.queue =
      [⟨.absolute, .preset, 25000, .normal, true⟩] := by decide
theorem test_clearPreset :
    (run [.storePreset .control 0 1 0 25000 9600 0 0, .clearPreset .control 0] homed).irm.presets.getD 0 none = none := by
  decide
theorem test_readPreset_out_of_range : statusOf (.readPreset .control 8) homed = some .outOfRange := by decide

/-! ### The lens axes (1.6, 2.9, 3.7) -/

/-- 1.6: the stop position of an abort in the cruise at 27310 is 27566, generation 48. -/
theorem test_abort_stop_position :
    after (.abortMotion .control 0) cruising (fun s => (s.irm.targetV, s.irm.generation, s.lmc.v.queue.map Entry.target)) =
      some (27566, 48, [27566]) := by decide
/-- 2.9: a JOG of -10 in FLOOR is one final leg of 10 microsteps, the first after 800 microseconds. -/
theorem test_jog_floor :
    after (.jog .control 0 0xFFFFFFF6 1 0) homed (fun s => (s.lmc.v.stepTimer,
      match s.lmc.v.motion with | .running l => some (l.kind, l.n, l.nAcc) | _ => none)) =
      some (some 800, some (.final, 10, 5)) := by decide
/-- 2.9: in CEILING its first leg overshoots to 23894, 106 microsteps. -/
theorem test_jog_ceiling :
    after (.jog .control 0 0xFFFFFFF6 1 0) ceiling (fun s =>
      match s.lmc.v.motion with | .running l => some (l.kind, l.endPoint, l.n, l.nAcc) | _ => none) =
      some (some (.overshoot, 23894, 106, 53)) := by decide
/-- 2.9: target H = 12000 overshoots to 12064, 2464 microsteps. -/
theorem test_write_overshoots :
    after (.writeInstall .control 16 0 0 0 0 12000 1 0) homed (fun s =>
      match s.lmc.h.motion with | .running l => some (l.endPoint, l.n, l.nAcc) | _ => none) =
      some (some (12064, 2464, 256)) := by decide
/-- 2.9: the periods 800, 798, 103 of the ramp, and the cruise. -/
theorem test_ramp_table :
    [0, 1, 255].map ((AxisParams.default .h).rampPeriod 100) = [800, 798, 103] := by decide
theorem test_step_counts_on :
    after (.stepTimerExpiry .v) cruising (fun s => (s.lmc.v.position, s.lmc.v.index, s.lmc.v.stepTimer)) =
      some (27311, 1, some 200) := by decide
theorem test_stop_ends_with_lensDone :
    after (.stepTimerExpiry .v) stopping (fun s => (s.lmc.v.motion, s.cpi.port.events)) =
      some (.idle, [⟨.lensDone .v 24001 .aborted, 1⟩]) := by decide
/-- 3.7: HOME V starts APPROACH with a limit of 54000, the axis UNHOMED. -/
theorem test_home_starts_approach :
    after (.home .control 0) State.reset (fun s => (s.lmc.v.motion, s.lmc.v.trust)) =
      some (.homing ⟨.approach, 0, 54000, 0⟩, .unhomed) := by decide
/-- 3.7: the contact at count 4658 makes the count 0 and begins BACKOFF. -/
theorem test_home_contact :
    after (.stepTimerExpiry .v) (withV (homing .approach 19342 54000 4658) fun x => { x with endLo := true })
      (fun s => (s.lmc.v.position, s.lmc.v.motion)) = some (0, .homing ⟨.backoff, 0, 800, 4658⟩) := by decide
/-- R50, R54: with a back-off of 0 the phase ends as it begins; its beginning clears the edge flags. -/
theorem test_home_contact_without_backoff :
    after (.stepTimerExpiry .v)
      (withV (homing .approach 5 54000 4658) fun x => { x with
        endLo := true, flagLo := true, flagHi := true, params := { x.params with backoff := 0 } })
      (fun s => (s.lmc.v.trust, s.lmc.v.position, s.lmc.v.flagLo, s.lmc.v.flagHi)) = some (.homed, 0, false, false) := by
  decide
/-- R35, R50: a stop before the first BACKOFF microstep counts from the last APPROACH one, at 5000: P(2) of the ramp 800, 625, 450,
275 later. -/
theorem test_abort_after_contact :
    (run [.stepTimerExpiry .v, .abortMotion .control 0]
      (withV shortRamp fun x => { x with endLo := true, stepTimer := some 5300, lastStepAt := 5000 })).lmc.v.stepTimer =
      some 5450 := by decide
/-- 3.7: the last BACKOFF microstep homes the axis at 800 with HOME_DONE, its target at generation 1. -/
theorem test_home_done :
    after (.stepTimerExpiry .v) (homing .backoff 799 800 799)
      (fun s => (s.lmc.v.trust, s.irm.targetV, s.irm.generation)) = some (.homed, 800, 1) := by decide
theorem test_end_stop_halts :
    after (.stepTimerExpiry .v) (withV cruising fun x => { x with endHi := true })
      (fun s => (s.lmc.v.motion, s.lmc.v.trust, s.lmc.v.position)) = some (.idle, .unsure, 27310) := by decide
theorem test_endStopEdge_sets_flag :
    after (.endStopEdge .v .lo true) State.reset (fun s => (s.lmc.v.endLo, s.lmc.v.flagLo)) = some (true, true) := by decide
/-- 3.7: an edge at 24010 in a leg to 30096 corrects the count to 24000 and leaves 6096 microsteps to go. -/
theorem test_refMk_corrects :
    after (.refMkEdge .v true)
      (withV homed fun x => { x with
        motion := .running ⟨1, .overshoot, .plus, 30096, 29296, 256, 23210, 100, 256⟩, position := 24010,
        stepTimer := some 100, queue := [⟨.absolute, .control, 30000, .normal, true⟩] })
      (fun s => (s.lmc.v.position, match s.lmc.v.motion with | .running l => l.n - l.issued | _ => 0)) =
      some (24000, 6096) := by decide
/-- 3.7: an edge at 24040 is a slip. -/
theorem test_refMk_slips :
    after (.refMkEdge .v true) (withV cruising fun x => { x with position := 24040 })
      (fun s => (s.lmc.v.position, s.lmc.v.trust, s.cpi.port.events)) =
      some (24040, .unsure, [⟨.positionSlip .v 40 24040, 1⟩]) := by decide
theorem test_drvFlt_faults :
    after (.drvFlt .v true) State.reset (fun s => (s.lmc.v.motion, s.lmc.v.phase)) = some (.fault, .off) := by decide
theorem test_axisRecover :
    after (.axisRecover .control 0) faulted (fun s => (s.lmc.v.motion, s.lmc.v.phase)) = some (.idle, .rest) := by decide
theorem test_holdTimer :
    after (.holdTimerExpiry .v) (withV homed fun x => { x with phase := .hold, holdTimer := some 500000 })
      (fun s => (s.lmc.v.phase, s.now)) = some (.rest, 500000) := by decide
/-- R199: the READ_AXIS payload has 74 bytes, one of them the event summary. -/
theorem test_readAxis_length : (after (.readAxis .control 0) homed (answer .control)).join.map (·.2.length) = some 73 := by
  decide
/-- 2.9: at index 0 and level 64 the outputs are A 64 and B 0. -/
theorem test_coils_at_rest : ((coilA 0).level 64, (coilB 0).level 64) = (64, 0) := by decide

/-! ### Geometry and frames (4.10, 5.8) -/

/-- The inputs of case 1 of 4.10. -/
def caseOne : GeoInputs :=
  { ceiling.geoInputs with kv := -12, posV := 34400, generation := 48 }

/-- 4.10, case 1: A_V = -10650, F_V = 9321, the top panel corners 273 in. -/
theorem test_compute_case_one :
    let r := compute caseOne 1
    (r.aV, r.fV, r.tl, r.tr, r.bl, r.br, r.flags.inverted) = (-10650, 9321, ⟨273, 0⟩, ⟨273, 0⟩, ⟨0, 0⟩, ⟨0, 0⟩, true) := by
  decide
/-- 5.8, step 1: an ATTACH while a computation is in flight sets both marks. -/
theorem test_attach_in_flight :
    after (.attach .frame 4096 2400) { State.reset with ge := { State.reset.ge with inFlight := some ⟨caseOne, false⟩ } }
      (fun s => (s.ge.attachMark, s.ge.pendingMark, s.fmon.state, s.fpi.width)) = some (true, true, .armed, 4096) := by
  decide
theorem test_attach_small_raster : after (.attach .frame 639 2160) State.reset (fun s => s.fpi.attached) = some false := by
  decide
/-- 5.8, step 4: a marked computation is published at its completion, WARP_NEW with cause ATTACH. -/
theorem test_computation_published :
    after .computationComplete
      { State.reset with ge := { State.reset.ge with inFlight := some ⟨State.reset.geoInputs, true⟩ } }
      (fun s => (s.ge.live.seq, s.fpi.port.events)) = some (1, [⟨.warpNew 1 0 .attach, 1⟩]) := by decide
/-- 5.8, step 3: a frame mark makes the staged record live. -/
theorem test_fmark_promotes :
    after (.fmark 5000) { attached with ge := { attached.ge with staged := { attached.ge.staged with seq := 60 } } }
      (fun s => (s.ge.live.seq, s.fmon.window, s.lau.applied)) = some (60, some 105000, some 10000) := by decide
theorem test_lapse : after .lapseWindowExpiry attached (fun s => (s.fmon.state, s.cpi.port.events)) =
    some (.lapsed, [⟨.lapse 100, 1⟩]) := by decide
theorem test_detach : after (.detach .frame) attached (fun s => (s.fpi.attached, s.fpi.latched, s.fmon.state)) =
    some (false, none, .disarmed) := by decide
theorem test_lightRequest_detached :
    (after (.lightRequest .frame 100) State.reset (answer .frame)).join.map Prod.fst = some .notReady := by decide
/-- R198: the READ_WARP payload has 53 bytes, one of them the event summary. -/
theorem test_readWarp_length : (after (.readWarp .frame) attached (answer .frame)).join.map (·.2.length) = some 52 := by decide

/-! ### Temperatures (6.9) -/

/-- 6.9: 238 stays WARM under a T_warm of 240 with hysteresis 8, and 242 rises to it. -/
theorem test_hysteresis :
    [(Thermal.warm, (238 : Int)), (.normal, 242), (.warm, 281), (.critical, 296), (.critical, 291)].map
      (fun x => zoneState (if x.1 = .critical then Thresholds.defaults.exhaust else Thresholds.defaults.src) x.1 x.2) =
      [.warm, .warm, .hot, .critical, .hot] := by decide
/-- R101: a raw reading of 0x3B00 is 236 quarter degrees. -/
theorem test_slotRead_converts :
    after (.slotReadDone (.data 0x3B 0x00) free) State.reset (fun s => (s.tmon.slots.map SlotRecord.value).head?) =
      some (some (some 236)) := by decide
/-- 6.9: the third failure in a row makes the record LOST and raises SENSOR_LOST. -/
theorem test_third_failure_loses :
    after (.slotReadDone .noAckAddr free)
      (withTmon State.reset fun t => { t with slots := t.slots.set 0 ⟨.live, some 281, 2, some .noAckAddr⟩ })
      (fun s => (s.tmon.slots.head?.map SlotRecord.status, s.cpi.port.events)) =
      some (some .lost, [⟨.sensorLost 0 .src (some .noAckAddr), 1⟩]) := by decide
theorem test_timeout_counts :
    after (.probeBusTimeout ⟨1, free⟩) State.reset (fun s => s.tmon.slots.head?.map SlotRecord.lastCause) =
      some (some (some .timeout)) := by decide
/-- R98, R99: slot 0 reads 0x48 at pointer 0; no acknowledge of the address byte is followed by a STOP at once, a timeout by the
release alone. -/
theorem test_probe_bus :
    let t : ScanSlot := slotAt State.reset.tmon.latched 0
    (t.address, t.pointer) = (0x48, 0) ∧
      State.reset.probeBus (.slotReadDone .noAckAddr free) = [.start, .address 0x48 .write, .stop, .release] ∧
      State.reset.probeBus (.probeBusTimeout ⟨1, free⟩) = [.start, .release] := by decide
/-- R100: PB_SDA freed by the second pulse is followed by a STOP; nothing is driven with PB_SCL low. -/
theorem test_probe_bus_recovery :
    recoveryActs ⟨true, false, some 2⟩ = [.pulse, .pulse, .stop] ∧ recoveryActs ⟨false, false, none⟩ = [] := by decide
theorem test_scanStart_latches :
    after (.scanStart free) (withTmon State.reset fun t => { t with scan := none }) (fun s => s.tmon.scan) =
      some (some ⟨[0, 1, 2, 3, 4, 5], .clear⟩) := by decide
/-- 6.9: the dwell's expiry trips the part. -/
theorem test_dwell_trips :
    after .criticalDwellExpiry critical (fun s => (s.lau.session, s.tmon.trip.map TripRecord.cause, s.afc.fans.intake.output)) =
      some (.tripped, some .dwell, 63) := by decide
/-- R200: the READ_THERMAL payload has 133 bytes, one of them the event summary. -/
theorem test_readThermal_length :
    (after (.readThermal .control) State.reset (answer .control)).join.map (·.2.length) = some 132 := by rfl

/-! ### Air (7.8) -/

/-- 7.8: SRC at 236 in CEILING demands 52 of INTAKE and 42 of BLOWER; 8.10: at 266 in FLOOR 58 and 49. -/
theorem test_curves :
    (Afc.reset.ceilingCurves.intake.value 236, Afc.reset.ceilingCurves.blower.value 236,
      Afc.reset.floorCurves.intake.value 266, Afc.reset.floorCurves.blower.value 266) = (52, 42, 58, 49) := by decide
theorem test_kick_ends :
    after (.kickExpiry .intake) (withFan State.reset .intake { turning with output := 40, selected := 16, kick := some 1000000 })
      (fun s => (s.afc.fans.intake.output, s.afc.fans.intake.kick)) = some (16, none) := by decide
/-- 7.8: two edges 25 ms apart are 1200 rpm. -/
theorem test_tach_period :
    after (.tachEdgeAccepted .intake 165000 200)
      (withFan State.reset .intake { turning with tach := .starting, grace := some 1000000, lastEdge := some 140000 })
      (fun s => (s.afc.fans.intake.period, s.afc.fans.intake.rpm)) = some (25000, 1200) := by decide
/-- R131: a fall made while the output was 0 is no edge. -/
theorem test_tach_before_drive :
    after (.tachEdgeAccepted .intake 139999 200)
      (withFan State.reset .intake { turning with tach := .starting, lastEdge := none, drivenFrom := some 140000 })
      (fun s => s.afc.fans.intake.lastEdge) = some none := by decide
/-- 7.8: the edge timer's expiry at duty 30 stalls the INTAKE and makes the part HOT. -/
theorem test_edge_timer_stalls :
    after (.edgeTimerExpiry .intake) (withFan State.reset .intake turning)
      (fun s => (s.afc.fans.intake.tach, s.tmon.device)) = some (.stalled, .hot) := by decide
theorem test_grace_ends_turning :
    after (.graceTimerExpiry .intake)
      (withFan State.reset .intake { turning with tach := .starting, grace := some 100000 })
      (fun s => s.afc.fans.intake.tach) = some .turning := by decide
theorem test_setQuiet : after (.setQuiet .control 1) State.reset (fun s => s.afc.quiet) = some true := by decide

/-! ### Light (8.9, 8.10) -/

/-- 8.9: an accepted LIGHT_ON starts the ignition timer to 3000 ms. -/
theorem test_lightOn :
    after (.lightOn .control) ready (fun s => (s.lau.session, s.lau.ignition, s.lau.drive)) =
      some (.ignition, some 3000000, 0) := by decide
theorem test_lightOn_not_ready : statusOf (.lightOn .control) State.reset = some .notReady := by decide
/-- 8.9: LIGHT_OFF in LIT: the minimum to 20 s, the maximum to 180 s. -/
theorem test_lightOff :
    after (.lightOff .control) (inSession .lit) (fun s => (s.lau.session, s.lau.coolMin, s.lau.coolMax)) =
      some (.cooldown, .running 20000000, some 180000000) := by decide
theorem test_lightOk_rise : after (.lightOkRise 1200000) (inSession .ignition) (fun s => s.lau.session) = some .lit := by decide
theorem test_lightOk_fall :
    after (.lightOkFall 5) (inSession .lit) (fun s => (s.lau.session, s.lau.fault.map LightFault.reason)) =
      some (.cooldown, some .noLight) := by decide
theorem test_lightFlt :
    after (.lightFlt true 5) (inSession .lit) (fun s => (s.lau.session, s.lau.fault.map LightFault.reason)) =
      some (.cooldown, some .driver) := by decide
theorem test_ignition_times_out :
    after .ignitionTimerExpiry
      (withLau (inSession .ignition) fun l => { l with ignition := some 3000000, ignitionStart := some 0, drive := 4096 })
      (fun s => (s.lau.fault, s.lau.drive)) = some (some ⟨.noLight, 3000⟩, 0) := by decide
/-- 8.9: 179 lies below T_cool of 180 and ends the cool-down COOLED. -/
theorem test_cooled :
    after .cooldownMinExpiry
      (withLau (inSession .cooldown) fun l => { l with
        coolMin := .running 20000000, held := { l.held with zones := { l.held.zones with src := ⟨.live, some 179, .normal⟩ } } })
      (fun s => s.lau.session) = some .standby := by decide
theorem test_coolMax :
    after .coolMax (withLau (inSession .cooldown) fun l => { l with coolMax := some 180000000 })
      (fun s => (s.lau.session, s.cpi.port.events)) =
      some (.standby, [⟨.lightState .standby .cooldown .coolMax, 1⟩]) := by decide
/-- 8.9: the 24th slew step gives min(10000, 10240). -/
theorem test_slew_reaches_target :
    after .slewTimerExpiry
      (withLau (inSession .lit) fun l => { l with
        applied := some 10000, allowance := 13107, drive := 9984, slew := some 1440000 })
      (fun s => (s.lau.drive, s.lau.slew)) = some (10000, none) := by decide
/-- 8.10: SRC at 266 derates to 11059. -/
theorem test_derate : zoneDerate 2048 .warm 266 Thresholds.defaults.src = 11059 := by decide
theorem test_setLightMode : after (.setLightMode .control 0) State.reset (fun s => s.lau.mode) = some .eco := by decide
theorem test_clearLightFault :
    after (.clearLightFault .control) (withLau State.reset fun l => { l with fault := some ⟨.noLight, 3000⟩ })
      (fun s => s.lau.fault) = some none := by decide
/-- R201: the READ_LIGHT payload has 52 bytes, one of them the event summary. -/
theorem test_readLight_length :
    (after (.readLight .control) State.reset (answer .control)).join.map (·.2.length) = some 51 := by decide

/-! ### Ports and resets (9.6) -/

theorem test_getEvents_empties :
    after (.getEvents .control) (State.reset.raise (.lensDone .v 30000 .complete)) (fun s => s.cpi.port.events) = some [] := by
  decide
theorem test_setEventMask : after (.setEventMask .control 0x3FFFD) State.reset (fun s => s.cpi.port.mask) = some 0x3FFFD := by
  decide
/-- 9.6: a read before the response is formed is NOT_READY with the kind and length 0. -/
theorem test_pending_copy : readOut (.pending 0x09 .ok [1]) 4 = [0x10, 0x09, 0, 0] := by decide
/-- The bits of bytes on a wire, most significant bit first. -/
def wire (bytes : List Byte) : List Bool := bytes.flatMap fun b => (List.range 8).map b.getMsbD
/-- The levels that a line takes over the next n clocks of a transaction, each of which carries a 1. -/
def levels {α : Type} (line : Option Transaction → α) (before : Transaction) (s : State) (n : Nat) : List α :=
  (List.range n).map fun k => line (some (before ++ [⟨s, List.replicate k true⟩]))
/-- R165, R168: FP_SDO is high impedance with FP_CS_N high, and carries the copy of an EMPTY slot behind the type byte. -/
theorem test_fpSdo :
    fpSdo none = none ∧
      levels fpSdo [⟨State.reset, wire [0xA2]⟩] State.reset 32 = (wire [0x10, 0, 0, 0]).map some := by decide
/-- A response formed during the type byte is in the copy of a RESPONSE, and a RESTART taken then has emptied the slot; one taken
behind it is not in the copy (R165, R167, R179). -/
theorem test_copy_at_type_end :
    let full := State.reset.setSlot .frame (.full 0x11 .ok [0])
    let pending := State.reset.setSlot .frame (.pending 0x11 .ok [])
    levels fpSdo [⟨pending, (wire [0xA2]).take 7⟩, ⟨full, [false]⟩] full 16 = (wire [0, 0x11]).map some ∧
      levels fpSdo [⟨full, (wire [0xA2]).take 7⟩, ⟨State.reset, [false]⟩] full 8 = (wire [0x10]).map some ∧
      levels fpSdo [⟨full, wire [0xA2]⟩] State.reset 16 = (wire [0, 0x11]).map some := by decide
/-- R164: address 0x3A with the read direction is acknowledged, then the copy's bits go out, a 0 as a low line. -/
theorem test_cpSda_read :
    levels cpSda [⟨State.reset, wire [0x75]⟩] State.reset 1 = [true] ∧
      levels cpSda [⟨State.reset, wire [0x75] ++ [false]⟩] State.reset 9 = (wire [0x10]).map (!·) ++ [false] ∧
      levels cpSda [⟨State.reset, wire [0x77]⟩] State.reset 9 = List.replicate 9 false := by decide
/-- R164: each data byte of a write is acknowledged. -/
theorem test_cpSda_write :
    levels cpSda [⟨State.reset, wire [0x74] ++ [false]⟩] State.reset 9 = List.replicate 8 false ++ [true] := by decide
/-- R180: hard reset releases both lines at once, in the middle of a byte of the copy. -/
theorem test_hardReset_releases_lines :
    let sent : Transaction := [⟨State.reset, wire [0xA2] ++ [true, true, true]⟩]
    let read : Transaction := [⟨State.reset, wire [0x75] ++ [false, true]⟩]
    fpSdo (some sent) = some true ∧ fpSdo (some (sent ++ [⟨State.reset.hardReset, []⟩])) = none ∧
      cpSda (some read) = true ∧ cpSda (some (read ++ [⟨State.reset.hardReset, []⟩])) = false := by decide
theorem test_responseFormed :
    (run [.lightOff .control, .responseFormed .control] State.reset).cpi.port.slot = .full 0x31 .ok [0, 0] := by decide
/-- 9.6, "A RESTART": the halted axis keeps its position, which becomes its target; LENS_DONE, then INSTALL_CHANGED. -/
theorem test_restart :
    after (.restart .control) cruising (fun s => (s.lmc.v.motion, s.irm.targetV, s.cpi.port.events)) =
      some (.idle, 27310, [⟨.lensDone .v 27310 .restart, 1⟩, ⟨.installChanged 48 .part, 1⟩]) := by decide
theorem test_malformed_answer :
    after (.malformedRequest .control [0x01, 0x02, 0x00]) State.reset (answer .control) =
      some (some (.badRequest, [1, 0])) := by decide
theorem test_hardReset_short_pulse : after (.hardReset (some 999)) homed (fun s => s.lmc.v.trust) = some .homed := by decide
theorem test_hardReset : after (.hardReset none) homed (fun s => (s.lmc.v.trust, s.inReset)) = some (.unhomed, true) := by
  decide
theorem test_hardResetEnd : after (.hardResetEnd ⟨true, false, false⟩ free) State.reset.hardReset (fun s => (s.cpi.address, s.inReset)) =
    some (0x3B, false) := by decide
/-- R180: the request of a transaction that began in hard reset is ignored, which the next one on the port is not. -/
theorem test_crossing_request_ignored :
    (run [.hardReset none, .hardResetEnd ⟨false, true, false⟩ free, .lightOff .control] State.reset).cpi.port.slot = .empty ∧
      (run [.hardReset none, .hardResetEnd ⟨false, true, false⟩ free, .lightOff .control, .lightOn .control]
        State.reset).cpi.port.slot = .pending 0x30 .notReady [0, 0xFF] := by decide

/-! ### Parameters and tables (10.5) -/

theorem test_setParamAxis : after (.setParamAxis .control 0x01 0 40000) State.reset (fun s => s.lmc.v.params.travel) =
    some 40000 := by decide
theorem test_setParam : after (.setParam .control 0x20 0xFF 100) State.reset (fun s => s.ge.q) = some 100 := by decide
/-- R193: value, least, greatest, default of Q: 64, 1, 4096, 64. -/
theorem test_getParam :
    (after (.getParam .control 0x20 0xFF) State.reset (answer .control)).join.map Prod.snd =
      some [64, 0, 0, 0, 1, 0, 0, 0, 0, 0x10, 0, 0, 64, 0, 0, 0] := by decide
theorem test_beginLoad : after (.beginLoad .control 2 66) State.reset (fun s => s.cpi.load) =
    some (some ⟨.zones, 66, 0, [], none⟩) := by decide
/-- 10.5, step 2: a hysteresis of 0 at offset 30 is the first error. -/
theorem test_segment_field_error :
    after (.loadSegment .control 0 (((State.reset.tableImage .zones).set 30 0).take 56))
      { State.reset with cpi := { State.reset.cpi with load := some ⟨.zones, 66, 0, [], none⟩ } }
      (fun s => s.cpi.load.map fun l => (l.received, l.firstError)) = some (some (56, some (.field, 30))) := by decide
/-- 10.5, step 14: the whole good image is installed and counted. -/
theorem test_endLoad_installs :
    (run [.loadSegment .control 56 ((State.reset.tableImage .zones).drop 56), .endLoad .control]
      (loading (State.reset.tableImage .zones))).tmon.thresholdsCount = 1 := by decide
/-- 10.5: the first READ_TABLE of ZONES carries install count 0, image length 66 and 56 bytes. -/
theorem test_readTable :
    (after (.readTable .control 2 0) State.reset (answer .control)).join.map (fun a => (a.2.take 7, a.2.length)) =
      some ([2, 0, 0, 66, 0, 0, 0], 63) := by decide

/-! ### For each statement with hypotheses, states and operands that meet them -/

theorem witness_StepRunsFrontCommand :
    { State.reset with pending := [.coolMax] }.pending = .coolMax :: [] ∧ State.reset.pending = [] := by decide
theorem witness_EveryCommandCompletes :
    (∀ low, Instr.coolMax ≠ .hardReset low) ∧ (∀ ports bus, Instr.coolMax ≠ .hardResetEnd ports bus) ∧
      ∀ ports bus, Instr.hardReset none ≠ .hardResetEnd ports bus :=
  ⟨nofun, nofun, nofun⟩
theorem witness_HardResetSilencesThePart :
    State.reset.hardReset.inReset = true ∧ portOf (.lightOn .control) = some .control ∧
      (Instr.slewTimerExpiry ∈ [Instr.lapseWindowExpiry, .slewTimerExpiry]) := by decide
theorem witness_RefusedRequestsChangeNothing :
    portOf (.lightOn .control) = some .control ∧ Listens State.reset ∧
      after (.lightOn .control) State.reset (fun t => (t.port .control).slot) =
        some (.pending 0x30 .notReady [0, 0xFF]) ∧ 0x10 ≤ statusCode .notReady := by decide
theorem witness_PermissionTable :
    (∃ n, paramOf 0x32 0xFF = .ok n) ∧ Listens State.reset ∧ (readAxes 2).isSome ∧ (readFlag 1).isSome ∧
      (readSpeed 2).isSome ∧ (readMode 2).isSome ∧ (readTableCode 3).isSome ∧ segmentFits (List.replicate 56 0) = true ∧
      presenceFits 31 = true ∧ bit 31 0 = true ∧ (readOrientation 1).isSome :=
  ⟨⟨_, rfl⟩, by decide⟩
theorem witness_PortsAreSeparate :
    portOf (.readLight .control) = some .control ∧ Port.frame ≠ .control ∧
      (∀ r, Instr.readLight .control ≠ .restart r) ∧ (after (.readLight .control) State.reset id).isSome :=
  ⟨by decide, by decide, fun r h => (by cases h), by decide⟩
theorem witness_FramePortLimits :
    portOf (.jog .frame 0 10 1 0) = some .frame ∧ statusOf (.jog .frame 0 10 1 0) homed = none ∧
      (after (.jog .frame 0 10 1 0) homed (answer .frame)).join.map Prod.fst = some .accepted := by decide
theorem witness_RequestFrameRoundTrip :
    WellFormed (.loadSegment .frame 10 [1]) = true ∧ portOf (.loadSegment .frame 10 [1]) = some .frame ∧
      WellFormed (.loadSegment .frame 0xFFFF (List.replicate 56 0xFF)) = true := by decide
theorem witness_MalformedFrames :
    Listens State.reset ∧ kindLengths (0xFF : Byte).toNat = none ∧ kindLengths (0x49 : Byte).toNat = some (3, 58) ∧
      ((0x02 : Byte).toNat < 3 ∧ 58 < (0x3B : Byte).toNat ∧ 60 < (0x3D : Byte).toNat) ∧
      ((0x03 : Byte).toNat ≤ 60 ∧ 3 ≤ (0x03 : Byte).toNat ∧ (0x03 : Byte).toNat ≤ 58 ∧ [(0 : Byte), 0].length ≠ 3) ∧
      -- a code just outside each list, the presence byte at its edges, and parameters with an index that does not suit
      (1 < (2 : Byte).toNat ∧ (2 : Byte).toNat ≤ 2 ∧ 2 < (3 : Byte).toNat ∧ 3 < (4 : Byte).toNat) ∧
      (¬ 0 < (0 : Byte).toNat ∧ (0x1F : Byte).toNat < 32 ∧ ¬ (0x20 : Byte).toNat < 32 ∧ (0x1F : Byte).toNat % 2 = 1) ∧
      (¬ 0x01 ≤ (0x00 : Byte).toNat ∧ ¬ (0x14 : Byte).toNat ≤ 0x13 ∧ ¬ 0x20 ≤ (0x14 : Byte).toNat ∧
        (0x13 : Byte).toNat ≤ 0x13 ∧ ¬ (3 : Byte).toNat ≤ 2 ∧ (0x32 : Byte).toNat ≤ 0x32 ∧ (0 : Byte) ≠ 0xFF) := by
  decide
theorem witness_ResponsesAndCopies :
    (Awake (answered State.reset .frame 0x12 .notReady []) ∧
      ((answered State.reset .frame 0x12 .notReady []).port .frame).slot = .pending 0x12 .notReady [] ∧ Awake State.reset ∧
      (0x3B : BitVec 7) ≠ State.reset.cpi.address ∧ (0x3A : BitVec 7) = State.reset.cpi.address) ∧
      ∀ kind status body, (State.reset.port .frame).slot ≠ .pending kind status body :=
  ⟨by decide, fun _ _ _ h => by cases h⟩
/-- A write of one byte, a read whose first byte is acknowledged and its like left unacknowledged, another address, a REQUEST and
a RESPONSE meet the hypotheses on transactions. -/
theorem witness_ResponsesAndCopies_transactions :
    let at_ (bits : List Bool) : Transaction := [⟨State.reset, bits⟩]
    (∀ bits, ∀ x ∈ at_ bits, Awake x.state ∧ x.state.cpi.address = 0x3A) ∧
      (∀ t ∈ [wire [0x74] ++ [false], wire [0x74]], t.take 8 = (List.range 7).map (0x3A : BitVec 7).getMsbD ++ [false]) ∧
      (wire [0x77]).take 8 = (List.range 7).map (0x3B : BitVec 7).getMsbD ++ [true] ∧
      (∀ acknowledge : Bool,
        let read := wire [0x75] ++ [false] ++ wire [0x10] ++ [acknowledge]
        read.take 8 = (List.range 7).map (0x3A : BitVec 7).getMsbD ++ [true] ∧ 17 < read.length ∧
          read[17]? = some acknowledge ∧ read = wire [0x75] ++ false :: (wire [0x10] ++ [acknowledge]) ∧
          (wire [0x75]).length = 8) ∧
      (wire [0xA1]).take 8 = (List.range 8).map (0xA1 : Byte).getMsbD ∧
      (wire [0xA2]).take 8 = (List.range 8).map (0xA2 : Byte).getMsbD ∧
      wire [0xA2] = (wire [0xA2]).take 7 ++ false :: [] ∧ ((wire [0xA2]).take 7).length = 7 := by
  refine ⟨fun bits x h => ?_, by decide⟩
  rw [List.mem_singleton.mp h]
  exact ⟨rfl, rfl⟩
theorem witness_EventRequests :
    Listens State.reset ∧ (0x3FFFF : BitVec 24).toNat < 2 ^ 18 ∧ 2 ^ 18 ≤ (0x40000 : BitVec 24).toNat := by decide
theorem witness_RaisingAnEvent :
    routed .frame .lapse = false ∧ routed .frame .warpNew = true ∧ routed .control .lapse = true ∧
      ((State.reset.raise (.lapse 100)).raise (.lapseEnd .fmark 5)).cpi.port.events =
        [⟨.lapse 100, 1⟩] ++ ⟨.lapseEnd .fmark 5, 1⟩ :: [] ∧
      (Event.lapse 100).kind ≠ (Event.lapseEnd .fmark 5).kind := by decide
theorem witness_Restart :
    Listens cruising ∧ cruising.lmc.v.moving = true ∧ cruising.lmc.h.moving = false ∧ Listens homed ∧
      homed.lmc.v.moving = false ∧ homed.lmc.h.moving = false := by decide
theorem witness_HardResetAndItsEnd :
    ((some 2000 : Option Nat).all (2000 ≤ ·) = true ∧ (none : Option Nat).all (2000 ≤ ·) = true) ∧ 999 < 1000 ∧
      (1000 ≤ 1000 ∧ 1999 < 2000) ∧ State.reset.lmc.v.drvFlt = false ∧ State.reset.lmc.h.drvFlt = false ∧
      (withV State.reset fun x => { x with drvFlt := true }).lmc.v.drvFlt = true ∧
      (withH (withV State.reset fun x => { x with drvFlt := true }) fun x => { x with drvFlt := true }).lmc.h.drvFlt = true ∧
      ([0, 1, 2, 3, 4, 5] : List Nat).Nodup ∧ busFound free = .clear ∧ busFound ⟨false, true, none⟩ = .stuck ∧ Awake State.reset ∧
      (State.reset.setCrossing .control true).cpi.port.crossing = true ∧ Awake (State.reset.setCrossing .control true) ∧
      portOf (.lightOff .control) = some .control ∧ isMalformed .control [0x00] = true := by decide
theorem witness_Reservations :
    Listens homed ∧ 2 ≤ (2 : Byte).toNat ∧ homed.irm.reservation .control ≠ some homed.irm.generation ∧
      (run [.readInstall .control 1] homed).irm.reservation .control =
        some (run [.readInstall .control 1] homed).irm.generation ∧
      presenceFits 31 = true ∧ (readOrientation 1).isSome ∧ (readSpeed 2).isSome ∧ (readAxis 1).isSome ∧
      (0xFFFF : Word32) ≠ 0 ∧ (0xFFFF : Word32).toInt.natAbs ≤ 65535 ∧ (7 : Byte).toNat < 8 ∧
      ((run [.storePreset .control 7 0 1 0 0 0 0] homed).irm.preset 7).isSome := by decide
/-- A state whose IDLE axes have empty queues. -/
theorem homed_headsStarted : HeadsStarted homed := fun a _ => by cases a <;> rfl
theorem witness_WriteCodes :
    Listens homed ∧ HeadsStarted homed ∧ presenceFits 7 = true ∧ bit 7 3 = false ∧ bit 7 4 = false ∧ bit 7 0 = true ∧
      readOrientation 1 = some .ceiling ∧ (readSpeed 0).isSome ∧ (0xE1 : Byte).toInt < -30 ∧ 30 < (0x1F : Byte).toInt :=
  ⟨by decide, homed_headsStarted, by decide⟩
theorem witness_WriteTargetStartsAMove :
    Listens homed ∧ HeadsStarted homed ∧ CanRun homed ∧ readSpeed 2 = some .fast ∧ homed.lmc.v.motion = .idle ∧
      homed.lmc.v.trust = .homed ∧ homed.lmc.v.pendingHome = false ∧
      max 0 (min (homed.lmc.v.params.travel : Int) (48001 : Word32).toInt) ≠ homed.lmc.v.position :=
  ⟨by decide, homed_headsStarted, by decide⟩
/-- Writes of both targets and a code: every check of R8 has a state that fails it first, and one that passes them all. -/
theorem witness_WriteTargetStartsAMove_checks :
    (∀ a : Axis, (homed.axis a).motion = .idle ∧ (homed.axis a).pendingHome = false ∧ (homed.axis a).trust = .homed ∧
        (homed.axis a).queue = []) ∧
      presenceFits 26 = true ∧ bit 26 0 = false ∧ bit 26 3 = true ∧ bit 26 4 = true ∧ Listens critical ∧ ¬ CanRun critical ∧
      CanRun (homing .approach 0 54000 24000) ∧ (homing .approach 0 54000 24000).lmc.v.motion.mode = .homing ∧
      (withV stopping fun x => { x with pendingHome := true }).lmc.v.pendingHome = true ∧
      CanRun faulted ∧ faulted.lmc.v.motion = .fault ∧ faulted.lmc.v.pendingHome = false ∧ faulted.lmc.h.motion = .idle ∧
      CanRun State.reset ∧ State.reset.lmc.v.motion = .idle ∧ State.reset.lmc.v.trust ≠ .homed ∧
      homed.drain .v ≠ 0 ∧ homed.drain .h = 9600 :=
  ⟨fun a => by cases a <;> decide, by decide⟩
/-- V RUNNING with a queue of a given back. -/
def queued (back : List Entry) : State :=
  withV cruising fun x => { x with queue := x.queue ++ back }
theorem queued_headsStarted (back : List Entry) : HeadsStarted (queued back) := by
  intro a; cases a
  · intro h
    have e : ((queued back).axis .v).motion.mode = .running := rfl
    rw [h] at e; cases e
  · intro _; rfl
/-- Each clause of the statement: the drain position, a waiting ABSOLUTE entry, an append, four entries. -/
theorem witness_WriteTargetJoinsTheQueue :
    HeadsStarted (queued []) ∧ (∃ l, cruising.lmc.v.motion = .running l) ∧
      Listens cruising ∧ CanRun cruising ∧ readSpeed 1 = some .normal ∧ cruising.lmc.v.trust = .homed ∧
      cruising.lmc.v.pendingHome = false ∧
      cruising.lmc.v.queue = [] ++ [⟨.absolute, .frame, 30000, .normal, true⟩] ∧
      (queued [⟨.absolute, .control, 26000, .slow, false⟩]).lmc.v.queue =
        [⟨.absolute, .frame, 30000, .normal, true⟩] ++ [⟨.absolute, .control, 26000, .slow, false⟩] ∧
      (queued (List.replicate 3 ⟨.relative, .control, 26000, .slow, false⟩)).lmc.v.queue.length = 4 ∧
      (0 : Int) ≤ (48000 : Word32).toInt ∧ (48000 : Word32).toInt ≤ cruising.lmc.v.params.travel :=
  ⟨queued_headsStarted [], ⟨_, rfl⟩, by decide⟩
theorem witness_JogAppendsAMove :
    Listens homed ∧ HeadsStarted homed ∧ CanRun homed ∧ readAxis 0 = some .v ∧ readSpeed 0 = some .slow ∧
      65535 < (65536 : Word32).toInt.natAbs ∧ (0xFFFF0001 : Word32).toInt.natAbs ≤ 65535 ∧
      cruising.lmc.v.motion.mode = .running ∧ cruising.lmc.v.queue.length < 4 ∧
      4 ≤ (queued (List.replicate 3 ⟨.relative, .control, 26000, .slow, false⟩)).lmc.v.queue.length ∧
      homed.lmc.v.motion = .idle ∧ homed.drain .v + (1 : Word32).toInt ≠ homed.lmc.v.position ∧
      (let edge := withV homed fun x => { x with position := 48000 }
       max 0 (min (48000 : Int) (edge.drain .v + (1 : Word32).toInt)) = edge.lmc.v.position) ∧
      0 < homed.lmc.v.params.tHold ∧
      (Listens critical ∧ ¬ CanRun critical ∧ Listens faulted ∧ CanRun faulted ∧ faulted.lmc.v.motion = .fault ∧
        CanRun (homing .approach 0 54000 24000) ∧ (homing .approach 0 54000 24000).lmc.v.motion.mode = .homing) :=
  ⟨by decide, homed_headsStarted, by decide⟩
theorem witness_LensMemories :
    Listens homed ∧ (7 : Byte).toNat < 8 ∧ 8 ≤ (8 : Byte).toNat ∧ readFlag 1 = some true ∧ homed.lmc.v.trust = .homed ∧
      homed.lmc.h.trust = .homed ∧ State.reset.lmc.v.trust ≠ .homed := by decide
/-- A state with slot 0 filled. -/
def stored : State := run [.storePreset .control 0 1 1 48000 9600 0xF4 0] homed
theorem stored_idle (a : Axis) :
    (stored.axis a).motion = .idle ∧ (stored.axis a).queue = [] ∧ (stored.axis a).pendingHome = false := by
  cases a <;> decide
theorem witness_RecallPreset :
    (∀ a : Axis, (stored.axis a).motion = .idle ∧ (stored.axis a).queue = [] ∧ (stored.axis a).pendingHome = false) ∧
      Listens stored ∧ (0 : Byte).toNat < 8 ∧ readSpeed 1 = some .normal ∧ homed.irm.preset 7 = none ∧
      stored.irm.preset 0 = some ⟨48000, 9600, some (-12, 0)⟩ ∧ CanRun stored ∧ ¬ CanRun critical ∧
      stored.lmc.v.trust = .homed ∧ stored.lmc.h.trust = .homed ∧ State.reset.lmc.v.trust ≠ .homed ∧
      (48000 : Int) ≠ stored.lmc.v.position ∧ 9600 = stored.lmc.h.position ∧ -12 ≠ stored.irm.kv ∧ 0 = stored.irm.kh ∧
      stored.ge.inFlight = none ∧
      { stored with ge := { stored.ge with inFlight := some ⟨stored.geoInputs, false⟩ } }.ge.inFlight.isSome = true :=
  ⟨stored_idle, by decide⟩

/-- A state with no axis STOPPING. -/
theorem cruising_stopsRun : StopsRun cruising := by
  intro a st h
  have e : (cruising.axis a).motion.mode ≠ .stopping := by cases a <;> decide
  rw [h] at e; exact absurd rfl e
/-- V at the start of a leg. -/
def unstarted : State :=
  withV homed fun x => { x with
    motion := .running ⟨1, .final, .plus, 24010, 10, 5, 0, 100, 0⟩, phase := .run, stepTimer := some 800,
    queue := [⟨.absolute, .control, 24010, .normal, true⟩] }
theorem unstarted_stopsRun : StopsRun unstarted := by
  intro a st h
  have e : (unstarted.axis a).motion.mode ≠ .stopping := by cases a <;> decide
  rw [h] at e; exact absurd rfl e
theorem witness_AbortMotion :
    Listens cruising ∧ StopsRun cruising ∧ readAxes 0 = some (true, false) ∧ readAxes 2 = some (true, true) ∧
      (∃ st, cruising.lmc.v.stopOf .aborted = some st ∧ 0 < st.remaining ∧ fitsCount st.position = true) ∧
      (∃ st, shortRamp.lmc.v.stopOf .aborted = some st ∧ fitsCount st.position = true) ∧
      (∃ st, unstarted.lmc.v.stopOf .aborted = some st ∧ st.remaining = 0 ∧ fitsCount st.position = true ∧
        unstarted.lmc.v.pendingHome = false) ∧
      homed.lmc.v.stopOf .aborted = none ∧ homed.lmc.h.stopOf .aborted = none :=
  ⟨by decide, cruising_stopsRun, by decide, by decide, ⟨_, rfl, by decide⟩, ⟨_, rfl, by decide⟩,
    ⟨_, rfl, by decide⟩, by decide⟩
theorem witness_Home :
    StopsRun cruising ∧ StopsRun unstarted ∧
      -- a stop of some microsteps, and one of none
      (∃ l, cruising.lmc.v.motion = .running l ∧ 0 < l.toStop ∧
        fitsCount (cruising.lmc.v.position + l.dir.sign * l.toStop) = true) ∧
      (∃ l, unstarted.lmc.v.motion = .running l ∧ l.toStop = 0 ∧
        fitsCount (unstarted.lmc.v.position + l.dir.sign * l.toStop) = true) ∧
      (Listens cruising ∧ CanRun cruising ∧ cruising.lmc.v.motion.mode = .running ∧ cruising.lmc.v.pendingHome = false) ∧
      (Listens unstarted ∧ CanRun unstarted ∧ unstarted.lmc.v.motion.mode = .running ∧
        unstarted.lmc.v.pendingHome = false) ∧
      Listens homed ∧ readAxes 2 = some (true, true) ∧ CanRun homed ∧ ¬ CanRun critical ∧ faulted.lmc.v.motion = .fault ∧
      (homing .approach 0 54000 24000).lmc.v.motion.mode = .homing ∧ homed.lmc.v.motion ≠ .fault ∧
      homed.lmc.v.motion.mode ≠ .homing ∧ homed.lmc.v.pendingHome = false :=
  ⟨cruising_stopsRun, unstarted_stopsRun, ⟨_, rfl, by decide⟩, ⟨_, rfl, by decide⟩, by decide⟩
theorem witness_LensUpkeep :
    Listens faulted ∧ readAxes 0 = some (true, false) ∧ faulted.lmc.v.motion = .fault ∧ faulted.lmc.v.drvFlt = false ∧
      (withV faulted fun x => { x with drvFlt := true }).lmc.v.drvFlt = true ∧ readAxis 1 = some .h ∧ readAxis 2 = none ∧
      homed.lmc.v.holdTimer = none ∧
      (withV homed fun x => { x with phase := .hold, holdTimer := some 500000 }).lmc.v.holdTimer = some 500000 := by decide
theorem witness_StepTimer :
    (Awake cruising ∧ homed.lmc.v.stepTimer = none ∧ cruising.lmc.v.stepTimer = some 100) ∧
      (∃ l, cruising.lmc.v.motion = .running l ∧ cruising.lmc.v.clear l.dir ∧ l.issued + 1 < l.n ∧
        fitsCount (cruising.lmc.v.position + l.dir.sign) = true) ∧
      -- the last microstep of a final leg, with nothing waiting, an entry elsewhere, an entry at the position
      (∃ l, (arriving []).lmc.v.motion = .running l ∧ (arriving []).lmc.v.clear l.dir ∧ l.n ≤ l.issued + 1 ∧
        l.kind = .final ∧ fitsCount ((arriving []).lmc.v.position + l.dir.sign) = true) ∧
      (∃ entry, (arriving []).lmc.v.queue = [entry]) ∧ CanRun (arriving []) ∧
      (∃ entry next rest, (arriving [⟨.absolute, .control, 0, .slow, false⟩]).lmc.v.queue = entry :: next :: rest ∧
        next.target ≠ 30000) ∧
      (∃ entry next, (arriving [⟨.absolute, .control, 30000, .slow, false⟩]).lmc.v.queue = [entry, next] ∧
        next.target = 30000) ∧
      (∃ l : Leg, l.n ≤ l.issued + 1 ∧ l.kind = .overshoot) :=
  ⟨by decide, ⟨_, rfl, by decide⟩, ⟨_, rfl, by decide⟩, ⟨_, rfl⟩, by decide, ⟨_, _, _, rfl, by decide⟩,
    ⟨_, _, rfl, rfl⟩, ⟨⟨1, .overshoot, .minus, 23894, 106, 53, 105, 100, 0⟩, by decide, rfl⟩⟩
/-- The last microstep of a stop: with nothing behind it, with a pending home, with an entry behind it, at rest elsewhere than
recorded. -/
theorem witness_StepTimer_stops :
    (∃ st, stopping.lmc.v.motion = .stopping st ∧ stopping.lmc.v.clear st.dir ∧ st.remaining = 1 ∧
      fitsCount (stopping.lmc.v.position + st.dir.sign) = true ∧ stopping.lmc.v.position + st.dir.sign = st.position ∧
      (if st.abandoned then stopping.lmc.v.queue else stopping.lmc.v.queue.tail) = []) ∧
      (stopping.lmc.v.stepTimer = some 100 ∧ stopping.lmc.v.pendingHome = false ∧ CanRun stopping ∧
        (withV stopping fun x => { x with pendingHome := true }).lmc.v.pendingHome = true) ∧
      (∃ next, (withV stopping fun x => { x with
        queue := x.queue ++ [⟨.relative, .control, 24500, .fast, false⟩] }).lmc.v.queue.tail = [next] ∧
        next.target ≠ 24001) ∧
      (withV stopping fun x => { x with position := 24024 }).lmc.v.position + 1 ≠ (24001 : Int) :=
  ⟨⟨_, rfl, by decide⟩, by decide, ⟨_, rfl, by decide⟩, by decide⟩
theorem witness_EndStopContacts :
    let s := withV cruising fun x => { x with endHi := true }
    let t := withV stopping fun x => { x with endHi := true, pendingHome := true }
    Awake s ∧ (∃ l, s.lmc.v.motion = .running l ∧ l.dir = .plus) ∧ s.lmc.v.stepTimer = some 100 ∧
      ¬ s.lmc.v.clear .plus ∧ s.lmc.v.pendingHome = false ∧
      (∃ st, t.lmc.v.motion = .stopping st ∧ st.dir = .plus) ∧ ¬ t.lmc.v.clear .plus ∧ CanRun t :=
  ⟨by decide, ⟨_, rfl, rfl⟩, by decide, fun h => absurd h.1 (by decide), by decide, ⟨_, rfl, rfl⟩,
    fun h => absurd h.1 (by decide), by decide⟩
/-- The last microstep and one before it of CLEAR and BACKOFF, the contact of APPROACH with and without a back-off, its limit. -/
theorem witness_HomingSteps :
    let atLo (s : State) : State := withV s fun x => { x with endLo := true }
    let contact := withV (homing .approach 5 54000 1) fun x => { x with flagLo := true }
    ¬ contact.lmc.v.clear .minus ∧ ¬ (withV (homing .backoff 5 800 5) fun x => { x with endHi := true }).lmc.v.clear .plus ∧
      Awake (homing .backoff 799 800 799) ∧ (homing .backoff 799 800 799).lmc.v.motion = .homing ⟨.backoff, 799, 800, 0⟩ ∧
      (homing .backoff 799 800 799).lmc.v.stepTimer = some 300 ∧ (homing .backoff 799 800 799).lmc.v.clear .plus ∧
      (homing .backoff 799 800 799).lmc.v.endLo = false ∧ (atLo (homing .backoff 799 800 799)).lmc.v.endLo = true ∧
      (800 ≤ 799 + 1 ∧ 798 + 1 < 800 ∧ fitsCount (799 + 1) = true) ∧
      (homing .clear 799 800 799).lmc.v.motion = .homing ⟨.clear, 799, 800, 0⟩ ∧
      (homing .approach 53999 54000 1).lmc.v.clear .minus ∧ (53999 < 54000 ∧ 54000 ≤ 54000) ∧
      0 < min contact.lmc.v.params.backoff contact.lmc.v.params.travel ∧
      min { contact.lmc.v.params with backoff := 0 }.backoff contact.lmc.v.params.travel = 0 :=
  ⟨fun h => absurd h.2 (by decide), fun h => absurd h.1 (by decide), by decide⟩
theorem witness_DriverFault :
    Awake homed ∧ homed.lmc.v.motion = .idle ∧ homed.lmc.v.queue = [] ∧ homed.lmc.v.pendingHome = false ∧
      faulted.lmc.v.motion = .fault ∧ cruising.lmc.v.moving = true ∧ (homing .clear 0 800 0).lmc.v.moving = true ∧
      (withV stopping fun x => { x with pendingHome := true }).lmc.v.moving = true := by decide
/-- The mark at the edge of the tolerance, and one count beyond it. -/
theorem witness_ReferenceMark :
    let s := withV cruising fun x => { x with position := 24024 }
    -- a leg from 23990 to 24010, and one to the mark itself, at 24008
    let behind (endPoint : Int) : State := withV s fun x => { x with
      position := 24008,
      motion := .running ⟨1, .final, .plus, endPoint, 20, 10, 18, 100, 2⟩,
      queue := [⟨.absolute, .frame, endPoint, .normal, true⟩] }
    (Awake s ∧ s.lmc.v.trust ≠ .unhomed ∧ (s.lmc.v.position - s.lmc.v.params.refPos).natAbs ≤ s.lmc.v.params.refTol) ∧
      (∃ l, s.lmc.v.motion = .running l ∧ 0 < l.dir.sign * (l.endPoint - s.lmc.v.params.refPos)) ∧
      (∃ l, (behind 24000).lmc.v.motion = .running l ∧ l.dir.sign * (l.endPoint - s.lmc.v.params.refPos) ≤ 0) ∧
      (∃ entry, (behind 24000).lmc.v.queue = [entry] ∧ entry.target = s.lmc.v.params.refPos) ∧
      (∃ entry rest, cruising.lmc.v.queue = entry :: rest ∧ entry.target ≠ s.lmc.v.params.refPos) ∧
      stopping.lmc.v.motion.mode = .stopping ∧
      s.lmc.v.params.refTol < (24025 - (s.lmc.v.params.refPos : Int)).natAbs :=
  ⟨by decide, ⟨_, rfl, by decide⟩, ⟨_, rfl, by decide⟩, ⟨_, rfl, by decide⟩, ⟨_, _, rfl, by decide⟩, by decide⟩
theorem witness_Legs :
    (homed.lmc.v.position ≠ (23990 : Int) ∧ homed.lmc.v.position = (24000 : Int)) ∧
      1 ≤ homed.lmc.v.params.nRamp ∧
      (let l : Leg := ⟨1, .final, .minus, 23990, 10, 5, 0, 100, 0⟩
       l.nAcc = min homed.lmc.v.params.nRamp (l.n / 2) ∧ 9 < l.n ∧ l.pRun ≤ homed.lmc.v.params.pStart) := by decide
theorem witness_CoilDrive :
    homed.lmc.v.params.iGrav = some 64 ∧ cruising.lmc.v.phase ≠ .off ∧ faulted.lmc.v.phase = .off := by decide

theorem witness_InsetFraction :
    (-30 : Int) ≠ 0 ∧ 16384 ≤ 16384 ∧ (-32768 : Int) ≤ -32768 ∧ (32768 : Int) ≤ 32768 := by decide
theorem witness_AxisStages : 0 < homed.lmc.v.params.kspan ∧ (0 : Int) = 0 := by decide
theorem witness_WarpCorners :
    homed.geoInputs.orientation = .floor ∧ caseOne.orientation = .ceiling ∧ caseOne.kv < 0 := by decide
theorem witness_Computations :
    let s := { State.reset with ge := { State.reset.ge with inFlight := some ⟨caseOne, true⟩ } }
    Awake s ∧ s.ge.inFlight = some ⟨caseOne, true⟩ ∧ s.ge.pendingMark = false ∧ s.recompute.ge.pendingMark = true ∧
      State.reset.ge.inFlight = none ∧ seqGreater 0 0xFFFFFFFF = true ∧ seqGreater 0x7FFFFFFF 0 = true ∧
      seqGreater 0x80000000 0 = false := by decide
theorem witness_FrameMarksAndLapses :
    Awake attached ∧ attached.fmon.state ≠ .disarmed ∧ State.reset.fmon.state = .disarmed ∧
      attached.fpi.latched = some 10000 ∧ attached.fmon.state ≠ .lapsed ∧
      (withLau attached fun l => { l with session := .lit }).lau.session.lightEn = true ∧
      attached.fmon.window = some 100000 ∧ State.reset.fmon.window = none ∧ State.reset.fpi.latched = none ∧
      { attached with fmon := { attached.fmon with state := .lapsed, lapseStart := some 0 } }.fmon.state = .lapsed := by decide
theorem witness_AttachAndDetach :
    Listens attached ∧ attached.fpi.attached = true ∧ State.reset.fpi.attached = false ∧
      (640 ≤ (640 : Word16).toNat ∧ (4096 : Word16).toNat ≤ 4096 ∧ 360 ≤ (360 : Word16).toNat ∧
        (2400 : Word16).toNat ≤ 2400) ∧ ¬ (4097 : Word16).toNat ≤ 4096 ∧ State.reset.ge.inFlight = none := by decide
theorem witness_PlainReads :
    (∃ n, paramOf 0x13 0 = .ok n) ∧ (∃ o, paramOf 0x00 0 = .error o) ∧ (∃ st, stopping.lmc.v.motion = .stopping st) ∧
      (∃ l, cruising.lmc.v.motion = .running l ∧ l.number < 256) ∧ Listens State.reset ∧
      readTableCode 0 = some .keystone ∧ (61 : Word16).toNat < Table.keystone.length ∧
      Table.keystone.length ≤ (62 : Word16).toNat ∧ cruising.lmc.v.queue.length ≤ 4 ∧ homed.lmc.v.motion.mode ≠ .running ∧
      tripped.tmon.trip = some ⟨.absolute, .zone .src, some 360⟩ ∧ State.reset.tmon.trip = none ∧ State.reset.lau.fault = none :=
  ⟨⟨_, rfl⟩, ⟨_, rfl⟩, ⟨_, rfl⟩, ⟨_, rfl, by decide⟩, by decide⟩

theorem witness_ThermalLevels :
    Thresholds.defaults.src.warm < Thresholds.defaults.src.hot ∧ Thresholds.defaults.src.hot < Thresholds.defaults.src.crit ∧
      Thresholds.defaults.src.of .critical = some 320 ∧ Thermal.hot ≠ .normal ∧
      (SlotRecord.mk .live (some 236) 0 none).status = .live ∧
      (∀ r ∈ [SlotRecord.mk .lost (some 281) 3 none], r.status ≠ .live) := by decide
theorem witness_Scans :
    Awake State.reset ∧ enabledSlots State.reset.tmon.table = 0 :: [1, 2, 3, 4, 5] ∧
      enabledSlots (State.reset.tmon.table.map fun x => { x with enabled := false }) = [] ∧
      State.reset.hardReset.tmon.scan = none ∧ State.reset.tmon.scan = some ⟨0 :: 1 :: [2, 3, 4, 5], .clear⟩ ∧
      (withTmon State.reset fun t => { t with scan := some ⟨[5], .recovered⟩ }).tmon.scan = some ⟨5 :: [], .recovered⟩ ∧
      ((0x9600 : BitVec 16).toInt / 64 < -160 ∧ 600 ≤ (0x9600 : BitVec 16).toNat / 64) ∧
      [1, 2, 3, 4, 5].Nodup ∧ busFound ⟨true, false, some 9⟩ = .recovered ∧ busFound ⟨true, false, none⟩ = .stuck ∧
      busFound free = .clear ∧
      absoluteZone (PerZone.same ⟨.live, some 360, .critical⟩) Thresholds.defaults ≠ none := by decide
/-- A session whose evaluation finds the source LIVE at a temperature. -/
def evaluatedAt (session : Session) (minimum : CoolMin) (x : Int) : State :=
  State.evaluate
    (withTmon (withLau State.reset fun l => { l with session := session, coolMin := minimum }) fun t =>
      { t with slots := t.slots.map fun r => { r with status := .live, value := some x } }) .clear
/-- The three ways of a session through an evaluation: the source has cooled, it has not, it has reached T_abs. -/
theorem witness_Scans_session :
    (evaluatedAt .cooldown .elapsed 100).lau.session = .standby ∧ (evaluatedAt .cooldown .elapsed 100).lau.Cold ∧
      (evaluatedAt .cooldown .elapsed 180).lau.session = .cooldown ∧ (evaluatedAt .lit .stopped 100).lau.session = .lit ∧
      (evaluatedAt .lit .stopped 100).tmon.trip = State.reset.tmon.trip ∧
      (evaluatedAt .lit .stopped 600).tmon.trip ≠ State.reset.tmon.trip ∧
      (evaluatedAt .lit .stopped 600).lau.session = .tripped := by decide
theorem witness_ThermalStop :
    let s := withTmon cruising fun t => { t with device := .critical }
    let turns := withFan State.reset .blower turning
    StopsRun s ∧ s.tmon.device = .critical ∧
      (∃ st, s.lmc.v.stopOf .thermal = some st ∧ fitsCount st.position = true) ∧ s.lmc.h.stopOf .thermal = none ∧
      (∃ st, shortRamp.lmc.v.stopOf .thermal = some st ∧ fitsCount st.position = true) ∧
      Awake turns ∧ turns.afc.fans.blower.edge = some 500000 ∧ turns.afc.fans.blower.tach = .turning ∧
      turns.afc.fans.blower.selected ≠ 0 ∧ turns.tmon.device ≠ .critical ∧ turns.tmon.trip = none ∧
      tripped.tmon.trip ≠ none :=
  ⟨cruising_stopsRun, by decide, ⟨_, rfl, by decide⟩, by decide, ⟨_, rfl, by decide⟩, by decide⟩
theorem witness_DwellTrip :
    Awake critical ∧ State.reset.tmon.dwell = none ∧ critical.tmon.dwell = some 12800000 ∧ critical.tmon.trip = none ∧
      critical.afc.startDuty ≤ 63 ∧ EachFan critical.afc FanRecord.KickFits ∧
      (critical.tmon.zones.exhaust.inUse = true ∧ critical.tmon.zones.exhaust.state = .critical) ∧
      stopping.lmc.v.moving = true ∧ critical.lmc.v.moving = false ∧
      -- the dwell of two stalled fans, with no zone CRITICAL
      (withTmon critical fun t => { t with zones := State.reset.tmon.zones }).tmon.dwell = some 12800000 := by decide
theorem witness_CurveValue :
    (120 : Int) < 160 ∧ (160 : Int) < 200 ∧ (200 : Int) < 240 ∧ (240 : Int) < 280 ∧ 12 ≤ 24 ∧ 24 ≤ 36 ∧ 36 ≤ 50 ∧
      50 ≤ 63 := by decide
theorem witness_SetQuiet :
    Listens State.reset ∧ readFlag 0 = some false ∧ State.reset.afc.quiet = false ∧ readFlag 1 = some true := by decide
theorem witness_FanEvents :
    let s := withFan State.reset .intake turning
    Awake s ∧ State.reset.afc.fans.intake.kick = none ∧ (s.afc.fans.get .intake).edge = some 500000 ∧
      (s.afc.fans.get .intake).tach = .turning ∧ (s.afc.fans.get .intake).selected ≠ 0 ∧
      (s.afc.fans.get .intake).output ≠ 0 ∧ glitchAt 5 s.afc.glitch ≤ 200 ∧ 199 < glitchAt 5 s.afc.glitch ∧
      ((s.afc.fans.get .intake).drivenFrom = some 0 ∧ 0 ≤ 0) ∧
      (139999 < 140000 ∧ (withFan State.reset .intake { turning with drivenFrom := some 140000 }).afc.fans.intake.drivenFrom =
        some 140000) ∧ State.reset.afc.fans.intake.drivenFrom = none ∧ State.reset.afc.fans.intake.output = 0 ∧
      (withFan State.reset .intake { turning with kick := some 1000000 }).afc.fans.intake.kick = some 1000000 ∧
      (withFan State.reset .intake { turning with tach := .stalled, recovery := 1 }).afc.fans.intake.recovery ≠ 0 ∧
      (withFan State.reset .intake { turning with tach := .starting, grace := some 9, edge := none }).afc.fans.intake.grace =
        some 9 := by decide
theorem witness_LightOnAndOff :
    Listens ready ∧ ready.lau.session = .standby ∧ ready.lau.fault = none ∧ ready.lau.lightFlt = false ∧
      ready.lau.held.ready = true ∧ ready.lau.held.device.isHot = false ∧ State.reset.lau.held.ready = false ∧
      (inSession .lit).lau.session.lightEn = true ∧ 0 < (inSession .lit).lau.params.coolMin ∧
      (inSession .cooldown).lau.session = .cooldown ∧ tripped.lau.session = .tripped ∧
      (withLau ready fun l => { l with fault := some ⟨.driver, 0⟩ }).lau.fault = some ⟨.driver, 0⟩ ∧
      (withLau ready fun l => { l with params := { l.params with coolMin := 0 } }).lau.params.coolMin = 0 ∧
      ready.lau.Cold ∧ ¬ (inSession .lit).lau.Cold := by decide
theorem witness_LightLines :
    Awake (inSession .lit) ∧ (inSession .lit).lau.session = .lit ∧ (inSession .ignition).lau.session = .ignition ∧
      (inSession .standby).lau.session.lightEn = false ∧ 0 < (inSession .lit).lau.params.coolMin ∧
      (inSession .ignition).lau.ignition = none ∧
      (withLau (inSession .ignition) fun l => { l with ignition := some 3000000, ignitionStart := some 0 }).lau.ignition =
        some 3000000 := by decide
theorem witness_LightTimersAndSettings :
    let s := withLau (inSession .cooldown) fun l => { l with
      coolMin := .running 20000000, coolMax := some 180000000,
      held := { l.held with zones := { l.held.zones with src := ⟨.live, some 179, .normal⟩ } } }
    Listens s ∧ s.lau.coolMin = .running 20000000 ∧ s.lau.coolMax = some 180000000 ∧ s.lau.session = .cooldown ∧
      s.lau.Cold ∧ ¬ (inSession .cooldown).lau.Cold ∧ (inSession .cooldown).lau.coolMax = none ∧
      s.lau.slew = none ∧ readMode 2 = some .bright ∧ s.lau.lightFlt = false ∧ 16383 < (16384 : Word16).toNat ∧
      (16383 : Word16).toNat ≤ 16383 ∧ attached.fpi.attached = true ∧ s.fpi.attached = false ∧
      (withLau (inSession .lit) fun l => { l with slew := some 10000 }).lau.slew = some 10000 := by decide
theorem witness_AxisParameters :
    Listens homed ∧ paramOf 0x01 0 = .ok (.axis .v .travel) ∧
      ((homed.lmc.v.params.range .travel).1 ≤ (60000 : Word32).toInt ∧
        (60000 : Word32).toInt ≤ (homed.lmc.v.params.range .travel).2) ∧
      (let y := homed.lmc.v.params.replace .travel 60000
       y.pRunSlow ≤ y.pStart ∧ y.pRunNormal ≤ y.pStart ∧ y.pRunFast ≤ y.pStart ∧ y.centre ≤ y.travel ∧
         y.refPos ≤ y.travel ∧ homed.lmc.v.position ≤ y.travel) ∧
      homed.lmc.v.motion = .idle ∧ homed.lmc.v.queue = [] ∧ cruising.lmc.v.motion ≠ .idle := by decide
theorem witness_BlockParameters :
    Listens homed ∧ paramOf 0x20 0xFF = .ok (.block .q) ∧ BlockParam.q.admits 4096 = true ∧ BlockParam.q.admits 4097 = false ∧
      BlockParam.q.admits 0 = false := by decide
theorem witness_TableLoads :
    Listens (loading (State.reset.tableImage .zones)) ∧ readTableCode 2 = some .zones ∧ (66 : Word16).toNat = Table.zones.length ∧
      readTableCode 4 = none ∧
      (65 : Word16).toNat ≠ Table.zones.length ∧ State.reset.cpi.load = none ∧
      (loading (State.reset.tableImage .zones)).cpi.load =
        some ⟨.zones, 66, 56, (State.reset.tableImage .zones).take 56, none⟩ ∧
      56 < (List.replicate 57 (0 : Byte)).length ∧ 56 + 10 ≤ 66 ∧ 66 < 56 + 11 ∧
      (State.reset.tableImage .zones).length = Table.zones.length ∧
      (Load.mk .zones 66 56 [] (some (.sequence, 56))).firstError = some (.sequence, 56) ∧
      firstFault (Table.zones.conditions (State.reset.tableImage .zones)) = none ∧
      firstFault (Table.zones.conditions ((State.reset.tableImage .zones).set 26 0)) = some 26 := by decide
/-- The first segment of ZONES with a hysteresis of 0 at 30 and one of 41 at 41: two bad fields, the first of them at 30. -/
theorem witness_TableLoads_field :
    let image := (((State.reset.tableImage .zones).set 30 0).set 41 41).take 56
    let bad := (Table.zones.fields.filter fun f => decide (f.offset + f.size ≤ 56) && !f.good image).map FieldSpec.offset
    bad.head? = some 30 ∧ 2 ≤ bad.length := by decide
theorem witness_TableImageRoundTrip :
    (State.reset.tableImage .zones).length = Table.zones.length ∧
      (∀ f ∈ Table.zones.fields, f.good (State.reset.tableImage .zones) = true) := by decide

theorem witness_LightAndTripKept :
    (LightSafe tripped ∧ SessionTimers tripped.lau ∧ TripSafe tripped ∧ DwellSound critical ∧
      tripped.tmon.trip = some ⟨.absolute, .zone .src, some 360⟩) ∧
      (∀ low rest, { tripped with pending := [.coolMax] }.pending ≠ .hardReset low :: rest) ∧
      (match step { tripped with pending := [.coolMax] } with | .next _ => True | _ => False) :=
  ⟨by decide, fun _ _ h => (by cases h), trivial⟩
theorem witness_FansKept : FansSafe State.reset ∧ FansSound (withFan State.reset .intake turning) := by decide
theorem witness_EventSetsKept : EventSetsFit (State.reset.raise (.lapse 100)) := by decide
theorem witness_ParameterRangesKept : ParamsFit homed :=
  ⟨by decide, by decide, ⟨64, rfl, by decide⟩, by decide⟩
/-- V STOPPING is sound in the part as it is, H is IDLE. -/
theorem witness_LensSoundKept :
    LensSound { stopping with irm := { stopping.irm with targetV := 24001 } } := by
  refine ⟨⟨by decide, by decide, by decide, ?_⟩,
    ⟨by decide, by decide, by decide, ⟨rfl, rfl, rfl⟩⟩⟩
  refine ⟨by decide, by decide, by decide, _, _, rfl, rfl, rfl, fun _ => rfl⟩
/-- SRC warm at 266, between its thresholds of 240 and 280, and at T_hot. -/
theorem witness_HandedStateKept :
    AllowanceFresh State.reset ∧ HeldFollows State.reset ∧ FrameSound State.reset ∧
      (PerZone.same (ZoneRecord.mk .live (some 266) .warm)).src.temperature = some 266 ∧
      Thresholds.defaults.src.warm < Thresholds.defaults.src.hot ∧ Thresholds.defaults.src.warm ≤ 266 ∧
      Thresholds.defaults.src.lHot ≤ 16383 ∧ Thermal.warm ≠ .critical := by decide
theorem witness_RecordChangesAreCounted :
    ReservationsCurrent (run [.readInstall .control 1] homed) ∧
      ∀ low rest, { homed with pending := [.coolMax] }.pending ≠ .hardReset low :: rest := by
  refine ⟨fun p g h => ?_, fun _ _ h => by cases h⟩
  cases p
  · have e : (run [.readInstall .control 1] homed).irm.reservation .control = some 0 := by decide
    rw [e] at h; cases h; decide
  · have e : (run [.readInstall .control 1] homed).irm.reservation .frame = none := by decide
    rw [e] at h; cases h

end Sys2Proof.Tests
end

