-- ==== Sys2Proof/Proofs/AxisSound.lean ====
section
/-! PROOFS. The soundness of one axis (R2, R23, R24): what each motion asks of it, and that every operation of Machine/Motion.lean
keeps it, with the target of the record after the operation's part-originated change. -/

namespace Sys2Proof.Machine

/-! ### Counts and directions -/

theorem fitsCount_iff (x : Int) : fitsCount x = true ↔ -2147483648 ≤ x ∧ x ≤ 2147483647 := by
  simp [fitsCount]

@[simp] theorem Dir.sign_minus : Dir.minus.sign = -1 := rfl
@[simp] theorem Dir.sign_plus : Dir.plus.sign = 1 := rfl

theorem clamp_eq (lo hi x : Int) : clamp lo hi x = max lo (min hi x) := rfl

@[simp] theorem AxisState.microstep_position_fits (a : Axis) (x : AxisState) (d : Dir) :
    fitsCount (x.microstep a d).position = true := by
  cases d <;> exact AxisState.countTo_fits a x _

@[simp] theorem AxisState.testStop_snd_params (x : AxisState) (d : Dir) : (x.testStop d).2.params = x.params := by cases d <;> rfl
@[simp] theorem AxisState.testStop_snd_motion (x : AxisState) (d : Dir) : (x.testStop d).2.motion = x.motion := by cases d <;> rfl
@[simp] theorem AxisState.testStop_snd_trust (x : AxisState) (d : Dir) : (x.testStop d).2.trust = x.trust := by cases d <;> rfl
@[simp] theorem AxisState.testStop_snd_position (x : AxisState) (d : Dir) : (x.testStop d).2.position = x.position := by
  cases d <;> rfl
@[simp] theorem AxisState.testStop_snd_queue (x : AxisState) (d : Dir) : (x.testStop d).2.queue = x.queue := by cases d <;> rfl
@[simp] theorem AxisState.testStop_snd_pendingHome (x : AxisState) (d : Dir) : (x.testStop d).2.pendingHome = x.pendingHome := by
  cases d <;> rfl

/-! ### The queue an axis may run -/

/-- Entries that an axis may hold and start: at most four, none behind the head active, every target a count, and on a HOMED
axis a point of its travel (R10, R13, R24). -/
structure AxisState.Admits (x : AxisState) (q : List Entry) : Prop where
  short : q.length ≤ 4
  waiting : ∀ e ∈ q.tail, e.active = false
  counts : ∀ e ∈ q, fitsCount e.target = true
  travel : x.trust = .homed → ∀ e ∈ q, InTravel x e.target

theorem AxisState.Admits.tail {x : AxisState} {q : List Entry} (h : x.Admits q) : x.Admits q.tail :=
  ⟨by have := h.short; rw [List.length_tail]; omega,
   fun e he => h.waiting e (List.mem_of_mem_tail he),
   fun e he => h.counts e (List.mem_of_mem_tail he),
   fun ht e he => h.travel ht e (List.mem_of_mem_tail he)⟩

/-- Whether an axis admits a queue depends on its trust and its travel alone. -/
theorem AxisState.Admits.congr {x y : AxisState} {q : List Entry} (h : x.Admits q) (ht : y.trust = .homed → x.trust = .homed)
    (hp : y.params = x.params) : y.Admits q :=
  ⟨h.short, h.waiting, h.counts, fun hy e he => by
    simpa only [InTravel, hp] using h.travel (ht hy) e he⟩

theorem AxisState.Admits.queueFits {x : AxisState} (h : x.Admits x.queue) : QueueFits x :=
  ⟨h.short, h.waiting, h.counts, fun ht e he => h.travel ht e (List.mem_of_mem_tail he)⟩

/-- Behind its head, a fitting queue is one the axis may start. -/
theorem QueueFits.admits_tail {x : AxisState} (h : QueueFits x) : x.Admits x.queue.tail := by
  obtain ⟨short, waiting, counts, travel⟩ := h
  exact ⟨by rw [List.length_tail]; omega, fun e he => waiting e (List.mem_of_mem_tail he),
    fun e he => counts e (List.mem_of_mem_tail he), travel⟩

theorem QueueFits.admits {x : AxisState} {e : Entry} {rest : List Entry} (h : QueueFits x) (hq : x.queue = e :: rest)
    (he : x.trust = .homed → InTravel x e.target) : x.Admits x.queue := by
  obtain ⟨short, waiting, counts, travel⟩ := h
  refine ⟨short, waiting, counts, fun ht d hd => ?_⟩
  rw [hq] at hd travel
  rcases List.mem_cons.mp hd with rfl | hd
  · exact he ht
  · exact travel ht d hd

theorem queueFits_of_nil {x : AxisState} (h : x.queue = []) : QueueFits x := by
  simp [QueueFits, h]

/-- The target of the last entry of a queue, or the position where there is none (R2). -/
def lastTarget (q : List Entry) (position : Int) : Int := (q.getLast?.map Entry.target).getD position

@[simp] theorem lastTarget_nil (p : Int) : lastTarget [] p = p := rfl
@[simp] theorem lastTarget_append (q : List Entry) (e : Entry) (p : Int) : lastTarget (q ++ [e]) p = e.target := by
  simp [lastTarget]
@[simp] theorem lastTarget_singleton (e : Entry) (p : Int) : lastTarget [e] p = e.target := rfl

/-- The head's target is where the entries behind it start from. -/
theorem lastTarget_cons (e : Entry) (rest : List Entry) (p : Int) : lastTarget (e :: rest) p = lastTarget rest e.target := by
  rcases List.eq_nil_or_concat rest with rfl | ⟨front, last, rfl⟩
  · rfl
  · rw [List.concat_eq_append, ← List.cons_append, lastTarget_append, lastTarget_append]

/-- A queue with entries drains at its last target (R2). -/
theorem AxisState.drain_of_cons {x : AxisState} {e : Entry} {rest : List Entry} (h : x.queue = e :: rest) (held : Int) :
    x.drain held = lastTarget rest e.target := by
  rw [← lastTarget_cons e rest 0, AxisState.drain, h]
  obtain ⟨front, last, hl⟩ := (List.eq_nil_or_concat (e :: rest)).resolve_left (by simp)
  rw [hl, List.concat_eq_append, lastTarget_append]
  simp

/-- A STOPPING axis drains at its stop position when its queue is empty (R2). -/
theorem AxisState.drain_of_stopping_nil {x : AxisState} {st : Stop} (hm : x.motion = .stopping st) (hq : x.queue = [])
    (held : Int) : x.drain held = st.position := by
  simp [AxisState.drain, hm, hq]

theorem AxisState.drain_of_idle {x : AxisState} (hm : x.motion = .idle) (held : Int) :
    x.drain held = lastTarget x.queue x.position := by
  unfold AxisState.drain lastTarget
  cases x.queue.getLast? <;> simp [hm]

/-! ### What soundness asks in each motion -/

theorem AxisState.sound_rest_iff {x : AxisState} {c : Prop} {held : Int} (hm : x.motion = .idle ∨ x.motion = .fault) :
    x.Sound c held ↔
      fitsCount x.position = true ∧ x.queue = [] ∧ x.pendingHome = false ∧ held = x.position := by
  have key : x.Sound c held ↔ fitsCount x.position = true ∧ QueueFits x ∧ (x.pendingHome = true → c) ∧
      x.queue = [] ∧ x.pendingHome = false ∧ held = x.position := by
    unfold AxisState.Sound
    rcases hm with hm | hm <;> rw [hm]
  rw [key]
  constructor
  · rintro ⟨fits, -, -, rest⟩; exact ⟨fits, rest⟩
  · rintro ⟨fits, empty, noHome, at_⟩
    exact ⟨fits, queueFits_of_nil empty, by simp [noHome], empty, noHome, at_⟩

theorem AxisState.sound_homing_iff {x : AxisState} {run : Homing} {c : Prop} {held : Int} (hm : x.motion = .homing run) :
    x.Sound c held ↔
      fitsCount x.position = true ∧ x.queue = [] ∧ x.pendingHome = false ∧ c ∧ x.trust = .unhomed ∧
        (run.phase = .backoff → x.position = run.taken ∧ run.taken < run.limit ∧ run.limit ≤ x.params.travel) := by
  unfold AxisState.Sound
  rw [hm]
  constructor
  · rintro ⟨fits, -, -, rest⟩; exact ⟨fits, rest⟩
  · rintro ⟨fits, empty, noHome, rest⟩
    exact ⟨fits, queueFits_of_nil empty, by simp [noHome], empty, noHome, rest⟩

theorem AxisState.sound_of_rest {x : AxisState} {c : Prop} {held : Int} (hm : x.motion = .idle ∨ x.motion = .fault)
    (fits : fitsCount x.position = true) (empty : x.queue = []) (noHome : x.pendingHome = false) (at_ : held = x.position) :
    x.Sound c held := (AxisState.sound_rest_iff hm).mpr ⟨fits, empty, noHome, at_⟩

theorem AxisState.sound_of_homing {x : AxisState} {run : Homing} {c : Prop} {held : Int} (hm : x.motion = .homing run)
    (fits : fitsCount x.position = true) (empty : x.queue = []) (noHome : x.pendingHome = false) (canRun : c)
    (trust : x.trust = .unhomed)
    (back : run.phase = .backoff → x.position = run.taken ∧ run.taken < run.limit ∧ run.limit ≤ x.params.travel) :
    x.Sound c held := (AxisState.sound_homing_iff hm).mpr ⟨fits, empty, noHome, canRun, trust, back⟩

/-- What a leg that leads to an entry has still to do: at least one microstep, and a final leg ends at the entry's target. -/
def AxisState.Bound (x : AxisState) (l : Leg) (e : Entry) : Prop :=
  l.issued < l.n ∧
    (l.kind = .final → l.endPoint = e.target ∧ x.position + l.dir.sign * ((l.n : Int) - l.issued) = e.target)

/-- An axis under way to its head entry, on a leg or between two (R23, R24, R29). -/
structure AxisState.UnderWay (x : AxisState) (c : Prop) (held : Int) (e : Entry) (rest : List Entry) : Prop where
  fits : fitsCount x.position = true
  run : c
  noHome : x.pendingHome = false
  admits : x.Admits x.queue
  queue : x.queue = e :: rest
  active : e.active = true
  drains : held = lastTarget rest e.target

theorem AxisState.sound_running_iff {x : AxisState} {l : Leg} {c : Prop} {held : Int} (hm : x.motion = .running l) :
    x.Sound c held ↔ ∃ e rest, x.UnderWay c held e rest ∧ x.Bound l e := by
  unfold AxisState.Sound
  rw [hm]
  constructor
  · rintro ⟨fits, queue, -, run, noHome, drains, more, e, rest, hq, active, travel, final⟩
    exact ⟨e, rest, ⟨fits, run, noHome, queue.admits hq travel, hq, active, drains.trans (AxisState.drain_of_cons hq _)⟩,
      more, final⟩
  · rintro ⟨e, rest, ⟨fits, run, noHome, admits, hq, active, drains⟩, more, final⟩
    exact ⟨fits, admits.queueFits, by simp [noHome], run, noHome, drains.trans (AxisState.drain_of_cons hq _).symm,
      more, e, rest, hq, active, fun ht => admits.travel ht e (by simp [hq]), final⟩

theorem AxisState.sound_of_running {x : AxisState} {l : Leg} {c : Prop} {held : Int} {e : Entry} {rest : List Entry}
    (hm : x.motion = .running l) (way : x.UnderWay c held e rest) (bound : x.Bound l e) : x.Sound c held :=
  (AxisState.sound_running_iff hm).mpr ⟨e, rest, way, bound⟩

/-- An axis under way stays so through a change of anything but its queue, its pending home and what admits the queue. -/
theorem AxisState.UnderWay.congr {x y : AxisState} {c : Prop} {held : Int} {e : Entry} {rest : List Entry}
    (h : x.UnderWay c held e rest) (hx : fitsCount y.position = true) (hp : y.params = x.params)
    (ht : y.trust = .homed → x.trust = .homed) (hq : y.queue = x.queue) (hh : y.pendingHome = x.pendingHome) :
    y.UnderWay c held e rest :=
  ⟨hx, h.run, hh.trans h.noHome, hq ▸ h.admits.congr ht hp, hq.trans h.queue, h.active, h.drains⟩

/-- The queue of an axis that takes a stop: the entry being stopped, bound for the stop position, and what waits behind it; or,
after an abandoned homing run, the waiting entries alone, on an UNHOMED axis (R35). -/
def AxisState.Stopped (x : AxisState) (st : Stop) (waiting : List Entry) : Prop :=
  if st.abandoned then x.trust = .unhomed ∧ x.queue = waiting
  else ∃ e, x.queue = e :: waiting ∧ e.active = true ∧ e.target = st.position

/-- A STOPPING axis drains at its last waiting entry, or at its stop position (R2). -/
theorem AxisState.Stopped.drain {x : AxisState} {st : Stop} {waiting : List Entry} (h : x.Stopped st waiting)
    (hm : x.motion = .stopping st) (held : Int) : x.drain held = lastTarget waiting st.position := by
  unfold AxisState.Stopped at h
  split at h
  · obtain ⟨-, rfl⟩ := h
    cases hq : x.queue with
    | nil => rw [AxisState.drain_of_stopping_nil hm hq]; rfl
    | cons e rest => rw [AxisState.drain_of_cons hq, lastTarget_cons]
  · obtain ⟨e, hq, -, target⟩ := h
    rw [AxisState.drain_of_cons hq, target]

/-- The entry being stopped, if there is one, stands in front of what waits. -/
theorem AxisState.Stopped.front {x : AxisState} {st : Stop} {waiting : List Entry} (h : x.Stopped st waiting) :
    ∃ pre : List Entry, x.queue = pre ++ waiting ∧ (∀ d ∈ pre, d.active = true ∧ d.target = st.position) ∧ pre.length ≤ 1 ∧
      ∀ y : AxisState, y.trust = x.trust → ∀ w, y.queue = pre ++ w → y.Stopped st w := by
  by_cases ha : st.abandoned = true
  · simp only [AxisState.Stopped, if_pos ha] at h ⊢
    exact ⟨[], h.2, by simp, by simp, fun y ht w hw => ⟨ht.trans h.1, hw⟩⟩
  · simp only [AxisState.Stopped, if_neg ha] at h ⊢
    obtain ⟨d, hq, active, target⟩ := h
    exact ⟨[d], hq, by simp [active, target], by simp, fun y _ w hw => ⟨d, hw, active, target⟩⟩

/-- An axis that takes a stop, whether or not microsteps of it are left, with what waits behind it (R35, R36, R48). -/
structure AxisState.Slowing (x : AxisState) (c : Prop) (held : Int) (st : Stop) (waiting : List Entry) : Prop where
  fits : fitsCount x.position = true
  queue : QueueFits x
  home : x.pendingHome = true → c
  stop : fitsCount st.position = true
  kept : x.Stopped st waiting
  inactive : ∀ e ∈ waiting, e.active = false
  flushed : (¬ c ∨ x.pendingHome = true) → waiting = []
  drains : held = lastTarget waiting st.position

theorem AxisState.sound_stopping_iff {x : AxisState} {st : Stop} {c : Prop} {held : Int} (hm : x.motion = .stopping st) :
    x.Sound c held ↔ 0 < st.remaining ∧ ∃ waiting, x.Slowing c held st waiting := by
  unfold AxisState.Sound
  rw [hm]
  by_cases ha : st.abandoned = true
  · simp only [ha, if_true]
    constructor
    · rintro ⟨fits, queue, home, more, drains, stop, trust, inactive, flushed⟩
      have kept : x.Stopped st x.queue := by rw [AxisState.Stopped, if_pos ha]; exact ⟨trust, rfl⟩
      exact ⟨more, x.queue, fits, queue, home, stop, kept, inactive, flushed, drains.trans (kept.drain hm _)⟩
    · rintro ⟨more, waiting, fits, queue, home, stop, kept, inactive, flushed, drains⟩
      have drain := kept.drain hm held
      rw [AxisState.Stopped, if_pos ha] at kept
      obtain ⟨trust, rfl⟩ := kept
      exact ⟨fits, queue, home, more, drains.trans drain.symm, stop, trust, inactive, flushed⟩
  · simp only [ha]
    constructor
    · rintro ⟨fits, queue, home, more, drains, stop, e, rest, hq, active, target, flushed⟩
      have inactive : ∀ d ∈ rest, d.active = false := by
        obtain ⟨-, waiting, -⟩ := queue
        exact fun d hd => waiting d (by rw [hq]; exact hd)
      have kept : x.Stopped st rest := by rw [AxisState.Stopped, if_neg ha]; exact ⟨e, hq, active, target⟩
      exact ⟨more, rest, fits, queue, home, stop, kept, inactive, flushed, drains.trans (kept.drain hm _)⟩
    · rintro ⟨more, rest, fits, queue, home, stop, kept, inactive, flushed, drains⟩
      have drain := kept.drain hm held
      rw [AxisState.Stopped, if_neg ha] at kept
      obtain ⟨e, hq, active, target⟩ := kept
      exact ⟨fits, queue, home, more, drains.trans drain.symm, stop, e, rest, hq, active, target, flushed⟩

theorem AxisState.sound_of_stopping {x : AxisState} {st : Stop} {c : Prop} {held : Int} {waiting : List Entry}
    (hm : x.motion = .stopping st) (more : 0 < st.remaining) (slowing : x.Slowing c held st waiting) : x.Sound c held :=
  (AxisState.sound_stopping_iff hm).mpr ⟨more, waiting, slowing⟩

/-- The entries behind a stop are entries the axis may start when the stop has ended (R36). -/
theorem AxisState.Slowing.admits {x : AxisState} {c : Prop} {held : Int} {st : Stop} {waiting : List Entry}
    (h : x.Slowing c held st waiting) : x.Admits waiting := by
  have kept := h.kept
  unfold AxisState.Stopped at kept
  split at kept
  · obtain ⟨trust, rfl⟩ := kept
    obtain ⟨short, waiting, counts, -⟩ := h.queue
    exact ⟨short, waiting, counts, by simp [trust]⟩
  · obtain ⟨e, hq, -⟩ := kept
    simpa [hq] using h.queue.admits_tail

/-- Soundness looks at the fields below alone. -/
theorem AxisState.Sound.congr {x y : AxisState} {c : Prop} {held : Int} (h : x.Sound c held)
    (hp : y.params = x.params) (hm : y.motion = x.motion) (ht : y.trust = x.trust) (hx : y.position = x.position)
    (hq : y.queue = x.queue) (hh : y.pendingHome = x.pendingHome) : y.Sound c held := by
  unfold AxisState.Sound AxisState.drain at *
  simpa only [QueueFits, InTravel, hp, hm, ht, hx, hq, hh] using h

/-- A part that may run again asks less of an axis (R25). -/
theorem AxisState.Sound.mono {x : AxisState} {c d : Prop} {held : Int} (h : x.Sound c held) (hcd : c → d) : x.Sound d held := by
  cases hm : x.motion with
  | idle => rwa [AxisState.sound_rest_iff (.inl hm)] at h ⊢
  | fault => rwa [AxisState.sound_rest_iff (.inr hm)] at h ⊢
  | homing run =>
    rw [AxisState.sound_homing_iff hm] at h ⊢
    obtain ⟨fits, empty, noHome, run, rest⟩ := h
    exact ⟨fits, empty, noHome, hcd run, rest⟩
  | running l =>
    rw [AxisState.sound_running_iff hm] at h ⊢
    obtain ⟨e, rest, way, bound⟩ := h
    exact ⟨e, rest, { way with run := hcd way.run }, bound⟩
  | stopping st =>
    rw [AxisState.sound_stopping_iff hm] at h ⊢
    obtain ⟨more, waiting, slowing⟩ := h
    exact ⟨more, waiting, { slowing with
      home := fun hh => hcd (slowing.home hh), flushed := fun hd => slowing.flushed (hd.imp (mt hcd) id) }⟩

/-- Only a STOPPING axis holds a pending home (R47, R48). -/
theorem AxisState.Sound.pendingHome_false {x : AxisState} {c : Prop} {held : Int} (h : x.Sound c held)
    (hm : ∀ st, x.motion ≠ .stopping st) : x.pendingHome = false := by
  cases hx : x.motion with
  | idle => rw [AxisState.sound_rest_iff (.inl hx)] at h; exact h.2.2.1
  | fault => rw [AxisState.sound_rest_iff (.inr hx)] at h; exact h.2.2.1
  | homing run => rw [AxisState.sound_homing_iff hx] at h; exact h.2.2.1
  | running l =>
    obtain ⟨e, rest, way, -⟩ := (AxisState.sound_running_iff hx).mp h
    exact way.noHome
  | stopping st => exact absurd hx (hm st)

theorem AxisState.Sound.position_fits {x : AxisState} {c : Prop} {held : Int} (h : x.Sound c held) :
    fitsCount x.position = true := h.1

theorem AxisState.Sound.queueFits {x : AxisState} {c : Prop} {held : Int} (h : x.Sound c held) : QueueFits x := h.2.1

end Sys2Proof.Machine
end

