-- ==== Sys2Proof/Proofs/AxisKept.lean ====
section
/-! PROOFS. Every operation of one axis keeps it sound, with the target of the record after the operation's part-originated
change (R14, R24 to R61). -/

namespace Sys2Proof.Machine

/-- An operation keeps its axis sound, the record's target being that of its part-originated change, or else the one held. -/
def LensOut.Keeps (env : AxisEnv) (held : Int) (o : LensOut) : Prop :=
  o.axis.Sound (env.canRun = true) (o.change.getD held)

@[simp] theorem LensOut.andThen_axis (o : LensOut) (f : AxisState → LensOut) : (o.andThen f).axis = (f o.axis).axis := rfl
@[simp] theorem LensOut.andThen_change (o : LensOut) (f : AxisState → LensOut) : (o.andThen f).change = o.change := rfl

theorem LensOut.keeps_of_still {env : AxisEnv} {held : Int} {x : AxisState} (h : x.Sound (env.canRun = true) held) :
    LensOut.Keeps env held { axis := x } := h

/-! ### Legs (R29) -/

theorem AxisEnv.planLeg_eq_none_iff (env : AxisEnv) (x : AxisState) (e : Entry) (n : Nat) :
    env.planLeg x e n = none ↔ x.position = e.target := by
  unfold AxisEnv.planLeg
  by_cases h : x.position = e.target
  · simp [h]
  · rw [if_neg h]
    dsimp only
    generalize (if x.position < e.target then Dir.plus else Dir.minus) = u
    split <;> simp [h]

/-- An overshoot point lies at the target or beyond it, on the side the axis moves to (R29). -/
theorem AxisState.overshoot_beyond {x : AxisState} {t : Int} (h : x.trust = .homed → InTravel x t) (u : Dir) :
    0 ≤ u.sign * (x.overshoot u t - t) := by
  unfold AxisState.overshoot
  by_cases ht : x.trust = .homed
  · obtain ⟨low, high⟩ := h ht
    dsimp only
    rw [if_pos ht, clamp_eq]
    cases u <;> simp only [Dir.sign_minus, Dir.sign_plus] <;> omega
  · dsimp only
    rw [if_neg ht]
    cases u <;> simp only [Dir.sign_minus, Dir.sign_plus] <;> omega

/-- What a plan can be: a final leg straight to the target, or a leg to the overshoot point (R29). -/
theorem AxisEnv.planLeg_cases {env : AxisEnv} {x : AxisState} {e : Entry} {n : Nat} {l : Leg} (h : env.planLeg x e n = some l) :
    x.position ≠ e.target ∧
      (l = env.makeLeg x e.speed n .final e.target ∨
        ∃ u, (u = if x.position < e.target then Dir.plus else .minus) ∧
          l = env.makeLeg x e.speed n .overshoot (x.overshoot u e.target)) := by
  unfold AxisEnv.planLeg at h
  by_cases hp : x.position = e.target
  · simp [hp] at h
  · rw [if_neg hp] at h
    dsimp only at h
    generalize (if x.position < e.target then Dir.plus else Dir.minus) = u at h
    refine ⟨hp, ?_⟩
    split at h
    · exact .inl (Option.some.inj h).symm
    · exact .inr ⟨u, rfl, (Option.some.inj h).symm⟩

/-- A planned leg leads to its entry (R29, R30). -/
theorem AxisEnv.planLeg_leads {env : AxisEnv} {x : AxisState} {e : Entry} {n : Nat} {l : Leg} (h : env.planLeg x e n = some l) :
    l.Leads n x.position e.target := by
  obtain ⟨-, rfl | ⟨u, -, rfl⟩⟩ := AxisEnv.planLeg_cases h <;> simp [Leg.Leads, AxisEnv.makeLeg]

theorem AxisEnv.makeLeg_bound (env : AxisEnv) (x : AxisState) (c : SpeedClass) (n : Nat) {e : Entry}
    (h : x.position ≠ e.target) : x.Bound (env.makeLeg x c n .final e.target) e := by
  refine ⟨by simp only [AxisEnv.makeLeg]; omega, fun _ => ⟨rfl, ?_⟩⟩
  simp only [AxisEnv.makeLeg]
  split <;> simp only [Dir.sign_minus, Dir.sign_plus] <;> omega

/-- A planned leg is bound for its entry. -/
theorem AxisEnv.planLeg_bound {env : AxisEnv} {x : AxisState} {e : Entry} {n : Nat} {l : Leg} (h : env.planLeg x e n = some l)
    (ht : x.trust = .homed → InTravel x e.target) : x.Bound l e := by
  obtain ⟨hne, rfl | ⟨u, hu, rfl⟩⟩ := AxisEnv.planLeg_cases h
  · exact env.makeLeg_bound x e.speed n hne
  · have beyond := AxisState.overshoot_beyond ht u
    have more : (x.overshoot u e.target - x.position).natAbs ≠ 0 := by
      split at hu <;> subst hu <;> simp only [Dir.sign_minus, Dir.sign_plus] at beyond <;> omega
    exact ⟨Nat.pos_of_ne_zero more, by simp [AxisEnv.makeLeg]⟩

theorem AxisState.beginLeg_sound {env : AxisEnv} {x : AxisState} {c : Prop} {held : Int} {e : Entry} {rest : List Entry}
    {l : Leg} (h : x.UnderWay c held e rest) (hl : x.Bound l e) : (x.beginLeg env l).Sound c held :=
  AxisState.sound_of_running rfl (h.congr h.fits rfl id rfl rfl) hl

/-! ### A stationary axis and its queue (R25, R26) -/

@[simp] theorem AxisState.settle_change (env : AxisEnv) (x : AxisState) (q : List Entry) : (x.settle env q).change = none := by
  induction q with
  | nil => rfl
  | cons e rest ih =>
    unfold AxisState.settle
    split
    · split
      · rfl
      · exact ih
    · rfl

theorem AxisState.enterHold_sound {env : AxisEnv} {x : AxisState} {c : Prop} {held : Int} (h : x.Sound c held) :
    (x.enterHold env).Sound c held := h.congr (by simp) (by simp) (by simp) (by simp) (by simp) (by simp)

/-- A stationary axis starts the first entry that needs a leg, or holds where the last one ends. -/
theorem AxisState.settle_sound {env : AxisEnv} {x : AxisState} (hm : x.motion = .idle) (fits : fitsCount x.position = true)
    (noHome : x.pendingHome = false) {q : List Entry} (admits : x.Admits q) (run : q ≠ [] → env.canRun = true) :
    (x.settle env q).axis.Sound (env.canRun = true) (lastTarget q x.position) := by
  induction q with
  | nil =>
    exact AxisState.enterHold_sound (AxisState.sound_of_rest (.inl hm) fits rfl noHome rfl)
  | cons e rest ih =>
    have travel : x.trust = .homed → InTravel x e.target := fun ht => admits.travel ht e (by simp)
    unfold AxisState.settle
    rw [if_pos (run (by simp)), lastTarget_cons]
    cases hl : env.planLeg x e 1 with
    | some l =>
      refine AxisState.beginLeg_sound (e := { e with active := true }) (rest := rest)
        ⟨fits, run (by simp), noHome, ⟨admits.short, admits.waiting, ?_, ?_⟩, rfl, rfl, rfl⟩
        (AxisEnv.planLeg_bound hl travel)
      · simpa using admits.counts
      · intro ht d hd
        rcases List.mem_cons.mp hd with rfl | hd
        · exact travel ht
        · exact admits.travel ht d (List.mem_cons_of_mem _ hd)
    | none =>
      have target := (env.planLeg_eq_none_iff x e 1).mp hl
      have kept := ih admits.tail fun hr => run (by simp)
      rwa [target] at kept

theorem AxisState.startIfIdle_change (env : AxisEnv) (x : AxisState) : (x.startIfIdle env).change = none := by
  unfold AxisState.startIfIdle
  split
  · exact AxisState.settle_change ..
  · rfl

theorem AxisState.startIfIdle_of_ne {env : AxisEnv} {x : AxisState} (h : x.motion ≠ .idle) : x.startIfIdle env = { axis := x } := by
  unfold AxisState.startIfIdle
  split
  · exact absurd ‹_› h
  · rfl

theorem AxisState.startIfIdle_of_nil {env : AxisEnv} {x : AxisState} (h : x.queue = []) : x.startIfIdle env = { axis := x } := by
  unfold AxisState.startIfIdle
  rw [h]
  split <;> simp_all

theorem AxisState.startIfIdle_of_cons {env : AxisEnv} {x : AxisState} {e : Entry} {rest : List Entry} (hm : x.motion = .idle)
    (hq : x.queue = e :: rest) : x.startIfIdle env = x.settle env (e :: rest) := by
  simp [AxisState.startIfIdle, hm, hq]

/-- A move that ends at its target completes, and the axis goes on with what waits (R26). -/
theorem AxisState.complete_keeps {env : AxisEnv} {x : AxisState} {held : Int} {e : Entry} {rest : List Entry}
    (h : x.UnderWay (env.canRun = true) held e rest) (arrived : x.position = e.target) : (x.complete env).Keeps env held := by
  have tail : x.queue.tail = rest := by rw [h.queue]; rfl
  have admits : x.Admits rest := tail ▸ h.admits.tail
  have settled := AxisState.settle_sound (env := env)
    (x := { x with motion := .idle, stepTimer := none, queue := rest }) rfl h.fits h.noHome
    (q := rest) (admits.congr id rfl) fun _ => h.run
  simpa [LensOut.Keeps, AxisState.complete, tail, h.drains, arrived] using settled

/-- Between two legs of a move the next one starts, or the move completes (R29). -/
theorem AxisState.nextLeg_keeps {env : AxisEnv} {x : AxisState} {held : Int} {e : Entry} {rest : List Entry}
    (h : x.UnderWay (env.canRun = true) held e rest) (n : Nat) : (x.nextLeg env n).Keeps env held := by
  unfold AxisState.nextLeg
  simp only [h.queue, List.head?_cons]
  cases hl : env.planLeg x e n with
  | none => exact AxisState.complete_keeps h ((env.planLeg_eq_none_iff x e n).mp hl)
  | some l =>
    exact AxisState.beginLeg_sound h (AxisEnv.planLeg_bound hl fun ht => h.admits.travel ht e (by simp [h.queue]))

/-! ### Homing (R49 to R52) -/

theorem AxisState.beginPhase_sound {env : AxisEnv} {x : AxisState} {c : Prop} {held : Int} {run : Homing} (run_ : c)
    (fits : fitsCount x.position = true) (empty : x.queue = []) (noHome : x.pendingHome = false) (trust : x.trust = .unhomed)
    (back : run.phase = .backoff → x.position = run.taken ∧ run.taken < run.limit ∧ run.limit ≤ x.params.travel) :
    (x.beginPhase env run).Sound c held :=
  AxisState.sound_of_homing rfl fits empty noHome run_ trust back

theorem AxisState.beginHoming_sound {env : AxisEnv} {x : AxisState} {c : Prop} {held : Int} (run : c)
    (fits : fitsCount x.position = true) (empty : x.queue = []) : (x.beginHoming env).axis.Sound c held := by
  have key : ∀ b : Prop, [Decidable b] → ∀ y z : AxisState, y.Sound c held → z.Sound c held →
      (if b then y else z).Sound c held := by
    intro b _ y z hy hz; split <;> assumption
  exact key _ _ _
    (AxisState.beginPhase_sound run fits empty rfl rfl (by simp))
    (AxisState.beginPhase_sound run fits empty rfl rfl (by simp))

@[simp] theorem AxisState.beginHoming_change (env : AxisEnv) (x : AxisState) : (x.beginHoming env).change = none := rfl

theorem AxisState.homed_keeps {env : AxisEnv} {x : AxisState} (held contact : Int) (fits : fitsCount x.position = true)
    (empty : x.queue = []) (noHome : x.pendingHome = false) : (x.homed env contact).Keeps env held := by
  unfold LensOut.Keeps AxisState.homed
  exact AxisState.enterHold_sound (AxisState.sound_of_rest (.inl rfl) fits empty noHome (by simp))

theorem AxisState.homeFailed_keeps {env : AxisEnv} {x : AxisState} (held : Int) (cause : HomeCause)
    (fits : fitsCount x.position = true) (empty : x.queue = []) (noHome : x.pendingHome = false) :
    (x.homeFailed env cause).Keeps env held :=
  AxisState.sound_of_rest (.inr rfl) fits empty noHome rfl

/-- An axis of a homing run, whatever its phase (R49). -/
structure AxisState.HomingRun (x : AxisState) (env : AxisEnv) : Prop where
  fits : fitsCount x.position = true
  empty : x.queue = []
  noHome : x.pendingHome = false
  run : env.canRun = true
  trust : x.trust = .unhomed

theorem AxisState.HomingRun.testStop {x : AxisState} {env : AxisEnv} (h : x.HomingRun env) (d : Dir) :
    (x.testStop d).2.HomingRun env :=
  ⟨by simpa using h.fits, by simpa using h.empty, by simpa using h.noHome, h.run, by simpa using h.trust⟩

theorem AxisState.HomingRun.microstep {x : AxisState} {env : AxisEnv} (h : x.HomingRun env) (d : Dir) :
    (x.microstep env.axis d).HomingRun env :=
  ⟨by simp, by simpa using h.empty, by simpa using h.noHome, h.run, by simpa using h.trust⟩

theorem AxisState.homeContact_keeps {env : AxisEnv} {x : AxisState} (held : Int) (h : x.HomingRun env) :
    (x.homeContact env).Keeps env held := by
  have fits0 : fitsCount 0 = true := by decide
  unfold AxisState.homeContact
  by_cases hd : x.params.homeDistance = 0
  · simp only [hd, if_true]
    exact AxisState.homed_keeps (x := ({ x with position := 0 }).clearFlags) held _ fits0 h.empty h.noHome
  · simp only [hd, if_false]
    exact AxisState.sound_of_homing (run := ⟨.backoff, 0, x.params.homeDistance, x.position⟩) rfl fits0 h.empty h.noHome
      h.run h.trust fun _ => ⟨rfl, Nat.pos_of_ne_zero hd, min_le_right _ _⟩

/-- The end of CLEAR or of BACKOFF, where END_LO is sampled (R49, R51). -/
theorem AxisState.endClear_keeps {env : AxisEnv} {x : AxisState} (held : Int) (run : Homing) (h : x.HomingRun env) :
    (x.endClear env run).Keeps env held := by
  unfold AxisState.endClear
  split
  · exact AxisState.homeFailed_keeps held _ h.fits h.empty h.noHome
  · exact AxisState.beginPhase_sound h.run h.fits h.empty h.noHome h.trust (by simp)

theorem AxisState.endBackoff_keeps {env : AxisEnv} {x : AxisState} (held : Int) (run : Homing) (h : x.HomingRun env) :
    (x.endBackoff env run).Keeps env held := by
  unfold AxisState.endBackoff
  split
  · exact AxisState.homeFailed_keeps held _ h.fits h.empty h.noHome
  · exact AxisState.homed_keeps held _ h.fits h.empty h.noHome

/-- A microstep of a homing phase: the phase ends as its end says, or goes on, in BACKOFF one count further from the contact. -/
theorem AxisState.homeStep_keeps {env : AxisEnv} {x : AxisState} {run : Homing} {finish : AxisState → Homing → LensOut}
    (held : Int) (h : x.HomingRun env) (travel : x.params.travel ≤ 60000)
    (back : run.phase = .backoff → x.position = run.taken ∧ run.taken < run.limit ∧ run.limit ≤ x.params.travel)
    (ends : run.phase ≠ .approach → ∀ y r, y.HomingRun env → (finish y r).Keeps env held) :
    (x.homeStep env run finish).Keeps env held := by
  have stepped := h.microstep run.phase.dir
  unfold AxisState.homeStep
  dsimp only
  split
  · rename_i hd
    exact ends hd.1 _ _ stepped
  · rename_i hd
    refine AxisState.sound_of_homing (run := { run with taken := run.taken + 1 }) rfl
      stepped.fits stepped.empty stepped.noHome h.run stepped.trust fun hb => ?_
    obtain ⟨count, more, limit⟩ := back hb
    have further : run.taken + 1 < run.limit := by
      by_contra hc
      exact hd ⟨by rw [hb]; decide, by omega⟩
    have fits : fitsCount (x.position + Dir.plus.sign) = true := by
      rw [fitsCount_iff, Dir.sign_plus]; omega
    have dir : run.phase.dir = .plus := by rw [hb]; rfl
    simp only [dir, AxisState.loadTimer_position, AxisState.loadTimer_params,
      AxisState.microstep_of_fits fits, Dir.sign_plus]
    omega

theorem AxisState.stepHoming_keeps {env : AxisEnv} {x : AxisState} {run : Homing} {held : Int}
    (h : x.Sound (env.canRun = true) held) (hm : x.motion = .homing run) (travel : x.params.travel ≤ 60000) :
    (x.stepHoming env run).Keeps env held := by
  obtain ⟨fits, empty, noHome, canRun, trust, back⟩ := (AxisState.sound_homing_iff hm).mp h
  have homing : x.HomingRun env := ⟨fits, empty, noHome, canRun, trust⟩
  unfold AxisState.stepHoming
  cases hp : run.phase with
  | clear =>
    exact AxisState.homeStep_keeps held homing travel back fun _ y r hy => AxisState.endClear_keeps held r hy
  | approach =>
    have tested := homing.testStop .minus
    dsimp only
    split
    · exact AxisState.homeContact_keeps held tested
    · split
      · exact AxisState.homeFailed_keeps held _ tested.fits tested.empty tested.noHome
      · exact AxisState.homeStep_keeps held tested (by simpa using travel) (by simp [hp]) fun hne => absurd hp hne
  | backoff =>
    have tested := homing.testStop .plus
    dsimp only
    split
    · exact AxisState.homeFailed_keeps held _ tested.fits tested.empty tested.noHome
    · exact AxisState.homeStep_keeps held tested (by simpa using travel) (by simpa using back) fun _ y r hy =>
        AxisState.endBackoff_keeps held r hy

/-! ### Contacts and stops (R35, R36, R55, R56) -/

/-- After a stop a pending home starts its homing run, or the entries behind the stop go on (R36, R48). -/
theorem AxisState.afterStop_sound {env : AxisEnv} {x : AxisState} (hm : x.motion = .idle) (fits : fitsCount x.position = true)
    (home : x.pendingHome = true → env.canRun = true) (admits : x.Admits x.queue)
    (flushed : (¬ env.canRun = true ∨ x.pendingHome = true) → x.queue = []) :
    (x.afterStop env).axis.Sound (env.canRun = true) (lastTarget x.queue x.position) := by
  unfold AxisState.afterStop
  by_cases hp : x.pendingHome = true
  · rw [if_pos ⟨hp, home hp⟩]
    exact AxisState.beginHoming_sound (home hp) fits (flushed (.inr hp))
  · rw [if_neg (fun hc => hp hc.1)]
    refine AxisState.settle_sound hm fits (by simpa using hp) admits fun hq => ?_
    by_contra hc
    exact hq (flushed (.inl hc))

theorem AxisState.contactHalt_keeps {env : AxisEnv} {x : AxisState} (held : Int) (d : Dir) (motion : Halted)
    (fits : fitsCount x.position = true) (home : x.pendingHome = true → env.canRun = true) :
    (x.contactHalt env d motion).Keeps env held := by
  have zero : fitsCount 0 = true := by decide
  unfold LensOut.Keeps AxisState.contactHalt
  dsimp only
  split
  · rename_i hh
    exact AxisState.beginHoming_sound hh.2 (by rw [AxisState.enterHold_position]; cases d <;> assumption) (by simp)
  · rename_i hh
    have noHome : x.pendingHome = false := by
      by_contra hp
      exact hh ⟨by simpa using hp, home (by simpa using hp)⟩
    exact AxisState.enterHold_sound (AxisState.sound_of_rest (.inl rfl) (by cases d <;> assumption) rfl noHome rfl)

/-- The end of a stop (R36): the record's target is then where the axis drains, the change made or not. -/
theorem AxisState.endStop_keeps {env : AxisEnv} {x : AxisState} {st : Stop} {held : Int} {waiting : List Entry}
    (h : x.Slowing (env.canRun = true) held st waiting) : (x.endStop env st).Keeps env held := by
  have queue : (if st.abandoned then x.queue else x.queue.tail) = waiting := by
    have kept := h.kept
    unfold AxisState.Stopped at kept
    split at kept
    · obtain ⟨-, rfl⟩ := kept; simp [*]
    · obtain ⟨e, hq, -⟩ := kept; simp [*]
  let y : AxisState := { x with motion := .idle, stepTimer := none, queue := waiting }
  have after := AxisState.afterStop_sound (env := env) (x := y) rfl h.fits h.home (h.admits.congr id rfl) h.flushed
  have target : (if y.position = st.position then none else some (y.drain y.position)).getD held =
      lastTarget y.queue y.position := by
    split
    · rename_i hy; rw [hy]; exact h.drains
    · exact AxisState.drain_of_idle (x := y) rfl y.position
  unfold LensOut.Keeps AxisState.endStop
  simp only [queue]
  rw [LensOut.andThen_axis, LensOut.andThen_change]
  dsimp only
  rw [target]
  exact after

/-- An axis that is sound but for a stop of which no microstep may be left (R35). -/
def AxisState.SoundBut (c : Prop) (held : Int) (x : AxisState) : Prop :=
  x.Sound c held ∨ ∃ st waiting, x.motion = .stopping st ∧ st.remaining = 0 ∧ x.Slowing c held st waiting

theorem AxisState.Slowing.soundBut {x : AxisState} {c : Prop} {held : Int} {st : Stop} {waiting : List Entry}
    (h : x.Slowing c held st waiting) (hm : x.motion = .stopping st) : x.SoundBut c held := by
  rcases Nat.eq_zero_or_pos st.remaining with hz | hp
  · exact .inr ⟨st, waiting, hm, hz, h⟩
  · exact .inl ((AxisState.sound_stopping_iff hm).mpr ⟨hp, waiting, h⟩)

/-- A stop of no microstep ends when it is taken, and the axis is sound (R35). -/
theorem AxisState.endIfStopped_keeps {env : AxisEnv} {x : AxisState} {held : Int} (h : x.SoundBut (env.canRun = true) held) :
    (x.endIfStopped env).Keeps env held := by
  rcases h with h | ⟨st, waiting, hm, hz, h⟩
  · unfold AxisState.endIfStopped
    cases hm : x.motion with
    | stopping st =>
      obtain ⟨more, -⟩ := (AxisState.sound_stopping_iff hm).mp h
      simpa [Nat.ne_of_gt more] using LensOut.keeps_of_still h
    | idle => exact h
    | running l => exact h
    | homing run => exact h
    | fault => exact h
  · unfold AxisState.endIfStopped
    simp only [hm, hz, if_true]
    exact AxisState.endStop_keeps h

/-- A stop that begins leaves an axis bound for its stop position, with nothing waiting (R35). -/
theorem AxisState.stopAfter_soundBut {env : AxisEnv} {x : AxisState} {c : Prop} {held : Int} {d : Dir} {abandoned : Bool}
    (r pRun : Nat) (reason : DoneReason) (fits : fitsCount x.position = true) (home : x.pendingHome = true → c)
    (kept : if abandoned then x.trust = .unhomed else ∃ e rest, x.queue = e :: rest ∧ e.active = true) :
    (x.stopAfter env r d pRun reason abandoned).axis.SoundBut c
      ((x.stopAfter env r d pRun reason abandoned).change.getD held) := by
  have landed := AxisState.countTo_fits env.axis x (x.position + d.sign * r)
  refine AxisState.Slowing.soundBut (waiting := [])
    ⟨fits, ?_, by simpa [AxisState.stopAfter] using home, landed, ?_, by simp, by simp, rfl⟩ rfl
  · cases abandoned with
    | true => exact queueFits_of_nil rfl
    | false =>
      obtain ⟨e, rest, hq, active⟩ := kept
      simpa [QueueFits, AxisState.stopAfter, hq] using landed
  · cases abandoned with
    | true => simpa [AxisState.Stopped, AxisState.stopAfter] using kept
    | false =>
      obtain ⟨e, rest, hq, active⟩ := kept
      simpa [AxisState.Stopped, AxisState.stopAfter, hq] using active

/-- A stop that begins on a RUNNING or HOMING axis leaves it sound but for a stop of no microstep, also when the part may no
longer run (R35, R37); a pending home may have been set just before (R47). -/
theorem AxisState.beginStop_soundBut {env : AxisEnv} {x : AxisState} {c d : Prop} {held : Int} (home : Bool)
    (reason : DoneReason) (h : x.Sound c held) (hc : home = true → d)
    (hm : (∃ l, x.motion = .running l) ∨ ∃ run, x.motion = .homing run) :
    (({ x with pendingHome := home }).beginStop env reason).axis.SoundBut d
      ((({ x with pendingHome := home }).beginStop env reason).change.getD held) := by
  unfold AxisState.beginStop
  rcases hm with ⟨l, hm⟩ | ⟨run, hm⟩
  · obtain ⟨e, rest, way, -⟩ := (AxisState.sound_running_iff hm).mp h
    simp only [hm]
    exact AxisState.stopAfter_soundBut _ _ _ way.fits hc ⟨e, rest, way.queue, way.active⟩
  · simp only [hm]
    exact AxisState.stopAfter_soundBut 
      (x := { x with pendingHome := home, motion := .homing run, trust := .unhomed }) (abandoned := true) _ _ _ h.position_fits hc rfl

/-! ### Microsteps (R32) -/

theorem AxisState.Sound.testStop {x : AxisState} {c : Prop} {held : Int} (h : x.Sound c held) (d : Dir) :
    (x.testStop d).2.Sound c held := h.congr (by simp) (by simp) (by simp) (by simp) (by simp) (by simp)

theorem AxisState.UnderWay.microstep {x : AxisState} {c : Prop} {held : Int} {e : Entry} {rest : List Entry}
    (h : x.UnderWay c held e rest) (a : Axis) (d : Dir) : (x.microstep a d).UnderWay c held e rest :=
  ⟨by simp, h.run, by simpa using h.noHome, by simpa using h.admits.congr (by simp) (by simp), by simpa using h.queue,
    h.active, h.drains⟩

/-- A microstep of a final leg is one count nearer to its target, which is a count. -/
theorem AxisState.Bound.microstep_position {x : AxisState} {l : Leg} {e : Entry} (h : x.Bound l e) (hk : l.kind = .final)
    (fits : fitsCount x.position = true) (target : fitsCount e.target = true) (a : Axis) :
    (x.microstep a l.dir).position + l.dir.sign * ((l.n : Int) - (l.issued + 1 : Nat)) = e.target := by
  obtain ⟨more, final⟩ := h
  obtain ⟨-, ends⟩ := final hk
  rw [fitsCount_iff] at fits target
  have next : fitsCount (x.position + l.dir.sign) = true := by
    rw [fitsCount_iff]
    cases hd : l.dir <;> simp only [hd, Dir.sign_minus, Dir.sign_plus] at ends ⊢ <;> omega
  rw [AxisState.microstep_of_fits next]
  cases hd : l.dir <;> simp only [hd, Dir.sign_minus, Dir.sign_plus] at ends ⊢ <;> omega

theorem AxisState.stepLeg_keeps {env : AxisEnv} {x : AxisState} {l : Leg} {held : Int}
    (h : x.Sound (env.canRun = true) held) (hm : x.motion = .running l) : (x.stepLeg env l).Keeps env held := by
  have tested := h.testStop l.dir
  have running : (x.testStop l.dir).2.motion = .running l := by simpa using hm
  obtain ⟨e, rest, way, bound⟩ := (AxisState.sound_running_iff running).mp tested
  have stepped := way.microstep env.axis l.dir
  have target : fitsCount e.target = true := way.admits.counts e (way.queue ▸ List.mem_cons_self)
  unfold AxisState.stepLeg
  split
  rename_i contact y hy
  obtain rfl : (x.testStop l.dir).2 = y := by rw [hy]
  dsimp only
  split
  · exact AxisState.contactHalt_keeps held _ _ way.fits fun hp => absurd hp (by rw [way.noHome]; simp)
  · split
    · rename_i hn
      have halted : ({ (x.testStop l.dir).2.microstep env.axis l.dir with lastStepAt := env.now } : AxisState).UnderWay
          (env.canRun = true) held e rest := stepped.congr stepped.fits rfl id rfl rfl
      cases hk : l.kind with
      | final =>
        have arrived := bound.microstep_position hk way.fits target env.axis
        have last : l.n = l.issued + 1 := by have := bound.1; omega
        exact AxisState.complete_keeps halted (by simpa [last] using arrived)
      | overshoot => exact AxisState.nextLeg_keeps halted _
    · rename_i hn
      refine AxisState.sound_of_running
        (l := { l with issued := l.issued + 1, lastRamp := l.rampIndex l.issued }) rfl
        (stepped.congr stepped.fits rfl id rfl rfl) ⟨?_, fun hk => ⟨?_, ?_⟩⟩
      · simpa using hn
      · exact (bound.2 hk).1
      · simpa using bound.microstep_position hk way.fits target env.axis

theorem AxisState.stepStop_keeps {env : AxisEnv} {x : AxisState} {st : Stop} {held : Int}
    (h : x.Sound (env.canRun = true) held) (hm : x.motion = .stopping st) : (x.stepStop env st).Keeps env held := by
  have tested := h.testStop st.dir
  have stopping : (x.testStop st.dir).2.motion = .stopping st := by simpa using hm
  obtain ⟨more, waiting, slowing⟩ := (AxisState.sound_stopping_iff stopping).mp tested
  unfold AxisState.stepStop
  split
  rename_i contact y hy
  obtain rfl : (x.testStop st.dir).2 = y := by rw [hy]
  have stepped : ∀ (y : AxisState) (st' : Stop), y.params = (x.testStop st.dir).2.params → y.trust = (x.testStop st.dir).2.trust →
      y.queue = (x.testStop st.dir).2.queue → y.pendingHome = (x.testStop st.dir).2.pendingHome →
      fitsCount y.position = true → st'.position = st.position → st'.abandoned = st.abandoned →
      y.Slowing (env.canRun = true) held st' waiting := by
    intro y st' hp ht hq hh fits hs ha
    obtain ⟨-, queue, home, stop, kept, inactive, flushed, drains⟩ := slowing
    refine ⟨fits, by simpa only [QueueFits, InTravel, hp, ht, hq] using queue, by rwa [hh], by rwa [hs], ?_, inactive,
      by rwa [hh], by rwa [hs]⟩
    simpa only [AxisState.Stopped, ht, hq, hs, ha] using kept
  dsimp only
  split
  · exact AxisState.contactHalt_keeps held _ _ slowing.fits slowing.home
  · split
    · exact AxisState.endStop_keeps (stepped _ _ (by simp) (by simp) (by simp) (by simp) (by simp) rfl rfl)
    · rename_i hr
      exact AxisState.sound_of_stopping (st := { st with remaining := st.remaining - 1 }) rfl (Nat.pos_of_ne_zero hr)
        (stepped _ _ (by simp) (by simp) (by simp) (by simp) (by simp) rfl rfl)

/-- The step timer keeps an axis sound (R32). -/
theorem AxisState.step_keeps {env : AxisEnv} {x : AxisState} {held : Int} (h : x.Sound (env.canRun = true) held)
    (travel : x.params.travel ≤ 60000) : (x.step env).Keeps env held := by
  unfold AxisState.step
  cases hm : x.motion with
  | running l => exact AxisState.stepLeg_keeps h hm
  | stopping st => exact AxisState.stepStop_keeps h hm
  | homing run => exact AxisState.stepHoming_keeps h hm travel
  | idle => exact h
  | fault => exact h

/-! ### Conditions that reach a moving axis -/

theorem present_getD {α : Type} (b : Bool) (x y : α) : (present b x).getD y = if b then x else y := by
  cases b <;> rfl

/-- A STOPPING axis whose waiting entries are flushed goes on with its stop, a pending home set or cleared with them: its target
is then the stop position (R37, R48). -/
theorem AxisState.flushBehind_sound {x : AxisState} {c d : Prop} {held : Int} {st : Stop} (home : Bool) (h : x.Sound c held)
    (hm : x.motion = .stopping st) (hd : home = true → d) :
    ({ (x.flushBehind st).2 with pendingHome := home } : AxisState).Sound d
      ((present (x.flushBehind st).1 st.position).getD held) := by
  obtain ⟨more, waiting, slowing⟩ := (AxisState.sound_stopping_iff hm).mp h
  have queue : x.flushBehind st = (decide (waiting ≠ []), { x with queue := if st.abandoned then [] else x.queue.take 1 }) := by
    have kept := slowing.kept
    unfold AxisState.Stopped at kept
    unfold AxisState.flushBehind
    split at kept
    · obtain ⟨-, rfl⟩ := kept; simp [*, List.length_pos_iff]
    · obtain ⟨e, hq, -⟩ := kept; simp [*, List.length_pos_iff]
  have target : (present (x.flushBehind st).1 st.position).getD held = st.position := by
    rw [queue, present_getD, slowing.drains]
    by_cases hw : waiting = [] <;> simp [hw]
  rw [target, queue]
  refine AxisState.sound_of_stopping hm more (waiting := [])
    ⟨slowing.fits, ?_, hd, slowing.stop, ?_, by simp, by simp, rfl⟩
  · obtain ⟨-, -, counts, -⟩ := slowing.queue
    cases ha : st.abandoned with
    | true => exact queueFits_of_nil (by simp)
    | false =>
      cases hq : x.queue with
      | nil => exact queueFits_of_nil (by simp)
      | cons e rest => simpa [QueueFits] using counts e (by simp [hq])
  · have kept := slowing.kept
    unfold AxisState.Stopped at kept ⊢
    split at kept
    · simp [*]
    · obtain ⟨e, hq, active, target⟩ := kept
      simp [*]

/-- The thermal stop leaves an axis sound for a part that may not run (R37). -/
theorem AxisState.thermalStop_soundBut {env : AxisEnv} {x : AxisState} {c : Prop} {held : Int} (h : x.Sound c held) (d : Prop) :
    (x.thermalStop env).axis.SoundBut d ((x.thermalStop env).change.getD held) := by
  have begins : (∃ l, x.motion = .running l) ∨ (∃ run, x.motion = .homing run) →
      (x.beginStop env .thermal).axis.SoundBut d ((x.beginStop env .thermal).change.getD held) := by
    intro hm
    have noHome := h.pendingHome_false (by rcases hm with ⟨l, hm⟩ | ⟨run, hm⟩ <;> simp [hm])
    have := AxisState.beginStop_soundBut (env := env) (d := d) false .thermal h (by simp) hm
    rwa [← noHome] at this
  unfold AxisState.thermalStop
  cases hm : x.motion with
  | running l => exact begins (.inl ⟨l, hm⟩)
  | homing run => exact begins (.inr ⟨run, hm⟩)
  | stopping st => exact .inl (AxisState.flushBehind_sound false h hm (by simp))
  | idle =>
    obtain ⟨fits, empty, noHome, at_⟩ := (AxisState.sound_rest_iff (.inl hm)).mp h
    exact .inl (AxisState.sound_of_rest (.inl hm) fits empty noHome at_)
  | fault =>
    obtain ⟨fits, empty, noHome, at_⟩ := (AxisState.sound_rest_iff (.inr hm)).mp h
    exact .inl (AxisState.sound_of_rest (.inr hm) fits empty noHome at_)

/-- HOME on a part that may run leaves an axis sound but for a stop of no microstep (R47). -/
theorem AxisState.home_soundBut {env : AxisEnv} {x : AxisState} {held : Int} (h : x.Sound (env.canRun = true) held)
    (run : env.canRun = true) : (x.home env).axis.SoundBut (env.canRun = true) ((x.home env).change.getD held) := by
  unfold AxisState.home
  cases hm : x.motion with
  | idle =>
    obtain ⟨fits, empty, -⟩ := (AxisState.sound_rest_iff (.inl hm)).mp h
    exact .inl (AxisState.beginHoming_sound run fits empty)
  | running l =>
    have stops := AxisState.beginStop_soundBut (env := env) true .aborted h (fun _ => run) (.inl ⟨l, hm⟩)
    simpa only [hm] using stops
  | stopping st => exact .inl (AxisState.flushBehind_sound true h hm fun _ => run)
  | homing r => exact .inl h
  | fault => exact .inl h

/-- ABORT_MOTION leaves an axis sound but for a stop of no microstep (R34). -/
theorem AxisState.beginStop_keeps_soundBut {env : AxisEnv} {x : AxisState} {held : Int} {c : Prop} (reason : DoneReason)
    (h : x.Sound c held) :
    (x.beginStop env reason).axis.SoundBut c ((x.beginStop env reason).change.getD held) := by
  have begins : (∃ l, x.motion = .running l) ∨ (∃ run, x.motion = .homing run) →
      (x.beginStop env reason).axis.SoundBut c ((x.beginStop env reason).change.getD held) :=
    AxisState.beginStop_soundBut x.pendingHome reason h h.2.2.1
  cases hm : x.motion with
  | running l => exact begins (.inl ⟨l, hm⟩)
  | homing run => exact begins (.inr ⟨run, hm⟩)
  | idle => unfold AxisState.beginStop; rw [hm]; exact .inl h
  | stopping st => unfold AxisState.beginStop; rw [hm]; exact .inl h
  | fault => unfold AxisState.beginStop; rw [hm]; exact .inl h

/-- A halt leaves every axis at rest at its target, whether or not the part may run (R38, R43). -/
theorem AxisState.halt_sound {env : AxisEnv} {x : AxisState} {c d : Prop} {held : Int} (reason : DoneReason)
    (h : x.Sound c held) : (x.halt env reason).axis.Sound d ((x.halt env reason).change.getD held) := by
  unfold AxisState.halt
  by_cases hmv : x.moving = true
  · have halted : ∀ y : AxisState, y.motion = .idle → y.position = x.position → y.queue = [] → y.pendingHome = false →
        y.Sound d x.position := fun y hm hp hq hh =>
      AxisState.sound_of_rest (.inl hm) (by rw [hp]; exact h.position_fits) hq hh hp.symm
    rw [if_pos hmv]
    cases reason <;> exact halted _ (by simp) (by simp) (by simp) (by simp)
  · have still : x.motion = .idle ∨ x.motion = .fault := by
      cases hm : x.motion <;> simp_all [AxisState.moving]
    obtain ⟨fits, -, noHome, at_⟩ := (AxisState.sound_rest_iff still).mp h
    rw [if_neg hmv]
    exact AxisState.sound_of_rest still fits rfl noHome at_

theorem AxisState.driverFault_sound {env : AxisEnv} {x : AxisState} {c : Prop} {held : Int} (h : x.Sound c held) :
    (x.driverFault env).axis.Sound c ((x.driverFault env).change.getD held) := by
  have faulted : ∀ y : AxisState, y.motion = .fault → y.position = x.position → y.queue = [] → y.pendingHome = false →
      y.Sound c ((present (x.moving || !x.queue.isEmpty) x.position).getD held) := by
    intro y hm hp hq hh
    refine AxisState.sound_of_rest (.inr hm) (by rw [hp]; exact h.position_fits) hq hh ?_
    rw [present_getD, hp]
    split
    · rfl
    · rename_i hmv
      have still : x.motion = .idle ∨ x.motion = .fault := by
        cases hm : x.motion <;> simp_all [AxisState.moving]
      obtain ⟨-, -, -, at_⟩ := (AxisState.sound_rest_iff still).mp h
      exact at_
  unfold AxisState.driverFault
  cases hm : x.motion with
  | fault => exact h
  | idle => exact faulted _ rfl rfl rfl rfl
  | running l => exact faulted _ rfl rfl rfl rfl
  | stopping st => exact faulted _ rfl rfl rfl rfl
  | homing run => exact faulted _ rfl rfl rfl rfl

/-! ### The reference mark (R57 to R59) -/

theorem AxisState.correctLeg_keeps {env : AxisEnv} {x : AxisState} {l : Leg} {held : Int}
    (h : x.Sound (env.canRun = true) held) (hm : x.motion = .running l) (ref : fitsCount (x.params.refPos : Int) = true) :
    (x.correctLeg env l).Keeps env held := by
  obtain ⟨e, rest, way, bound⟩ := (AxisState.sound_running_iff hm).mp h
  unfold AxisState.correctLeg
  dsimp only
  split
  · exact AxisState.nextLeg_keeps (x := { x with position := x.params.refPos }) (way.congr ref rfl id rfl rfl) _
  · rename_i toGo
    refine AxisState.sound_of_running
      (l := { l with n := l.issued + (l.dir.sign * (l.endPoint - x.params.refPos)).toNat }) rfl
      (way.congr ref rfl id rfl rfl) ⟨?_, fun hk => ?_⟩
    · dsimp only; omega
    · obtain ⟨ends, -⟩ := bound.2 hk
      refine ⟨ends, ?_⟩
      rw [← ends]
      dsimp only
      cases hd : l.dir <;> simp only [hd, Dir.sign_minus, Dir.sign_plus] at toGo ⊢ <;> omega

/-- A slip takes a HOMED axis's trust, and with it what soundness asks of a HOMED one (R59). -/
theorem AxisState.slip_keeps {env : AxisEnv} {x : AxisState} {held : Int} (h : x.Sound (env.canRun = true) held)
    (trust : x.trust ≠ .unhomed) (d : Int) : (x.slip env d).Keeps env held := by
  have unsure : ({ x with trust := .unsure } : AxisState).Sound (env.canRun = true) held := by
    cases hm : x.motion with
    | idle =>
      obtain ⟨fits, empty, noHome, at_⟩ := (AxisState.sound_rest_iff (.inl hm)).mp h
      exact AxisState.sound_of_rest (.inl rfl) fits empty noHome at_
    | fault =>
      obtain ⟨fits, empty, noHome, at_⟩ := (AxisState.sound_rest_iff (.inr hm)).mp h
      exact AxisState.sound_of_rest (.inr rfl) fits empty noHome at_
    | homing run =>
      obtain ⟨-, -, -, -, unhomed, -⟩ := (AxisState.sound_homing_iff hm).mp h
      exact absurd unhomed trust
    | running l =>
      obtain ⟨e, rest, way, bound⟩ := (AxisState.sound_running_iff hm).mp h
      exact AxisState.sound_of_running rfl (way.congr way.fits rfl (by simp) rfl rfl) bound
    | stopping st =>
      obtain ⟨more, waiting, slowing⟩ := (AxisState.sound_stopping_iff hm).mp h
      obtain ⟨short, inactive, counts, -⟩ := slowing.queue
      refine AxisState.sound_of_stopping rfl more (waiting := waiting)
        ⟨slowing.fits, ⟨short, inactive, counts, by simp⟩, slowing.home, slowing.stop, ?_, slowing.inactive, slowing.flushed,
          slowing.drains⟩
      have kept := slowing.kept
      unfold AxisState.Stopped at kept ⊢
      split at kept
      · exact absurd kept.1 trust
      · simp [*]
  exact unsure

theorem AxisState.refMark_keeps {env : AxisEnv} {x : AxisState} {held : Int} (h : x.Sound (env.canRun = true) held)
    (ref : fitsCount (x.params.refPos : Int) = true) : (x.refMark env).Keeps env held := by
  unfold AxisState.refMark
  dsimp only
  split
  · exact h
  · rename_i hn
    have trust : x.trust ≠ .unhomed := fun ht => hn (.inl ht)
    cases hm : x.motion with
    | running l =>
      dsimp only
      split
      · exact AxisState.correctLeg_keeps h hm ref
      · exact AxisState.slip_keeps h trust _
    | stopping st =>
      dsimp only
      split
      · obtain ⟨more, waiting, slowing⟩ := (AxisState.sound_stopping_iff hm).mp h
        exact AxisState.sound_of_stopping rfl more (waiting := waiting)
          ⟨ref, slowing.queue, slowing.home, slowing.stop, slowing.kept, slowing.inactive, slowing.flushed, slowing.drains⟩
      · exact AxisState.slip_keeps h trust _
    | idle => exact h
    | homing run => exact h
    | fault => exact h

/-! ### Recovery and the lines -/

theorem AxisState.recover_sound {x : AxisState} {c : Prop} {held : Int} (h : x.Sound c held) : x.recover.Sound c held := by
  unfold AxisState.recover
  cases hm : x.motion with
  | fault =>
    obtain ⟨fits, -, noHome, at_⟩ := (AxisState.sound_rest_iff (.inr hm)).mp h
    exact AxisState.sound_of_rest (.inl rfl) fits rfl noHome at_
  | idle => exact h
  | running l => exact h
  | stopping st => exact h
  | homing run => exact h

theorem AxisState.holdExpired_sound {x : AxisState} {c : Prop} {held : Int} (h : x.Sound c held) :
    x.holdExpired.Sound c held := by
  unfold AxisState.holdExpired
  split <;> exact h.congr rfl rfl rfl rfl rfl rfl

theorem AxisState.endStopEdge_sound {x : AxisState} {c : Prop} {held : Int} (stop : EndStop) (active counted : Bool)
    (h : x.Sound c held) : (x.endStopEdge stop active counted).Sound c held := by
  cases stop <;> exact h.congr rfl rfl rfl rfl rfl rfl

theorem AxisState.hardReset_sound (a : Axis) (x : AxisState) (c : Prop) :
    (x.hardReset a).Sound c (AxisParams.default a).centre := by
  have centre : fitsCount ((AxisParams.default a).centre : Int) = true := by cases a <;> decide
  exact AxisState.sound_of_rest (.inl rfl) centre rfl rfl rfl

end Sys2Proof.Machine
end

