-- ==== Sys2Proof/Proofs/Requests.lean ====
section
/-! PROOFS. What taking a request can do to a property of the state (R166, R167, R169), and the commands that leave the record,
the axes, the device thermal state and the trip latch alone. -/

namespace Sys2Proof.Machine

/-! ### Taking a request -/

/-- A request keeps a property that its effect keeps, and that the slot and the mark of its port do not touch. -/
theorem takeRequest_keeps {P : State → Prop} {p : Port} {kind : Byte} {s t : State} {f : State → State × Answer}
    (slot : ∀ u x, P u → P (u.setSlot p x)) (crossing : P s → P (s.setCrossing p false)) (hs : P s) (hf : P (f s).1)
    (h : takeRequest p kind s f = .next t) : P t := by
  obtain ⟨-, rfl⟩ | ⟨-, -, rfl⟩ | ⟨-, -, rfl⟩ := takeRequest_cases h
  · exact hs
  · exact crossing hs
  · exact slot _ _ hf

/-- Judging a request keeps a property that its effect keeps once every check has passed. -/
theorem judge_keeps {P : State → Prop} {fields : List (Nat × Bool)} {checks : List (Bool × Status)}
    {refuse : State → List Byte} {effect : State → State × Answer} {s : State} (hs : P s)
    (he : firstFault fields = none → firstFail checks = none → P (effect s).1) : P (judge fields checks refuse effect s).1 := by
  rcases judge_cases fields checks refuse effect s with ⟨_, -, h⟩ | ⟨_, -, -, h⟩ | ⟨hf, hc, h⟩ <;> rw [h]
  · exact hs
  · exact hs
  · exact he hf hc

/-- Every check passes exactly when none fails first (R169). -/
theorem firstFail_eq_none_iff (l : List (Bool × Status)) : firstFail l = none ↔ ∀ c ∈ l, c.1 = true := by
  induction l with
  | nil => simp
  | cons c l ih =>
    rw [firstFail_cons, List.forall_mem_cons, ← ih]
    by_cases hc : c.1 = true <;> simp [hc]

/-- A command that hard reset suppresses keeps a property that its effect keeps. -/
theorem unlessReset_keeps {P : State → Prop} {s t : State} {f : State → State} (hs : P s) (hf : s.inReset = false → P (f s))
    (h : unlessReset s f = .next t) : P t := by
  obtain rfl := Host.Outcome.next.inj h
  cases hr : s.inReset with
  | true => simpa [hr] using hs
  | false => simpa [hr] using hf hr

/-- A frame's request is taken as the command it is, and a command that no frame carries does nothing (R166). -/
theorem takeParsed_eq (i : Instr) (s : State) : takeParsed i s = if (portOf i).isSome then exec i s else .next s := by
  cases i <;> rfl

/-- Everything that MALFORMED_REQUEST can be: no request, a BAD_REQUEST, or a request (R166). -/
theorem execMalformedRequest_cases (p : Port) (bytes : List Byte) (s : State) :
    execMalformedRequest p bytes s = .next s ∨
      (∃ kind cause, execMalformedRequest p bytes s = takeRequest p kind s fun s => (s, badRequest cause 0)) ∨
      ∃ i, (portOf i).isSome = true ∧ execMalformedRequest p bytes s = exec i s := by
  unfold execMalformedRequest takeFrame
  split
  · exact .inl rfl
  · exact .inr (.inl ⟨_, _, rfl⟩)
  · rename_i i _
    rw [takeParsed_eq]
    split
    · exact .inr (.inr ⟨i, ‹_›, rfl⟩)
    · exact .inl rfl

/-! ### An event set that tells of an installation change (R3, R173) -/

/-- A port's event set holds INSTALL_CHANGED. -/
def PortState.Told (x : PortState) : Prop := ∃ e ∈ x.events, e.event.kind = .installChanged

theorem placeEvent_kinds (e : Event) (es : List SetEntry) (k : EventKind) :
    (∃ x ∈ placeEvent e es, x.event.kind = k) ↔ k = e.kind ∨ ∃ x ∈ es, x.event.kind = k := by
  induction es with
  | nil => simp [placeEvent, eq_comm]
  | cons x xs ih =>
    unfold placeEvent
    split
    · rename_i h
      simp only [List.exists_mem_cons_iff, h, eq_comm (a := e.kind)]
      tauto
    · simp only [List.exists_mem_cons_iff, ih]
      tauto

theorem PortState.told_place_iff (p : Port) (x : PortState) (e : Event) :
    (x.place p e).Told ↔ (routed p e.kind = true ∧ e.kind = .installChanged) ∨ x.Told := by
  unfold PortState.place PortState.Told
  split
  · rename_i h
    simp only [placeEvent_kinds, h, true_and, eq_comm (a := e.kind)]
  · rename_i h
    simp [h]

/-- Both event sets tell of an installation change. -/
def State.Told (s : State) : Prop := s.cpi.port.Told ∧ s.fpi.port.Told

theorem State.Told.raise {s : State} (h : s.Told) (e : Event) : (s.raise e).Told :=
  ⟨(PortState.told_place_iff _ _ _).mpr (.inr h.1), (PortState.told_place_iff _ _ _).mpr (.inr h.2)⟩

theorem State.Told.raiseAll {s : State} (h : s.Told) (es : List Event) : (s.raiseAll es).Told := by
  induction es generalizing s with
  | nil => exact h
  | cons e es ih => exact ih (h.raise e)

theorem State.Told.congr {s t : State} (h : s.Told) (hc : t.cpi.port.events = s.cpi.port.events)
    (hf : t.fpi.port.events = s.fpi.port.events) : t.Told := by
  unfold State.Told PortState.Told at *
  rwa [hc, hf]

/-! ### Operations beside the record and the axes -/

/-- From one state to another the installation record, the axes, the device thermal state and the trip latch stay, and no event
set loses a change it told of. -/
structure Aside (s t : State) : Prop where
  irm : t.irm = s.irm
  lmc : t.lmc = s.lmc
  device : t.tmon.device = s.tmon.device
  trip : t.tmon.trip = s.tmon.trip
  told : s.Told → t.Told

namespace Aside

theorem refl (s : State) : Aside s s := ⟨rfl, rfl, rfl, rfl, id⟩

theorem trans {s t u : State} (h : Aside s t) (g : Aside t u) : Aside s u :=
  ⟨g.irm.trans h.irm, g.lmc.trans h.lmc, g.device.trans h.device, g.trip.trans h.trip, g.told ∘ h.told⟩

/-- An operation that raises nothing. -/
theorem of_quiet {s t : State} (irm : t.irm = s.irm := by rfl) (lmc : t.lmc = s.lmc := by rfl)
    (device : t.tmon.device = s.tmon.device := by rfl) (trip : t.tmon.trip = s.tmon.trip := by rfl)
    (hc : t.cpi.port.events = s.cpi.port.events := by rfl) (hf : t.fpi.port.events = s.fpi.port.events := by rfl) :
    Aside s t := ⟨irm, lmc, device, trip, fun h => h.congr hc hf⟩

/-! Each operation, after others that leave the record and the axes alone. -/

variable {s t : State} (h : Aside s t)
include h

theorem raise (e : Event) : Aside s (t.raise e) := h.trans ⟨rfl, rfl, rfl, rfl, fun h => h.raise e⟩

theorem raiseAll (es : List Event) : Aside s (t.raiseAll es) :=
  h.trans ⟨by simp, by simp, by simp, by simp, fun h => h.raiseAll es⟩

theorem setSlot (p : Port) (x : Slot) : Aside s (t.setSlot p x) := h.trans (by cases p <;> exact of_quiet)

theorem setCrossing (p : Port) (b : Bool) : Aside s (t.setCrossing p b) := h.trans (by cases p <;> exact of_quiet)

theorem setGe (x : Ge) : Aside s { t with ge := x } := h.trans of_quiet

theorem setFmon (x : Fmon) : Aside s { t with fmon := x } := h.trans of_quiet

theorem setLau (x : Lau) : Aside s { t with lau := x } := h.trans of_quiet

theorem setAfc (x : Afc) : Aside s { t with afc := x } := h.trans of_quiet

theorem setFpi (attached : Bool) (width height : Nat) (latched : Option Nat) :
    Aside s { t with fpi := ⟨t.fpi.port, attached, width, height, latched⟩ } := h.trans of_quiet

theorem at_ (time : Nat) : Aside s (t.at_ time) := h.trans of_quiet

theorem recompute : Aside s t.recompute :=
  h.trans (of_quiet (by simp) (by simp) (by simp) (by simp) (by simp) (by simp))

theorem recomputeIf (b : Bool) : Aside s (t.recomputeIf b) :=
  h.trans (of_quiet (by simp) (by simp) (by simp) (by simp) (by simp) (by simp))

theorem lauTake (x : LauInputs) : Aside s (t.lauTake x) := h.setLau _

theorem selectFans : Aside s t.selectFans :=
  h.trans (of_quiet (by simp) (by simp) (by simp) (by simp) (by simp) (by simp))

theorem enterSession (new : Session) (cause : SessionCause) : Aside s (t.enterSession new cause) :=
  ((h.setLau _).raise _).selectFans

theorem checkCooled : Aside s t.checkCooled := by
  unfold State.checkCooled
  split
  · exact h.enterSession _ _
  · exact h

theorem enterCooldown (cause : SessionCause) : Aside s (t.enterCooldown cause) := (h.enterSession _ _).checkCooled

theorem lightFault (reason : FaultReason) : Aside s (t.lightFault reason) := ((h.setLau _).raise _).enterCooldown _

theorem endLapse (cause : FrameCause) : Aside s (t.endLapse cause) := by
  unfold State.endLapse
  split
  · exact h.raise _
  · exact h

theorem publish (cause : FrameCause) : Aside s (t.publish cause) := (h.setGe _).raise _

theorem promote : Aside s t.promote := by
  unfold State.promote
  split
  · exact h.publish _
  · exact h

theorem completeComputation (c : Computation) : Aside s (t.completeComputation c) := by
  unfold State.completeComputation
  dsimp only
  cases c.marked with
  | true =>
    rw [if_pos rfl]
    split
    · exact (((h.setGe _).publish _).setGe _).setGe _
    · exact (h.setGe _).publish _
  | false =>
    rw [if_neg Bool.false_ne_true]
    split
    · exact ((h.setGe _).setGe _).setGe _
    · exact h.setGe _

theorem handFrameState : Aside s t.handFrameState := h.lauTake _

theorem markFrame : Aside s t.markFrame := by
  unfold State.markFrame
  dsimp only
  split
  · exact h.setFmon _
  · exact (h.setFmon _).setFmon _
  · exact (((h.setFmon _).endLapse _).setFmon _).handFrameState

theorem dropRequests : Aside s t.dropRequests := h.trans of_quiet

theorem applyRequest : Aside s t.applyRequest := by
  unfold State.applyRequest
  split
  · exact h.trans of_quiet
  · exact h

theorem attach (width height : Nat) : Aside s (t.attach width height) :=
  (((((h.setFpi _ _ _ _).endLapse _).setFmon _).dropRequests.handFrameState).setGe _).recompute

theorem detach : Aside s t.detach := ((((h.setFpi _ _ _ _).endLapse _).setFmon _).dropRequests.handFrameState).setGe _

theorem storeBlock (p : BlockParam) (x : Int) : Aside s (t.storeBlock p x) := h.trans (by cases p <;> exact of_quiet)

theorem paramEffect (p : BlockParam) : Aside s (t.paramEffect p) := by
  cases p with
  | flim => exact h.recompute
  | tCool => exact h.checkCooled
  | quietCap f => exact h.selectFans
  | coolDuty f => exact h.selectFans
  | lLapse | lIgn | lStall | lCrit | lAcFloor | acStep => exact h.setLau _
  | q | lapseWindow | slew | ignTimeout | coolMin | coolMax | dwell | startDuty | glitch => exact h

theorem install (l : Load) : Aside s (t.install l) := by
  refine Aside.recomputeIf (h.trans ?_) _
  unfold State.installTable
  split <;> exact of_quiet

theorem countScan : Aside s t.countScan := h.trans of_quiet

theorem handResults : Aside s t.handResults := (((h.setAfc _).selectFans).lauTake _).checkCooled

theorem setFan (f : Fan) (x : FanRecord) : Aside s (t.setFan f x) := h.setAfc _

end Aside

/-! ### The course of a scan (R100, R103, R104) -/

theorem State.evaluate_eq (s : State) (bus : BusCondition) :
    s.evaluate bus =
      ({ s with tmon := { s.tmon.evaluateZones with scan := none, bus := bus } } :
        State).formDevice.checkAbsolute.countScan.handResults := rfl

theorem State.nextSlot_cons (s : State) (n : Nat) (rest : List Nat) (worst : BusCondition) (bus : BusSample) :
    s.nextSlot (n :: rest) worst bus =
      if startCheck bus = .stuck then
        (State.raiseAll { s with tmon := (s.tmon.failStuck (n :: rest)).1 } (s.tmon.failStuck (n :: rest)).2).evaluate .stuck
      else { s with tmon := { s.tmon with scan := some { slots := n :: rest, bus := worst.worst (startCheck bus) } } } := rfl

theorem State.startScan_eq (s : State) (bus : BusSample) :
    s.startScan bus =
      ({ s with tmon := s.tmon.beginScan (s.tmon.nextScan.getD s.now) } : State).nextSlot (enabledSlots s.tmon.table) .clear
        bus := rfl

/-- A read that finishes goes on with the scan, or there is none to finish. -/
theorem State.finishSlot_cases (s : State) (outcome : Int → Except ReadCause Int) (bus : BusSample) :
    s.finishSlot outcome bus = s ∨
      ∃ n rest worst, s.tmon.scan = some ⟨n :: rest, worst⟩ ∧
        s.finishSlot outcome bus =
          (State.raiseAll { s with tmon := (s.tmon.finishRead n (outcome (slotAt s.tmon.latched n).offset)).1 }
            (s.tmon.finishRead n (outcome (slotAt s.tmon.latched n).offset)).2).nextSlot rest worst bus := by
  unfold State.finishSlot
  split
  · exact .inl rfl
  · exact .inl rfl
  · exact .inr ⟨_, _, _, ‹_›, rfl⟩

/-- The reads of a scan leave the device thermal state and the trip latch alone. -/
theorem Tmon.failStuck_keeps (t : Tmon) (slots : List Nat) :
    (t.failStuck slots).1.device = t.device ∧ (t.failStuck slots).1.trip = t.trip := by
  induction slots generalizing t with
  | nil => exact ⟨rfl, rfl⟩
  | cons n rest ih => exact ih _

theorem Aside.failStuck (s : State) (slots : List Nat) :
    Aside s (State.raiseAll { s with tmon := (s.tmon.failStuck slots).1 } (s.tmon.failStuck slots).2) := by
  obtain ⟨device, trip⟩ := Tmon.failStuck_keeps s.tmon slots
  exact (Aside.of_quiet (device := device) (trip := trip)).raiseAll _

theorem Aside.beginScan (s : State) (now : Nat) : Aside s { s with tmon := s.tmon.beginScan now } := Aside.of_quiet

theorem Aside.finishRead (s : State) (n : Nat) (r : Except ReadCause Int) :
    Aside s (State.raiseAll { s with tmon := (s.tmon.finishRead n r).1 } (s.tmon.finishRead n r).2) :=
  (Aside.of_quiet : Aside s { s with tmon := _ }).raiseAll _

/-! ### The commands beside the record and the axes -/

/-- The commands that may act on the record, on an axis, on the device thermal state or on the trip latch, and GET_EVENTS, which
empties an event set. -/
def reachesLens : Instr → Bool
  | .readInstall .. | .writeInstall .. | .jog .. | .getEvents .. | .abortMotion .. | .home .. | .axisRecover ..
  | .storePreset .. | .recallPreset .. | .clearPreset .. | .setParamAxis .. | .setParam .. | .restart ..
  | .malformedRequest .. | .hardReset .. | .hardResetEnd .. | .stepTimerExpiry .. | .endStopEdge .. | .refMkEdge ..
  | .drvFlt .. | .holdTimerExpiry .. | .scanStart .. | .slotReadDone .. | .probeBusTimeout .. | .criticalDwellExpiry
  | .tachEdgeAccepted .. | .graceTimerExpiry .. | .edgeTimerExpiry .. => true
  | .readAxis .. | .readThermal .. | .readLight .. | .readWarp .. | .readPreset .. | .setEventMask .. | .attach ..
  | .detach .. | .lightRequest .. | .lightOn .. | .lightOff .. | .setLightMode .. | .setQuiet .. | .clearLightFault ..
  | .getParam .. | .beginLoad .. | .loadSegment .. | .endLoad .. | .readTable .. | .responseFormed .. | .fmark ..
  | .lapseWindowExpiry | .computationComplete | .kickExpiry .. | .lightOkRise .. | .lightOkFall .. | .lightFlt ..
  | .ignitionTimerExpiry | .cooldownMinExpiry | .coolMax | .slewTimerExpiry => false

theorem Aside.takeRequest {s t : State} {p : Port} {kind : Byte} {f : State → State × Answer} (hf : Aside s (f s).1)
    (h : takeRequest p kind s f = .next t) : Aside s t :=
  takeRequest_keeps (P := Aside s) (fun _ x hu => hu.setSlot p x) (fun hs => hs.setCrossing p false) (.refl s) hf h

theorem Aside.judge {s : State} {fields : List (Nat × Bool)} {checks : List (Bool × Status)} {refuse : State → List Byte}
    {effect : State → State × Answer} (he : Aside s (effect s).1) : Aside s (judge fields checks refuse effect s).1 :=
  judge_keeps (.refl s) fun _ _ => he

theorem Aside.unlessReset {s t : State} {f : State → State} (hf : Aside s (f s)) (h : unlessReset s f = .next t) : Aside s t :=
  unlessReset_keeps (P := Aside s) (.refl s) (fun _ => hf) h

theorem Aside.lightOn (s : State) : Aside s s.lightOn.1 := by
  unfold State.lightOn
  split
  · exact .refl s
  · exact .refl s
  · exact .refl s
  · exact .refl s
  · split
    · exact .refl s
    · exact (Aside.refl s).enterSession _ _

theorem Aside.setLoad (s : State) (l : Option Load) : Aside s (s.setLoad l) := .of_quiet

/-- A request beside the record and the axes leaves them alone. -/
theorem aside_of_request {c : Instr} {p : Port} {s t : State} (hp : portOf c = some p) (hc : reachesLens c = false)
    (h : exec c s = .next t) : Aside s t := by
  unfold exec at h
  cases c with
  | readAxis => exact Aside.takeRequest (.judge (.refl s)) h
  | readThermal => exact Aside.takeRequest (.refl s) h
  | readLight => exact Aside.takeRequest (.refl s) h
  | readWarp p => exact Aside.takeRequest (by cases p <;> exact .of_quiet) h
  | readPreset => exact Aside.takeRequest (.judge (.refl s)) h
  | setEventMask p => exact Aside.takeRequest (.judge (by cases p <;> exact .of_quiet)) h
  | attach => exact Aside.takeRequest (.judge ((Aside.refl s).attach _ _)) h
  | detach =>
    refine Aside.takeRequest (.judge ?_) h
    dsimp only
    split
    · exact (Aside.refl s).detach
    · exact .refl s
  | lightRequest => exact Aside.takeRequest (.judge .of_quiet) h
  | lightOn => exact Aside.takeRequest (.judge (.lightOn s)) h
  | lightOff =>
    refine Aside.takeRequest (.judge ?_) h
    dsimp only
    split
    · exact (Aside.refl s).enterCooldown _
    · exact .refl s
  | setLightMode => exact Aside.takeRequest (.judge .of_quiet) h
  | setQuiet =>
    refine Aside.takeRequest (.judge ?_) h
    dsimp only
    split
    · exact .refl s
    · exact ((Aside.refl s).setAfc _).selectFans
  | clearLightFault => exact Aside.takeRequest (.judge .of_quiet) h
  | getParam p param index =>
    refine Aside.takeRequest ?_ h
    split
    · exact .refl s
    · exact .judge (.refl s)
  | beginLoad =>
    unfold execBeginLoad at h
    exact Aside.takeRequest (.judge (.setLoad s _)) h
  | loadSegment =>
    refine Aside.takeRequest ?_ h
    dsimp only
    split
    · exact .judge (.setLoad s _)
    · exact .refl s
  | endLoad =>
    refine Aside.takeRequest (.judge ?_) h
    dsimp only
    split
    · exact .refl s
    · split
      · exact .setLoad s _
      · exact (Aside.setLoad s _).install _
  | readTable =>
    unfold execReadTable at h
    exact Aside.takeRequest (.judge (.refl s)) h
  | _ => simp [reachesLens, portOf] at hc hp

/-- A command beside the record and the axes leaves them alone. -/
theorem aside_of_exec {c : Instr} {s t : State} (hc : reachesLens c = false) (h : exec c s = .next t) : Aside s t := by
  cases hp : portOf c with
  | some p => exact aside_of_request hp hc h
  | none =>
    unfold exec at h
    cases c with
    | responseFormed p =>
      refine Aside.unlessReset ?_ h
      cases p <;> refine .of_quiet rfl rfl rfl rfl ?_ ?_ <;> simp only [State.setPort, PortState.form] <;> split <;> rfl
    | fmark => exact Aside.unlessReset (((Aside.refl s).at_ _).promote.markFrame.applyRequest) h
    | lapseWindowExpiry =>
      refine Aside.unlessReset ?_ h
      dsimp only
      split
      · exact ((((Aside.refl s).at_ _).setFmon _).raise _).handFrameState
      · exact .refl s
    | computationComplete =>
      refine Aside.unlessReset ?_ h
      split
      · exact (Aside.refl s).completeComputation _
      · exact .refl s
    | kickExpiry =>
      refine Aside.unlessReset ?_ h
      split
      · exact ((Aside.refl s).at_ _).setFan _ _
      · exact .refl s
    | lightOkRise =>
      unfold execLightOkRise at h
      refine ((Aside.refl s).setLau _).trans (Aside.unlessReset ?_ h)
      dsimp only
      split
      · exact ((Aside.refl _).at_ _).enterSession _ _
      · exact (Aside.refl _).at_ _
    | lightOkFall =>
      unfold execLightOkFall at h
      refine ((Aside.refl s).setLau _).trans (Aside.unlessReset ?_ h)
      dsimp only
      split
      · exact ((Aside.refl _).at_ _).lightFault _
      · exact (Aside.refl _).at_ _
    | lightFlt =>
      unfold execLightFlt at h
      refine ((Aside.refl s).setLau _).trans (Aside.unlessReset ?_ h)
      dsimp only
      split
      · exact ((Aside.refl _).at_ _).lightFault _
      · exact (Aside.refl _).at_ _
    | ignitionTimerExpiry =>
      refine Aside.unlessReset ?_ h
      split
      · exact ((Aside.refl s).at_ _).lightFault _
      · exact .refl s
    | cooldownMinExpiry =>
      refine Aside.unlessReset ?_ h
      dsimp only
      split
      · exact (((Aside.refl s).at_ _).setLau _).checkCooled
      · exact .refl s
      · exact .refl s
    | coolMax =>
      refine Aside.unlessReset ?_ h
      split
      · exact ((Aside.refl s).at_ _).enterSession _ _
      · exact .refl s
    | slewTimerExpiry =>
      refine Aside.unlessReset ?_ h
      dsimp only
      split
      · exact ((Aside.refl s).at_ _).setLau _
      · exact .refl s
    | _ => simp [reachesLens, portOf] at hc hp

end Sys2Proof.Machine
end

