-- ==== Sys2Proof/Proofs/LensSound.lean ====
section
/-! PROOFS. Every step keeps both axes sound (R2, R23, R24): the events of the axes, the writes of the record, the thermal stop and
the trip, and then every command. -/

namespace Sys2Proof.Machine

/-! ### The lens of the whole part -/

theorem State.axisEnv_canRun_iff (s : State) (a : Axis) : (s.axisEnv a).canRun = true ↔ CanRun s := by
  simp [State.axisEnv]

theorem State.axisEnv_canRun_eq (s : State) (a : Axis) : ((s.axisEnv a).canRun = true) = CanRun s :=
  propext (s.axisEnv_canRun_iff a)

/-- Both axes are sound but for a stop of which no microstep may be left. -/
def State.LensSoundBut (s : State) : Prop :=
  s.lmc.v.SoundBut (CanRun s) s.irm.targetV ∧ s.lmc.h.SoundBut (CanRun s) s.irm.targetH

/-- Each axis is sound, with its own target of the record. -/
theorem LensSound.axis {s : State} (h : LensSound s) (a : Axis) : (s.axis a).Sound (CanRun s) (s.irm.target a) := by
  cases a
  · exact h.1
  · exact h.2

/-- Soundness looks at the axes, the targets, and whether the part may run. -/
theorem LensSound.congr {s t : State} (h : LensSound s) (lmc : t.lmc = s.lmc) (targetV : t.irm.targetV = s.irm.targetV)
    (targetH : t.irm.targetH = s.irm.targetH) (device : t.tmon.device = s.tmon.device) (trip : t.tmon.trip = s.tmon.trip) :
    LensSound t := by
  unfold LensSound CanRun at *
  rwa [lmc, targetV, targetH, device, trip]

theorem Aside.lensSound {s t : State} (h : Aside s t) (hs : LensSound s) : LensSound t :=
  hs.congr h.lmc (by rw [h.irm]) (by rw [h.irm]) h.device h.trip

theorem LensSound.setAxis {s : State} (h : LensSound s) (a : Axis) {x : AxisState}
    (hx : x.Sound (CanRun s) (s.irm.target a)) : LensSound (s.setAxis a x) := by
  cases a
  · exact ⟨hx, h.2⟩
  · exact ⟨h.1, hx⟩

/-! ### What the axes did reaches the record -/

theorem State.deliver_targetV (s : State) (v h : LensOut) : (s.deliver v h).irm.targetV = v.change.getD s.irm.targetV := by
  rw [State.deliver_irm]
  split
  · simp [*]
  · rfl

theorem State.deliver_targetH (s : State) (v h : LensOut) : (s.deliver v h).irm.targetH = h.change.getD s.irm.targetH := by
  rw [State.deliver_irm]
  split
  · simp [*]
  · rfl

theorem State.deliver_lensSound {s : State} {v h : LensOut}
    (hv : v.axis.Sound (CanRun s) (v.change.getD s.irm.targetV)) (hh : h.axis.Sound (CanRun s) (h.change.getD s.irm.targetH)) :
    LensSound (s.deliver v h) := by
  unfold LensSound CanRun
  rw [State.deliver_targetV, State.deliver_targetH, State.deliver_lmc, State.deliver_tmon]
  exact ⟨hv, hh⟩

theorem State.deliver_lensSoundBut {s : State} {v h : LensOut}
    (hv : v.axis.SoundBut (CanRun s) (v.change.getD s.irm.targetV))
    (hh : h.axis.SoundBut (CanRun s) (h.change.getD s.irm.targetH)) : (s.deliver v h).LensSoundBut := by
  unfold State.LensSoundBut CanRun
  rw [State.deliver_targetV, State.deliver_targetH, State.deliver_lmc, State.deliver_tmon]
  exact ⟨hv, hh⟩

/-- An event of one axis that keeps its axis sound keeps both. -/
theorem State.axisEvent_lensSound {s : State} (hs : LensSound s) (a : Axis) {f : AxisEnv → AxisState → LensOut}
    (hf : (f (s.axisEnv a) (s.axis a)).Keeps (s.axisEnv a) (s.irm.target a)) : LensSound (s.axisEvent a f) := by
  unfold LensOut.Keeps at hf
  rw [State.axisEnv_canRun_eq] at hf
  refine ((Aside.refl _).recomputeIf _).lensSound ?_
  cases a
  · exact State.deliver_lensSound hf hs.2
  · exact State.deliver_lensSound hs.1 hf

/-- An event of both axes that leaves each sound but for a stop of no microstep leaves both sound (R35). -/
theorem State.lensEvent_lensSound {s : State} {f : Axis → AxisEnv → AxisState → LensOut}
    (hf : ∀ a, (f a (s.axisEnv a) (s.axis a)).axis.SoundBut (CanRun s)
      ((f a (s.axisEnv a) (s.axis a)).change.getD (s.irm.target a))) : LensSound (s.lensEvent f) := by
  refine ((Aside.refl _).recomputeIf _).lensSound ?_
  obtain ⟨hv, hh⟩ := State.deliver_lensSoundBut (hf .v) (hf .h)
  rw [← State.axisEnv_canRun_eq _ .v] at hv
  rw [← State.axisEnv_canRun_eq _ .h] at hh
  have ends := AxisState.endIfStopped_keeps hv
  have ends' := AxisState.endIfStopped_keeps hh
  unfold LensOut.Keeps at ends ends'
  rw [State.axisEnv_canRun_eq] at ends ends'
  exact State.deliver_lensSound ends ends'

/-- An event of the axes a request names, the others still. -/
theorem State.onNamed_lensSound {s : State} (hs : LensSound s) (named : Bool × Bool) {f : AxisEnv → AxisState → LensOut}
    (hf : ∀ a, (f (s.axisEnv a) (s.axis a)).axis.SoundBut (CanRun s)
      ((f (s.axisEnv a) (s.axis a)).change.getD (s.irm.target a))) : LensSound (s.lensEvent (onNamed named f)) := by
  refine State.lensEvent_lensSound fun a => ?_
  have still : (onNamed named f a (s.axisEnv a) (s.axis a)) = f (s.axisEnv a) (s.axis a) ∨
      (onNamed named f a (s.axisEnv a) (s.axis a)) = { axis := s.axis a } := by
    cases a <;> unfold onNamed <;> dsimp only <;> split <;> simp
  rcases still with h | h <;> rw [h]
  · exact hf a
  · exact .inl (hs.axis a)

/-! ### The thermal stop and the trip -/

/-- The axes are sound for a part that may run or not, before it is told which (R37). -/
def State.LensSoundFor (c : Prop) (s : State) : Prop := s.lmc.v.Sound c s.irm.targetV ∧ s.lmc.h.Sound c s.irm.targetH

theorem State.LensSoundFor.axis {s : State} {c : Prop} (h : s.LensSoundFor c) (a : Axis) :
    (s.axis a).Sound c (s.irm.target a) := by
  cases a
  · exact h.1
  · exact h.2

/-- The thermal stop makes the axes sound for a part that may no longer run (R37). -/
theorem State.thermalStop_lensSound {s : State} {c : Prop} (hs : s.LensSoundFor c) : LensSound s.thermalStop :=
  State.lensEvent_lensSound fun a => AxisState.thermalStop_soundBut (hs.axis a) _

/-- The trip halt makes them so too (R38). -/
theorem State.tripHalt_lensSound {s : State} {c : Prop} (hs : s.LensSoundFor c) : LensSound s.tripHalt :=
  State.lensEvent_lensSound fun a => .inl (AxisState.halt_sound .trip (hs.axis a))

/-- The device thermal state is formed: what enters CRITICAL stops the lens, and what leaves it may run again (R37, R110). -/
theorem State.formDevice_lensSound {s : State} (hs : LensSound s) : LensSound s.formDevice := by
  unfold State.formDevice
  dsimp only
  split
  · exact hs
  · rename_i hne
    refine (((Aside.refl _).selectFans).setLau _).lensSound ?_
    split
    · exact State.thermalStop_lensSound (c := CanRun s) hs
    · rename_i hnew
      refine ⟨hs.1.mono fun h => ⟨hnew, h.2⟩, hs.2.mono fun h => ⟨hnew, h.2⟩⟩

theorem State.handStalled_lensSound {s : State} (hs : LensSound s) (f : Fan) (b : Bool) : LensSound (s.handStalled f b) := by
  refine ((Aside.refl _).lauTake _).lensSound (State.formDevice_lensSound ?_)
  exact hs.congr rfl rfl rfl rfl rfl

theorem State.declareTrip_lensSound {s : State} (hs : LensSound s) (cause : TripCause) (zone : Source) :
    LensSound (s.declareTrip cause zone) := by
  unfold State.declareTrip
  split
  · exact hs
  · exact (((Aside.refl _).selectFans).enterSession _ _).lensSound (State.tripHalt_lensSound (c := CanRun s) hs)

theorem State.checkAbsolute_lensSound {s : State} (hs : LensSound s) : LensSound s.checkAbsolute := by
  unfold State.checkAbsolute
  split
  · exact State.declareTrip_lensSound hs _ _
  · exact hs

theorem State.evaluate_lensSound {s : State} (hs : LensSound s) (bus : BusCondition) : LensSound (s.evaluate bus) := by
  rw [State.evaluate_eq]
  refine (Aside.refl _).countScan.handResults.lensSound (State.checkAbsolute_lensSound (State.formDevice_lensSound ?_))
  exact hs.congr rfl rfl rfl rfl rfl

/-! ### The scan -/

theorem State.nextSlot_lensSound {s : State} (hs : LensSound s) (slots : List Nat) (worst : BusCondition) (bus : BusSample) :
    LensSound (s.nextSlot slots worst bus) := by
  cases slots with
  | nil => exact State.evaluate_lensSound hs _
  | cons n rest =>
    rw [State.nextSlot_cons]
    split
    · exact State.evaluate_lensSound ((Aside.failStuck s _).lensSound hs) _
    · exact hs.congr rfl rfl rfl rfl rfl

theorem State.startScan_lensSound {s : State} (hs : LensSound s) (bus : BusSample) : LensSound (s.startScan bus) := by
  rw [State.startScan_eq]
  exact State.nextSlot_lensSound ((Aside.beginScan s _).lensSound hs) _ _ _

theorem State.finishSlot_lensSound {s : State} (hs : LensSound s) (outcome : Int → Except ReadCause Int) (bus : BusSample) :
    LensSound (s.finishSlot outcome bus) := by
  rcases s.finishSlot_cases outcome bus with h | ⟨n, rest, worst, -, h⟩ <;> rw [h]
  · exact hs
  · exact State.nextSlot_lensSound ((Aside.finishRead s _ _).lensSound hs) _ _ _

/-! ### Writes of the record (R8, R11 to R13) -/

/-- The entries an axis already runs or stops stay in front when a write reaches the queue behind them. -/
theorem placed_behind {x : AxisState} {held target : Int} {kind : EntryKind} {pre waiting : List Entry} {e : Entry}
    (hq : x.queue = pre ++ waiting) (active : ∀ d ∈ pre, d.active = true) :
    (x.placing held kind target = .none ∧ target = x.drain held ∧ placed x.queue (x.placing held kind target) e = pre ++ waiting) ∨
      ∃ front, (∀ d ∈ front, d ∈ waiting) ∧ placed x.queue (x.placing held kind target) e = pre ++ (front ++ [e]) ∧
        (x.placing held kind target = .appended ∧ front.length = waiting.length ∨ front.length + 1 = waiting.length) := by
  have append : ∃ front, (∀ d ∈ front, d ∈ waiting) ∧ placed x.queue .appended e = pre ++ (front ++ [e]) ∧
      (QueueAction.appended = .appended ∧ front.length = waiting.length ∨ front.length + 1 = waiting.length) :=
    ⟨waiting, fun _ => id, by simp [placed, hq], .inl ⟨rfl, rfl⟩⟩
  unfold AxisState.placing
  cases kind with
  | relative => exact .inr append
  | absolute =>
    dsimp only
    split
    · exact .inl ⟨rfl, ‹_›, hq⟩
    · split
      · rename_i last hl
        split
        · rename_i hr
          have hw : waiting ≠ [] := by
            rintro rfl
            rw [List.append_nil] at hq
            have := active last (hq ▸ List.mem_of_getLast? hl)
            simp [this] at hr
          obtain ⟨front, d, rfl⟩ := (List.eq_nil_or_concat waiting).resolve_left hw
          refine .inr ⟨front, fun d hd => by simp [hd], ?_, .inr (by simp)⟩
          simp [placed, hq, ← List.append_assoc]
        · exact .inr append
      · exact .inr append

/-- The entry of a write fits an axis: a count, and on a HOMED axis a point of its travel (R10). -/
structure AxisState.Takes (x : AxisState) (e : Entry) : Prop where
  waits : e.active = false
  counts : fitsCount e.target = true
  travel : x.trust = .homed → InTravel x e.target

/-- The queue after a write's entry, behind the head it already had, is one the axis may hold. -/
theorem AxisState.Takes.queueFits {x y : AxisState} {e : Entry} (h : x.Takes e) {pre front waiting : List Entry}
    (trust : y.trust = x.trust) (params : y.params = x.params) (queue : y.queue = pre ++ (front ++ [e]))
    (one : pre.length ≤ 1) (counts : ∀ d ∈ pre, fitsCount d.target = true) (admits : x.Admits waiting)
    (inactive : ∀ d ∈ waiting, d.active = false) (hf : ∀ d ∈ front, d ∈ waiting)
    (short : (pre ++ (front ++ [e])).length ≤ 4) : QueueFits y := by
  have behind : ∀ d ∈ (pre ++ (front ++ [e])).tail, d ∈ waiting ∨ d = e := by
    intro d hd
    have : d ∈ front ++ [e] := by
      rcases pre with - | ⟨c, - | ⟨b, pre⟩⟩
      · exact List.mem_of_mem_tail hd
      · exact hd
      · simp at one
    simpa using (List.mem_append.mp this).imp (hf d) List.mem_singleton.mp
  unfold QueueFits InTravel
  rw [queue, trust, params]
  refine ⟨short, fun d hd => ?_, fun d hd => ?_, fun ht d hd => ?_⟩
  · rcases behind d hd with hd | rfl
    · exact inactive d hd
    · exact h.waits
  · simp only [List.mem_append, List.mem_singleton] at hd
    rcases hd with hd | hd | rfl
    · exact counts d hd
    · exact admits.counts d (hf d hd)
    · exact h.counts
  · rcases behind d hd with hd | rfl
    · exact admits.travel ht d hd
    · exact h.travel ht

/-- A sound axis that a write may reach, after its entry and the start of an IDLE axis (R12, R13, R25). -/
theorem AxisState.write_sound {env : AxisEnv} {x : AxisState} {held : Int} {kind : EntryKind} {e : Entry}
    (h : x.Sound (env.canRun = true) held) (run : env.canRun = true) (noHome : x.pendingHome = false)
    (noHoming : x.motion.mode ≠ .homing) (noFault : x.motion.mode ≠ .fault) (takes : x.Takes e)
    (room : x.placing held kind e.target ≠ .appended ∨ x.queue.length < 4) :
    (({ x with queue := placed x.queue (x.placing held kind e.target) e } : AxisState).startIfIdle env).axis.Sound
      (env.canRun = true) e.target := by
  have fits := h.position_fits
  have lengths : ∀ {pre front waiting : List Entry}, x.queue = pre ++ waiting →
      (x.placing held kind e.target = .appended ∧ front.length = waiting.length ∨ front.length + 1 = waiting.length) →
      (pre ++ (front ++ [e])).length ≤ 4 := by
    intro pre front waiting hq hl
    have short := h.queueFits.1
    rw [hq] at short room
    simp only [List.length_append, List.length_singleton] at short room ⊢
    rcases hl with ⟨ha, hl⟩ | hl
    · have := room.resolve_left fun hn => hn ha
      omega
    · omega
  cases hm : x.motion with
  | homing r => rw [hm] at noHoming; exact absurd rfl noHoming
  | fault => rw [hm] at noFault; exact absurd rfl noFault
  | idle =>
    obtain ⟨-, empty, -, at_⟩ := (AxisState.sound_rest_iff (.inl hm)).mp h
    rcases placed_behind (x := x) (held := held) (kind := kind) (pre := []) (waiting := []) (target := e.target)
        (e := e) empty (by simp) with
      ⟨-, target, hq⟩ | ⟨front, hf, hq, -⟩
    · rw [hq, target, AxisState.drain_of_idle hm, empty]
      exact AxisState.sound_of_rest (.inl rfl) fits rfl noHome rfl
    · obtain rfl : front = [] := List.eq_nil_iff_forall_not_mem.mpr fun d hd => by simpa using hf d hd
      rw [hq]
      exact AxisState.settle_sound (x := { x with motion := .idle, queue := [e] }) rfl fits noHome (q := [e])
        ⟨by simp, by simp, by simpa using takes.counts, fun ht => by simpa using takes.travel ht⟩ fun _ => run
  | running l =>
    obtain ⟨d, rest, way, bound⟩ := (AxisState.sound_running_iff hm).mp h
    have queue : x.queue = [d] ++ rest := way.queue
    have head : x.trust = .homed → InTravel x d.target := fun ht => way.admits.travel ht d (by simp [way.queue])
    rw [AxisState.startIfIdle_of_ne (by simp)]
    rcases placed_behind (x := x) (held := held) (kind := kind) (target := e.target) (e := e) queue (by simp [way.active]) with
      ⟨-, target, hq⟩ | ⟨front, hf, hq, hl⟩
    · rw [hq, target, AxisState.drain_of_cons way.queue, ← queue, ← way.drains]
      exact AxisState.sound_of_running rfl (way.congr fits rfl id rfl rfl) bound
    · rw [hq]
      have inactive : ∀ c ∈ rest, c.active = false := fun c hc => way.admits.waiting c (by simp [way.queue, hc])
      have counts : ∀ c ∈ [d], fitsCount c.target = true := by simpa using way.admits.counts d (by simp [way.queue])
      have behind : x.Admits rest := by simpa [way.queue] using way.admits.tail
      have queueFits := takes.queueFits (y := { x with motion := .running l, queue := [d] ++ (front ++ [e]) })
        rfl rfl rfl (by simp) counts behind inactive hf (lengths queue hl)
      exact AxisState.sound_of_running (e := d) (rest := front ++ [e]) rfl
        ⟨fits, run, noHome, queueFits.admits rfl head, rfl, way.active, by simp⟩ bound
  | stopping st =>
    obtain ⟨more, waiting, slowing⟩ := (AxisState.sound_stopping_iff hm).mp h
    obtain ⟨pre, queue, active, one, stopped⟩ := slowing.kept.front
    rw [AxisState.startIfIdle_of_ne (by simp)]
    rcases placed_behind (x := x) (held := held) (kind := kind) (target := e.target) (e := e) queue
        (fun d hd => (active d hd).1) with
      ⟨-, target, hq⟩ | ⟨front, hf, hq, hl⟩
    · rw [hq, target, slowing.kept.drain hm, ← queue]
      exact AxisState.sound_of_stopping rfl more (waiting := waiting)
        ⟨fits, slowing.queue, fun _ => run, slowing.stop, slowing.kept, slowing.inactive, slowing.flushed, rfl⟩
    · rw [hq]
      have counts : ∀ d ∈ pre, fitsCount d.target = true := fun d hd => by rw [(active d hd).2]; exact slowing.stop
      refine AxisState.sound_of_stopping (x := { x with motion := .stopping st, queue := pre ++ (front ++ [e]) })
        rfl more (waiting := front ++ [e])
        ⟨fits, takes.queueFits rfl rfl rfl one counts slowing.admits slowing.inactive hf (lengths queue hl), fun _ => run,
          slowing.stop, stopped { x with motion := .stopping st, queue := pre ++ (front ++ [e]) } rfl _ rfl,
          fun d hd => ?_, by simp [run, noHome], by simp⟩
      rcases List.mem_append.mp hd with hd | hd
      · exact slowing.inactive d (hf d hd)
      · rw [List.mem_singleton.mp hd]; exact takes.waits

end Sys2Proof.Machine
end

