-- ==== Sys2Proof/Proofs/Writes.lean ====
section
/-! PROOFS. The writes of the record keep both axes sound, and with them every command (R2, R23, R24). -/

namespace Sys2Proof.Machine

/-! ### The checks of a write (R8) -/

theorem Write.each_iff (w : Write) (p : Axis → Bool) :
    w.each p = true ↔ ∀ a, (w.target a).isSome = true → p a = true := by
  have each : w.each p = true ↔ (w.v.isSome = true → p .v = true) ∧ (w.h.isSome = true → p .h = true) := by
    unfold Write.each
    cases w.v <;> cases w.h <;> simp
  rw [each]
  exact ⟨fun h a => by cases a; exacts [h.1, h.2], fun h => ⟨h .v, h .h⟩⟩

/-- What the checks of a write that passes them say of each axis it gives a target (R8). -/
structure Write.Passes (w : Write) (s : State) (a : Axis) : Prop where
  run : CanRun s
  noHoming : (s.axis a).motion.mode ≠ .homing
  noHome : (s.axis a).pendingHome = false
  noFault : (s.axis a).motion.mode ≠ .fault
  homed : w.kind = .relative ∨ (s.axis a).trust = .homed
  room : w.action s a ≠ .appended ∨ (s.axis a).queue.length < 4

theorem Write.passes_of_checks {w : Write} {s : State} (h : firstFail (w.checks s) = none) {a : Axis}
    (ha : (w.target a).isSome = true) : w.Passes s a := by
  simp only [firstFail_eq_none_iff, Write.checks, List.forall_mem_cons, List.not_mem_nil, false_implies, implies_true,
    and_true] at h
  obtain ⟨thermal, busy, fault, homed, room⟩ := h
  rw [Write.each_iff] at busy fault room
  have given : ¬ (w.v.isNone && w.h.isNone) = true := by
    cases a <;> simp only [Write.target] at ha <;> simp [Option.isSome_iff_ne_none.mp ha]
  have cool := (Bool.or_eq_true_iff.mp thermal).resolve_left given
  have free := busy a ha
  simp only [Bool.and_eq_true, decide_eq_true_eq, Bool.not_eq_true', Option.isNone_iff_eq_none] at cool free
  refine ⟨cool, free.1, free.2, by simpa using fault a ha, ?_, by simpa using room a ha⟩
  rcases Bool.or_eq_true_iff.mp homed with hk | hh
  · exact .inl (by simpa using hk)
  · exact .inr (by simpa using (Write.each_iff _ _).mp hh a ha)

/-- The entries of a write fit their axes, once the write has passed its checks (R10). -/
def Write.Fits (w : Write) (s : State) : Prop :=
  ∀ a t, w.target a = some t → w.kind = .relative ∨ (s.axis a).trust = .homed → (s.axis a).Takes (w.entry t)

/-! ### An accepted write (R11) -/

theorem Write.record_target (w : Write) (r : Irm) (a : Axis) :
    (w.record r).target a = (w.target a).getD (r.target a) := by
  cases a <;> rfl

/-- The record and the queues after a write, before its heads start. -/
def Write.written (w : Write) (o : Originator) (s : State) : State :=
  State.installChange { s with irm := w.record s.irm, lmc := { v := w.queue s .v, h := w.queue s .h } } o

theorem Write.apply_eq (w : Write) (o : Originator) (s : State) :
    w.apply o s = (w.written o s).startHeads (w.triggers s.irm) := rfl

@[simp] theorem Write.written_axis (w : Write) (o : Originator) (s : State) (a : Axis) :
    (w.written o s).axis a = w.queue s a := by
  cases a <;> simp [Write.written, State.axis]

@[simp] theorem Write.written_tmon (w : Write) (o : Originator) (s : State) : (w.written o s).tmon = s.tmon := by
  simp [Write.written]

theorem Write.written_target (w : Write) (o : Originator) (s : State) (a : Axis) :
    (w.written o s).irm.target a = (w.target a).getD (s.irm.target a) := by
  rw [← w.record_target]
  cases a <;> rfl

/-- Each axis after a write and the start of its head is sound, at the target the record then holds. -/
theorem Write.queue_sound {w : Write} {s : State} (hs : LensSound s) (fits : w.Fits s)
    (checks : firstFail (w.checks s) = none) (env : AxisEnv) (henv : (env.canRun = true) = CanRun s) (a : Axis) :
    ((w.queue s a).startIfIdle env).axis.Sound (env.canRun = true) ((w.target a).getD (s.irm.target a)) := by
  have sound := hs.axis a
  rw [← henv] at sound
  unfold Write.queue
  cases ht : w.target a with
  | none =>
    have still : (s.axis a).startIfIdle env = { axis := s.axis a } := by
      by_cases hm : (s.axis a).motion = .idle
      · obtain ⟨-, empty, -⟩ := (AxisState.sound_rest_iff (.inl hm)).mp sound
        exact AxisState.startIfIdle_of_nil empty
      · exact AxisState.startIfIdle_of_ne hm
    dsimp only
    rw [still]
    exact sound
  | some t =>
    have passes := Write.passes_of_checks checks (a := a) (by simp [ht])
    have action : w.action s a = (s.axis a).placing (s.irm.target a) w.kind t := by simp [Write.action, ht]
    dsimp only
    rw [action]
    exact AxisState.write_sound (e := w.entry t) sound (henv ▸ passes.run) passes.noHome passes.noHoming passes.noFault
      (fits a t ht passes.homed) (action ▸ passes.room)

theorem Write.apply_lensSound {w : Write} {s : State} (hs : LensSound s) (fits : w.Fits s)
    (checks : firstFail (w.checks s) = none) (o : Originator) : LensSound (w.apply o s) := by
  rw [Write.apply_eq]
  refine ((Aside.refl _).recomputeIf _).lensSound ?_
  have canRun : ∀ a, (((w.written o s).axisEnv a).canRun = true) = CanRun s := fun a => by
    rw [State.axisEnv_canRun_eq, CanRun, Write.written_tmon]
  have key : ∀ a, (((w.written o s).axis a).startIfIdle ((w.written o s).axisEnv a)).axis.Sound (CanRun (w.written o s))
      ((((w.written o s).axis a).startIfIdle ((w.written o s).axisEnv a)).change.getD ((w.written o s).irm.target a)) := by
    intro a
    have sound := Write.queue_sound hs fits checks ((w.written o s).axisEnv a) (canRun a) a
    rw [State.axisEnv_canRun_eq, ← Write.written_target w o s a, ← Write.written_axis w o s a] at sound
    rwa [AxisState.startIfIdle_change]
  exact State.deliver_lensSound (key .v) (key .h)

/-- Checks 5 to 10 of R8, then the acceptance: a refusal leaves the lens as it is. -/
theorem State.write_lensSound {w : Write} {s : State} (hs : LensSound s) (fits : w.Fits s) (p : Port) (conditional : Bool) :
    LensSound (s.write p conditional w).1 := by
  unfold State.write
  split
  · exact hs.congr rfl (by simp) (by simp) rfl rfl
  · exact judge_keeps (P := LensSound) hs fun _ checks => Write.apply_lensSound hs fits checks _

/-! ### The entries of the writes fit (R10, R13, R19) -/

theorem clamp_within {lo hi : Int} (h : lo ≤ hi) (x : Int) : lo ≤ clamp lo hi x ∧ clamp lo hi x ≤ hi := by
  rw [clamp_eq]; omega

/-- A target clamped to the travel is one the axis takes. -/
theorem AxisState.takes_of_clamped {x : AxisState} {e : Entry} {t : Int} (waits : e.active = false)
    (travel : x.params.travel ≤ 60000) (target : e.target = clamp 0 x.params.travel t) :
    x.Takes e := by
  obtain ⟨low, high⟩ := clamp_within (lo := 0) (hi := x.params.travel) (by omega) t
  refine ⟨waits, ?_, fun _ => ?_⟩
  · rw [target, fitsCount_iff]; omega
  · rw [target]; exact ⟨low, high⟩

/-- The axes' travels lie in their range (R21). -/
theorem ParamsFit.travel {s : State} (h : ParamsFit s) (a : Axis) :
    (s.axis a).params.travel ≤ 60000 ∧ (s.axis a).params.refPos ≤ (s.axis a).params.travel := by
  obtain ⟨⟨-, hv, -, -, -, -, -, -, -, -, -, -, -, -, -, -, -, -, -, rv, -⟩,
    ⟨-, hh, -, -, -, -, -, -, -, -, -, -, -, -, -, -, -, -, -, rh, -⟩, -⟩ := h
  cases a
  · exact ⟨hv, rv⟩
  · exact ⟨hh, rh⟩

theorem ParamsFit.refPos_fits {s : State} (h : ParamsFit s) (a : Axis) :
    fitsCount ((s.axis a).params.refPos : Int) = true := by
  obtain ⟨travel, refPos⟩ := h.travel a
  rw [fitsCount_iff]; omega

/-- An absolute target as applied fits where its axis is HOMED. -/
theorem Write.fits_of_absolute {w : Write} {s : State} (hp : ParamsFit s) (kind : w.kind = .absolute)
    (targets : ∀ a t, w.target a = some t → ∃ asked, t = (s.axis a).clampTarget asked) : w.Fits s := by
  intro a t ht hk
  obtain ⟨asked, rfl⟩ := targets a t ht
  have homed := hk.resolve_left (by simp [kind])
  exact AxisState.takes_of_clamped (t := asked) rfl (hp.travel a).1 (by simp [Write.entry, AxisState.clampTarget, homed])

theorem present_eq_some {α : Type} {b : Bool} {x y : α} (h : present b x = some y) : y = x := by
  cases b
  · cases h
  · exact (Option.some.inj h).symm

theorem installWrite_fits {s : State} (hp : ParamsFit s) (p : Port) (presence orientation kv kh : Byte) (v h : Word32)
    (speed : Byte) : (installWrite p presence orientation kv kh v h speed s).Fits s :=
  Write.fits_of_absolute hp rfl fun a t ht => by
    cases a
    · exact ⟨_, present_eq_some ht⟩
    · exact ⟨_, present_eq_some ht⟩

theorem recallWrite_fits {s : State} (hp : ParamsFit s) (x : Preset) (speed : Byte) : (recallWrite x speed s).Fits s :=
  Write.fits_of_absolute hp rfl fun a t ht => by
    cases a
    · exact ⟨_, (Option.some.inj ht).symm⟩
    · exact ⟨_, (Option.some.inj ht).symm⟩

theorem jogWrite_target {s : State} {p : Port} {a b : Axis} {delta : Word32} {speed : Byte} {t : Int}
    (h : (jogWrite p a delta speed s).target b = some t) : b = a ∧ t = (s.axis a).clampJog (s.drain a + delta.toInt) := by
  cases a <;> cases b <;> simp_all [jogWrite, Write.target, present]

theorem jogWrite_fits {s : State} (hp : ParamsFit s) (p : Port) (a : Axis) (delta : Word32) (speed : Byte) :
    (jogWrite p a delta speed s).Fits s := by
  intro b t ht _
  obtain ⟨rfl, rfl⟩ := jogWrite_target ht
  by_cases homed : (s.axis b).trust = .homed
  · exact AxisState.takes_of_clamped (t := s.drain b + delta.toInt) rfl (hp.travel b).1
      (by simp [Write.entry, AxisState.clampJog, homed])
  · refine ⟨rfl, ?_, fun h => absurd h homed⟩
    have := clamp_within (lo := -2147483648) (hi := 2147483647) (by omega) (s.drain b + delta.toInt)
    simpa [Write.entry, AxisState.clampJog, homed, saturate, fitsCount_iff] using this

end Sys2Proof.Machine
end

