-- ==== Sys2Proof/Proofs/LensSoundKept.lean ====
section
/-! PROOFS. Every step keeps both axes sound: the requests, then the other commands that reach an axis. -/

namespace Sys2Proof.Machine

/-! ### Taking a request -/

theorem LensSound.takeRequest {s t : State} {p : Port} {kind : Byte} {f : State → State × Answer} (hs : LensSound s)
    (hf : LensSound (f s).1) (h : takeRequest p kind s f = .next t) : LensSound t :=
  takeRequest_keeps (P := LensSound) (fun u x hu => ((Aside.refl u).setSlot p x).lensSound hu)
    (fun hs => ((Aside.refl s).setCrossing p false).lensSound hs) hs hf h

theorem LensSound.unlessReset {s t : State} {f : State → State} (hs : LensSound s) (hf : LensSound (f s))
    (h : unlessReset s f = .next t) : LensSound t :=
  unlessReset_keeps (P := LensSound) hs (fun _ => hf) h

/-! ### Requests of an axis -/

theorem State.abort_lensSound {s : State} (hs : LensSound s) (named : Bool × Bool) :
    LensSound (s.lensEvent (onNamed named fun env x => x.beginStop env .aborted)) :=
  State.onNamed_lensSound hs named fun a => AxisState.beginStop_keeps_soundBut _ (hs.axis a)

theorem State.home_lensSound {s : State} (hs : LensSound s) (run : CanRun s) (named : Bool × Bool) :
    LensSound (s.lensEvent (onNamed named fun env x => x.home env)) := by
  refine State.onNamed_lensSound hs named fun a => ?_
  have sound := hs.axis a
  rw [← s.axisEnv_canRun_eq a] at sound ⊢
  exact AxisState.home_soundBut sound ((s.axisEnv_canRun_iff a).mpr run)

theorem State.recover_lensSound {s : State} (hs : LensSound s) (named : Bool × Bool) :
    LensSound { s with lmc := { v := if named.1 then s.lmc.v.recover else s.lmc.v,
                                h := if named.2 then s.lmc.h.recover else s.lmc.h } } := by
  constructor
  · change (if named.1 then s.lmc.v.recover else s.lmc.v).Sound (CanRun s) s.irm.targetV
    split
    · exact AxisState.recover_sound hs.1
    · exact hs.1
  · change (if named.2 then s.lmc.h.recover else s.lmc.h).Sound (CanRun s) s.irm.targetH
    split
    · exact AxisState.recover_sound hs.2
    · exact hs.2

/-- A parameter of an axis changes only while the axis is IDLE and empty, where soundness does not look at it (R22). -/
theorem setParameter_lensSound {s : State} (hs : LensSound s) (p : Port) (param index : Byte) (value : Word32) :
    LensSound (setParameter p param index value s).1 := by
  unfold setParameter
  split
  · exact hs
  · rename_i n _
    refine judge_keeps (P := LensSound) hs fun _ checks => ?_
    cases n with
    | block b => exact (((Aside.refl s).storeBlock b _).paramEffect b).lensSound hs
    | axis a b =>
      have still := (firstFail_eq_none_iff _).mp checks
        ((s.axis a).motion.mode = .idle && (s.axis a).queue.isEmpty, .busy) (by simp [State.paramChecks])
      obtain ⟨mode, empty⟩ := Bool.and_eq_true_iff.mp still
      have idle : (s.axis a).motion = .idle := by
        cases hm : (s.axis a).motion <;> simp_all [Motion.mode]
      obtain ⟨fits, queue, noHome, held⟩ := (AxisState.sound_rest_iff (.inl idle)).mp (hs.axis a)
      exact hs.setAxis a (AxisState.sound_of_rest (.inl idle) fits queue noHome held)

/-- A halted axis is at rest where it stood. -/
theorem AxisState.halt_rest (env : AxisEnv) (x : AxisState) (reason : DoneReason) :
    ((x.halt env reason).axis.motion = .idle ∨ (x.halt env reason).axis.motion = .fault) ∧
      (x.halt env reason).axis.position = x.position := by
  unfold AxisState.halt
  by_cases hmv : x.moving = true
  · rw [if_pos hmv]
    cases reason <;> simp
  · rw [if_neg hmv]
    cases hm : x.motion <;> simp_all [AxisState.moving]

/-- RESTART halts both axes and sets both targets to where they stand (R178). -/
theorem State.restart_lensSound {s : State} (hs : LensSound s) : LensSound s.restart := by
  have rest : ∀ env a, ((s.axis a).halt env .restart).axis.clearFlags.Sound (CanRun s)
      ((s.axis a).halt env .restart).axis.clearFlags.position := by
    intro env a
    have sound := AxisState.halt_sound (env := env) (d := CanRun s) .restart (hs.axis a)
    obtain ⟨still, -⟩ := AxisState.halt_rest env (s.axis a) .restart
    obtain ⟨-, -, -, held⟩ := (AxisState.sound_rest_iff still).mp sound
    rw [held] at sound
    exact sound.congr rfl rfl rfl rfl rfl rfl
  unfold State.restart State.restartHalt LensSound CanRun
  simp only [State.partChange_irm, State.partChange_lmc, State.partChange_tmon, State.recompute_irm, State.recompute_lmc,
    State.recompute_tmon, State.raiseAll_irm, State.raiseAll_lmc, State.raiseAll_tmon]
  exact ⟨rest _ .v, rest _ .h⟩

/-! ### The commands that reach an axis -/

/-- The requests that reach an axis or the record. -/
theorem lensSound_of_request {c : Instr} {p : Port} {s t : State} (hp : portOf c = some p) (hc : reachesLens c = true)
    (fit : ParamsFit s) (hs : LensSound s) (h : exec c s = .next t) : LensSound t := by
  unfold exec at h
  cases c with
  | readInstall p reserve =>
    refine hs.takeRequest (judge_keeps (P := LensSound) hs fun _ _ => ?_) h
    dsimp only
    split
    · exact hs.congr rfl (by simp) (by simp) rfl rfl
    · exact hs
  | writeInstall =>
    unfold execWriteInstall at h
    refine hs.takeRequest ?_ h
    exact judge_keeps (P := LensSound) hs fun _ _ => State.write_lensSound hs (installWrite_fits fit _ _ _ _ _ _ _ _) _ _
  | jog =>
    unfold execJog at h
    refine hs.takeRequest ?_ h
    exact judge_keeps (P := LensSound) hs fun _ _ => State.write_lensSound hs (jogWrite_fits fit _ _ _ _) _ _
  | getEvents p => exact hs.takeRequest (by cases p <;> exact hs.congr rfl rfl rfl rfl rfl) h
  | abortMotion =>
    unfold execAbortMotion at h
    exact hs.takeRequest (judge_keeps (P := LensSound) hs fun _ _ => State.abort_lensSound hs _) h
  | home =>
    unfold execHome at h
    refine hs.takeRequest (judge_keeps (P := LensSound) hs fun _ checks => State.home_lensSound hs ?_ _) h
    have run := (firstFail_eq_none_iff _).mp checks (s.tmon.device ≠ .critical && s.tmon.trip.isNone, .thermalHold) (by simp)
    simpa [CanRun] using run
  | axisRecover =>
    unfold execAxisRecover at h
    exact hs.takeRequest (judge_keeps (P := LensSound) hs fun _ _ => State.recover_lensSound hs _) h
  | storePreset =>
    unfold execStorePreset at h
    exact hs.takeRequest (judge_keeps (P := LensSound) hs fun _ _ => hs.congr rfl rfl rfl rfl rfl) h
  | recallPreset =>
    refine hs.takeRequest (judge_keeps (P := LensSound) hs fun _ _ => ?_) h
    split
    · exact State.write_lensSound hs (recallWrite_fits fit _ _) _ _
    · exact hs
  | clearPreset => exact hs.takeRequest (judge_keeps (P := LensSound) hs fun _ _ => hs.congr rfl rfl rfl rfl rfl) h
  | setParamAxis => exact hs.takeRequest (setParameter_lensSound hs _ _ _ _) h
  | setParam => exact hs.takeRequest (setParameter_lensSound hs _ _ _ _) h
  | restart => exact hs.takeRequest (judge_keeps (P := LensSound) hs fun _ _ => State.restart_lensSound hs) h
  | _ => simp [reachesLens, portOf] at hc hp

/-- An event that keeps a sound axis sound. -/
theorem LensSound.axisEvent {s : State} (hs : LensSound s) (a : Axis) {f : AxisEnv → AxisState → LensOut}
    (hf : ∀ env : AxisEnv, (s.axis a).Sound (env.canRun = true) (s.irm.target a) →
      (f env (s.axis a)).Keeps env (s.irm.target a)) : LensSound (s.axisEvent a f) := by
  have sound := hs.axis a
  rw [← State.axisEnv_canRun_eq _ a] at sound
  exact State.axisEvent_lensSound hs a (hf _ sound)

/-- An event of an axis, at a moment, that keeps it sound. -/
theorem LensSound.axisEventAt {s : State} (hs : LensSound s) (time : Nat) (a : Axis) {f : AxisEnv → AxisState → LensOut}
    (hf : ∀ env : AxisEnv, (s.axis a).Sound (env.canRun = true) (s.irm.target a) →
      (f env (s.axis a)).Keeps env (s.irm.target a)) : LensSound ((s.at_ time).axisEvent a f) :=
  LensSound.axisEvent (((Aside.refl s).at_ time).lensSound hs) a hf

theorem State.stallFan_lensSound {s : State} (hs : LensSound s) (f : Fan) : LensSound (s.stallFan f) :=
  State.handStalled_lensSound ((((Aside.refl s).setFan f _).raise _).lensSound hs) _ _

theorem State.recoverFan_lensSound {s : State} (hs : LensSound s) (f : Fan) (fall : Nat) (x : FanRecord) :
    LensSound (s.recoverFan f fall x) :=
  State.handStalled_lensSound ((((Aside.refl s).setFan f _).raise _).lensSound hs) _ _

/-- At the end of hard reset an axis whose driver is at fault enters FAULT, and the first scan starts (R180). -/
theorem State.endReset_lensSound {s : State} (hs : LensSound s) (ports : PortsFound) (bus : BusSample) :
    LensSound (s.endReset ports bus) := by
  refine State.startScan_lensSound (State.lensEvent_lensSound fun a => ?_) bus
  have sound := hs.axis a
  cases a
  all_goals
    split
    · exact .inl (AxisState.driverFault_sound sound)
    · exact .inl sound

theorem State.hardReset_lensSound (s : State) : LensSound s.hardReset :=
  ⟨AxisState.hardReset_sound .v _ _, AxisState.hardReset_sound .h _ _⟩

/-- A request keeps both axes sound. -/
theorem request_lensSound {c : Instr} {s t : State} (hp : (portOf c).isSome = true) (fit : ParamsFit s) (hs : LensSound s)
    (h : exec c s = .next t) : LensSound t := by
  obtain ⟨p, hp⟩ := Option.isSome_iff_exists.mp hp
  cases hc : reachesLens c with
  | false => exact (aside_of_exec hc h).lensSound hs
  | true => exact lensSound_of_request hp hc fit hs h

/-- The commands, no requests, that reach an axis. -/
theorem lensSound_of_command {c : Instr} {s t : State} (hp : portOf c = none) (hc : reachesLens c = true)
    (fit : ParamsFit s) (hs : LensSound s) (h : exec c s = .next t) : LensSound t := by
  unfold exec at h
  cases c with
  | malformedRequest p bytes =>
    rcases execMalformedRequest_cases p bytes s with e | ⟨kind, cause, e⟩ | ⟨i, hi, e⟩ <;>
      replace h := e.symm.trans h
    · obtain rfl := Host.Outcome.next.inj h
      exact hs
    · exact hs.takeRequest hs h
    · exact request_lensSound hi fit hs h
  | hardReset ns =>
    obtain rfl := Host.Outcome.next.inj h
    have resets : LensSound (if s.resets ns then s.hardReset else s) := by
      split
      · exact s.hardReset_lensSound
      · exact hs
    split
    · exact resets.congr rfl rfl rfl rfl rfl
    · exact resets
  | hardResetEnd ports bus =>
    obtain rfl := Host.Outcome.next.inj h
    split
    · exact State.endReset_lensSound hs ports bus
    · exact hs
  | stepTimerExpiry a =>
    refine hs.unlessReset ?_ h
    split
    · exact hs.axisEventAt _ a fun _ sound => AxisState.step_keeps sound (fit.travel a).1
    · exact hs
  | endStopEdge a stop active =>
    obtain rfl := Host.Outcome.next.inj h
    exact hs.setAxis a (AxisState.endStopEdge_sound stop active _ (hs.axis a))
  | refMkEdge a rising =>
    obtain rfl := Host.Outcome.next.inj h
    have line : LensSound (s.setAxis a { s.axis a with refMk := rising }) :=
      hs.setAxis a ((hs.axis a).congr rfl rfl rfl rfl rfl rfl)
    split
    · refine line.axisEvent a fun _ sound => AxisState.refMark_keeps sound ?_
      simpa using fit.refPos_fits a
    · exact line
  | drvFlt a active =>
    obtain rfl := Host.Outcome.next.inj h
    have line : LensSound (s.setAxis a { s.axis a with drvFlt := active }) :=
      hs.setAxis a ((hs.axis a).congr rfl rfl rfl rfl rfl rfl)
    split
    · exact line.axisEvent a fun _ sound => AxisState.driverFault_sound sound
    · exact line
  | holdTimerExpiry a =>
    refine hs.unlessReset ?_ h
    split
    · rename_i e _
      exact (((Aside.refl s).at_ e).lensSound hs).setAxis a (AxisState.holdExpired_sound (hs.axis a))
    · exact hs
  | scanStart bus => exact hs.unlessReset (State.startScan_lensSound (((Aside.refl s).at_ _).lensSound hs) bus) h
  | slotReadDone result bus => exact hs.unlessReset (State.finishSlot_lensSound hs _ _) h
  | probeBusTimeout timedOut => exact hs.unlessReset (State.finishSlot_lensSound hs _ _) h
  | criticalDwellExpiry =>
    refine hs.unlessReset ?_ h
    split
    · exact State.declareTrip_lensSound (((Aside.refl s).at_ _).lensSound hs) _ _
    · exact hs
  | tachEdgeAccepted f fall low =>
    refine hs.unlessReset ?_ h
    dsimp only
    split
    · have at_ := ((Aside.refl s).at_ (fall + glitchAt fall s.afc.glitch)).lensSound hs
      split
      · exact State.recoverFan_lensSound at_ _ _ _
      · exact ((Aside.refl _).setFan f _).lensSound at_
    · exact hs
  | graceTimerExpiry f =>
    refine hs.unlessReset ?_ h
    dsimp only
    split
    · rename_i e _
      have at_ := ((Aside.refl s).at_ e).lensSound hs
      split
      · exact ((Aside.refl _).setFan f _).lensSound at_
      · exact State.stallFan_lensSound at_ _
    · exact hs
  | edgeTimerExpiry f =>
    refine hs.unlessReset ?_ h
    dsimp only
    split
    · rename_i e _
      have at_ := ((Aside.refl s).at_ e).lensSound hs
      split
      · exact State.stallFan_lensSound at_ _
      · exact ((Aside.refl _).setFan f _).lensSound at_
      · exact ((Aside.refl _).setFan f _).lensSound at_
      · exact ((Aside.refl _).setFan f _).lensSound at_
    · exact hs
  | _ => simp [reachesLens, portOf] at hc hp

/-- Every command keeps both axes sound. -/
theorem exec_lensSound {c : Instr} {s t : State} (fit : ParamsFit s) (hs : LensSound s) (h : exec c s = .next t) :
    LensSound t := by
  cases hc : reachesLens c with
  | false => exact (aside_of_exec hc h).lensSound hs
  | true =>
    cases hp : portOf c with
    | some p => exact lensSound_of_request hp hc fit hs h
    | none => exact lensSound_of_command hp hc fit hs h

/-- Settles O56: a step is one command, or one microsecond with none. -/
theorem lensSoundKept : Obligations.LensSoundKept := by
  intro s fit hs t h
  unfold step at h
  split at h
  · obtain rfl := Host.Outcome.next.inj h
    exact hs.congr rfl rfl rfl rfl rfl
  · rename_i rest _
    exact exec_lensSound (s := { s with pending := rest }) fit (hs.congr rfl rfl rfl rfl rfl) h

end Sys2Proof.Machine
end

