-- ==== Sys2Proof/Proofs/Answers.lean ====
section
/-! PROOFS. What a port that listens answers: a field at fault, a check that fails, or the effect (R166, R169); and the requests
refused for the port they came on or for a field (R171, R195, R196). -/

namespace Sys2Proof.Machine

/-! ### Taking and judging a request -/

theorem Listens.crossing {s : State} (h : Listens s) (p : Port) : (s.port p).crossing = false := by
  cases p
  · exact h.2.1
  · exact h.2.2

/-- A port that listens takes a request: its effect, then its answer in the slot (R167). -/
theorem takeRequest_listens {s : State} (h : Listens s) (p : Port) (kind : Byte) (f : State → State × Answer) :
    takeRequest p kind s f = .next (answered (f s).1 p kind (f s).2.status (f s).2.body) :=
  takeRequest_awake p kind f h.1 (Listens.crossing h p)

section
variable {fields : List (Nat × Bool)} {checks : List (Bool × Status)} {refuse : State → List Byte}
  {effect : State → State × Answer} {s : State}

theorem judge_fault {offset : Nat} (h : firstFault fields = some offset) :
    judge fields checks refuse effect s = (s, badRequest .field offset) := by
  simp [judge, h]

theorem judge_refused {status : Status} (hf : firstFault fields = none) (hc : firstFail checks = some status) :
    judge fields checks refuse effect s = (s, ⟨status, refuse s⟩) := by
  simp [judge, hf, hc]

theorem judge_passed (hf : firstFault fields = none) (hc : firstFail checks = none) :
    judge fields checks refuse effect s = effect s := by
  simp [judge, hf, hc]

variable {p : Port} {kind : Byte} (h : Listens s)
include h

/-- A request with a field at fault is answered BAD_REQUEST with the offset of the first one. -/
theorem request_fault {offset : Nat} (hf : firstFault fields = some offset) :
    takeRequest p kind s (judge fields checks refuse effect) =
      .next (answered s p kind .badRequest (u8 (badCauseCode .field) ++ u8 offset)) := by
  rw [takeRequest_listens h, judge_fault hf]
  rfl

/-- A request whose fields are well encoded is answered with the status of the first check that fails. -/
theorem request_refused {status : Status} (hf : firstFault fields = none := by rfl)
    (hc : firstFail checks = some status := by rfl) :
    takeRequest p kind s (judge fields checks refuse effect) = .next (answered s p kind status (refuse s)) := by
  rw [takeRequest_listens h, judge_refused hf hc]

/-- A request that passes every check has its effect. -/
theorem request_passed (hf : firstFault fields = none := by rfl) (hc : firstFail checks = none := by rfl) :
    takeRequest p kind s (judge fields checks refuse effect) =
      .next (answered (effect s).1 p kind (effect s).2.status (effect s).2.body) := by
  rw [takeRequest_listens h, judge_passed hf hc]

end

/-! ### The codes of R195 and R196 -/

/-- A code of a list of two, three or four names a value. -/
theorem isSome_of_two {α : Type} (b : Byte) (x y : α) :
    (if b = 0 then some x else if b = 1 then some y else none).isSome = decide (b.toNat ≤ 1) := by
  rw [Bool.eq_iff_iff, decide_eq_true_iff]
  split
  · simp [*]
  · split
    · simp [*]
    · simp only [Option.isSome_none, Bool.false_eq_true, false_iff]; bv_omega

theorem isSome_of_three {α : Type} (b : Byte) (x y z : α) :
    (if b = 0 then some x else if b = 1 then some y else if b = 2 then some z else none).isSome = decide (b.toNat ≤ 2) := by
  rw [Bool.eq_iff_iff, decide_eq_true_iff]
  by_cases h : b = 2
  · simp [h]
  · rw [if_neg h, isSome_of_two, decide_eq_true_iff]; bv_omega

theorem isSome_of_four {α : Type} (b : Byte) (w x y z : α) :
    (if b = 0 then some w else if b = 1 then some x else if b = 2 then some y else if b = 3 then some z else none).isSome =
      decide (b.toNat ≤ 3) := by
  rw [Bool.eq_iff_iff, decide_eq_true_iff]
  by_cases h : b = 3
  · simp [h]
  · rw [if_neg h, isSome_of_three, decide_eq_true_iff]; bv_omega

theorem readFlag_isSome (b : Byte) : (readFlag b).isSome = decide (b.toNat ≤ 1) := isSome_of_two ..
theorem readAxis_isSome (b : Byte) : (readAxis b).isSome = decide (b.toNat ≤ 1) := isSome_of_two ..
theorem readOrientation_isSome (b : Byte) : (readOrientation b).isSome = decide (b.toNat ≤ 1) := isSome_of_two ..
theorem readAxes_isSome (b : Byte) : (readAxes b).isSome = decide (b.toNat ≤ 2) := isSome_of_three ..
theorem readSpeed_isSome (b : Byte) : (readSpeed b).isSome = decide (b.toNat ≤ 2) := isSome_of_three ..
theorem readMode_isSome (b : Byte) : (readMode b).isSome = decide (b.toNat ≤ 2) := isSome_of_three ..
theorem readFan_isSome (b : Byte) : (readFan b).isSome = decide (b.toNat ≤ 2) := isSome_of_three ..
theorem readTableCode_isSome (b : Byte) : (readTableCode b).isSome = decide (b.toNat ≤ 3) := isSome_of_four ..

theorem bit_zero (b : Byte) : bit b 0 = decide (b.toNat % 2 = 1) := by
  simp [bit, BitVec.getLsbD, Nat.testBit_zero]

theorem presenceFits_eq (b : Byte) : presenceFits b = decide (0 < b.toNat ∧ b.toNat < 32) := by
  rw [presenceFits, Bool.eq_iff_iff, decide_eq_true_iff, Bool.and_eq_true, decide_eq_true_iff, decide_eq_true_iff]
  omega

/-- The orientation field of a WRITE_INSTALL is used when its presence bit is set. -/
theorem orientationField_eq (presence orientation : Byte) :
    (!bit presence 0 || (readOrientation orientation).isSome) =
      decide (presence.toNat % 2 = 1 → orientation.toNat ≤ 1) := by
  rw [bit_zero, readOrientation_isSome, Bool.eq_iff_iff, decide_eq_true_iff, imp_iff_not_or]
  simp

/-! ### Parameter codes and indices (R196) -/

/-- The index suits a parameter code: an axis that holds the parameter, a fan, or 0xFF. -/
def indexSuits (code index : Byte) : Prop :=
  if 0x01 ≤ code.toNat ∧ code.toNat ≤ 0x13 then index.toNat ≤ 1 ∧ ¬ (code = 0x13 ∧ index = 1)
  else if code = 0x2F ∨ code = 0x30 then index.toNat ≤ 2
  else index = 0xFF

theorem axisParamOf_eq_none_iff (code : Byte) : axisParamOf code = none ↔ ¬ (0x01 ≤ code.toNat ∧ code.toNat ≤ 0x13) := by
  unfold axisParamOf
  split
  case h_20 => grind
  all_goals simp [*]

theorem unindexed_of_ne {index : Byte} (h : index ≠ 0xFF) (p : BlockParam) : unindexed index p = .error 1 := if_neg h

theorem fanIndexed_of_gt {index : Byte} (h : ¬ index.toNat ≤ 2) (p : Fan → BlockParam) : fanIndexed index p = .error 1 := by
  have none : readFan index = none := by
    rw [← Option.not_isSome_iff_eq_none, readFan_isSome]
    simpa using h
  simp [fanIndexed, none]

theorem blockParamOf_of_code {code : Byte} (h : ¬ (0x20 ≤ code.toNat ∧ code.toNat ≤ 0x32)) (index : Byte) :
    blockParamOf code index = .error 0 := by
  unfold blockParamOf
  split
  case h_20 => rfl
  all_goals omega

theorem blockParamOf_of_index {code index : Byte} (h : 0x20 ≤ code.toNat ∧ code.toNat ≤ 0x32) (hs : ¬ indexSuits code index) :
    blockParamOf code index = .error 1 := by
  unfold indexSuits at hs
  rw [if_neg (by omega)] at hs
  split at hs
  · rcases ‹_ ∨ _› with rfl | rfl <;> exact fanIndexed_of_gt hs _
  · unfold blockParamOf
    split
    case h_20 => grind
    case h_16 => bv_omega
    case h_17 => bv_omega
    all_goals exact unindexed_of_ne hs _

/-- A code that names no parameter is a fault of the field at 0, an index that names nothing one of the field at 1. -/
theorem paramOf_of_code {code : Byte} (axis : ¬ (0x01 ≤ code.toNat ∧ code.toNat ≤ 0x13))
    (block : ¬ (0x20 ≤ code.toNat ∧ code.toNat ≤ 0x32)) (index : Byte) : paramOf code index = .error 0 := by
  unfold paramOf
  rw [(axisParamOf_eq_none_iff code).mpr axis, blockParamOf_of_code block]
  rfl

theorem paramOf_of_index {code index : Byte}
    (h : (0x01 ≤ code.toNat ∧ code.toNat ≤ 0x13) ∨ (0x20 ≤ code.toNat ∧ code.toNat ≤ 0x32)) (hs : ¬ indexSuits code index) :
    paramOf code index = .error 1 := by
  unfold paramOf
  cases hp : axisParamOf code with
  | none =>
    have axis := (axisParamOf_eq_none_iff code).mp hp
    rw [blockParamOf_of_index (h.resolve_left axis) hs]
    rfl
  | some p =>
    have axis : 0x01 ≤ code.toNat ∧ code.toNat ≤ 0x13 := by
      by_contra hn
      simp [(axisParamOf_eq_none_iff code).mpr hn] at hp
    unfold indexSuits at hs
    rw [if_pos axis] at hs
    cases ha : readAxis index with
    | none => rfl
    | some a =>
      have named := readAxis_isSome index
      rw [ha, eq_comm, Option.isSome_some, decide_eq_true_iff] at named
      obtain ⟨rfl, rfl⟩ : code = 0x13 ∧ index = 1 := by tauto
      obtain rfl := Option.some.inj (hp.symm.trans rfl)
      obtain rfl := Option.some.inj (ha.symm.trans rfl)
      rfl

theorem setParameter_of_error {param index : Byte} {offset : Nat} (h : paramOf param index = .error offset) (p : Port)
    (value : Word32) (s : State) : setParameter p param index value s = (s, badRequest .field offset) := by
  simp [setParameter, h]

/-! ### Kinds of the other port (R171) -/

/-- Settles O5: check 3 of R169 comes first, so each such request is refused with the fields well encoded. -/
theorem permissionTable : Obligations.PermissionTable := by
  unfold Obligations.PermissionTable
  simp only [exec, execAbortMotion, execHome, execAxisRecover, execStorePreset, execBeginLoad, execReadTable]
  intro s h
  refine ⟨fun axes ha => ?_, fun slot source inc v k kv kh hs hi => ?_, fun slot speed cond hs hc => ?_, fun slot => ?_, ?_, ?_,
    fun mode hm => ?_, fun quiet hq => ?_, ?_, fun param index value n hn => ?_, fun table w ht => ?_, fun offset data hd => ?_,
    ?_, ?_, fun w k => ?_, ?_, fun level => ?_, fun presence orientation kv kh v k speed cond hp hb ho hs hc => ?_⟩
  · exact ⟨⟨_, request_refused h (hf := by simp [ha])⟩, ⟨_, request_refused h (hf := by simp [ha])⟩,
      ⟨_, request_refused h (hf := by simp [ha])⟩⟩
  · exact ⟨_, request_refused h (hf := by simp [hs, hi])⟩
  · exact ⟨_, request_refused h (hf := by simp [hs, hc])⟩
  · exact ⟨_, request_refused h⟩
  · exact ⟨_, request_refused h⟩
  · exact ⟨_, request_refused h⟩
  · exact ⟨_, request_refused h (hf := by simp [hm])⟩
  · exact ⟨_, request_refused h (hf := by simp [hq])⟩
  · exact ⟨_, request_refused h⟩
  · have set : ∀ kind, takeRequest .frame kind s (setParameter .frame param index value) =
        .next (answered s .frame kind .notPermitted (s32 (s.paramValue n))) := fun kind => by
      rw [takeRequest_listens h, setParameter, hn]
      rfl
    refine ⟨⟨_, set _⟩, ⟨_, set _⟩, s.paramReply n, ?_⟩
    rw [execGetParam, takeRequest_listens h, hn]
    rfl
  · exact ⟨⟨_, request_refused h (hf := by simp [ht])⟩, ⟨_, request_refused h (hf := by simp [ht])⟩⟩
  · refine ⟨loadReply s.cpi.load, ?_⟩
    rw [execLoadSegment, takeRequest_listens h, if_pos hd]
    rfl
  · exact ⟨_, request_refused h⟩
  · exact ⟨_, request_refused h⟩
  · exact ⟨_, request_refused h⟩
  · exact ⟨_, request_refused h⟩
  · exact ⟨_, request_refused h⟩
  · exact ⟨_, request_refused h (hf := by simp [hp, ho, hs, hc]) (hc := by simp [hb])⟩

/-! ### Malformed frames and fields at fault (R166, R169) -/

theorem execMalformedRequest_of_malformed {p : Port} {bytes : List Byte} {kind : Byte} {cause : BadCause} {s : State}
    (h : Listens s) (hr : readFrame p bytes = .malformed kind cause) :
    execMalformedRequest p bytes s = .next (answered s p kind .badRequest (u8 (badCauseCode cause) ++ u8 0)) := by
  rw [execMalformedRequest, takeFrame, hr]
  exact takeRequest_listens h ..

/-- The frame checks, in their order. -/
theorem malformed_frames (p : Port) (kind : Byte) {s : State} (h : Listens s) :
    (∀ rest, kindLengths kind.toNat = none →
      execMalformedRequest p (kind :: rest) s = .next (answered s p kind .badRequest [0, 0])) ∧
    ∀ least most, kindLengths kind.toNat = some (least, most) →
      execMalformedRequest p [kind] s = .next (answered s p kind .badRequest [2, 0]) ∧
      ∀ (length : Byte) (payload : List Byte),
        (60 < length.toNat ∨ length.toNat < least ∨ most < length.toNat →
          execMalformedRequest p (kind :: length :: payload) s = .next (answered s p kind .badRequest [1, 0])) ∧
        (length.toNat ≤ 60 → least ≤ length.toNat → length.toNat ≤ most → payload.length ≠ length.toNat →
          execMalformedRequest p (kind :: length :: payload) s = .next (answered s p kind .badRequest [2, 0])) := by
  refine ⟨fun rest hk => ?_, fun least most hk => ⟨?_, fun length payload => ⟨fun hl => ?_, fun short low high hc => ?_⟩⟩⟩
  · exact execMalformedRequest_of_malformed (cause := .unknownKind) h (by simp [readFrame, hk])
  · exact execMalformedRequest_of_malformed (cause := .count) h (by simp [readFrame, hk])
  · exact execMalformedRequest_of_malformed (cause := .length) h (by simp [readFrame, hk, hl])
  · exact execMalformedRequest_of_malformed (cause := .count) h (by
      simp [readFrame, hk, hc, Nat.not_lt.mpr short, Nat.not_lt.mpr low, Nat.not_lt.mpr high])

theorem setParameter_fault {param index : Byte} {offset : Nat} (hn : paramOf param index = .error offset) {s : State}
    (h : Listens s) (p : Port) (kind : Byte) (value : Word32) :
    takeRequest p kind s (setParameter p param index value) =
      .next (answered s p kind .badRequest (u8 (badCauseCode .field) ++ u8 offset)) := by
  rw [takeRequest_listens h, setParameter_of_error hn]
  rfl

theorem getParam_fault {param index : Byte} {offset : Nat} (hn : paramOf param index = .error offset) {s : State}
    (h : Listens s) (p : Port) :
    execGetParam p param index s =
      .next (answered s p 0x41 .badRequest (u8 (badCauseCode .field) ++ u8 offset)) := by
  rw [execGetParam, takeRequest_listens h, hn]
  rfl

/-- Settles O8: the frame checks in their order, then of each kind of request its fields in theirs. -/
theorem malformedFrames : Obligations.MalformedFrames := by
  unfold Obligations.MalformedFrames
  simp only [exec, execAbortMotion, execHome, execAxisRecover, execStorePreset, execBeginLoad, execReadTable]
  refine ⟨fun p kind s h => malformed_frames p kind h, fun p s h => ?_⟩
  refine ⟨fun reserve hr => ?_, fun presence orientation kv kh v k speed cond => ?_, fun axis delta speed cond => ?_,
    fun axis ha => ?_, fun axes ha => ?_, fun slot source included v k kv kh => ?_, fun slot speed cond => ?_,
    fun mode hm => ?_, fun quiet hq => ?_, fun param index value => ?_, fun table w ht => ?_⟩
  · exact request_fault h (by simp [readFlag_isSome, hr])
  · have fields : ∀ n, firstFault [(0, presenceFits presence), (1, !bit presence 0 || (readOrientation orientation).isSome),
        (12, (readSpeed speed).isSome), (13, (readFlag cond).isSome)] = some n →
        execWriteInstall p presence orientation kv kh v k speed cond s =
          .next (answered s p 0x02 .badRequest (u8 (badCauseCode .field) ++ u8 n)) := fun n hf => request_fault h hf
    simp only [presenceFits_eq, orientationField_eq, readSpeed_isSome, readFlag_isSome] at fields
    refine ⟨fun hn => fields 0 ?_, fun hn hf => fields 1 ?_, fun hn hf hs => fields 12 ?_, fun hn hf hs hc => fields 13 ?_⟩
    · simp [hn]
    · rw [decide_eq_true hn, decide_eq_false hf]; rfl
    · rw [decide_eq_true hn, decide_eq_true hf, decide_eq_false (by omega)]; rfl
    · rw [decide_eq_true hn, decide_eq_true hf, decide_eq_true hs, decide_eq_false (by omega)]; rfl
  · have fields : ∀ n, firstFault [(0, (readAxis axis).isSome), (1, delta ≠ 0), (5, (readSpeed speed).isSome),
        (6, (readFlag cond).isSome)] = some n →
        execJog p axis delta speed cond s =
          .next (answered s p 0x03 .badRequest (u8 (badCauseCode .field) ++ u8 n)) := fun n hf => request_fault h hf
    simp only [readAxis_isSome, readSpeed_isSome, readFlag_isSome] at fields
    refine ⟨fun ha => fields 0 ?_, fun ha hd => fields 1 ?_, fun ha hd hs => fields 5 ?_, fun ha hd hs hc => fields 6 ?_⟩
    · simp [ha]
    · simp [ha, hd]
    · rw [decide_eq_true ha, decide_eq_true hd, decide_eq_false (by omega)]; rfl
    · rw [decide_eq_true ha, decide_eq_true hd, decide_eq_true hs, decide_eq_false (by omega)]; rfl
  · exact request_fault h (by simp [readAxis_isSome, ha])
  · exact ⟨request_fault h (by simp [readAxes_isSome, ha]), request_fault h (by simp [readAxes_isSome, ha]),
      request_fault h (by simp [readAxes_isSome, ha])⟩
  · exact ⟨fun hs => request_fault h (by simp [readFlag_isSome, hs]),
      fun hs hi => request_fault h (by simp [readFlag_isSome, hs, hi])⟩
  · exact ⟨fun hs => request_fault h (by simp [readSpeed_isSome, hs]),
      fun hs hc => request_fault h (by simp [readSpeed_isSome, readFlag_isSome, hs, hc])⟩
  · exact request_fault h (by simp [readMode_isSome, hm])
  · exact request_fault h (by simp [readFlag_isSome, hq])
  · refine ⟨fun axis block => ?_, fun code suits => ?_⟩
    · have hn := paramOf_of_code axis block index
      exact ⟨setParameter_fault hn h .., setParameter_fault hn h .., getParam_fault hn h ..⟩
    · have hn := paramOf_of_index code suits
      exact ⟨setParameter_fault hn h .., setParameter_fault hn h .., getParam_fault hn h ..⟩
  · exact ⟨request_fault h (by simp [readTableCode_isSome, ht]), request_fault h (by simp [readTableCode_isSome, ht])⟩

end Sys2Proof.Machine
end

