-- ==== Sys2Proof/Proofs/Reservations.lean ====
section
/-! PROOFS. READ_INSTALL, the conditional writes, and the lens memories (R5, R6, R9, R17, R18, R20). -/

namespace Sys2Proof.Machine

/-! ### Conditional writes (R9) -/

/-- Judging looks at the effect on the state it judges alone. -/
theorem judge_congr {fields : List (Nat × Bool)} {checks : List (Bool × Status)} {refuse : State → List Byte}
    {effect effect' : State → State × Answer} {s : State} (h : effect s = effect' s) :
    judge fields checks refuse effect s = judge fields checks refuse effect' s := by
  simp only [judge, h]

theorem takeRequest_congr {s : State} {f g : State → State × Answer} (h : f s = g s) (p : Port) (kind : Byte) :
    takeRequest p kind s f = takeRequest p kind s g := by
  simp only [takeRequest, h]

theorem State.reserved_iff (s : State) (p : Port) : s.reserved p = true ↔ s.irm.reservation p = some s.irm.generation := by
  simp [State.reserved]

/-- With a reservation of the present generation a conditional write is judged as an unconditional one is. -/
theorem State.write_of_reserved {s : State} {p : Port} (h : s.irm.reservation p = some s.irm.generation) (w : Write) :
    s.write p true w = s.write p false w := by
  simp [State.write, (s.reserved_iff p).mpr h]

/-- Without one it is refused STALE, and the caller's reservation ends. -/
theorem State.write_stale {s : State} {p : Port} (h : s.irm.reservation p ≠ some s.irm.generation) (w : Write) :
    s.write p true w =
      ({ s with irm := s.irm.setReservation p none }, ⟨.stale, s.writeReply .none .none⟩) := by
  have unreserved : ¬ s.reserved p = true := fun hr => h ((s.reserved_iff p).mp hr)
  rw [State.write, if_pos ⟨rfl, unreserved⟩]
  simp [State.refusedWrite, State.writeReply]

/-- Each conditional write, with its reservation and without. -/
theorem writeInstall_conditional (p : Port) {s : State} (h : Listens s) (presence orientation kv kh : Byte) (v k : Word32)
    (speed : Byte) :
    (s.irm.reservation p = some s.irm.generation →
      execWriteInstall p presence orientation kv kh v k speed 1 s =
        execWriteInstall p presence orientation kv kh v k speed 0 s) ∧
    (s.irm.reservation p ≠ some s.irm.generation → presenceFits presence = true →
      (bit presence 0 = true → (readOrientation orientation).isSome) → (p = .control ∨ bit presence 0 = false) →
      (readSpeed speed).isSome →
      execWriteInstall p presence orientation kv kh v k speed 1 s =
        .next (answered { s with irm := s.irm.setReservation p none } p 0x02 .stale (s.writeReply .none .none))) := by
  refine ⟨fun hr => ?_, fun hr presence_ orientation_ permitted speed_ => ?_⟩
  · exact takeRequest_congr (judge_congr (State.write_of_reserved hr _)) ..
  · have faces : (!bit presence 0 || (readOrientation orientation).isSome) = true := by
      cases hb : bit presence 0 <;> simp_all
    have passes : firstFail [((p = .control || !bit presence 0 : Bool), Status.notPermitted)] = none := by
      rcases permitted with rfl | hb <;> simp [*]
    unfold execWriteInstall
    rw [request_passed h (by simp only [presence_, faces, speed_]; rfl) passes]
    rw [show decide (readFlag 1 = some true) = true from rfl, State.write_stale hr]

theorem jog_conditional (p : Port) {s : State} (h : Listens s) (axis : Byte) (delta : Word32) (speed : Byte) :
    (s.irm.reservation p = some s.irm.generation →
      execJog p axis delta speed 1 s = execJog p axis delta speed 0 s) ∧
    (s.irm.reservation p ≠ some s.irm.generation → (readAxis axis).isSome → delta ≠ 0 → delta.toInt.natAbs ≤ 65535 →
      (readSpeed speed).isSome →
      execJog p axis delta speed 1 s =
        .next (answered { s with irm := s.irm.setReservation p none } p 0x03 .stale (s.writeReply .none .none))) := by
  refine ⟨fun hr => ?_, fun hr axis_ moves near speed_ => ?_⟩
  · exact takeRequest_congr (judge_congr (State.write_of_reserved hr _)) ..
  · unfold execJog
    rw [request_passed h (by simp only [axis_, decide_eq_true moves, speed_]; rfl) (by simp [near])]
    rw [show decide (readFlag 1 = some true) = true from rfl, State.write_stale hr]

theorem recall_conditional {s : State} (h : Listens s) (slot speed : Byte) :
    (s.irm.reservation .control = some s.irm.generation →
      execRecallPreset .control slot speed 1 s = execRecallPreset .control slot speed 0 s) ∧
    (s.irm.reservation .control ≠ some s.irm.generation → slot.toNat < 8 → (s.irm.preset slot).isSome →
      (readSpeed speed).isSome →
      execRecallPreset .control slot speed 1 s =
        .next (answered { s with irm := s.irm.setReservation .control none } .control 0x29 .stale
          (s.writeReply .none .none))) := by
  refine ⟨fun hr => ?_, fun hr slot_ filled speed_ => ?_⟩
  · refine takeRequest_congr (judge_congr ?_) ..
    cases s.irm.preset slot with
    | none => rfl
    | some x => exact State.write_of_reserved hr _
  · obtain ⟨x, hx⟩ := Option.isSome_iff_exists.mp filled
    unfold execRecallPreset
    rw [request_passed h (by simp only [speed_]; rfl) (by simp [controlOnly, slotFits, slot_, filled]), hx]
    dsimp only
    rw [show decide (readFlag 1 = some true) = true from rfl, State.write_stale hr]

/-- READ_INSTALL, with and without a reservation (R6). -/
theorem readInstall_reserves (p : Port) {s : State} (h : Listens s) :
    execReadInstall p 1 s =
      .next (answered { s with irm := s.irm.setReservation p (some s.irm.generation) } p 0x01 .ok
        (State.installReply { s with irm := s.irm.setReservation p (some s.irm.generation) } p)) :=
  request_passed h

theorem readInstall_plain (p : Port) {s : State} (h : Listens s) :
    execReadInstall p 0 s = .next (answered s p 0x01 .ok (s.installReply p)) :=
  request_passed h

/-- Settles O14: READ_INSTALL, then each conditional write. -/
theorem reservations : Obligations.Reservations := by
  unfold Obligations.Reservations
  simp only [exec]
  refine ⟨fun p s h => ⟨readInstall_plain p h, fun reserve hr => ?_, readInstall_reserves p h, ?_, fun q hq => ?_⟩,
    fun p s h => ⟨⟨?_, fun q hq => ?_⟩, fun presence orientation kv kh v k speed => ?_, fun axis delta speed => ?_,
      fun slot speed => ⟨(recall_conditional h slot speed).1, ?_⟩⟩⟩
  · exact request_fault h (by simp [readFlag_isSome]; omega)
  · simp
  · exact Irm.setReservation_of_ne _ _ hq
  · simp
  · exact Irm.setReservation_of_ne _ _ hq
  · exact writeInstall_conditional p h presence orientation kv kh v k speed
  · exact jog_conditional p h axis delta speed
  · rintro rfl
    exact (recall_conditional h slot speed).2

/-! ### The lens memories (R17, R18, R20) -/

theorem slotFits_iff (slot : Byte) : slotFits slot = true ↔ slot.toNat < 8 := by simp [slotFits]

/-- Each request of a slot above 7 that is well encoded is refused OUT_OF_RANGE. -/
theorem slotFits_false {slot : Byte} (h : 8 ≤ slot.toNat) : slotFits slot = false := by
  simp only [slotFits, decide_eq_false_iff_not]; omega

/-- A CURRENT store takes the record as it stands, and needs both axes HOMED. -/
theorem storePreset_current {slot inc : Byte} {keep : Bool} (v k : Word32) (kv kh : Byte) {s : State} (h : Listens s)
    (slot_ : slotFits slot = true) (inc_ : readFlag inc = some keep) :
    let t := s.setPreset slot (some ⟨s.irm.targetV, s.irm.targetH, present keep (s.irm.kv, s.irm.kh)⟩)
    (s.lmc.v.trust = .homed → s.lmc.h.trust = .homed →
      execStorePreset .control slot 0 inc v k kv kh s = .next (answered t .control 0x28 .ok (t.presetReply slot))) ∧
    (s.lmc.v.trust ≠ .homed ∨ s.lmc.h.trust ≠ .homed →
      execStorePreset .control slot 0 inc v k kv kh s =
        .next (answered s .control 0x28 .notHomed (s.presetReply slot))) := by
  refine ⟨fun hv hh => ?_, fun hn => ?_⟩
  all_goals unfold execStorePreset; dsimp only
  · rw [request_passed h (by rw [inc_]; rfl) (by simp [controlOnly, slot_, hv, hh]), inc_]
    cases keep <;> rfl
  · refine request_refused h (by rw [inc_]; rfl) ?_
    rcases hn with hn | hn <;> simp [controlOnly, slot_, hn]

/-- An EXPLICIT store takes its own fields, clamped. -/
theorem storePreset_explicit {slot inc : Byte} {keep : Bool} (v k : Word32) (kv kh : Byte) {s : State} (h : Listens s)
    (slot_ : slotFits slot = true) (inc_ : readFlag inc = some keep) :
    let x := explicitPreset keep v k kv kh s
    let t := s.setPreset slot (some x.1)
    execStorePreset .control slot 1 inc v k kv kh s =
      .next (answered t .control 0x28 (if x.2 then .clamped else .ok) (t.presetReply slot)) := by
  unfold execStorePreset
  dsimp only
  rw [request_passed h (by rw [inc_]; rfl) (by simp [controlOnly, slot_]), inc_]
  cases keep <;> rfl

/-- An EXPLICIT store is CLAMPED when a target or a code it stores is not the one it was given. -/
theorem explicitPreset_clamps (keep : Bool) (v k : Word32) (kv kh : Byte) (s : State) :
    (explicitPreset keep v k kv kh s).2 = true ↔
      clamp 0 s.lmc.v.params.travel v.toInt ≠ v.toInt ∨ clamp 0 s.lmc.h.params.travel k.toInt ≠ k.toInt ∨
        keep = true ∧ (clampCode kv ≠ kv.toInt ∨ clampCode kh ≠ kh.toInt) := by
  simp only [explicitPreset, Bool.or_eq_true, Bool.and_eq_true, decide_eq_true_iff, or_assoc]

/-- Settles O19: of a slot that exists, then of one that does not. -/
theorem lensMemories : Obligations.LensMemories := by
  unfold Obligations.LensMemories
  simp only [exec]
  refine fun slot s h => ⟨fun low => ⟨fun p => ?_, ?_, fun inc keep v k kv kh inc_ => ?_⟩, fun high => ⟨fun p => ?_, ?_, ?_, ?_⟩⟩
  · exact request_passed h (hc := by simp [slotFits, low])
  · exact request_passed h (hc := by simp [controlOnly, slotFits, low])
  · have slot_ := (slotFits_iff slot).mpr low
    obtain ⟨homed, unhomed⟩ := storePreset_current v k kv kh h slot_ inc_
    refine ⟨homed, unhomed, ?_⟩
    exact (storePreset_explicit v k kv kh h slot_ inc_).trans
      (by rw [if_congr (explicitPreset_clamps keep v k kv kh s) rfl rfl]; rfl)
  · exact ⟨_, request_refused h (hc := by simp [slotFits_false high])⟩
  · exact ⟨_, request_refused h (hc := by simp [controlOnly, slotFits_false high])⟩
  · intro v k kv kh
    unfold execStorePreset
    exact ⟨_, request_refused h (hc := by simp [controlOnly, slotFits_false high])⟩
  · exact ⟨_, request_refused h (hc := by simp [controlOnly, slotFits_false high])⟩

end Sys2Proof.Machine
end

