-- ==== Sys2Proof/Proofs/AcceptedWrites.lean ====
section
/-! PROOFS. What a write of the record is refused for, and what an accepted one does (R8 to R13, R25). -/

namespace Sys2Proof.Machine

/-! ### The checks of a write, in their order (R8) -/

open Classical in
theorem firstFail_cons_of_iff {b : Bool} {P : Prop} (h : b = true ↔ ¬ P) (st : Status) (l : List (Bool × Status)) :
    firstFail ((b, st) :: l) = if P then some st else firstFail l := by
  rw [firstFail_cons]
  by_cases hp : P
  · rw [if_neg fun hb => h.mp hb hp, if_pos hp]
  · rw [if_pos (h.mpr hp), if_neg hp]

theorem Write.each_iff_not (w : Write) {p : Axis → Bool} {q : Axis → Prop} (h : ∀ a, p a = true ↔ ¬ q a) :
    w.each p = true ↔ ¬ ∃ a, (w.target a).isSome = true ∧ q a := by
  rw [Write.each_iff]
  simp only [h, not_exists, not_and]

theorem Write.given_iff (w : Write) : (w.v.isNone && w.h.isNone) = true ↔ ¬ ∃ a, (w.target a).isSome = true := by
  have split_ : (∃ a, (w.target a).isSome = true) ↔ w.v.isSome = true ∨ w.h.isSome = true := by
    refine ⟨fun ⟨a, h⟩ => ?_, fun h => h.elim (fun h => ⟨.v, h⟩) fun h => ⟨.h, h⟩⟩
    cases a
    exacts [.inl h, .inr h]
  rw [split_]
  cases w.v <;> cases w.h <;> simp

open Classical in
/-- The first check of R8 that a write fails. -/
theorem Write.firstFail_checks (w : Write) (s : State) :
    firstFail (w.checks s) =
      if (∃ a, (w.target a).isSome = true) ∧ ¬ CanRun s then some .thermalHold
      else if ∃ a, (w.target a).isSome = true ∧ ((s.axis a).motion.mode = .homing ∨ (s.axis a).pendingHome = true) then
        some .busy
      else if ∃ a, (w.target a).isSome = true ∧ (s.axis a).motion = .fault then some .faulted
      else if w.kind = .absolute ∧ ∃ a, (w.target a).isSome = true ∧ (s.axis a).trust ≠ .homed then some .notHomed
      else if ∃ a, (w.target a).isSome = true ∧ w.action s a = .appended ∧ 4 ≤ (s.axis a).queue.length then some .queueFull
      else none := by
  have thermal : ((w.v.isNone && w.h.isNone) || (s.tmon.device ≠ .critical && s.tmon.trip.isNone)) = true ↔
      ¬ ((∃ a, (w.target a).isSome = true) ∧ ¬ CanRun s) := by
    rw [Bool.or_eq_true, w.given_iff, not_and_or, not_not]
    simp [CanRun]
  have busy := w.each_iff_not (p := fun a => (s.axis a).motion.mode ≠ .homing && !(s.axis a).pendingHome)
    (q := fun a => (s.axis a).motion.mode = .homing ∨ (s.axis a).pendingHome = true) fun a => by simp
  have faulted := w.each_iff_not (p := fun a => (s.axis a).motion.mode ≠ .fault) (q := fun a => (s.axis a).motion = .fault)
    fun a => by cases hm : (s.axis a).motion <;> simp [Motion.mode]
  have unhomed : (w.kind = .relative || w.each fun a => (s.axis a).trust = .homed : Bool) = true ↔
      ¬ (w.kind = .absolute ∧ ∃ a, (w.target a).isSome = true ∧ (s.axis a).trust ≠ .homed) := by
    rw [Bool.or_eq_true, w.each_iff_not (q := fun a => (s.axis a).trust ≠ .homed) fun a => by simp]
    cases w.kind <;> simp
  have full := w.each_iff_not (p := fun a => w.action s a ≠ .appended || (s.axis a).queue.length < 4)
    (q := fun a => w.action s a = .appended ∧ 4 ≤ (s.axis a).queue.length) fun a => by simp [imp_iff_not_or]
  rw [Write.checks, firstFail_cons_of_iff thermal, firstFail_cons_of_iff busy, firstFail_cons_of_iff faulted,
    firstFail_cons_of_iff unhomed, firstFail_cons_of_iff full, firstFail_nil]
  congr

/-- An unconditional write is judged by its checks alone. -/
theorem State.write_refused {w : Write} {s : State} {status : Status} (h : firstFail (w.checks s) = some status) (p : Port) :
    s.write p false w = (s, ⟨status, s.writeReply .none .none⟩) := by
  rw [State.write, if_neg (by simp)]
  exact judge_refused rfl h

theorem State.write_accepted {w : Write} {s : State} (h : firstFail (w.checks s) = none) (p : Port) :
    s.write p false w = w.accept (portOriginator p) s := by
  rw [State.write, if_neg (by simp)]
  exact judge_passed rfl h

/-! ### What the start of a head does (R25, R26) -/

@[simp] theorem AxisState.settle_later (env : AxisEnv) (x : AxisState) (q : List Entry) : (x.settle env q).later = [] := by
  induction q with
  | nil => rfl
  | cons e rest ih =>
    unfold AxisState.settle
    split
    · split
      · rfl
      · exact ih
    · rfl

@[simp] theorem AxisState.startIfIdle_later (env : AxisEnv) (x : AxisState) : (x.startIfIdle env).later = [] := by
  unfold AxisState.startIfIdle
  split
  · exact AxisState.settle_later ..
  · rfl

/-- Axes that make no change of the record reach the part by their records and events alone. -/
theorem State.deliver_of_quiet (s : State) {v h : LensOut} (cv : v.change = none) (ch : h.change = none) (lv : v.later = [])
    (lh : h.later = []) :
    s.deliver v h = State.raiseAll { s with lmc := ⟨v.axis, h.axis⟩ } (v.events ++ h.events) := by
  simp [State.deliver, cv, ch, lv, lh]

/-- What an axis reads of the part while a write reaches it: the orientation is the new one (R29). -/
def Write.env (w : Write) (s : State) (a : Axis) : AxisEnv := { s.axisEnv a with orientation := (w.record s.irm).orientation }

@[simp] theorem Write.env_now (w : Write) (s : State) (a : Axis) : (w.env s a).now = s.now := rfl
@[simp] theorem Write.env_axis (w : Write) (s : State) (a : Axis) : (w.env s a).axis = a := rfl

theorem Write.env_canRun_iff (w : Write) (s : State) (a : Axis) : (w.env s a).canRun = true ↔ CanRun s :=
  s.axisEnv_canRun_iff a

/-- What an axis does when an accepted write has reached its queue. -/
def Write.outcome (w : Write) (s : State) (a : Axis) : LensOut := (w.queue s a).startIfIdle (w.env s a)

/-- An accepted write is one installation change, then what its heads do, then one trigger. -/
theorem Write.apply_eq_changed (w : Write) (o : Originator) (s : State) :
    w.apply o s =
      State.recomputeIf
        (State.raiseAll
          (changed { s with lmc := ⟨(w.outcome s .v).axis, (w.outcome s .h).axis⟩ } (w.record s.irm) o)
          ((w.outcome s .v).events ++ (w.outcome s .h).events))
        (w.triggers s.irm || (w.outcome s .v).trigger || (w.outcome s .h).trigger) := by
  have delivered := State.deliver_of_quiet (w.written o s) (v := w.outcome s .v) (h := w.outcome s .h)
    (AxisState.startIfIdle_change ..) (AxisState.startIfIdle_change ..) (AxisState.startIfIdle_later ..)
    (AxisState.startIfIdle_later ..)
  exact congrArg (State.recomputeIf · (w.triggers s.irm || (w.outcome s .v).trigger || (w.outcome s .h).trigger)) delivered

/-- The axis after an absolute write (R12, R25, R29): untouched, an entry replaced, its leg begun, or an entry appended. -/
def Write.after (w : Write) (s : State) (a : Axis) : AxisState :=
  match w.target a with
  | none => s.axis a
  | some t =>
    match w.action s a, (s.axis a).motion, (w.env s a).planLeg (s.axis a) (w.entry t) 1 with
    | .none, _, _ => s.axis a
    | .replaced, _, _ => { s.axis a with queue := (s.axis a).queue.dropLast ++ [w.entry t] }
    | .appended, .idle, some l => { (s.axis a).atLeg s.now l with queue := [{ w.entry t with active := true }] }
    | .appended, _, _ => { s.axis a with queue := (s.axis a).queue ++ [w.entry t] }

/-- The queue action of an absolute target (R12). -/
theorem AxisState.placing_absolute (x : AxisState) (held target : Int) :
    x.placing held .absolute target =
      if target = x.drain held then .none
      else if x.queue.getLast?.any fun e => !e.active && decide (e.kind = .absolute) then .replaced
      else .appended := by
  unfold AxisState.placing
  cases x.queue.getLast? <;> simp

theorem AxisState.placing_of_nil {x : AxisState} (h : x.queue = []) (held target : Int) :
    x.placing held .absolute target = if target = x.drain held then .none else .appended := by
  simp [AxisState.placing_absolute, h]

/-- An axis with no target, or one that is not IDLE, starts nothing. -/
theorem Write.outcome_of_none {w : Write} {s : State} {a : Axis} (heads : HeadsStarted s) (h : w.target a = none) :
    w.outcome s a = { axis := s.axis a } := by
  simp only [Write.outcome, Write.queue, h]
  by_cases hm : (s.axis a).motion = .idle
  · exact AxisState.startIfIdle_of_nil (heads a hm)
  · exact AxisState.startIfIdle_of_ne hm

theorem Write.outcome_of_moving {w : Write} {s : State} {a : Axis} {t : Int} (h : w.target a = some t)
    (hm : (s.axis a).motion ≠ .idle) :
    w.outcome s a = { axis := { s.axis a with queue := placed (s.axis a).queue (w.action s a) (w.entry t) } } := by
  simp only [Write.outcome, Write.queue, h]
  exact AxisState.startIfIdle_of_ne hm

/-- An IDLE axis whose queue is empty starts the leg of an entry that leads away. -/
theorem AxisState.startIfIdle_of_plan {env : AxisEnv} {x : AxisState} {e : Entry} {l : Leg} (hm : x.motion = .idle)
    (run : env.canRun = true) (plan : env.planLeg x e 1 = some l) :
    ({ x with queue := [e] } : AxisState).startIfIdle env =
      { axis := { x.atLeg env.now l with queue := [{ e with active := true }] } } := by
  have plan' : env.planLeg ({ x with queue := [e] } : AxisState) e 1 = some l := plan
  have start := AxisState.startIfIdle_of_cons (env := env) (x := { x with queue := [e] }) (e := e) (rest := []) hm rfl
  rw [start, AxisState.settle, if_pos run, plan']
  rfl

/-- An accepted absolute write leaves each axis as `Write.after` says, with no event and no trigger of its own. -/
theorem Write.outcome_of_absolute {w : Write} {s : State} (hk : w.kind = .absolute) (heads : HeadsStarted s)
    (run : (∃ a, (w.target a).isSome = true) → CanRun s) (a : Axis) : w.outcome s a = { axis := w.after s a } := by
  unfold Write.after
  cases ht : w.target a with
  | none => exact Write.outcome_of_none heads ht
  | some t =>
    by_cases hm : (s.axis a).motion = .idle
    · have empty := heads a hm
      have action : w.action s a = if t = (s.axis a).position then .none else .appended := by
        simp only [Write.action, ht, hk]
        rw [AxisState.placing_of_nil empty, AxisState.drain_of_idle hm, empty, lastTarget_nil]
      by_cases hp : t = (s.axis a).position
      · rw [if_pos hp] at action
        simp only [Write.outcome, Write.queue, ht, action, placed]
        exact AxisState.startIfIdle_of_nil empty
      · rw [if_neg hp] at action
        have away : (w.env s a).planLeg (s.axis a) (w.entry t) 1 ≠ none :=
          mt (AxisEnv.planLeg_eq_none_iff ..).mp (Ne.symm hp)
        obtain ⟨l, plan⟩ := Option.ne_none_iff_exists'.mp away
        have canRun := (w.env_canRun_iff s a).mpr (run ⟨a, by simp [ht]⟩)
        simp only [Write.outcome, Write.queue, ht, action, placed, empty, List.nil_append, plan]
        rw [AxisState.startIfIdle_of_plan hm canRun plan, hm]
        rfl
    · rw [Write.outcome_of_moving ht hm]
      cases w.action s a <;> cases hm' : (s.axis a).motion <;> first | rfl | exact absurd hm' hm

/-! ### Accepted writes and their answers -/

/-- An accepted absolute write: its axes, its record in one installation change, its trigger, its status. -/
theorem State.write_absolute {w : Write} {s : State} (hk : w.kind = .absolute) (heads : HeadsStarted s)
    (checks : firstFail (w.checks s) = none) (p : Port) :
    let u := changed { s with lmc := ⟨w.after s .v, w.after s .h⟩ } (w.record s.irm) (portOriginator p)
    s.write p false w =
      (u.recomputeIf (w.triggers s.irm), ⟨w.status s, u.writeReply (w.action s .v) (w.action s .h)⟩) := by
  have run : (∃ a, (w.target a).isSome = true) → CanRun s := fun ⟨a, ha⟩ => (Write.passes_of_checks checks ha).run
  have applied : w.apply (portOriginator p) s =
      (changed { s with lmc := ⟨w.after s .v, w.after s .h⟩ } (w.record s.irm) (portOriginator p)).recomputeIf
        (w.triggers s.irm) := by
    rw [Write.apply_eq_changed, Write.outcome_of_absolute hk heads run, Write.outcome_of_absolute hk heads run]
    simp
  rw [State.write_accepted checks, Write.accept, applied]
  simp [State.writeReply]

end Sys2Proof.Machine
end

