-- ==== Sys2Proof/Proofs/WriteInstall.lean ====
section
/-! PROOFS. WRITE_INSTALL of codes, of an orientation and of targets (R7, R8, R10 to R12). -/

namespace Sys2Proof.Machine

/-! ### The first check that fails (R8) -/

theorem Write.unhomed_free {w : Write} {s : State}
    (homed : w.kind = .relative ∨ ∀ a, (w.target a).isSome = true → (s.axis a).trust = .homed) :
    ¬ (w.kind = .absolute ∧ ∃ a, (w.target a).isSome = true ∧ (s.axis a).trust ≠ .homed) := by
  rintro ⟨absolute, a, given, unhomed⟩
  rcases homed with relative | homed
  · simp [absolute] at relative
  · exact unhomed (homed a given)

section
variable {w : Write} {s : State} (run : CanRun s)
  (free : ∀ a, (w.target a).isSome = true → (s.axis a).motion.mode ≠ .homing ∧ (s.axis a).pendingHome = false)
  (sound : ∀ a, (w.target a).isSome = true → (s.axis a).motion ≠ .fault)
  (homed : w.kind = .relative ∨ ∀ a, (w.target a).isSome = true → (s.axis a).trust = .homed)

theorem Write.checks_thermalHold (given : ∃ a, (w.target a).isSome = true) (hot : ¬ CanRun s) :
    firstFail (w.checks s) = some .thermalHold := by
  rw [w.firstFail_checks, if_pos ⟨given, hot⟩]

include run

theorem Write.checks_busy
    (h : ∃ a, (w.target a).isSome = true ∧ ((s.axis a).motion.mode = .homing ∨ (s.axis a).pendingHome = true)) :
    firstFail (w.checks s) = some .busy := by
  rw [w.firstFail_checks, if_neg (by tauto), if_pos h]

include free

theorem Write.checks_faulted (h : ∃ a, (w.target a).isSome = true ∧ (s.axis a).motion = .fault) :
    firstFail (w.checks s) = some .faulted := by
  rw [w.firstFail_checks, if_neg (by tauto), if_neg (by simpa using free), if_pos h]

include sound

theorem Write.checks_notHomed (absolute : w.kind = .absolute)
    (h : ∃ a, (w.target a).isSome = true ∧ (s.axis a).trust ≠ .homed) : firstFail (w.checks s) = some .notHomed := by
  rw [w.firstFail_checks, if_neg (by tauto), if_neg (by simpa using free), if_neg (by simpa using sound), if_pos ⟨absolute, h⟩]

include homed

theorem Write.checks_queueFull (h : ∃ a, w.action s a = .appended ∧ 4 ≤ (s.axis a).queue.length) :
    firstFail (w.checks s) = some .queueFull := by
  obtain ⟨a, appended, full⟩ := h
  have given : (w.target a).isSome = true := by
    cases ht : w.target a with
    | none => simp [Write.action, ht] at appended
    | some t => rfl
  rw [w.firstFail_checks, if_neg (by tauto), if_neg (by simpa using free), if_neg (by simpa using sound),
    if_neg (Write.unhomed_free homed), if_pos ⟨a, given, appended, full⟩]

theorem Write.checks_none (room : ∀ a, w.action s a = .appended → (s.axis a).queue.length < 4) :
    firstFail (w.checks s) = none := by
  rw [w.firstFail_checks, if_neg (by tauto), if_neg (by simpa using free), if_neg (by simpa using sound),
    if_neg (Write.unhomed_free homed), if_neg]
  rintro ⟨a, -, appended, full⟩
  exact absurd (room a appended) (by omega)

end

/-! ### The write of a WRITE_INSTALL (R7, R10) -/

/-- Whether a presence byte gives an axis a target, and which of two targets is the axis's. -/
def givesTarget (presence : Byte) : Axis → Bool
  | .v => bit presence 3
  | .h => bit presence 4

def ofAxis (v h : Word32) : Axis → Int
  | .v => v.toInt
  | .h => h.toInt

theorem installWrite_target (p : Port) (presence orientation kv kh : Byte) (v h : Word32) (speed : Byte) (s : State) (a : Axis) :
    (installWrite p presence orientation kv kh v h speed s).target a =
      present (givesTarget presence a) ((s.axis a).clampTarget (ofAxis v h a)) := by
  cases a <;> rfl

theorem isSome_present {α : Type} (b : Bool) (x : α) : (present b x).isSome = b := by cases b <;> rfl

theorem AxisState.clampTarget_of_homed {x : AxisState} (h : x.trust = .homed) (t : Int) :
    x.clampTarget t = max 0 (min (x.params.travel : Int) t) := by
  simp [AxisState.clampTarget, h, clamp]

theorem clampCode_ne_iff (b : Byte) : clampCode b ≠ b.toInt ↔ b.toInt < -30 ∨ 30 < b.toInt := by
  simp only [clampCode, clamp]; omega

theorem Write.triggers_eq (w : Write) (r : Irm) :
    w.triggers r =
      decide ((w.record r).orientation ≠ r.orientation ∨ (w.record r).kv ≠ r.kv ∨ (w.record r).kh ≠ r.kh) := by
  simp [Write.triggers, Bool.or_assoc]

/-- An unconditional WRITE_INSTALL whose fields are well encoded and that its port may make is judged as a write (R7, R8). -/
theorem execWriteInstall_eq {p : Port} {presence orientation kv kh : Byte} {v k : Word32} {speed : Byte} {s : State}
    (h : Listens s) (presence_ : presenceFits presence = true) (permitted : p = .control ∨ bit presence 0 = false)
    (orientation_ : bit presence 0 = true → (readOrientation orientation).isSome) (speed_ : (readSpeed speed).isSome) :
    execWriteInstall p presence orientation kv kh v k speed 0 s =
      let r := s.write p false (installWrite p presence orientation kv kh v k speed s)
      .next (answered r.1 p 0x02 r.2.status r.2.body) := by
  have faces : (!bit presence 0 || (readOrientation orientation).isSome) = true := by
    cases hb : bit presence 0 <;> simp_all
  have passes : firstFail [((p = .control || !bit presence 0 : Bool), Status.notPermitted)] = none := by
    rcases permitted with rfl | hb <;> simp [*]
  exact request_passed h (by simp only [presence_, faces, speed_]; rfl) passes

/-- The codes a WRITE_INSTALL leaves in the record. -/
theorem present_clampCode_getD (b : Bool) (x : Byte) (held : Int) :
    (present b (clampCode x)).getD held = if b then max (-30) (min 30 x.toInt) else held := present_getD ..

/-- The record after a WRITE_INSTALL. -/
theorem installWrite_record {w : Write} {p : Port} {presence orientation kv kh : Byte} {v k : Word32} {speed : Byte}
    {s : State} (hw : w = installWrite p presence orientation kv kh v k speed s) :
    w.record s.irm =
      { s.irm with
        orientation := if bit presence 0 then (readOrientation orientation).getD s.irm.orientation else s.irm.orientation,
        kv := if bit presence 1 then max (-30) (min 30 kv.toInt) else s.irm.kv,
        kh := if bit presence 2 then max (-30) (min 30 kh.toInt) else s.irm.kh,
        targetV := (w.target .v).getD s.irm.targetV, targetH := (w.target .h).getD s.irm.targetH } := by
  have orientation' : (if bit presence 0 then readOrientation orientation else none).getD s.irm.orientation =
      if bit presence 0 then (readOrientation orientation).getD s.irm.orientation else s.irm.orientation := by
    split <;> rfl
  simp only [hw, Write.record, installWrite, orientation', present_clampCode_getD, Write.target]

/-- A WRITE_INSTALL is clamped when a field it gives is not applied as it was given. -/
theorem installWrite_clamped (p : Port) (presence orientation kv kh : Byte) (v k : Word32) (speed : Byte) (s : State) :
    (installWrite p presence orientation kv kh v k speed s).clamped =
      ((bit presence 1 && decide (kv.toInt < -30 ∨ 30 < kv.toInt)) ||
        (bit presence 2 && decide (kh.toInt < -30 ∨ 30 < kh.toInt)) ||
        (bit presence 3 && decide (s.lmc.v.clampTarget v.toInt ≠ v.toInt)) ||
        (bit presence 4 && decide (s.lmc.h.clampTarget k.toInt ≠ k.toInt))) := by
  simp only [installWrite, clampCode_ne_iff]

/-- Settles O15: with no target the write passes every check, and no axis stirs. -/
theorem writeCodes : Obligations.WriteCodes := by
  unfold Obligations.WriteCodes
  simp only [exec]
  intro p presence orientation kv kh v k speed o s h heads presence_ noV noH permitted orientation_ speed_
  set w := installWrite p presence orientation kv kh v k speed s with hw
  have none_ : ∀ a, w.target a = none := fun a => by
    rw [hw, installWrite_target]
    cases a <;> simp [givesTarget, present, noV, noH]
  have still : ∀ a, w.action s a = .none := fun a => by simp [Write.action, none_]
  have checks : firstFail (w.checks s) = none := by
    rw [w.firstFail_checks]
    simp [none_]
  have written := State.write_absolute (w := w) rfl heads checks p
  rw [execWriteInstall_eq h presence_ permitted (fun hb => by simp [orientation_ hb]) speed_, ← hw, written]
  have after : ∀ a, w.after s a = s.axis a := fun a => by simp [Write.after, none_]
  have face : (if bit presence 0 then (readOrientation orientation).getD s.irm.orientation else s.irm.orientation) =
      if bit presence 0 then o else s.irm.orientation := by
    cases hb : bit presence 0 <;> simp [orientation_, hb]
  have record := installWrite_record hw
  rw [face, none_, none_] at record
  have clamped := installWrite_clamped p presence orientation kv kh v k speed s
  rw [noV, noH, Bool.false_and, Bool.false_and, Bool.or_false, Bool.or_false] at clamped
  have status : w.status s = if w.clamped then .clamped else .ok := by simp [Write.status, still]
  rw [Write.triggers_eq, status, clamped, record, after, after, still, still]
  rfl

/-- A WRITE_INSTALL that passes the checks of R8 is applied whole. -/
theorem execWriteInstall_accepted {w : Write} {p : Port} {presence orientation kv kh : Byte} {v k : Word32} {speed : Byte}
    {s : State} (h : Listens s) (heads : HeadsStarted s) (presence_ : presenceFits presence = true)
    (permitted : p = .control ∨ bit presence 0 = false)
    (orientation_ : bit presence 0 = true → (readOrientation orientation).isSome) (speed_ : (readSpeed speed).isSome)
    (hw : w = installWrite p presence orientation kv kh v k speed s) (checks : firstFail (w.checks s) = none) :
    let u := changed { s with lmc := ⟨w.after s .v, w.after s .h⟩ } (w.record s.irm) (portOriginator p)
    execWriteInstall p presence orientation kv kh v k speed 0 s =
      .next (answered (u.recomputeIf (w.triggers s.irm)) p 0x02 (w.status s)
        (u.writeReply (w.action s .v) (w.action s .h))) := by
  have absolute : w.kind = .absolute := by rw [hw]; rfl
  rw [execWriteInstall_eq h presence_ permitted orientation_ speed_, ← hw]
  dsimp only
  rw [State.write_absolute absolute heads checks]

theorem execWriteInstall_refused {w : Write} {p : Port} {presence orientation kv kh : Byte} {v k : Word32} {speed : Byte}
    {s : State} {status : Status} (h : Listens s) (presence_ : presenceFits presence = true)
    (permitted : p = .control ∨ bit presence 0 = false)
    (orientation_ : bit presence 0 = true → (readOrientation orientation).isSome) (speed_ : (readSpeed speed).isSome)
    (hw : w = installWrite p presence orientation kv kh v k speed s) (checks : firstFail (w.checks s) = some status) :
    execWriteInstall p presence orientation kv kh v k speed 0 s =
      .next (answered s p 0x02 status (s.writeReply .none .none)) := by
  rw [execWriteInstall_eq h presence_ permitted orientation_ speed_, ← hw]
  dsimp only
  rw [State.write_refused checks]

/-! ### The targets of a WRITE_INSTALL on HOMED axes (R10, R12) -/

/-- The target a WRITE_INSTALL aims a HOMED axis at. -/
def aimOf (s : State) (v k : Word32) (a : Axis) : Int := max 0 (min ((s.axis a).params.travel : Int) (ofAxis v k a))

section
variable {w : Write} {p : Port} {presence orientation kv kh : Byte} {v k : Word32} {speed : Byte} {s : State} {a : Axis}
  (hw : w = installWrite p presence orientation kv kh v k speed s)
include hw

theorem installWrite_isSome : (w.target a).isSome = givesTarget presence a := by
  rw [hw, installWrite_target, isSome_present]

theorem installWrite_target_of_not (h : givesTarget presence a = false) : w.target a = none := by
  rw [hw, installWrite_target, h]
  rfl

theorem installWrite_target_of_homed (h : givesTarget presence a = true) (homed : (s.axis a).trust = .homed) :
    w.target a = some (aimOf s v k a) := by
  rw [hw, installWrite_target, h, AxisState.clampTarget_of_homed homed]
  rfl

variable (homed : givesTarget presence a = true → (s.axis a).trust = .homed)
include homed

theorem installWrite_target_getD (x : Int) :
    (w.target a).getD x = if givesTarget presence a then aimOf s v k a else x := by
  cases h : givesTarget presence a with
  | false => rw [installWrite_target_of_not hw h]; rfl
  | true => rw [installWrite_target_of_homed hw h (homed h)]; rfl

theorem installWrite_action :
    w.action s a =
      if givesTarget presence a = false ∨ aimOf s v k a = s.drain a then .none
      else if (s.axis a).queue.getLast?.any fun e => !e.active && decide (e.kind = .absolute) then .replaced
      else .appended := by
  cases h : givesTarget presence a with
  | false => simp [Write.action, installWrite_target_of_not hw h]
  | true =>
    have absolute : w.kind = .absolute := by rw [hw]; rfl
    rw [Write.action, installWrite_target_of_homed hw h (homed h), absolute]
    dsimp only
    rw [AxisState.placing_absolute]
    simp [State.drain]

omit hw in
theorem installWrite_clamps :
    (givesTarget presence a && decide ((s.axis a).clampTarget (ofAxis v k a) ≠ ofAxis v k a)) =
      (givesTarget presence a && decide (aimOf s v k a ≠ ofAxis v k a)) := by
  cases h : givesTarget presence a with
  | false => rfl
  | true => rw [AxisState.clampTarget_of_homed (homed h)]; rfl

end

end Sys2Proof.Machine
end

