-- ==== Sys2Proof/Proofs/OneAxisWrites.lean ====
section
/-! PROOFS. A write that aims one axis: WRITE_INSTALL of one target, and JOG (R12, R13, R25, R26). -/

namespace Sys2Proof.Machine

/-! ### A write that gives one axis a target -/

/-- A write gives one axis a target, and the record nothing else. -/
structure Write.Aims (w : Write) (s : State) (a : Axis) (t : Int) : Prop where
  target : w.target a = some t
  other : ∀ b, b ≠ a → w.target b = none
  record : w.record s.irm = retarget s.irm a t

namespace Write.Aims

variable {w : Write} {s : State} {a : Axis} {t : Int} (h : w.Aims s a t)
include h

theorem triggers : w.triggers s.irm = false := by
  rw [Write.triggers_eq, h.record]
  cases a <;> simp

theorem env : w.env s a = s.axisEnv a := by
  rw [Write.env, h.record]
  cases a <;> rfl

theorem eq_of_isSome {b : Axis} (hb : (w.target b).isSome = true) : b = a := by
  by_contra hne
  rw [h.other b hne] at hb
  cases hb

theorem action : w.action s a = (s.axis a).placing (s.irm.target a) w.kind t := by
  rw [Write.action, h.target]

/-- The status of the answer looks at that axis alone. -/
theorem status : w.status s = if w.clamped then .clamped else if w.action s a = .none then .ok else .accepted := by
  have other : ∀ b, b ≠ a → w.action s b = .none := fun b hb => by rw [Write.action, h.other b hb]
  unfold Write.status
  cases a with
  | v => simp [other .h (by decide)]
  | h => simp [other .v (by decide)]

/-- An accepted one moves that axis alone. -/
theorem apply (heads : HeadsStarted s) (o : Originator) :
    w.apply o s =
      State.recomputeIf
        (State.raiseAll (changed (s.setAxis a (w.outcome s a).axis) (retarget s.irm a t) o) (w.outcome s a).events)
        (w.outcome s a).trigger := by
  rw [Write.apply_eq_changed, h.triggers, h.record, Bool.false_or]
  cases a with
  | v => rw [Write.outcome_of_none heads (h.other .h (by decide))]; simp; rfl
  | h => rw [Write.outcome_of_none heads (h.other .v (by decide))]; simp; rfl

theorem checks_none (run : CanRun s) (mode : (s.axis a).motion.mode ≠ .homing) (noHome : (s.axis a).pendingHome = false)
    (noFault : (s.axis a).motion ≠ .fault) (homed : w.kind = .relative ∨ (s.axis a).trust = .homed)
    (room : w.action s a = .appended → (s.axis a).queue.length < 4) : firstFail (w.checks s) = none := by
  refine Write.checks_none run (fun b hb => ?_) (fun b hb => ?_) (homed.imp_right fun homed b hb => ?_) fun b hb => ?_
  · obtain rfl := h.eq_of_isSome hb; exact ⟨mode, noHome⟩
  · obtain rfl := h.eq_of_isSome hb; exact noFault
  · obtain rfl := h.eq_of_isSome hb; exact homed
  · by_cases hne : b = a
    · subst hne; exact room hb
    · simp [Write.action, h.other b hne] at hb

/-- An IDLE axis starts the leg of a target that lies away from it. -/
theorem outcome_of_plan {l : Leg} (heads : HeadsStarted s) (run : CanRun s) (hm : (s.axis a).motion = .idle)
    (appended : w.action s a = .appended) (plan : (s.axisEnv a).planLeg (s.axis a) (w.entry t) 1 = some l) :
    w.outcome s a = { axis := { (s.axis a).atLeg s.now l with queue := [{ w.entry t with active := true }] } } := by
  simp only [Write.outcome, Write.queue, h.target, appended, placed, heads a hm, List.nil_append, h.env]
  exact AxisState.startIfIdle_of_plan hm ((s.axisEnv_canRun_iff a).mpr run) plan

/-- A target that an IDLE axis stands at is reached at once: LENS_DONE, and HOLD begins (R26). -/
theorem outcome_of_arrived (heads : HeadsStarted s) (run : CanRun s) (hm : (s.axis a).motion = .idle)
    (appended : w.action s a = .appended) (at_ : t = (s.axis a).position) :
    w.outcome s a =
      { axis := { (s.axis a).holding s.now with queue := [] }, events := [.lensDone a (s.axis a).position .complete],
        trigger := true } := by
  have plan : (s.axisEnv a).planLeg ({ s.axis a with queue := [w.entry t] } : AxisState) (w.entry t) 1 = none :=
    (AxisEnv.planLeg_eq_none_iff ..).mpr at_.symm
  have start := AxisState.startIfIdle_of_cons (env := s.axisEnv a) (x := { s.axis a with queue := [w.entry t] })
    (e := w.entry t) (rest := []) hm rfl
  simp only [Write.outcome, Write.queue, h.target, appended, placed, heads a hm, List.nil_append, h.env]
  rw [start, AxisState.settle, if_pos ((s.axisEnv_canRun_iff a).mpr run), plan]
  simp only [AxisState.settle, AxisState.enterHold]
  split <;> rfl

theorem outcome_of_moving (hm : (s.axis a).motion ≠ .idle) :
    w.outcome s a = { axis := { s.axis a with queue := placed (s.axis a).queue (w.action s a) (w.entry t) } } :=
  Write.outcome_of_moving h.target hm

/-- An accepted one: the axis, the record in one installation change, then what the axis did. -/
theorem accepted (heads : HeadsStarted s) (checks : firstFail (w.checks s) = none) (p : Port) : ∃ body,
    s.write p false w =
      (State.recomputeIf
        (State.raiseAll (changed (s.setAxis a (w.outcome s a).axis) (retarget s.irm a t) (portOriginator p))
          (w.outcome s a).events)
        (w.outcome s a).trigger,
       ⟨if w.clamped then .clamped else if w.action s a = .none then .ok else .accepted, body⟩) := by
  rw [State.write_accepted checks, Write.accept, h.apply heads, h.status]
  exact ⟨_, rfl⟩

end Write.Aims

/-! ### WRITE_INSTALL of one target (R12) -/

/-- The presence byte that gives one axis a target and the record nothing else. -/
def onlyTarget : Axis → Byte
  | .v => 8
  | .h => 16

theorem installWrite_aims (p : Port) (a : Axis) (v k : Word32) (speed : Byte) (s : State) :
    (installWrite p (onlyTarget a) 0 0 0 v k speed s).Aims s a ((s.axis a).clampTarget (ofAxis v k a)) := by
  cases a with
  | v => exact ⟨rfl, fun b hb => by cases b <;> [exact absurd rfl hb; rfl], rfl⟩
  | h => exact ⟨rfl, fun b hb => by cases b <;> [rfl; exact absurd rfl hb], rfl⟩

theorem installWrite_one_clamped (p : Port) (a : Axis) (v k : Word32) (speed : Byte) (s : State) :
    (installWrite p (onlyTarget a) 0 0 0 v k speed s).clamped =
      decide ((s.axis a).clampTarget (ofAxis v k a) ≠ ofAxis v k a) := by
  rw [installWrite_clamped]
  cases a with
  | v => exact Bool.or_false _
  | h => rfl

/-- A WRITE_INSTALL of one target is judged as its write. -/
theorem execWriteInstall_one {p : Port} {a : Axis} {v k : Word32} {speed : Byte} {s : State} (h : Listens s)
    (speed_ : (readSpeed speed).isSome) :
    execWriteInstall p (onlyTarget a) 0 0 0 v k speed 0 s =
      let r := s.write p false (installWrite p (onlyTarget a) 0 0 0 v k speed s)
      .next (answered r.1 p 0x02 r.2.status r.2.body) := by
  have presence : presenceFits (onlyTarget a) = true ∧ bit (onlyTarget a) 0 = false := by cases a <;> decide
  exact execWriteInstall_eq h presence.1 (.inr presence.2) (by simp [presence.2]) speed_

/-- A target away from an IDLE, HOMED axis starts its move. -/
theorem writeInstall_starts {p : Port} {a : Axis} {v k : Word32} {speed : Byte} {class_ : SpeedClass} {s : State}
    (h : Listens s) (heads : HeadsStarted s) (run : CanRun s) (speed_ : readSpeed speed = some class_)
    (hm : (s.axis a).motion = .idle) (homed : (s.axis a).trust = .homed) (noHome : (s.axis a).pendingHome = false)
    (away : aimOf s v k a ≠ (s.axis a).position) :
    ∃ (l : Leg) (body : List Byte),
      (s.axisEnv a).planLeg (s.axis a) ⟨.absolute, portOrigin p, aimOf s v k a, class_, false⟩ 1 = some l ∧
      execWriteInstall p (onlyTarget a) 0 0 0 v k speed 0 s =
        .next (answered
          (changed
            (s.setAxis a { (s.axis a).atLeg s.now l with queue := [⟨.absolute, portOrigin p, aimOf s v k a, class_, true⟩] })
            (retarget s.irm a (aimOf s v k a)) (portOriginator p)) p 0x02
          (if aimOf s v k a = ofAxis v k a then .accepted else .clamped) body) := by
  obtain ⟨w, hw⟩ : ∃ w, w = installWrite p (onlyTarget a) 0 0 0 v k speed s := ⟨_, rfl⟩
  have aims := installWrite_aims p a v k speed s
  have clamped := installWrite_one_clamped p a v k speed s
  rw [← hw, show (s.axis a).clampTarget (ofAxis v k a) = aimOf s v k a from AxisState.clampTarget_of_homed homed _]
    at aims clamped
  have absolute : w.kind = .absolute := by rw [hw]; rfl
  have entry : w.entry (aimOf s v k a) = ⟨.absolute, portOrigin p, aimOf s v k a, class_, false⟩ := by
    rw [hw]; simp [Write.entry, installWrite, speed_]
  have empty := heads a hm
  have appended : w.action s a = .appended := by
    rw [aims.action, absolute, AxisState.placing_of_nil empty, if_neg]
    rwa [AxisState.drain_of_idle hm, empty, lastTarget_nil]
  have checks := aims.checks_none run (by simp [hm, Motion.mode]) noHome (by simp [hm]) (.inr homed) fun _ => by simp [empty]
  obtain ⟨l, plan⟩ := Option.ne_none_iff_exists'.mp
    (mt (AxisEnv.planLeg_eq_none_iff (s.axisEnv a) (s.axis a) (w.entry (aimOf s v k a)) 1).mp away.symm)
  obtain ⟨body, written⟩ := aims.accepted heads checks p
  rw [aims.outcome_of_plan heads run hm appended plan, clamped, appended, entry] at written
  refine ⟨l, body, entry ▸ plan, ?_⟩
  rw [execWriteInstall_one h (by rw [speed_]; rfl), ← hw, written]
  by_cases exact_ : aimOf s v k a = ofAxis v k a
  · rw [if_pos exact_, decide_eq_false (not_not.mpr exact_)]; rfl
  · rw [if_neg exact_, decide_eq_true exact_]; rfl

/-- Settles O16. -/
theorem writeTargetStartsAMove : Obligations.WriteTargetStartsAMove := by
  refine ⟨?_, ?_⟩
  · intro p presence orientation kv kh v k speed class_ s h heads presence_ permitted orientation_ speed_ given asked target
      entry action c refused free sound homed
    have speed' : (readSpeed speed).isSome = true := by rw [speed_]; rfl
    obtain ⟨w, hw⟩ : ∃ w, w = installWrite p presence orientation kv kh v k speed s := ⟨_, rfl⟩
    have answer : ∀ status, firstFail (w.checks s) = some status → refused status := fun status checks =>
      execWriteInstall_refused h presence_ permitted orientation_ speed' hw checks
    have absolute : w.kind = .absolute := by rw [hw]; rfl
    have given_ : givesTarget presence = given := by funext a; cases a <;> rfl
    have target_ : aimOf s v k = target := by funext a; cases a <;> rfl
    have isSome : ∀ a, (w.target a).isSome = given a := fun a => by rw [installWrite_isSome hw, given_]
    have action_ : homed → ∀ a, w.action s a = action a := fun hh a => by
      rw [installWrite_action hw fun ha => hh.2 a (by rwa [← given_]), given_, target_]
    refine ⟨fun one hot => answer _ (Write.checks_thermalHold ?_ hot), fun run => ⟨fun hb => ?_, fun hfree hf => ?_,
      fun hsound hh => ?_, fun hh room => ?_, fun hh room => ?_⟩⟩
    · rcases one with one | one
      · exact ⟨.v, (isSome .v).trans one⟩
      · exact ⟨.h, (isSome .h).trans one⟩
    · exact answer _ (Write.checks_busy run (by simpa only [isSome] using hb))
    · exact answer _ (Write.checks_faulted run (by simpa only [isSome] using hfree) (by simpa only [isSome] using hf))
    · exact answer _ (Write.checks_notHomed run (by simpa only [isSome] using hsound.1)
        (by simpa only [isSome] using hsound.2) absolute (by simpa only [isSome] using hh))
    · exact answer _ (Write.checks_queueFull run (by simpa only [isSome] using hh.1.1)
        (by simpa only [isSome] using hh.1.2) (.inr (by simpa only [isSome] using hh.2))
        (by simpa only [action_ hh] using room))
    · intro o' kv' kh' clamped after u
      have checks : firstFail (w.checks s) = none :=
        Write.checks_none run (by simpa only [isSome] using hh.1.1) (by simpa only [isSome] using hh.1.2)
          (.inr (by simpa only [isSome] using hh.2)) (by simpa only [action_ hh] using room)
      have homed_ : ∀ a, givesTarget presence a = true → (s.axis a).trust = .homed := fun a ha =>
        hh.2 a (by rwa [← given_])
      have record := installWrite_record hw
      have env : ∀ a, w.env s a = { s.axisEnv a with orientation := o' } := fun a => by rw [Write.env, record]
      have after_ : ∀ a, w.after s a = after a := by
        intro a
        have act := action_ hh a
        cases ha : given a with
        | false => simp [Write.after, installWrite_target_of_not hw ((congrFun given_ a).trans ha), after, ← act, Write.action]
        | true =>
          have entry_ : w.entry (target a) = entry a := by
            rw [hw]
            simp [Write.entry, installWrite, entry, speed_]
          have aims := installWrite_target_of_homed hw ((congrFun given_ a).trans ha) (hh.2 a ha)
          rw [target_] at aims
          simp only [Write.after, aims, act, entry_, env]
          rfl
      have clamps : w.clamped = clamped := by
        rw [hw, installWrite_clamped]
        exact congrArg₂ (_ || · || ·) (installWrite_clamps (v := v) (k := k) (homed_ .v))
          (installWrite_clamps (v := v) (k := k) (homed_ .h))
      have accepted := execWriteInstall_accepted h heads presence_ permitted orientation_ speed' hw checks
      rw [installWrite_target_getD hw (homed_ .v), installWrite_target_getD hw (homed_ .h), given_, target_] at record
      rw [Write.triggers_eq, Write.status, clamps, record, after_, after_, action_ hh, action_ hh] at accepted
      exact accepted
  · intro p a v k speed class_ s h heads run speed_ hm homed noHome asked target away
    have asked_ : ofAxis v k a = asked := by cases a <;> rfl
    have target_ : aimOf s v k a = target := by rw [aimOf, asked_]
    obtain ⟨l, body, plan, starts⟩ := writeInstall_starts (p := p) (a := a) (v := v) (k := k) h heads run speed_ hm homed noHome
      (by rwa [target_])
    rw [target_] at plan
    rw [target_, asked_] at starts
    obtain ⟨number, issued, length, final⟩ := AxisEnv.planLeg_leads plan
    have more := ((s.axisEnv a).planLeg_bound plan fun _ => by
      have := clamp_within (lo := 0) (hi := (s.axis a).params.travel) (by omega) asked
      exact this).1
    exact ⟨_, l, starts, ⟨body, rfl⟩, plan, number, issued, length, by omega, final⟩

/-- A target for a RUNNING, HOMED axis joins its queue by its action. -/
theorem writeInstall_joins {p : Port} {a : Axis} {v k : Word32} {speed : Byte} {class_ : SpeedClass} {s : State} {l : Leg}
    (h : Listens s) (heads : HeadsStarted s) (run : CanRun s) (speed_ : readSpeed speed = some class_)
    (hm : (s.axis a).motion = .running l) (homed : (s.axis a).trust = .homed) (noHome : (s.axis a).pendingHome = false)
    (low : 0 ≤ ofAxis v k a) (high : ofAxis v k a ≤ (s.axis a).params.travel) :
    let t := ofAxis v k a
    let action := (s.axis a).placing (s.irm.target a) .absolute t
    ((action = .appended → (s.axis a).queue.length < 4) → ∃ body,
      execWriteInstall p (onlyTarget a) 0 0 0 v k speed 0 s =
        .next (answered
          (changed
            (s.setAxis a { s.axis a with
              queue := placed (s.axis a).queue action ⟨.absolute, portOrigin p, t, class_, false⟩ })
            (retarget s.irm a t) (portOriginator p)) p 0x02
          (if action = .none then .ok else .accepted) body)) ∧
    (action = .appended → 4 ≤ (s.axis a).queue.length → ∃ body,
      execWriteInstall p (onlyTarget a) 0 0 0 v k speed 0 s = .next (answered s p 0x02 .queueFull body)) := by
  intro t action
  obtain ⟨w, hw⟩ : ∃ w, w = installWrite p (onlyTarget a) 0 0 0 v k speed s := ⟨_, rfl⟩
  have within : (s.axis a).clampTarget t = t := by rw [AxisState.clampTarget_of_homed homed]; omega
  have aims := installWrite_aims p a v k speed s
  have clamped := installWrite_one_clamped p a v k speed s
  rw [← hw, within] at aims clamped
  rw [decide_eq_false (by simp [t])] at clamped
  have absolute : w.kind = .absolute := by rw [hw]; rfl
  have entry : w.entry t = ⟨.absolute, portOrigin p, t, class_, false⟩ := by
    rw [hw]; simp [Write.entry, installWrite, speed_]
  have action_ : w.action s a = action := by rw [aims.action, absolute]
  have mode : (s.axis a).motion.mode ≠ .homing := by simp [hm, Motion.mode]
  refine ⟨fun room => ?_, fun appended full => ?_⟩
  · have checks := aims.checks_none run mode noHome (by simp [hm]) (.inr homed) (by rwa [action_])
    obtain ⟨body, written⟩ := aims.accepted heads checks p
    rw [aims.outcome_of_moving (by simp [hm]), clamped, action_, entry] at written
    refine ⟨body, ?_⟩
    rw [execWriteInstall_one h (by rw [speed_]; rfl), ← hw, written]
    rfl
  · have each : ∀ b, (w.target b).isSome = true → b = a := fun b => aims.eq_of_isSome
    have checks := Write.checks_queueFull (w := w) run (fun b hb => each b hb ▸ ⟨mode, noHome⟩)
      (fun b hb => each b hb ▸ by simp [hm]) (.inr fun b hb => each b hb ▸ homed) ⟨a, action_.trans appended, full⟩
    exact ⟨_, by rw [execWriteInstall_one h (by rw [speed_]; rfl), ← hw, State.write_refused checks]⟩

/-- Settles O17. -/
theorem writeTargetJoinsTheQueue : Obligations.WriteTargetJoinsTheQueue := by
  intro p a v k speed class_ l front newest s h heads run speed_ hm homed noHome queue target low high c entry replaceable after
  have target_ : ofAxis v k a = target := by cases a <;> rfl
  have action : (s.axis a).placing (s.irm.target a) .absolute target =
      if target = newest.target then .none else if replaceable then .replaced else .appended := by
    rw [AxisState.placing_absolute, queue, List.getLast?_concat, AxisState.drain, queue, List.getLast?_concat]
    simp [replaceable]
  obtain ⟨joins, full⟩ := writeInstall_joins (p := p) (a := a) (v := v) (k := k) h heads run speed_ hm homed noHome
    (by rwa [target_]) (by rwa [target_])
  rw [target_, action, queue] at joins full
  refine ⟨fun at_ => ?_, fun away kind => ?_, fun away kind room => ?_, fun away kind room => ?_⟩
  · rw [if_pos at_] at joins
    exact joins (by simp)
  · rw [if_neg away, if_pos kind] at joins
    simp only [placed, List.dropLast_concat] at joins
    exact joins (by simp)
  · rw [if_neg away, if_neg kind] at joins
    simp only [placed, List.append_assoc] at joins
    exact joins fun _ => room
  · rw [if_neg away, if_neg kind] at full
    exact full rfl room

end Sys2Proof.Machine
end

