-- ==== Sys2Proof/Proofs/Jog.lean ====
section
/-! PROOFS. JOG (R13, R25, R26). -/

namespace Sys2Proof.Machine

theorem jogWrite_aims (p : Port) (a : Axis) (delta : Word32) (speed : Byte) (s : State) :
    (jogWrite p a delta speed s).Aims s a ((s.axis a).clampJog (s.drain a + delta.toInt)) := by
  cases a with
  | v => exact ⟨rfl, fun b hb => by cases b <;> [exact absurd rfl hb; rfl], rfl⟩
  | h => exact ⟨rfl, fun b hb => by cases b <;> [rfl; exact absurd rfl hb], rfl⟩

section
variable {p : Port} {axis : Byte} {a : Axis} {delta : Word32} {speed : Byte} {s : State}
  (axis_ : readAxis axis = some a)
include axis_

theorem execJog_zero (h : Listens s) : execJog p axis 0 speed 0 s = .next (answered s p 0x03 .badRequest [3, 1]) :=
  request_fault h (by rw [axis_]; rfl)

variable (speed_ : (readSpeed speed).isSome) (moves : delta ≠ 0)
include speed_ moves

theorem jog_fields : firstFault [(0, (readAxis axis).isSome), (1, (delta ≠ 0 : Bool)), (5, (readSpeed speed).isSome),
    (6, (readFlag 0).isSome)] = none := by
  rw [axis_, decide_eq_true moves, speed_]
  rfl

theorem execJog_far (h : Listens s) (far : 65535 < delta.toInt.natAbs) :
    execJog p axis delta speed 0 s = .next (answered s p 0x03 .outOfRange (s.writeReply .none .none)) :=
  request_refused h (jog_fields axis_ speed_ moves) (by simp; omega)

/-- An unconditional JOG whose fields are well encoded is judged as its write (R8). -/
theorem execJog_eq (h : Listens s) (near : delta.toInt.natAbs ≤ 65535) :
    execJog p axis delta speed 0 s =
      let r := s.write p false (jogWrite p a delta speed s)
      .next (answered r.1 p 0x03 r.2.status r.2.body) := by
  have unconditional : decide (readFlag 0 = some true) = false := rfl
  rw [execJog, request_passed h (jog_fields axis_ speed_ moves) (by simp [near]), axis_, unconditional]
  rfl

end

/-- A JOG always appends its entry, and is CLAMPED when its target is not the one asked for. -/
theorem jogWrite_action {w : Write} {p : Port} {a : Axis} {delta : Word32} {speed : Byte} {s : State}
    (hw : w = jogWrite p a delta speed s) : w.action s a = .appended := by
  have aims := jogWrite_aims p a delta speed s
  rw [hw, aims.action]
  rfl

theorem jogWrite_status {w : Write} {p : Port} {a : Axis} {delta : Word32} {speed : Byte} {s : State}
    (hw : w = jogWrite p a delta speed s) :
    (if w.clamped then .clamped else if w.action s a = .none then .ok else .accepted : Status) =
      if (s.axis a).clampJog (s.drain a + delta.toInt) = s.drain a + delta.toInt then .accepted else .clamped := by
  rw [jogWrite_action hw, hw]
  by_cases at_ : (s.axis a).clampJog (s.drain a + delta.toInt) = s.drain a + delta.toInt <;> simp [jogWrite, at_]

/-- Settles O18: the refusals, then the entry on an axis that moves, and on an IDLE one away from its target and at it. -/
theorem jogAppendsAMove : Obligations.JogAppendsAMove := by
  refine ⟨?_, ?_⟩
  · intro p axis a delta speed s h axis_ speed_ moves near refused
    have aims := jogWrite_aims p a delta speed s
    have given : ((jogWrite p a delta speed s).target a).isSome = true := by rw [aims.target]; rfl
    have answer : ∀ status, firstFail ((jogWrite p a delta speed s).checks s) = some status → refused status :=
      fun status checks => (execJog_eq axis_ speed_ moves h near).trans (by rw [State.write_refused checks])
    refine ⟨fun hot => ?_, fun run busy => ?_, fun run noHome fault => ?_⟩
    · exact answer _ (Write.checks_thermalHold ⟨a, given⟩ hot)
    · exact answer _ (Write.checks_busy run ⟨a, given, busy⟩)
    · refine answer _ (Write.checks_faulted run (fun b hb => ?_) ⟨a, given, fault⟩)
      obtain rfl := aims.eq_of_isSome hb
      exact ⟨by simp [fault, Motion.mode], noHome⟩
  · intro p axis a delta speed class_ s h heads run axis_ speed_ x asked target status entry c
    have speed' : (readSpeed speed).isSome = true := by rw [speed_]; rfl
    refine ⟨fun zero => ?_, fun far => ⟨_, execJog_far axis_ speed' (fun zero => ?_) h far⟩, fun moves near noHome => ?_⟩
    · simp only [c, zero]
      exact execJog_zero axis_ h
    · rw [zero] at far
      exact absurd far (by decide)
    obtain ⟨w, hw⟩ : ∃ w, w = jogWrite p a delta speed s := ⟨_, rfl⟩
    have aims : w.Aims s a target := hw ▸ jogWrite_aims p a delta speed s
    have appended := jogWrite_action hw
    have status_ : (if w.clamped then .clamped else if w.action s a = .none then .ok else .accepted : Status) = status :=
      jogWrite_status hw
    have relative : w.kind = .relative := by rw [hw]; rfl
    have entry_ : w.entry target = entry := by rw [hw]; simp [Write.entry, jogWrite, speed_, entry]
    have judged := execJog_eq (p := p) axis_ speed' moves h near
    rw [← hw] at judged
    have passes : x.motion.mode ≠ .homing → x.motion ≠ .fault → x.queue.length < 4 → firstFail (w.checks s) = none :=
      fun mode fault room => aims.checks_none run mode noHome fault (.inl relative) fun _ => room
    refine ⟨fun moving => ?_, fun idle away => ?_, fun idle at_ => ?_⟩
    · have mode : x.motion.mode ≠ .homing := by rcases moving with hm | hm <;> simp [hm]
      have fault : x.motion ≠ .fault := by rintro hm; rcases moving with hm' | hm' <;> simp [hm, Motion.mode] at hm'
      have idle : x.motion ≠ .idle := by rintro hm; rcases moving with hm' | hm' <;> simp [hm, Motion.mode] at hm'
      refine ⟨fun room => ?_, fun full => ?_⟩
      · obtain ⟨body, written⟩ := aims.accepted heads (passes mode fault room) p
        rw [aims.outcome_of_moving idle, status_, appended, entry_] at written
        exact ⟨body, judged.trans (by rw [written]; rfl)⟩
      · have each : ∀ b, (w.target b).isSome = true → b = a := fun b => aims.eq_of_isSome
        have checks := Write.checks_queueFull run (fun b hb => each b hb ▸ ⟨mode, noHome⟩) (fun b hb => each b hb ▸ fault)
          (.inl relative) ⟨a, appended, full⟩
        exact ⟨_, judged.trans (by rw [State.write_refused checks])⟩
    · have empty : x.queue = [] := heads a idle
      have checks := passes (by simp [idle, Motion.mode]) (by simp [idle]) (by simp [empty])
      obtain ⟨l, plan⟩ := Option.ne_none_iff_exists'.mp
        (mt (AxisEnv.planLeg_eq_none_iff (s.axisEnv a) x (w.entry target) 1).mp away.symm)
      obtain ⟨body, written⟩ := aims.accepted heads checks p
      rw [aims.outcome_of_plan heads run idle appended plan, status_, entry_] at written
      rw [entry_] at plan
      obtain ⟨number, issued, length, final⟩ := AxisEnv.planLeg_leads plan
      exact ⟨l, body, judged.trans (by rw [written]; rfl), plan, number, issued, length, final⟩
    · have empty : x.queue = [] := heads a idle
      have checks := passes (by simp [idle, Motion.mode]) (by simp [idle]) (by simp [empty])
      obtain ⟨body, written⟩ := aims.accepted heads checks p
      rw [aims.outcome_of_arrived heads run idle appended at_, status_] at written
      exact ⟨body, judged.trans (by rw [written]; rfl)⟩

end Sys2Proof.Machine
end

