-- ==== Sys2Proof/Proofs/Triggers.lean ====
section
/-! PROOFS. What a recompute trigger does to the GE (R85), what raising events that both processors hear does to the ports
(R173, R174), and the recall of a preset (R19). -/

namespace Sys2Proof.Machine

/-! ### A recompute trigger (R85) -/

@[simp] theorem State.recompute_geoInputs (s : State) : s.recompute.geoInputs = s.geoInputs := by
  unfold State.recompute State.startComputation
  split <;> rfl

/-- With a computation under way it sets the pending mark. -/
theorem State.recompute_ge_of_inFlight {s : State} (h : s.ge.inFlight.isSome = true) :
    s.recompute.ge = { s.ge with pendingMark := true } := by
  obtain ⟨c, hc⟩ := Option.isSome_iff_exists.mp h
  simp [State.recompute, hc]

/-- With none it starts one, which latches its inputs as they stand. -/
theorem State.recompute_ge_of_none {s : State} (h : s.ge.inFlight = none) :
    s.recompute.ge =
      { s.ge with inFlight := some ⟨s.geoInputs, s.ge.attachMark⟩, refV := s.lmc.v.position, refH := s.lmc.h.position,
                  attachMark := false } := by
  simp [State.recompute, h, State.startComputation]

/-! ### Events that both processors hear (R174) -/

/-- An event is routed to both processors. -/
def Event.Shared (e : Event) : Prop := ∀ p, routed p e.kind = true

theorem State.raiseAll_cpi_of_shared {s : State} {es : List Event} (h : ∀ e ∈ es, e.Shared) :
    (s.raiseAll es).cpi = { s.cpi with port := { s.cpi.port with events := raisedTo es s.cpi.port.events } } := by
  induction es generalizing s with
  | nil => rfl
  | cons e es ih =>
    obtain ⟨he, hes⟩ := List.forall_mem_cons.mp h
    rw [State.raiseAll_cons, ih hes]
    simp [State.raise, PortState.place, he .control]

theorem State.raiseAll_fpi_of_shared {s : State} {es : List Event} (h : ∀ e ∈ es, e.Shared) :
    (s.raiseAll es).fpi = { s.fpi with port := { s.fpi.port with events := raisedTo es s.fpi.port.events } } := by
  induction es generalizing s with
  | nil => rfl
  | cons e es ih =>
    obtain ⟨he, hes⟩ := List.forall_mem_cons.mp h
    rw [State.raiseAll_cons, ih hes]
    simp [State.raise, PortState.place, he .frame]

theorem shared_installChanged (g : Word16) (o : Originator) : (Event.installChanged g o).Shared := fun p => by cases p <;> rfl
theorem shared_lensDone (a : Axis) (x : Int) (r : DoneReason) : (Event.lensDone a x r).Shared := fun p => by cases p <;> rfl
theorem shared_homeFail (a : Axis) (x : Int) (c : HomeCause) : (Event.homeFail a x c).Shared := fun p => by cases p <;> rfl
theorem shared_trip (c : TripCause) (z : Source) (t : Option Int) : (Event.trip c z t).Shared := fun p => by cases p <;> rfl
theorem shared_lightState (n o : Session) (c : SessionCause) : (Event.lightState n o c).Shared := fun p => by cases p <;> rfl

/-- An installation change reaches both event sets, and of the rest of the part the record alone. -/
theorem changed_cpi (s : State) (r : Irm) (o : Originator) :
    (changed s r o).cpi =
      { s.cpi with port := { s.cpi.port with
        events := placeEvent (.installChanged (s.irm.generation + 1) o) s.cpi.port.events } } := rfl

theorem changed_fpi (s : State) (r : Irm) (o : Originator) :
    (changed s r o).fpi =
      { s.fpi with port := { s.fpi.port with
        events := placeEvent (.installChanged (s.irm.generation + 1) o) s.fpi.port.events } } := rfl

/-! ### The recall of a preset (R19) -/

section
variable {slot speed : Byte} {s : State} (h : Listens s) (slot_ : slot.toNat < 8)
include h slot_

variable (speed_ : (readSpeed speed).isSome)
include speed_

theorem execRecallPreset_empty (empty : s.irm.preset slot = none) :
    execRecallPreset .control slot speed 0 s =
      .next (answered s .control 0x29 .empty (s.writeReply .none .none)) :=
  request_refused h (by rw [speed_]; rfl) (by simp [controlOnly, slotFits, slot_, empty])

theorem execRecallPreset_eq {x : Preset} (filled : s.irm.preset slot = some x) :
    execRecallPreset .control slot speed 0 s =
      let r := s.write .control false (recallWrite x speed s)
      .next (answered r.1 .control 0x29 r.2.status r.2.body) := by
  have unconditional : decide (readFlag 0 = some true) = false := rfl
  rw [execRecallPreset, request_passed h (by rw [speed_]; rfl) (by simp [controlOnly, slotFits, slot_, filled]), filled,
    unconditional]

end

theorem State.setSlot_cpi_of_control (s : State) (x : Slot) :
    (s.setSlot .control x).cpi = { s.cpi with port := { s.cpi.port with slot := x } } := rfl

@[simp] theorem State.setSlot_geoInputs (s : State) (p : Port) (x : Slot) : (s.setSlot p x).geoInputs = s.geoInputs := by
  cases p <;> rfl

@[simp] theorem State.setSlot_axis (s : State) (p : Port) (x : Slot) (a : Axis) : (s.setSlot p x).axis a = s.axis a := by
  simp [State.axis]

@[simp] theorem State.recomputeIf_axis (s : State) (b : Bool) (a : Axis) : (s.recomputeIf b).axis a = s.axis a := by
  simp [State.axis]

/-- A recall gives both axes a target. -/
theorem recallWrite_isSome (x : Preset) (speed : Byte) (s : State) (a : Axis) :
    ((recallWrite x speed s).target a).isSome = true := by cases a <;> rfl

/-- Two IDLE, HOMED axes take the targets of a recall: one stays where it stands at its own, one away from it starts. -/
theorem recallWrite_after {x : Preset} {speed : Byte} {class_ : SpeedClass} {s : State} {a : Axis} {t : Int}
    (speed_ : readSpeed speed = some class_) (heads : HeadsStarted s) (hm : (s.axis a).motion = .idle)
    (target : (recallWrite x speed s).target a = some t) :
    (recallWrite x speed s).action s a = (if t = (s.axis a).position then .none else .appended) ∧
    (t = (s.axis a).position → (recallWrite x speed s).after s a = s.axis a) ∧
    (t ≠ (s.axis a).position → ∃ l : Leg,
      (recallWrite x speed s).after s a =
        { (s.axis a).atLeg s.now l with queue := [⟨.absolute, .preset, t, class_, true⟩] } ∧
      (s.axisEnv a).planLeg (s.axis a) ⟨.absolute, .preset, t, class_, false⟩ 1 = some l) := by
  have entry : (recallWrite x speed s).entry t = ⟨.absolute, .preset, t, class_, false⟩ := by
    simp [Write.entry, recallWrite, speed_]
  have action : (recallWrite x speed s).action s a = if t = (s.axis a).position then .none else .appended := by
    simp only [Write.action, target]
    rw [show (recallWrite x speed s).kind = .absolute from rfl, AxisState.placing_of_nil (heads a hm),
      AxisState.drain_of_idle hm, heads a hm, lastTarget_nil]
  have env : (recallWrite x speed s).env s a = s.axisEnv a := rfl
  refine ⟨action, fun at_ => ?_, fun away => ?_⟩
  · simp [Write.after, target, action, at_]
  · obtain ⟨l, plan⟩ := Option.ne_none_iff_exists'.mp
      (mt (AxisEnv.planLeg_eq_none_iff (s.axisEnv a) (s.axis a) ⟨.absolute, .preset, t, class_, false⟩ 1).mp away.symm)
    refine ⟨l, ?_, plan⟩
    simp only [Write.after, target, action, if_neg away, hm, env, entry, plan]

/-- Settles O20. -/
theorem recallPreset : Obligations.RecallPreset := by
  intro slot speed class_ s h slot_ speed_
  have speed' : (readSpeed speed).isSome = true := by rw [speed_]; rfl
  refine ⟨fun empty => ⟨_, execRecallPreset_empty h slot_ speed' empty⟩, fun x filled => ?_⟩
  obtain ⟨w, hw⟩ : ∃ w, w = recallWrite x speed s := ⟨_, rfl⟩
  have judged := execRecallPreset_eq h slot_ speed' filled
  rw [← hw] at judged
  have given : ∀ a, (w.target a).isSome = true := fun a => hw ▸ recallWrite_isSome x speed s a
  have absolute : w.kind = .absolute := by rw [hw]; rfl
  have answer : ∀ status, firstFail (w.checks s) = some status →
      execRecallPreset .control slot speed 0 s = .next (answered s .control 0x29 status (s.writeReply .none .none)) :=
    fun status checks => judged.trans (by rw [State.write_refused checks])
  have calm : (¬ ∃ a : Axis, (s.axis a).motion.mode = .homing ∨ (s.axis a).pendingHome = true) →
      ∀ a, (w.target a).isSome = true → (s.axis a).motion.mode ≠ .homing ∧ (s.axis a).pendingHome = false :=
    fun hb a _ => by simpa using not_exists.mp hb a
  refine ⟨fun hot => ⟨_, answer _ (Write.checks_thermalHold ⟨.v, given .v⟩ hot)⟩, ?_, fun run idle => ?_⟩
  · intro refused busy run
    refine ⟨fun ⟨a, ha⟩ => ?_, fun hb ⟨a, ha⟩ => ?_, fun hb hf ⟨a, ha⟩ => ?_⟩
    · exact answer _ (Write.checks_busy run ⟨a, given a, ha⟩)
    · exact answer _ (Write.checks_faulted run (calm hb) ⟨a, given a, ha⟩)
    · exact answer _ (Write.checks_notHomed run (calm hb) (fun a _ => hf a) absolute ⟨a, given a, ha⟩)
  have free : ∀ a, (w.target a).isSome = true → (s.axis a).motion.mode ≠ .homing ∧ (s.axis a).pendingHome = false :=
    fun a _ => by obtain ⟨hm, -, noHome⟩ := idle a; exact ⟨by simp [hm, Motion.mode], noHome⟩
  have noFault : ∀ a, (w.target a).isSome = true → (s.axis a).motion ≠ .fault := fun a _ => by simp [(idle a).1]
  refine ⟨fun unhomed => ?_, ?_⟩
  · refine ⟨_, answer _ (Write.checks_notHomed run free noFault absolute ?_)⟩
    rcases unhomed with hn | hn
    · exact ⟨.v, given .v, hn⟩
    · exact ⟨.h, given .h, hn⟩
  intro homedV homedH v k want action changes
  have heads : HeadsStarted s := fun a _ => (idle a).2.1
  have homed : ∀ a, (s.axis a).trust = .homed := fun a => by cases a; exacts [homedV, homedH]
  have target : ∀ a, w.target a = some (want a) := fun a => by
    rw [hw]
    cases a with
    | v => exact congrArg some (AxisState.clampTarget_of_homed homedV _)
    | h => exact congrArg some (AxisState.clampTarget_of_homed homedH _)
  have checks : firstFail (w.checks s) = none :=
    Write.checks_none run free noFault (.inr fun a _ => homed a) fun a _ => by simp [(idle a).2.1]
  have after := fun a => recallWrite_after speed_ heads (idle a).1 (hw ▸ target a)
  rw [← hw] at after
  have action_ : ∀ a, w.action s a = action a := fun a => (after a).1
  have record : w.record s.irm =
      { s.irm with targetV := v, targetH := k, kv := (x.keystone.map Prod.fst).getD s.irm.kv,
                   kh := (x.keystone.map Prod.snd).getD s.irm.kh } := by
    rw [← show (w.v.getD s.irm.targetV) = v from congrArg (Option.getD · _) (target .v),
      ← show (w.h.getD s.irm.targetH) = k from congrArg (Option.getD · _) (target .h), hw]
    rfl
  have clamped : w.clamped = true ↔ v ≠ x.targetV ∨ k ≠ x.targetH := by
    rw [hw]
    simp only [recallWrite, AxisState.clampTarget_of_homed homedV, AxisState.clampTarget_of_homed homedH, Bool.or_eq_true,
      decide_eq_true_eq]
    rfl
  have status : w.status s = if v ≠ x.targetV ∨ k ≠ x.targetH then .clamped
      else if v = s.lmc.v.position ∧ k = s.lmc.h.position then .ok else .accepted := by
    have none_ : ∀ a, action a = .none ↔ want a = (s.axis a).position := fun a => by simp [action]
    simp only [Write.status, clamped, action_, none_]
    rfl
  have triggers : w.triggers s.irm = true ↔
      (x.keystone.map Prod.fst).getD s.irm.kv ≠ s.irm.kv ∨ (x.keystone.map Prod.snd).getD s.irm.kh ≠ s.irm.kh := by
    simp [Write.triggers, record]
  have written := State.write_absolute absolute heads checks .control
  dsimp only at written
  rw [written, action_, action_, status, record] at judged
  have stands : ∀ a, (w.after s a).position = (s.axis a).position := fun a => by
    by_cases at_ : want a = (s.axis a).position
    · rw [(after a).2.1 at_]
    · obtain ⟨l, axis_, -⟩ := (after a).2.2 at_
      rw [axis_]
  obtain ⟨u, hu⟩ : ∃ u, u = changed { s with lmc := ⟨w.after s .v, w.after s .h⟩ }
      { s.irm with targetV := v, targetH := k, kv := (x.keystone.map Prod.fst).getD s.irm.kv,
                   kh := (x.keystone.map Prod.snd).getD s.irm.kh } .control := ⟨_, rfl⟩
  have axis_ : ∀ a, u.axis a = w.after s a := fun a => by rw [hu]; cases a <;> rfl
  have ge : u.ge = s.ge := by rw [hu]; rfl
  have irm : u.irm.kv = (x.keystone.map Prod.fst).getD s.irm.kv ∧ u.irm.kh = (x.keystone.map Prod.snd).getD s.irm.kh := by
    rw [hu]; exact ⟨rfl, rfl⟩
  rw [show portOriginator .control = .control from rfl, ← hu] at judged
  refine ⟨_, judged, ?_, ?_, fun a at_ => ?_, fun a away => ?_, ?_, ?_, ?_, ?_, ?_, ?_, ?_, ?_, ?_⟩
  · simp [State.writeReply]
  · rw [State.setSlot_irm, State.recomputeIf_irm, hu]
    rfl
  · simpa only [State.setSlot_axis, State.recomputeIf_axis, axis_] using (after a).2.1 at_
  · obtain ⟨l, started, plan⟩ := (after a).2.2 away
    obtain ⟨number, issued, -, final⟩ := AxisEnv.planLeg_leads plan
    exact ⟨l, by simpa only [State.setSlot_axis, State.recomputeIf_axis, axis_] using started, plan, number, issued, final⟩
  · rw [State.setSlot_cpi_of_control, State.recomputeIf_cpi, hu]
    rfl
  · rw [State.setSlot_control_fpi, State.recomputeIf_fpi, hu]
    rfl
  · simp [hu]
  · simp [hu]
  · simp [hu]
  · simp [hu]
  · simp [hu]
  · simp only [State.setSlot_irm, State.recomputeIf_irm, State.setSlot_ge, irm]
    intro kv kh
    have still : w.triggers s.irm = false := eq_false_of_ne_true (mt triggers.mp (by simp [kv, kh]))
    rw [still, State.recomputeIf_false, ge]
  · simp only [State.setSlot_irm, State.recomputeIf_irm, State.setSlot_ge, irm]
    intro turns
    rw [triggers.mpr turns, State.recomputeIf_true]
    refine ⟨fun busy => ?_, fun free => ?_⟩
    · rw [State.recompute_ge_of_inFlight (by rwa [ge]), ge]
    · have refV : u.lmc.v.position = s.lmc.v.position := by rw [show u.lmc.v = _ from axis_ .v, stands]; rfl
      have refH : u.lmc.h.position = s.lmc.h.position := by rw [show u.lmc.h = _ from axis_ .h, stands]; rfl
      rw [State.recompute_ge_of_none (by rwa [ge]), ge, refV, refH]
      simp

end Sys2Proof.Machine
end

