-- ==== Sys2Proof/Proofs/Halts.lean ====
section
/-! PROOFS. The halt of the axes, for the trip and RESTART (R38, R43), and what RESTART leaves (R178). -/

namespace Sys2Proof.Machine

theorem AxisState.enterHold_eq_holding (env : AxisEnv) (x : AxisState) : x.enterHold env = x.holding env.now := by
  unfold AxisState.enterHold AxisState.holding
  split <;> rfl

theorem AxisState.haltTrust_eq (x : AxisState) : x.haltTrust = if x.motion.mode = .homing then .unhomed else .unsure := by
  cases h : x.motion <;> simp [AxisState.haltTrust, h, Motion.mode]

section
variable (env : AxisEnv) (x : AxisState) (reason : DoneReason)

/-- The axis that is not moving loses its queue and nothing else. -/
theorem AxisState.halt_of_still (h : x.moving = false) : x.halt env reason = { axis := { x with queue := [] } } :=
  if_neg (by simp [h])

theorem AxisState.halt_events : (x.halt env reason).events = x.haltEvents env.axis reason := by
  unfold AxisState.halt AxisState.haltEvents
  split <;> rfl

theorem AxisState.halt_change : (x.halt env reason).change = present x.moving x.position := by
  unfold AxisState.halt
  cases x.moving <;> rfl

theorem AxisState.halt_trigger : (x.halt env reason).trigger = x.moving := by
  unfold AxisState.halt
  cases x.moving <;> rfl

@[simp] theorem AxisState.halt_later : (x.halt env reason).later = [] := by
  unfold AxisState.halt
  cases x.moving <;> rfl

@[simp] theorem AxisState.halt_position : (x.halt env reason).axis.position = x.position := (x.halt_rest env reason).2

/-- RESTART leaves a moving axis in HOLD (R43). -/
theorem AxisState.halt_restart_of_moving (h : x.moving = true) :
    (x.halt env .restart).axis =
      { x with
        motion := .idle, stepTimer := none, queue := [], pendingHome := false,
        trust := if x.motion.mode = .homing then .unhomed else .unsure,
        phase := if x.params.tHold = 0 then .rest else .hold,
        holdTimer := if x.params.tHold = 0 then none else some (env.now + 1000 * x.params.tHold) } := by
  rw [AxisState.halt, if_pos h]
  simp only [AxisState.enterHold_eq_holding, AxisState.haltTrust_eq]

/-- The trip leaves a moving axis in REST (R38). -/
theorem AxisState.halt_trip_of_moving (h : x.moving = true) :
    (x.halt env .trip).axis =
      { x with
        motion := .idle, phase := .rest, queue := [], stepTimer := none, holdTimer := none, pendingHome := false,
        trust := if x.motion.mode = .homing then .unhomed else .unsure } := by
  rw [AxisState.halt, if_pos h]
  simp only [AxisState.haltTrust_eq]

/-- The events of a halt reach both processors. -/
theorem AxisState.haltEvents_shared (a : Axis) : ∀ e ∈ x.haltEvents a reason, e.Shared := by
  intro e he
  have he' : x.moving = true ∧
      (e = .lensDone a x.position reason ∨ x.pendingHome = true ∧ e = .homeFail a x.position .cancelled) := by
    simpa [AxisState.haltEvents] using he
  obtain ⟨-, rfl | ⟨-, rfl⟩⟩ := he'
  · exact shared_lensDone _ _ _
  · exact shared_homeFail _ _ _

end

/-! ### RESTART (R178) -/

/-- The state whose ports, load and reservations RESTART has cleared, before its halt. -/
def State.cleared (s : State) : State :=
  { s with cpi := { s.cpi with port := { s.cpi.port with events := [] }, load := none },
           fpi := { s.fpi with port := { s.fpi.port with events := [], slot := .empty } },
           irm := { s.irm with reserveControl := none, reserveFrame := none } }

/-- An axis that RESTART has halted, its edge flags clear (R43, R54). -/
def State.restarted (s : State) (a : Axis) : AxisState := ((s.axis a).halt (s.cleared.axisEnv a) .restart).axis.clearFlags

/-- The events of RESTART's halt. -/
def State.restartEvents (s : State) : List Event := s.lmc.v.haltEvents .v .restart ++ s.lmc.h.haltEvents .h .restart

/-- A change of both targets is one installation change (R14). -/
theorem State.partChange_both (s : State) (v h : Int) :
    s.partChange (some v) (some h) = changed s { s.irm with targetV := v, targetH := h } .part := rfl

theorem State.restart_eq (s : State) :
    s.restart =
      (changed (State.raiseAll { s.cleared with lmc := ⟨s.restarted .v, s.restarted .h⟩ } s.restartEvents)
        { s.cleared.irm with targetV := s.lmc.v.position, targetH := s.lmc.h.position } .part).recompute := by
  have events : (s.lmc.v.halt (s.cleared.axisEnv .v) .restart).events ++ (s.lmc.h.halt (s.cleared.axisEnv .h) .restart).events =
      s.restartEvents := by
    rw [AxisState.halt_events, AxisState.halt_events]
    rfl
  have v : (s.restarted .v).position = s.lmc.v.position := AxisState.halt_position ..
  have h : (s.restarted .h).position = s.lmc.h.position := AxisState.halt_position ..
  have halted : s.cleared.restartHalt.1 =
      State.raiseAll { s.cleared with lmc := ⟨s.restarted .v, s.restarted .h⟩ } s.restartEvents := by
    rw [← events]
    rfl
  have lmc := congrArg State.lmc halted
  rw [State.raiseAll_lmc] at lmc
  change ((s.cleared.restartHalt.1).partChange (some s.cleared.restartHalt.1.lmc.v.position)
    (some s.cleared.restartHalt.1.lmc.h.position)).recompute = _
  rw [lmc, v, h, halted, State.partChange_both, State.raiseAll_irm]

theorem execRestart_eq {s : State} (h : Listens s) :
    execRestart .control s = .next (answered s.restart .control 0x7F .ok s.restart.restartReply) := by
  rw [execRestart]
  exact request_passed h

/-- Settles O12. -/
theorem restart : Obligations.Restart := by
  intro s h
  have judged := execRestart_eq h
  rw [State.restart_eq] at judged
  have shared : ∀ e ∈ s.restartEvents, e.Shared := fun e he =>
    (List.mem_append.mp he).elim (AxisState.haltEvents_shared _ _ _ e) (AxisState.haltEvents_shared _ _ _ e)
  obtain ⟨r, hr⟩ : ∃ r, r = State.raiseAll { s.cleared with lmc := ⟨s.restarted .v, s.restarted .h⟩ } s.restartEvents :=
    ⟨_, rfl⟩
  have cpi : r.cpi = { s.cpi with load := none, port := { s.cpi.port with events := raisedTo s.restartEvents [] } } := by
    rw [hr, State.raiseAll_cpi_of_shared shared]
    rfl
  have fpi : r.fpi =
      { s.fpi with port := { s.fpi.port with events := raisedTo s.restartEvents [], slot := .empty } } := by
    rw [hr, State.raiseAll_fpi_of_shared shared]
    rfl
  have irm : r.irm = { s.irm with reserveControl := none, reserveFrame := none } := by
    rw [hr, State.raiseAll_irm]
    rfl
  have lmc : r.lmc = ⟨s.restarted .v, s.restarted .h⟩ := by rw [hr, State.raiseAll_lmc]
  have ge : r.ge = s.ge := by
    rw [hr, State.raiseAll_ge]
    rfl
  rw [← hr] at judged
  obtain ⟨u, hu⟩ : ∃ u, u = changed r { s.cleared.irm with targetV := s.lmc.v.position, targetH := s.lmc.h.position } .part :=
    ⟨_, rfl⟩
  have lmc_ : u.lmc = ⟨s.restarted .v, s.restarted .h⟩ := by rw [hu, ← lmc]; rfl
  have ge_ : u.ge = s.ge := by rw [hu, ← ge]; rfl
  rw [← hu] at judged
  refine ⟨_, judged, ?_, ⟨u.recompute.restartReply, ?_⟩, ?_, fun a => ?_, ?_, fun busy => ?_, fun free => ?_, ?_, ?_, ?_, ?_, ?_⟩
  · rw [State.setSlot_irm, State.recompute_irm, hu, changed, irm]
    rfl
  · rw [State.setSlot_cpi_of_control, State.recompute_cpi, hu, changed_cpi, cpi]
  · rw [State.setSlot_control_fpi, State.recompute_fpi, hu, changed_fpi, fpi]
  · have axis_ : (answered u.recompute .control 0x7F .ok u.recompute.restartReply).axis a = s.restarted a := by
      rw [State.setSlot_axis]
      simp only [State.axis, State.recompute_lmc, lmc_]
      cases a <;> rfl
    rw [axis_, State.restarted]
    refine ⟨fun still => ?_, fun moving => ?_⟩
    · rw [AxisState.halt_of_still _ _ _ still]
      rfl
    · rw [AxisState.halt_restart_of_moving _ _ moving]
      rfl
  · intro raised
    have append : raisedTo raised [] =
        placeEvent (.installChanged (s.irm.generation + 1) .part) (raisedTo s.restartEvents []) := List.foldl_append ..
    rw [State.setSlot_cpi_of_control, State.setSlot_control_fpi, State.recompute_cpi, State.recompute_fpi, hu, changed_cpi,
      changed_fpi, cpi, fpi, irm, append]
    exact ⟨rfl, rfl⟩
  · rw [State.setSlot_ge, State.recompute_ge_of_inFlight (by rwa [ge_]), ge_]
  · rw [State.setSlot_ge, State.recompute_ge_of_none (by rwa [ge_]), ge_, State.setSlot_geoInputs, State.recompute_geoInputs, lmc_,
      show (s.restarted .v).position = s.lmc.v.position from AxisState.halt_position ..,
      show (s.restarted .h).position = s.lmc.h.position from AxisState.halt_position ..]
  all_goals simp [hu, hr, State.cleared]

end Sys2Proof.Machine
end

