-- ==== Sys2Proof/Proofs/Stops.lean ====
section
/-! PROOFS. The decelerating stop of an axis (R35, R36), the events that stop both axes, and ABORT_MOTION (R34). -/

namespace Sys2Proof.Machine

/-! ### The length of a homing run's stop (R35) -/

/-- The numbers below n that satisfy a predicate which is closed downwards are the first ones. -/
theorem lt_length_filter_range {p : Nat → Bool} (down : ∀ i j, i ≤ j → p j = true → p i = true) (n : Nat) :
    ((List.range n).filter p).length ≤ n ∧ ∀ j < n, (j < ((List.range n).filter p).length ↔ p j = true) := by
  induction n with
  | zero => simp
  | succ n ih =>
    obtain ⟨most, each⟩ := ih
    rw [List.range_succ, List.filter_append, List.length_append]
    cases hn : p n with
    | true =>
      have all : ((List.range n).filter p).length = n := by
        by_contra less
        have := (each _ (by omega)).mpr (down _ n most hn)
        omega
      simp only [all, List.filter_cons, hn, if_true, List.filter_nil, List.length_singleton, Nat.le_refl, true_and]
      exact fun j hj => ⟨fun _ => down j n (by omega) hn, fun _ => hj⟩
    | false =>
      simp only [List.filter_cons, hn, List.filter_nil, List.length_nil, Nat.add_zero, Bool.false_eq_true, if_false]
      refine ⟨by omega, fun j hj => ?_⟩
      rcases Nat.lt_succ_iff_lt_or_eq.mp hj with hj | rfl
      · exact each j hj
      · simp [hn]; omega

/-- The ramp gets no slower from index to index (R30). -/
theorem AxisParams.rampPeriod_antitone (x : AxisParams) (pRun : Nat) {i j : Nat} (h : i ≤ j) :
    x.rampPeriod pRun j ≤ x.rampPeriod pRun i :=
  Nat.sub_le_sub_left (Nat.div_le_div_right (Nat.mul_le_mul_right _ h)) _

theorem AxisParams.homingStopSteps_spec (x : AxisParams) :
    x.homingStopSteps ≤ x.nRamp ∧
      ∀ j < x.nRamp, (j < x.homingStopSteps ↔ x.pHome < x.pStart - j * (x.pStart - x.pRunNormal) / x.nRamp) := by
  have down : ∀ i j, i ≤ j → decide (x.pHome < x.rampPeriod x.pRunNormal j) = true →
      decide (x.pHome < x.rampPeriod x.pRunNormal i) = true := fun i j hij hj => by
    have := x.rampPeriod_antitone x.pRunNormal hij
    simp only [decide_eq_true_eq] at hj ⊢
    omega
  obtain ⟨most, each⟩ := lt_length_filter_range down x.nRamp
  exact ⟨most, fun j hj => (each j hj).trans decide_eq_true_iff⟩

theorem homingStopSteps_default_v : (AxisParams.default .v).homingStopSteps = 183 := by
  obtain ⟨-, each⟩ := (AxisParams.default .v).homingStopSteps_spec
  have below := (each 182 (by decide)).mpr (by decide)
  have above := mt (each 183 (by decide)).mp (by decide)
  omega

/-! ### A stop begins and ends (R35, R36) -/

/-- An axis that has begun a stop, its end not yet looked at. -/
def AxisState.slowing (x : AxisState) (st : Stop) : AxisState :=
  { x with flagLo := false, flagHi := false, trust := if st.abandoned then .unhomed else x.trust, motion := .stopping st,
           queue := if st.abandoned then [] else (x.queue.take 1).map fun e => { e with target := st.position },
           stepTimer :=
             if st.remaining = 0 then none else some (x.lastStepAt + x.params.rampPeriod st.pRun (st.remaining - 1)) }

/-- A stop that begins without a change of trust. -/
theorem AxisState.stopAfter_of_fits {env : AxisEnv} {x : AxisState} {r : Nat} {d : Dir} {pRun : Nat} {reason : DoneReason}
    {abandoned : Bool} (fits : fitsCount (x.position + d.sign * r) = true) (trust : abandoned = true → x.trust = .unhomed) :
    x.stopAfter env r d pRun reason abandoned =
      { axis := x.slowing ⟨x.position + d.sign * r, r, d, reason, pRun, abandoned⟩,
        change := some (x.position + d.sign * r) } := by
  have trust_ : (if abandoned = true then .unhomed else x.trust) = x.trust := by split <;> simp_all
  simp only [AxisState.stopAfter, AxisState.countTo_of_fits fits, AxisState.slowing, AxisState.clearFlags, trust_]

/-- What the beginning of a stop does at once: nothing when there is none to begin. -/
def AxisState.stopOut (x : AxisState) : Option Stop → LensOut
  | some st => { axis := x.slowing st, change := some st.position,
                 trigger := x.trust != if st.abandoned then .unhomed else x.trust }
  | none => { axis := x }

@[simp] theorem AxisState.stopOut_later (x : AxisState) (st : Option Stop) : (x.stopOut st).later = [] := by cases st <;> rfl
@[simp] theorem AxisState.stopOut_events (x : AxisState) (st : Option Stop) : (x.stopOut st).events = [] := by cases st <;> rfl
@[simp] theorem AxisState.stopOut_change (x : AxisState) (st : Option Stop) : (x.stopOut st).change = st.map Stop.position := by
  cases st <;> rfl

theorem AxisState.beginStop_eq {env : AxisEnv} {x : AxisState} {reason : DoneReason}
    (fits : ∀ st, x.stopOf reason = some st → fitsCount st.position = true) :
    x.beginStop env reason = x.stopOut (x.stopOf reason) := by
  unfold AxisState.beginStop AxisState.stopOf at *
  cases hm : x.motion with
  | running l =>
    simp only [hm] at fits
    refine Eq.trans (AxisState.stopAfter_of_fits (abandoned := false) (fits _ rfl) nofun) ?_
    simp only [AxisState.stopOut, Bool.false_eq_true, if_false, bne_self_eq_false]
    rfl
  | homing run =>
    simp only [hm] at fits
    have began := AxisState.stopAfter_of_fits (env := env) (x := { x with trust := .unhomed }) (pRun := x.params.pRunNormal)
      (reason := reason) (abandoned := true) (fits _ rfl) fun _ => rfl
    simp only [AxisState.setTrust, began]
    rfl
  | idle => rfl
  | stopping st => rfl
  | fault => rfl

/-- The stop of an axis is of the reason asked for, and its position is where its microsteps lead. -/
theorem AxisState.stopOf_leads {x : AxisState} {reason : DoneReason} {st : Stop} (h : x.stopOf reason = some st) :
    st.reason = reason ∧ st.position = x.position + st.dir.sign * st.remaining := by
  cases hm : x.motion with
  | running l =>
    obtain rfl : _ = st := Option.some.inj (by simpa only [AxisState.stopOf, hm] using h)
    exact ⟨rfl, rfl⟩
  | homing run =>
    obtain rfl : _ = st := Option.some.inj (by simpa only [AxisState.stopOf, hm] using h)
    exact ⟨rfl, rfl⟩
  | idle => simp [AxisState.stopOf, hm] at h
  | stopping st => simp [AxisState.stopOf, hm] at h
  | fault => simp [AxisState.stopOf, hm] at h

theorem AxisState.afterStop_of_nil {env : AxisEnv} {x : AxisState} (home : ¬ (x.pendingHome = true ∧ env.canRun = true))
    (empty : x.queue = []) : x.afterStop env = { axis := x.holding env.now } := by
  have cleared : { x with queue := [] } = x := by rw [← empty]
  rw [AxisState.afterStop, if_neg home, empty, AxisState.settle, cleared, AxisState.enterHold_eq_holding]

/-- A stop of no microstep ends as it begins, and the axis holds, unless a pending home takes over (R35, R36, R48). -/
theorem AxisState.slowing_ends {env : AxisEnv} {x : AxisState} {st : Stop}
    (leads : st.position = x.position + st.dir.sign * st.remaining)
    (home : st.remaining = 0 → x.pendingHome = false ∨ env.canRun = false) :
    (x.slowing st).endIfStopped env =
      if st.remaining = 0 then
        { axis := x.stopped env.now st, events := [.lensDone env.axis x.position st.reason], trigger := true }
      else { axis := x.stopped env.now st } := by
  by_cases hr : st.remaining = 0
  · have at_ : x.position = st.position := by rw [leads, hr]; simp
    have empty : (if st.abandoned then (x.slowing st).queue else (x.slowing st).queue.tail) = [] := by
      cases hq : x.queue <;> cases ha : st.abandoned <;> simp [AxisState.slowing, hq, ha]
    have noHome : ¬ (x.pendingHome = true ∧ env.canRun = true) := by rcases home hr with h | h <;> simp [h]
    have ends : (x.slowing st).endIfStopped env = (x.slowing st).endStop env st := if_pos hr
    rw [ends, if_pos hr, AxisState.endStop, empty]
    simp only [LensOut.andThen]
    rw [AxisState.afterStop_of_nil (x := { x.slowing st with motion := .idle, stepTimer := none, queue := [] }) noHome rfl]
    simp [AxisState.slowing, AxisState.stopped, hr, at_]
  · rw [if_neg hr]
    exact (if_neg hr).trans (by simp [AxisState.slowing, AxisState.stopped, hr])

theorem AxisState.stopped_trust (x : AxisState) (now : Nat) (st : Stop) :
    (x.stopped now st).trust = if st.abandoned then .unhomed else x.trust := by
  cases ha : st.abandoned <;> by_cases hr : st.remaining = 0 <;> simp [AxisState.stopped, ha, hr]

theorem AxisState.doneAtOnce_of_none {x : AxisState} {reason : DoneReason} (h : x.stopOf reason = none) (a : Axis) :
    x.doneAtOnce a reason = [] := by
  rw [AxisState.doneAtOnce, h]

/-- The end of a stop that an axis has begun, if it has no microstep (R35). -/
theorem AxisState.stop_ends {env : AxisEnv} {x : AxisState} {reason : DoneReason} {st : Stop} (h : x.stopOf reason = some st)
    (home : st.remaining = 0 → x.pendingHome = false ∨ env.canRun = false) :
    (x.slowing st).endIfStopped env =
      { axis := x.stopped env.now st, events := x.doneAtOnce env.axis reason,
        trigger := !(x.doneAtOnce env.axis reason).isEmpty } := by
  obtain ⟨reason_, leads⟩ := AxisState.stopOf_leads h
  rw [AxisState.slowing_ends leads home, AxisState.doneAtOnce, h, reason_]
  by_cases hr : st.remaining = 0 <;> simp [hr]

/-- An axis with no stop to begin, whose own stop, if any, has microsteps to take, goes on as it is. -/
theorem AxisState.endIfStopped_of_run {env : AxisEnv} {x : AxisState} (h : ∀ st, x.motion = .stopping st → 0 < st.remaining) :
    x.endIfStopped env = { axis := x } := by
  unfold AxisState.endIfStopped
  cases hm : x.motion with
  | stopping st => exact if_neg (Nat.ne_of_gt (h st hm))
  | idle => rfl
  | running l => rfl
  | homing run => rfl
  | fault => rfl

/-! ### An event that stops both axes (R14, R35) -/

theorem State.raiseAll_setLmc (s : State) (es : List Event) (l : Lmc) :
    { s.raiseAll es with lmc := l } = State.raiseAll { s with lmc := l } es := by
  induction es generalizing s with
  | nil => rfl
  | cons e es ih => exact ih (s.raise e)

theorem State.partChange_setLmc (s : State) (v h : Option Int) (l : Lmc) :
    { s.partChange v h with lmc := l } = State.partChange { s with lmc := l } v h := by
  cases v <;> cases h <;> rfl

/-- A change of at least one target is one installation change (R14). -/
theorem State.partChange_some {v h : Option Int} (some_ : v.isSome ∨ h.isSome) (s : State) :
    s.partChange v h =
      changed s { s.irm with targetV := v.getD s.irm.targetV, targetH := h.getD s.irm.targetH } .part := by
  cases v <;> cases h <;> first | rfl | simp at some_

/-- An event that acts on both axes, given what each does at once and what the end of its stop adds. -/
theorem State.lensEvent_of_ends {s : State} {f : Axis → AxisEnv → AxisState → LensOut} {after : Axis → AxisState}
    {done : Axis → List Event} {out : Axis → LensOut} (hout : ∀ a, f a (s.axisEnv a) (s.axis a) = out a)
    (later : ∀ a, (out a).later = [])
    (ends : ∀ a env, env.axis = a → env.now = s.now → (env.canRun = true → CanRun s) →
      (out a).axis.endIfStopped env = { axis := after a, events := done a, trigger := !(done a).isEmpty }) :
    s.lensEvent f =
      (((State.raiseAll { s with lmc := ⟨after .v, after .h⟩ } ((out .v).events ++ (out .h).events)).partChange
        (out .v).change (out .h).change).raiseAll (done .v ++ done .h)).recomputeIf
        ((out .v).trigger || (out .h).trigger || !(done .v ++ done .h).isEmpty) := by
  have first : s.deliver (out .v) (out .h) =
      (State.raiseAll { s with lmc := ⟨(out .v).axis, (out .h).axis⟩ } ((out .v).events ++ (out .h).events)).partChange
        (out .v).change (out .h).change := by
    rw [State.deliver, later, later]
    rfl
  obtain ⟨t, ht⟩ : ∃ t, t = s.deliver (out .v) (out .h) := ⟨_, rfl⟩
  have run : ∀ a, (t.axisEnv a).canRun = true → CanRun s := fun a h => by
    simpa [ht, State.axisEnv] using h
  have now : t.now = s.now := by rw [ht, State.deliver_now]
  have axis_ : ∀ a, t.axis a = (out a).axis := fun a => by
    cases a <;> simp [State.axis, ht]
  have end_ : ∀ a, (t.axis a).endIfStopped (t.axisEnv a) =
      { axis := after a, events := done a, trigger := !(done a).isEmpty } := fun a => by
    rw [axis_]
    exact ends a _ rfl now (run a)
  have endV : t.lmc.v.endIfStopped (t.axisEnv .v) = _ := end_ .v
  have endH : t.lmc.h.endIfStopped (t.axisEnv .h) = _ := end_ .h
  have second : t.deliver (t.lmc.v.endIfStopped (t.axisEnv .v)) (t.lmc.h.endIfStopped (t.axisEnv .h)) =
      State.raiseAll { t with lmc := ⟨after .v, after .h⟩ } (done .v ++ done .h) := by
    rw [endV, endH]
    rfl
  have outV : f .v (s.axisEnv .v) s.lmc.v = out .v := hout .v
  have outH : f .h (s.axisEnv .h) s.lmc.h = out .h := hout .h
  have both : (!(done .v).isEmpty || !(done .h).isEmpty) = !(done .v ++ done .h).isEmpty := by
    cases done .v <;> simp
  rw [State.lensEvent, outV, outH]
  rw [← ht, second, endV, endH, Bool.or_assoc, both, ht, first, State.partChange_setLmc, State.raiseAll_setLmc]

/-! ### ABORT_MOTION (R34) -/

theorem onNamed_of_named {named : Bool × Bool} {a : Axis} (h : namesAxis named a = true) (f : AxisEnv → AxisState → LensOut)
    (env : AxisEnv) (x : AxisState) : onNamed named f a env x = f env x := by
  cases a <;> exact if_pos h

theorem onNamed_of_not {named : Bool × Bool} {a : Axis} (h : namesAxis named a = false) (f : AxisEnv → AxisState → LensOut)
    (env : AxisEnv) (x : AxisState) : onNamed named f a env x = { axis := x } := by
  cases a <;> exact if_neg (Bool.eq_false_iff.mp h)

theorem execAbortMotion_eq {axes : Byte} {named : Bool × Bool} {s : State} (h : Listens s) (axes_ : readAxes axes = some named) :
    let t := s.lensEvent (onNamed named fun env x => x.beginStop env .aborted)
    execAbortMotion .control axes s = .next (answered t .control 0x20 .ok (t.abortReply named)) := by
  have named_ : namedAxes axes = named := by simp [namedAxes, axes_]
  rw [execAbortMotion]
  simp only [named_]
  exact request_passed h (by rw [axes_]; rfl)

/-- Settles O21. -/
theorem abortMotion : Obligations.AbortMotion := by
  refine ⟨AxisParams.homingStopSteps_spec, homingStopSteps_default_v, ?_⟩
  intro axes named s h run axes_ stopOf after done can
  have stopOf_of_named : ∀ a, namesAxis named a = true → stopOf a = (s.axis a).stopOf .aborted := fun a ha => if_pos ha
  have stopOf_of_not : ∀ a, namesAxis named a = false → stopOf a = none := fun a ha => if_neg (by simp [ha])
  have begins : ∀ a, onNamed named (fun env x => x.beginStop env .aborted) a (s.axisEnv a) (s.axis a) =
      (s.axis a).stopOut (stopOf a) := by
    intro a
    cases ha : namesAxis named a with
    | true =>
      rw [onNamed_of_named ha, stopOf_of_named a ha]
      exact AxisState.beginStop_eq fun st hst => (can a st ((stopOf_of_named a ha).trans hst)).1
    | false => rw [onNamed_of_not ha, stopOf_of_not a ha]; rfl
  have ends : ∀ a env, env.axis = a → env.now = s.now → (env.canRun = true → CanRun s) →
      ((s.axis a).stopOut (stopOf a)).axis.endIfStopped env =
        { axis := after a, events := done a, trigger := !(done a).isEmpty } := by
    intro a env axis_ now_ _
    have still : stopOf a = none → done a = [] → ((s.axis a).stopOut (stopOf a)).axis.endIfStopped env =
        { axis := after a, events := done a, trigger := !(done a).isEmpty } := fun none_ quiet => by
      simp only [after, none_, quiet, AxisState.stopOut]
      exact AxisState.endIfStopped_of_run (run a)
    cases ha : namesAxis named a with
    | false => exact still (stopOf_of_not a ha) (if_neg (by simp [ha]))
    | true =>
      have done_ : done a = (s.axis a).doneAtOnce a .aborted := if_pos ha
      cases hst : stopOf a with
      | none => exact hst ▸ still hst (done_.trans (AxisState.doneAtOnce_of_none ((stopOf_of_named a ha).symm.trans hst) a))
      | some st =>
        have stop := (stopOf_of_named a ha).symm.trans hst
        simp only [after, hst, done_, AxisState.stopOut]
        rw [AxisState.stop_ends stop fun hr => .inl ((can a st hst).2 hr), axis_, now_]
  have trigger : ∀ a, ((s.axis a).stopOut (stopOf a)).trigger = ((s.axis a).trust != (after a).trust) := by
    intro a
    cases hst : stopOf a with
    | none => simp [after, hst, AxisState.stopOut]
    | some st => simp only [after, hst, AxisState.stopOut, AxisState.stopped_trust]
  have judged := execAbortMotion_eq h axes_
  rw [State.lensEvent_of_ends begins (fun _ => AxisState.stopOut_later ..) ends] at judged
  simp only [AxisState.stopOut_events, AxisState.stopOut_change, trigger, List.append_nil, State.raiseAll_nil] at judged
  refine ⟨fun stillV stillH => ?_, fun stops => ?_⟩
  · have quiet : ∀ a, stopOf a = none → after a = s.axis a ∧ done a = [] := fun a none_ => by
      refine ⟨by simp only [after, none_], ?_⟩
      cases ha : namesAxis named a with
      | true => exact (if_pos ha).trans (AxisState.doneAtOnce_of_none ((stopOf_of_named a ha).symm.trans none_) a)
      | false => exact if_neg (by simp [ha])
    obtain ⟨afterV, doneV⟩ := quiet .v stillV
    obtain ⟨afterH, doneH⟩ := quiet .h stillH
    simp only [stillV, stillH, afterV, afterH, doneV, doneH, Option.map_none, State.partChange_none, List.append_nil,
      State.raiseAll_nil, bne_self_eq_false, Bool.or_false, List.isEmpty_nil, Bool.not_true, State.recomputeIf_false] at judged
    exact ⟨_, judged⟩
  · rw [State.partChange_some (by simpa using stops)] at judged
    exact ⟨_, judged⟩

end Sys2Proof.Machine
end

