-- ==== Sys2Proof/Proofs/ThermalStops.lean ====
section
/-! PROOFS. The thermal stop of the axes (R37), and what the entry to CRITICAL does (R111, R112). -/

namespace Sys2Proof.Machine

/-! ### The thermal stop reaches an axis (R37) -/

section
variable (x : AxisState)

/-- The axis after a thermal stop: its own stop begun, or the entries behind its present stop and a pending home gone. -/
def AxisState.thermalAfter (now : Nat) : AxisState :=
  match x.stopOf .thermal, x.motion with
  | some st, _ => x.stopped now st
  | none, .stopping st => { x with queue := if st.abandoned then [] else x.queue.take 1, pendingHome := false }
  | none, _ => x

/-- The target that a thermal stop records for an axis (R14). -/
def AxisState.thermalTarget : Option Int :=
  match x.stopOf .thermal, x.motion with
  | some st, _ => some st.position
  | none, .stopping st => if (if st.abandoned then 0 else 1) < x.queue.length then some st.position else none
  | none, _ => none

/-- HOME_FAIL CANCELLED of the pending home that a thermal stop takes from a STOPPING axis (R53). -/
def AxisState.thermalCancelled (a : Axis) : List Event :=
  if x.motion.mode = .stopping ∧ x.pendingHome = true then [.homeFail a x.position .cancelled] else []

variable {x} {env : AxisEnv}

theorem AxisState.thermalStop_of_stopping {st : Stop} (h : x.motion = .stopping st) :
    x.thermalStop env =
      { axis := { x with queue := if st.abandoned then [] else x.queue.take 1, pendingHome := false },
        events := x.cancelled env,
        change := if (if st.abandoned then 0 else 1) < x.queue.length then some st.position else none } := by
  have flushed : present ((if st.abandoned then [] else x.queue.take 1).length < x.queue.length : Bool) st.position =
      if (if st.abandoned then 0 else 1) < x.queue.length then some st.position else none := by
    cases st.abandoned <;> simp [present]
  unfold AxisState.thermalStop
  rw [← flushed]
  simp only [h, AxisState.flushBehind]

/-- An axis that is not STOPPING begins the stop that its motion asks for, if any. -/
theorem AxisState.thermalStop_of_not_stopping (h : ∀ st, x.motion ≠ .stopping st)
    (fits : ∀ st, x.stopOf .thermal = some st → fitsCount st.position = true) :
    x.thermalStop env = x.stopOut (x.stopOf .thermal) := by
  rw [← AxisState.beginStop_eq (env := env) fits]
  cases hm : x.motion with
  | stopping st => exact absurd hm (h st)
  | idle => simp [AxisState.thermalStop, AxisState.beginStop, hm]
  | running l => simp [AxisState.thermalStop, hm]
  | homing run => simp [AxisState.thermalStop, hm]
  | fault => simp [AxisState.thermalStop, AxisState.beginStop, hm]

theorem AxisState.stopOf_of_stopping {st : Stop} (h : x.motion = .stopping st) (reason : DoneReason) : x.stopOf reason = none := by
  simp [AxisState.stopOf, h]

theorem AxisState.thermalAfter_of_stopping {st : Stop} (h : x.motion = .stopping st) (now : Nat) :
    x.thermalAfter now = { x with queue := if st.abandoned then [] else x.queue.take 1, pendingHome := false } := by
  simp only [AxisState.thermalAfter, AxisState.stopOf_of_stopping h, h]

theorem AxisState.thermalAfter_of_some {st : Stop} (h : x.stopOf .thermal = some st) (now : Nat) :
    x.thermalAfter now = x.stopped now st := by
  simp only [AxisState.thermalAfter, h]

theorem AxisState.thermalAfter_of_none (h : ∀ st, x.motion ≠ .stopping st) (none_ : x.stopOf .thermal = none) (now : Nat) :
    x.thermalAfter now = x := by
  unfold AxisState.thermalAfter
  rw [none_]
  cases hm : x.motion with
  | stopping st => exact absurd hm (h st)
  | idle => rfl
  | running l => rfl
  | homing run => rfl
  | fault => rfl

theorem AxisState.thermalStop_reports (fits : ∀ st, x.stopOf .thermal = some st → fitsCount st.position = true) :
    (x.thermalStop env).later = [] ∧ (x.thermalStop env).events = x.thermalCancelled env.axis ∧
      (x.thermalStop env).change = x.thermalTarget ∧
      (x.thermalStop env).trigger = (x.trust != (x.thermalAfter env.now).trust) := by
  by_cases hm : ∃ st, x.motion = .stopping st
  · obtain ⟨st, hm⟩ := hm
    rw [AxisState.thermalStop_of_stopping hm, AxisState.thermalAfter_of_stopping hm]
    refine ⟨rfl, ?_, ?_, (bne_self_eq_false _).symm⟩
    · simp [AxisState.cancelled, AxisState.thermalCancelled, hm, Motion.mode]
    · simp only [AxisState.thermalTarget, AxisState.stopOf_of_stopping hm, hm]
  · have hm := not_exists.mp hm
    have quiet : x.thermalCancelled env.axis = [] := if_neg fun h => by
      cases h' : x.motion <;> simp_all [Motion.mode]
    have target : x.thermalTarget = (x.stopOf .thermal).map Stop.position := by
      unfold AxisState.thermalTarget
      cases hst : x.stopOf .thermal with
      | some st => rfl
      | none => cases h' : x.motion <;> simp_all
    rw [AxisState.thermalStop_of_not_stopping hm fits, quiet, target]
    refine ⟨AxisState.stopOut_later .., AxisState.stopOut_events .., AxisState.stopOut_change .., ?_⟩
    cases hst : x.stopOf .thermal with
    | none => rw [AxisState.thermalAfter_of_none hm hst, AxisState.stopOut, bne_self_eq_false]
    | some st => rw [AxisState.thermalAfter_of_some hst, AxisState.stopOut, AxisState.stopped_trust]

theorem AxisState.thermalStop_ends {e : AxisEnv} (run : ∀ st, x.motion = .stopping st → 0 < st.remaining)
    (fits : ∀ st, x.stopOf .thermal = some st → fitsCount st.position = true) (cold : e.canRun = false) :
    (x.thermalStop env).axis.endIfStopped e =
      { axis := x.thermalAfter e.now, events := x.doneAtOnce e.axis .thermal,
        trigger := !(x.doneAtOnce e.axis .thermal).isEmpty } := by
  by_cases hm : ∃ st, x.motion = .stopping st
  · obtain ⟨st, hm⟩ := hm
    rw [AxisState.thermalStop_of_stopping hm, AxisState.thermalAfter_of_stopping hm,
      AxisState.doneAtOnce_of_none (AxisState.stopOf_of_stopping hm _)]
    exact AxisState.endIfStopped_of_run run
  · have hm := not_exists.mp hm
    rw [AxisState.thermalStop_of_not_stopping hm fits]
    cases hst : x.stopOf .thermal with
    | none =>
      rw [AxisState.thermalAfter_of_none hm hst, AxisState.doneAtOnce_of_none hst]
      exact AxisState.endIfStopped_of_run run
    | some st =>
      rw [AxisState.thermalAfter_of_some hst]
      exact AxisState.stop_ends hst fun _ => .inr cold

end

/-- What the thermal stop of both axes leaves. -/
theorem State.thermalStop_eq {s : State} (run : StopsRun s) (hot : s.tmon.device = .critical)
    (fits : ∀ a st, (s.axis a).stopOf .thermal = some st → fitsCount st.position = true) :
    let done := s.lmc.v.doneAtOnce .v .thermal ++ s.lmc.h.doneAtOnce .h .thermal
    s.thermalStop =
      (((State.raiseAll { s with lmc := ⟨s.lmc.v.thermalAfter s.now, s.lmc.h.thermalAfter s.now⟩ }
        (s.lmc.v.thermalCancelled .v ++ s.lmc.h.thermalCancelled .h)).partChange
        s.lmc.v.thermalTarget s.lmc.h.thermalTarget).raiseAll done).recomputeIf
        ((s.lmc.v.trust != (s.lmc.v.thermalAfter s.now).trust) || (s.lmc.h.trust != (s.lmc.h.thermalAfter s.now).trust) ||
          !done.isEmpty) := by
  intro done
  have each := fun a => AxisState.thermalStop_reports (env := s.axisEnv a) (fits a)
  have ends := State.lensEvent_of_ends (s := s) (f := fun _ env x => x.thermalStop env)
    (out := fun a => (s.axis a).thermalStop (s.axisEnv a))
    (after := fun a => (s.axis a).thermalAfter s.now) (done := fun a => (s.axis a).doneAtOnce a .thermal)
    (fun _ => rfl) (fun a => (each a).1) fun a env axis_ now_ can => by
      rw [AxisState.thermalStop_ends (run a) (fits a) (by simpa [CanRun, hot] using can), axis_, now_]
  obtain ⟨-, eventsV, changeV, triggerV⟩ := each .v
  obtain ⟨-, eventsH, changeH, triggerH⟩ := each .h
  rw [eventsV, eventsH, changeV, changeH, triggerV, triggerH] at ends
  exact ends

end Sys2Proof.Machine
end

