-- ==== Sys2Proof/Proofs/EntryToCritical.lean ====
section
/-! PROOFS. What both processors hear of one kind of event (R173), what the lens side of an event depends on, the fans at duty
63 (R125), and the entry to CRITICAL by a stall of the blower (R110, R111, R112). -/

namespace Sys2Proof.Machine

/-! ### What both processors hear of one kind of event (R173) -/

theorem entryOf_placeEvent (e : Event) (es : List SetEntry) (k : EventKind) :
    ((placeEvent e es).find? fun x => decide (x.event.kind = k)) =
      if e.kind = k then
        some ⟨e, match es.find? fun x => decide (x.event.kind = k) with | some x => min 15 (x.count + 1) | none => 1⟩
      else es.find? fun x => decide (x.event.kind = k) := by
  induction es with
  | nil => by_cases h : e.kind = k <;> simp [placeEvent, h]
  | cons x xs ih =>
    unfold placeEvent
    by_cases hx : x.event.kind = e.kind
    · by_cases h : e.kind = k <;> simp [hx, h]
    · by_cases h : e.kind = k
      · have : x.event.kind ≠ k := fun hk => hx (hk.trans h.symm)
        simp only [if_neg hx, List.find?_cons, decide_eq_false this, ih, if_pos h]
      · simp only [if_neg hx, List.find?_cons, ih, if_neg h]

theorem State.port_raise (s : State) (e : Event) (p : Port) : (s.raise e).port p = (s.port p).place p e := by cases p <;> rfl

theorem Told.refl (s : State) (k : EventKind) : Told s s k none := fun _ => rfl

theorem Told.trans_none {s t u : State} {k : EventKind} {heard : Option Event} (h : Told s t k heard) (g : Told t u k none) :
    Told s u k heard := fun p => (g p).trans (h p)

theorem Told.after_none {s t u : State} {k : EventKind} {heard : Option Event} (h : Told s t k none) (g : Told t u k heard) :
    Told s u k heard := fun p => by
  have hp : (t.port p).entryOf k = (s.port p).entryOf k := h p
  rw [g p, hp]

/-- What leaves the event sets as they are tells nothing. -/
theorem told_none_of_events {s t : State} (k : EventKind) (hc : t.cpi.port.events = s.cpi.port.events := by rfl)
    (hf : t.fpi.port.events = s.fpi.port.events := by rfl) : Told s t k none := fun p => by
  cases p with
  | control => exact congrArg (List.find? _) hc
  | frame => exact congrArg (List.find? _) hf

theorem told_raise_of_ne {s : State} {e : Event} {k : EventKind} (h : e.kind ≠ k) : Told s (s.raise e) k none := fun p => by
  rw [State.port_raise, PortState.place]
  split
  · exact (entryOf_placeEvent e (s.port p).events k).trans (if_neg h)
  · rfl

theorem told_raise {s : State} {e : Event} (shared : e.Shared) : Told s (s.raise e) e.kind (some e) := fun p => by
  rw [State.port_raise, PortState.place, if_pos (shared p)]
  exact (entryOf_placeEvent e (s.port p).events e.kind).trans (if_pos rfl)

theorem told_raiseAll_of_ne {s : State} {es : List Event} {k : EventKind} (h : ∀ e ∈ es, e.kind ≠ k) :
    Told s (s.raiseAll es) k none := by
  induction es generalizing s with
  | nil => exact Told.refl s k
  | cons e es ih =>
    obtain ⟨he, hes⟩ := List.forall_mem_cons.mp h
    exact (told_raise_of_ne he).trans_none (ih hes)

theorem told_partChange_of_ne {s : State} {k : EventKind} (v h : Option Int) (hk : k ≠ .installChanged) :
    Told s (s.partChange v h) k none := by
  have change : ∀ r, Told s (changed s r .part) k none := fun r => told_raise_of_ne (s := { s with irm := _ }) hk.symm
  cases v <;> cases h <;> first | exact Told.refl s k | exact change _

/-! ### The kinds of event that an axis raises -/

/-- An axis raises no event of a kind. -/
def LensOut.Spares (k : EventKind) (o : LensOut) : Prop := ∀ e ∈ o.events ++ o.later, e.kind ≠ k

theorem told_deliver_of_spares {s : State} {v h : LensOut} {k : EventKind} (hk : k ≠ .installChanged) (hv : v.Spares k)
    (hh : h.Spares k) : Told s (s.deliver v h) k none := by
  have events : ∀ e ∈ v.events ++ h.events, e.kind ≠ k := fun e he => (List.mem_append.mp he).elim
    (fun he => hv e (List.mem_append_left _ he)) fun he => hh e (List.mem_append_left _ he)
  have later : ∀ e ∈ v.later ++ h.later, e.kind ≠ k := fun e he => (List.mem_append.mp he).elim
    (fun he => hv e (List.mem_append_right _ he)) fun he => hh e (List.mem_append_right _ he)
  exact ((told_raiseAll_of_ne (s := { s with lmc := ⟨v.axis, h.axis⟩ }) events).trans_none (told_partChange_of_ne _ _ hk)).trans_none
    (told_raiseAll_of_ne later)

theorem told_recomputeIf (s : State) (b : Bool) (k : EventKind) : Told s (s.recomputeIf b) k none :=
  told_none_of_events k (by simp) (by simp)

theorem told_selectFans (s : State) (k : EventKind) : Told s s.selectFans k none := told_none_of_events k (by simp) (by simp)

theorem told_lensEvent_of_spares {s : State} {f : Axis → AxisEnv → AxisState → LensOut} {k : EventKind}
    (hk : k ≠ .installChanged) (hf : ∀ a env x, (f a env x).Spares k) (ends : ∀ env (x : AxisState), (x.endIfStopped env).Spares k) :
    Told s (s.lensEvent f) k none :=
  ((told_deliver_of_spares hk (hf _ _ _) (hf _ _ _)).trans_none (told_deliver_of_spares hk (ends _ _) (ends _ _))).trans_none
    (told_recomputeIf _ _ _)

section
variable (env : AxisEnv) (x : AxisState)

theorem AxisState.settle_spares (q : List Entry) : (x.settle env q).Spares .thermalState := by
  unfold LensOut.Spares
  rw [AxisState.settle_later, List.append_nil]
  induction q with
  | nil => exact List.forall_mem_nil _
  | cons e rest ih =>
    unfold AxisState.settle
    split
    · split
      · exact List.forall_mem_nil _
      · exact List.forall_mem_cons.mpr ⟨nofun, ih⟩
    · exact List.forall_mem_nil _

theorem AxisState.afterStop_spares : (x.afterStop env).Spares .thermalState := by
  unfold AxisState.afterStop
  split
  · exact List.forall_mem_nil _
  · exact AxisState.settle_spares env x _

theorem AxisState.endIfStopped_spares : (x.endIfStopped env).Spares .thermalState := by
  unfold AxisState.endIfStopped
  split
  · split
    · refine List.forall_mem_cons.mpr ⟨nofun, ?_⟩
      exact AxisState.afterStop_spares env _
    · exact List.forall_mem_nil _
  all_goals exact List.forall_mem_nil _

theorem AxisState.thermalStop_spares : (x.thermalStop env).Spares .thermalState := by
  unfold AxisState.thermalStop
  cases hm : x.motion with
  | stopping st =>
    simp only [LensOut.Spares, List.append_nil, AxisState.cancelled]
    split
    · exact List.forall_mem_cons.mpr ⟨nofun, List.forall_mem_nil _⟩
    · exact List.forall_mem_nil _
  | running l => simp only [AxisState.beginStop, hm]; exact List.forall_mem_nil _
  | homing run => simp only [AxisState.beginStop, hm]; exact List.forall_mem_nil _
  | idle => exact List.forall_mem_nil _
  | fault => exact List.forall_mem_nil _

end

theorem told_thermalStop (s : State) : Told s s.thermalStop .thermalState none :=
  told_lensEvent_of_spares nofun (fun _ => AxisState.thermalStop_spares) AxisState.endIfStopped_spares

/-! ### What the lens side of an event depends on -/

/-- Two states that agree in all that an event of the axes reads and writes, but for the event sets. -/
structure LensAlike (s t : State) : Prop where
  irm : t.irm = s.irm
  lmc : t.lmc = s.lmc
  ge : t.ge = s.ge
  now : t.now = s.now
  device : t.tmon.device = s.tmon.device
  trip : t.tmon.trip = s.tmon.trip
  width : t.fpi.width = s.fpi.width
  height : t.fpi.height = s.fpi.height

namespace LensAlike
variable {s t : State} (h : LensAlike s t)
include h

theorem axisEnv (a : Axis) : t.axisEnv a = s.axisEnv a := by
  simp only [State.axisEnv, h.irm, h.ge, h.now, h.device, h.trip]

theorem deliver (v k : LensOut) : LensAlike (s.deliver v k) (t.deliver v k) where
  irm := by simp only [State.deliver_irm, h.irm]
  lmc := by simp only [State.deliver_lmc]
  ge := by simpa using h.ge
  now := by simpa using h.now
  device := by simpa using h.device
  trip := by simpa using h.trip
  width := by simpa using h.width
  height := by simpa using h.height

theorem geoInputs : t.geoInputs = s.geoInputs := by
  simp only [State.geoInputs, h.irm, h.lmc, h.ge, h.width, h.height]

theorem recomputeIf (b : Bool) : LensAlike (s.recomputeIf b) (t.recomputeIf b) where
  irm := by simpa using h.irm
  lmc := by simpa using h.lmc
  ge := by
    cases b with
    | false => exact h.ge
    | true =>
      simp only [State.recomputeIf_true]
      cases hs : s.ge.inFlight with
      | none =>
        rw [State.recompute_ge_of_none hs, State.recompute_ge_of_none (by rw [h.ge, hs]), h.geoInputs, h.ge, h.lmc]
      | some c =>
        have busy : s.ge.inFlight.isSome = true := by rw [hs]; rfl
        rw [State.recompute_ge_of_inFlight busy, State.recompute_ge_of_inFlight (by rwa [h.ge]), h.ge]
  now := by simpa using h.now
  device := by simpa using h.device
  trip := by simpa using h.trip
  width := by simpa using h.width
  height := by simpa using h.height

theorem lensEvent (f : Axis → AxisEnv → AxisState → LensOut) : LensAlike (s.lensEvent f) (t.lensEvent f) := by
  have outV : f .v (t.axisEnv .v) t.lmc.v = f .v (s.axisEnv .v) s.lmc.v := by rw [h.axisEnv, h.lmc]
  have outH : f .h (t.axisEnv .h) t.lmc.h = f .h (s.axisEnv .h) s.lmc.h := by rw [h.axisEnv, h.lmc]
  have first := h.deliver (f .v (s.axisEnv .v) s.lmc.v) (f .h (s.axisEnv .h) s.lmc.h)
  unfold State.lensEvent
  simp only [outV, outH, first.axisEnv, first.lmc]
  exact (first.deliver _ _).recomputeIf _

end LensAlike

/-! ### The fans at duty 63 (R124, R125) -/

/-- Every fan is due duty 63: the part is tripped, or its thermal state is HOT or CRITICAL. -/
def State.DuesFull (s : State) : Prop := s.tmon.trip.isSome = true ∨ s.tmon.device.isHot = true

theorem State.DuesFull.duty {s : State} (h : s.DuesFull) (quiet : Bool) (demand cap cool : Nat) :
    s.airInputs.duty quiet demand cap cool = 63 := by
  unfold AirInputs.duty State.airInputs
  rcases h with h | h
  · rw [if_pos h]
  · rw [if_pos h, ite_self]

theorem FanRecord.select_selected (now startDuty : Nat) (x : FanRecord) {d : Nat} (h : d ≠ 0) :
    (x.select now startDuty d).selected = d := by
  unfold FanRecord.select
  rw [if_neg h]
  split
  · rfl
  · split
    · split <;> rfl
    · rfl

/-- A selection of 63 reaches the output, no kick being above it (R129). -/
theorem FanRecord.select_full {now startDuty : Nat} {x : FanRecord} (start : startDuty ≤ 63) (kick : x.KickFits) :
    (x.select now startDuty 63).Full := by
  refine ⟨FanRecord.select_selected now startDuty x (by decide), ?_⟩
  unfold FanRecord.select
  rw [if_neg (by decide)]
  split
  · simp [FanRecord.start, Nat.not_lt.mpr start]
  · split
    · rename_i k hk
      rw [if_neg (Nat.not_lt.mpr (kick (by rw [hk]; rfl)))]
    · rfl

theorem State.DuesFull.select {s : State} (h : s.DuesFull) (f : Fan) :
    s.selectFans.afc.fans.get f = (s.afc.fans.get f).select s.now s.afc.startDuty 63 := by
  simp only [State.selectFans_afc, Afc.select, PerFan.get_build, h.duty]
  rfl

theorem State.DuesFull.selected {s : State} (h : s.DuesFull) (f : Fan) : (s.selectFans.afc.fans.get f).selected = 63 := by
  rw [h.select, FanRecord.select_selected _ _ _ (by decide)]

/-! ### The entry to CRITICAL (R110, R111, R112) -/

/-- With the blower stalled the device thermal state is CRITICAL (R110). -/
theorem Tmon.formDevice_of_blower {t : Tmon} (h : t.stalled.blower = true) : t.formDevice = .critical := by
  have stays : ∀ l : List Thermal, l.foldl Thermal.max .critical = .critical := fun l => by
    induction l with
    | nil => rfl
    | cons x xs ih => cases x <;> exact ih
  have fans : fansLevel t.stalled = .critical := if_pos (.inl h)
  rw [Tmon.formDevice, fans]
  exact stays _

theorem stalledCount_pos {x : PerFan Bool} (h : x.blower = true) : 0 < stalledCount x :=
  List.length_pos_of_mem (List.mem_filter.mpr ⟨by simp [allFans], h⟩ : Fan.blower ∈ allFans.filter x.get)

/-- The source of the entry to CRITICAL with a stalled blower (R111). -/
theorem Tmon.sourceOf_critical {t : Tmon} (h : t.stalled.blower = true) (hot : t.device = .critical) :
    t.sourceOf .critical = t.sourceSays := by
  have level : ∀ z, decide ((t.zones.get z).level = some .critical) =
      ((t.zones.get z).inUse && decide ((t.zones.get z).state = t.device)) := fun z => by
    cases hz : (t.zones.get z).inUse <;> simp [ZoneRecord.level, hz, hot]
  have fans : fansLevel t.stalled = .critical := if_pos (.inl h)
  have some_ := stalledCount_pos h
  unfold Tmon.sourceOf Tmon.sourceSays
  simp only [level, fans, some_, and_self, if_true, Nat.ne_of_gt some_, if_false]
  rfl

/-- The state whose device thermal state has just become CRITICAL, its dwell timer by R112. -/
def State.critical (s : State) : State :=
  { s with tmon := { s.tmon with device := .critical, dwell := s.tmon.dwellAfter s.now .critical } }

/-- The entry to CRITICAL: the change raised, the lens stopped, the fans selected, the LAU told. -/
theorem State.formDevice_of_blower {s : State} (stalled : s.tmon.stalled.blower = true) (cold : s.tmon.device ≠ .critical) :
    s.formDevice =
      let u := (s.critical.raise (.thermalState .critical s.tmon.device (s.tmon.sourceOf .critical))).thermalStop.selectFans
      { u with lau := { u.lau with held := { u.lau.held with device := .critical } } } := by
  rw [State.formDevice, Tmon.formDevice_of_blower stalled, if_neg (Ne.symm cold)]
  rfl

theorem State.partChange_eq (s : State) (v h : Option Int) :
    s.partChange v h =
      if v = none ∧ h = none then s
      else changed s { s.irm with targetV := v.getD s.irm.targetV, targetH := h.getD s.irm.targetH } .part := by
  cases v <;> cases h <;> rfl

/-- The part when the stall of its blower has been raised and handed to the TMON (R134). -/
def State.blowerStalled (s : State) (e : Nat) : State :=
  let r := ((s.at_ e).setFan .blower (s.afc.fans.blower.stall (max s.now e))).raise
    (.fanStall .blower s.afc.fans.blower.output s.afc.fans.blower.rpm s.afc.fans.blower.tach)
  { r with tmon := { r.tmon with stalled := r.tmon.stalled.set .blower true } }

/-- The part after the stall of its blower has made it CRITICAL. -/
def State.blowerCritical (s : State) (e : Nat) : State :=
  let b := s.blowerStalled e
  (b.critical.raise (.thermalState .critical s.tmon.device (b.tmon.sourceOf .critical))).thermalStop.selectFans

theorem execEdgeTimerExpiry_blower {s : State} {e : Nat} (awake : Awake s) (turning : s.afc.fans.blower.tach = .turning)
    (cold : s.tmon.device ≠ .critical) (edge : s.afc.fans.blower.edge = some e) :
    let c := s.blowerCritical e
    execEdgeTimerExpiry .blower s = .next
      (State.lauTake { c with lau := { c.lau with held := { c.lau.held with device := .critical } } }
        { c.lau.held with device := .critical, anyStalled := true }) := by
  intro c
  have formed := State.formDevice_of_blower (s := s.blowerStalled e) rfl cold
  have stalled : (s.blowerStalled e).formDevice.tmon.stalled = (s.blowerStalled e).tmon.stalled := by
    rw [formed]
    simp [State.critical]
  have some_ : decide (0 < stalledCount (s.blowerStalled e).formDevice.tmon.stalled) = true := by
    rw [stalled]
    exact decide_eq_true (stalledCount_pos rfl)
  have stall : (s.at_ e).stallFan .blower = (s.blowerStalled e).formDevice.lauTake
      { (s.blowerStalled e).formDevice.lau.held with
        anyStalled := decide (0 < stalledCount (s.blowerStalled e).formDevice.tmon.stalled) } := rfl
  rw [some_, formed] at stall
  rw [execEdgeTimerExpiry, unlessReset_awake _ awake]
  simp only [PerFan.get, edge, turning]
  exact congrArg _ stall

theorem State.blowerCritical_tmon (s : State) (e : Nat) : (s.blowerCritical e).tmon = (s.blowerStalled e).critical.tmon := by
  simp [State.blowerCritical]

/-- The lens side of the entry is the thermal stop of the part as it was, but CRITICAL. -/
theorem State.blowerCritical_alike (s : State) (e : Nat) :
    let l := State.lensStopped { s with now := max s.now e }
    (s.blowerCritical e).irm = l.irm ∧ (s.blowerCritical e).lmc = l.lmc ∧ (s.blowerCritical e).ge = l.ge := by
  intro l
  have before : LensAlike { s with now := max s.now e, tmon := { s.tmon with device := .critical } }
      ((s.blowerStalled e).critical.raise
        (.thermalState .critical s.tmon.device ((s.blowerStalled e).tmon.sourceOf .critical))) :=
    ⟨rfl, rfl, rfl, rfl, rfl, rfl, rfl, rfl⟩
  have after := before.lensEvent fun _ env x => x.thermalStop env
  refine ⟨?_, ?_, ?_⟩
  · rw [State.blowerCritical, State.selectFans_irm]
    exact after.irm
  · rw [State.blowerCritical, State.selectFans_lmc]
    exact after.lmc
  · rw [State.blowerCritical, State.selectFans_ge]
    exact after.ge

/-- Of THERMAL_STATE both processors hear the entry to CRITICAL, once. -/
theorem told_blowerCritical (s : State) (e : Nat) :
    Told s (s.blowerCritical e) .thermalState
      (some (.thermalState .critical s.tmon.device (s.blowerCritical e).tmon.sourceSays)) := by
  have source : (s.blowerStalled e).tmon.sourceOf .critical = (s.blowerCritical e).tmon.sourceSays := by
    rw [State.blowerCritical_tmon]
    exact Tmon.sourceOf_critical (t := (s.blowerStalled e).critical.tmon) rfl rfl
  rw [← source]
  have stalled : Told s (s.blowerStalled e) .thermalState none :=
    told_raise_of_ne (s := (s.at_ e).setFan .blower _) (e := .fanStall ..) nofun
  have entry : Told (s.blowerStalled e).critical _ .thermalState _ :=
    told_raise (e := .thermalState .critical s.tmon.device ((s.blowerStalled e).tmon.sourceOf .critical)) fun p => by cases p <;> rfl
  have heard := stalled.after_none ((told_none_of_events (t := (s.blowerStalled e).critical) _).after_none entry)
  exact (heard.trans_none (told_thermalStop _)).trans_none (told_selectFans _ _)

/-- An event that both processors have heard stands in both event sets. -/
theorem Told.mem {s t : State} {k : EventKind} {e : Event} (h : Told s t k (some e)) (p : Port) :
    ∃ x ∈ (t.port p).events, x.event = e := ⟨_, List.mem_of_find?_eq_some (h p), rfl⟩

/-- Settles O40. -/
theorem thermalStop : Obligations.ThermalStop := by
  refine ⟨?_, ?_⟩
  · intro s run hot fits after target cancelled done stopping recorded
    have stopped := State.thermalStop_eq run hot fits
    dsimp only at stopped
    rw [State.partChange_eq, State.raiseAll_irm] at stopped
    exact stopped
  · intro s awake turning driven cold e edge
    obtain ⟨irm, lmc, ge⟩ := s.blowerCritical_alike e
    obtain ⟨c, hc⟩ : ∃ c, c = s.blowerCritical e := ⟨_, rfl⟩
    have judged := execEdgeTimerExpiry_blower awake turning cold edge
    have tmon : c.tmon = (s.blowerStalled e).critical.tmon := by rw [hc, State.blowerCritical_tmon]
    have told := told_blowerCritical s e
    have now : c.now = max s.now e := by rw [hc, State.blowerCritical]; simp [State.critical, State.blowerStalled, State.at_]
    have full : ∀ f : Fan, (c.afc.fans.get f).selected = 63 := fun f => by
      rw [hc]
      exact State.DuesFull.selected (.inr (by simp [State.critical, Thermal.isHot])) f
    rw [← hc] at judged irm lmc ge told
    have heard : Told s c .thermalState _ := told
    refine ⟨_, judged, now, ?_, ?_, ?_, ?_, irm, lmc, ge, full, ?_, ?_, ?_⟩
    · exact congrArg Tmon.device tmon
    · simp [State.lauTake, Lau.take]
    · simp [State.lauTake, Lau.take]
    · have dwell := congrArg Tmon.dwell tmon
      rw [State.lauTake_tmon, State.lauTake_now, now]
      exact dwell
    · have device : c.tmon.device = .critical := congrArg Tmon.device tmon
      rw [← device] at heard
      rw [ThermalTold, State.lauTake_tmon, if_neg (device.trans_ne (Ne.symm cold))]
      exact heard
    · obtain ⟨x, hx, hxe⟩ := heard.mem .control
      exact ⟨x, hx, _, hxe⟩
    · obtain ⟨x, hx, hxe⟩ := heard.mem .frame
      exact ⟨x, hx, _, hxe⟩

end Sys2Proof.Machine
end

