-- ==== Sys2Proof/Proofs/Trip.lean ====
section
/-! PROOFS. The trip halt of both axes (R38), the entry of the session to TRIPPED (R150), and the trip by the critical dwell
(R112, R113, R114). -/

namespace Sys2Proof.Machine

/-! ### The trip halt of both axes (R38) -/

/-- The events of the trip halt, the change they make last. -/
def State.haltsRaise (s : State) : List Event :=
  s.lmc.v.haltEvents .v .trip ++ s.lmc.h.haltEvents .h .trip ++
    if s.lmc.v.moving || s.lmc.h.moving then [.installChanged (s.irm.generation + 1) .part] else []

/-- Both axes after the trip halt. -/
def State.halted (s : State) (a : Axis) : AxisState := ((s.axis a).halt (s.axisEnv a) .trip).axis

theorem State.halted_position (s : State) (a : Axis) : (s.halted a).position = (s.axis a).position := AxisState.halt_position ..

theorem State.tripHalt_eq (s : State) :
    s.tripHalt =
      ((State.raiseAll { s with lmc := ⟨s.halted .v, s.halted .h⟩ }
        (s.lmc.v.haltEvents .v .trip ++ s.lmc.h.haltEvents .h .trip)).partChange
        (present s.lmc.v.moving s.lmc.v.position) (present s.lmc.h.moving s.lmc.h.position)).recomputeIf
        (s.lmc.v.moving || s.lmc.h.moving) := by
  have ends := State.lensEvent_of_ends (s := s) (f := fun _ env x => x.halt env .trip)
    (out := fun a => (s.axis a).halt (s.axisEnv a) .trip) (after := s.halted) (done := fun _ => []) (fun _ => rfl)
    (fun _ => AxisState.halt_later ..) fun a env _ _ _ => by
      refine AxisState.endIfStopped_of_run fun st hst => ?_
      rcases ((s.axis a).halt_rest (s.axisEnv a) .trip).1 with h | h <;> simp [h] at hst
  simp only [AxisState.halt_events, AxisState.halt_change, AxisState.halt_trigger, List.append_nil, State.raiseAll_nil,
    List.isEmpty_nil, Bool.not_true, Bool.or_false] at ends
  exact ends

/-- Two states whose ports are the same. -/
def PortsAlike (s t : State) : Prop := t.cpi = s.cpi ∧ t.fpi = s.fpi

theorem PortsAlike.trans {s t u : State} (h : PortsAlike s t) (g : PortsAlike t u) : PortsAlike s u :=
  ⟨g.1.trans h.1, g.2.trans h.2⟩

theorem PortsAlike.raiseAll {s t : State} (h : PortsAlike s t) (es : List Event) : PortsAlike (s.raiseAll es) (t.raiseAll es) := by
  induction es generalizing s t with
  | nil => exact h
  | cons e es ih =>
    refine ih ⟨?_, ?_⟩
    · simp only [State.raise, h.1]
    · simp only [State.raise, h.2]

/-- A change of targets reaches the ports as one event, if any (R14). -/
theorem State.partChange_ports (s : State) (v h : Option Int) :
    PortsAlike (s.raiseAll (if v.isSome || h.isSome then [.installChanged (s.irm.generation + 1) .part] else []))
      (s.partChange v h) := by
  cases v <;> cases h <;> exact ⟨rfl, rfl⟩

theorem State.haltsRaise_shared (s : State) : ∀ e ∈ s.haltsRaise, e.Shared := by
  intro e he
  rcases List.mem_append.mp he with he | he
  · exact (List.mem_append.mp he).elim (AxisState.haltEvents_shared _ _ _ e) (AxisState.haltEvents_shared _ _ _ e)
  · split at he
    · obtain rfl := List.mem_singleton.mp he
      exact shared_installChanged _ _
    · simp at he

theorem State.tripHalt_ports (s : State) : PortsAlike (s.raiseAll s.haltsRaise) s.tripHalt := by
  obtain ⟨u, hu⟩ : ∃ u, u = State.raiseAll { s with lmc := ⟨s.halted .v, s.halted .h⟩ }
    (s.lmc.v.haltEvents .v .trip ++ s.lmc.h.haltEvents .h .trip) := ⟨_, rfl⟩
  have changes := State.partChange_ports u (present s.lmc.v.moving s.lmc.v.position) (present s.lmc.h.moving s.lmc.h.position)
  have irm : u.irm = s.irm := by rw [hu, State.raiseAll_irm]
  have lmc : PortsAlike s { s with lmc := ⟨s.halted .v, s.halted .h⟩ } := ⟨rfl, rfl⟩
  rw [isSome_present, isSome_present, irm, hu, ← State.raiseAll_append] at changes
  have all := (lmc.raiseAll _).trans changes
  rw [State.tripHalt_eq]
  exact all.trans ⟨by rw [State.recomputeIf_cpi], by rw [State.recomputeIf_fpi]⟩

/-- The record after the trip halt: one change for the targets of the axes that moved (R14). -/
theorem State.tripHalt_irm (s : State) :
    s.tripHalt.irm =
      if s.lmc.v.moving || s.lmc.h.moving then
        { s.irm with targetV := if s.lmc.v.moving then s.lmc.v.position else s.irm.targetV,
                     targetH := if s.lmc.h.moving then s.lmc.h.position else s.irm.targetH,
                     generation := s.irm.generation + 1, reserveControl := none, reserveFrame := none }
      else s.irm := by
  rw [State.tripHalt_eq, State.recomputeIf_irm, State.partChange_irm]
  cases s.lmc.v.moving <;> cases s.lmc.h.moving <;> simp [present]

theorem State.tripHalt_lmc (s : State) : s.tripHalt.lmc = ⟨s.halted .v, s.halted .h⟩ := by
  rw [State.tripHalt_eq]
  simp

/-- The trip halt is a recompute trigger when an axis moved (R83). -/
theorem State.tripHalt_ge (s : State) :
    ((s.lmc.v.moving || s.lmc.h.moving) = false → s.tripHalt.ge = s.ge) ∧
    ((s.lmc.v.moving || s.lmc.h.moving) = true →
      (s.ge.inFlight.isSome = true → s.tripHalt.ge = { s.ge with pendingMark := true }) ∧
      (s.ge.inFlight = none → s.tripHalt.ge = { s.ge with
        inFlight := some ⟨s.tripHalt.geoInputs, s.ge.attachMark⟩, refV := s.lmc.v.position, refH := s.lmc.h.position,
        attachMark := false })) := by
  have eq := s.tripHalt_eq
  obtain ⟨u, hu⟩ : ∃ u, u = (State.raiseAll { s with lmc := ⟨s.halted .v, s.halted .h⟩ }
    (s.lmc.v.haltEvents .v .trip ++ s.lmc.h.haltEvents .h .trip)).partChange
    (present s.lmc.v.moving s.lmc.v.position) (present s.lmc.h.moving s.lmc.h.position) := ⟨_, rfl⟩
  have ge : u.ge = s.ge := by rw [hu]; simp
  have lmc : u.lmc = ⟨s.halted .v, s.halted .h⟩ := by rw [hu]; simp
  rw [← hu] at eq
  refine ⟨fun still => ?_, fun moved => ?_⟩
  · rw [eq, still, State.recomputeIf_false, ge]
  · rw [eq, moved, State.recomputeIf_true, ← ge]
    refine ⟨State.recompute_ge_of_inFlight, fun free => ?_⟩
    rw [State.recompute_ge_of_none free, State.recompute_geoInputs, lmc, State.halted_position, State.halted_position]
    rfl

/-! ### The session becomes TRIPPED (R150) -/

/-- The LAU of a tripped part: its timers stopped, the light off. -/
structure Lau.Dark (l : Lau) : Prop where
  session : l.session = .tripped
  drive : l.drive = 0
  slew : l.slew = none
  ignition : l.ignition = none
  coolMin : l.coolMin = .stopped
  coolMax : l.coolMax = none

/-- What forming the allowance in a tripped session leaves (R159). -/
theorem Lau.form_dark {l : Lau} (now : Nat) (session : l.session = .tripped) (ignition : l.ignition = none)
    (coolMin : l.coolMin = .stopped) (coolMax : l.coolMax = none) : (l.form now).Dark where
  session := by simpa using session
  ignition := by simpa using ignition
  coolMin := by simpa using coolMin
  coolMax := by simpa using coolMax
  drive := by simp [Lau.form, Lau.followTarget, Lau.target, session, Session.lightEn]
  slew := by simp [Lau.form, Lau.followTarget, Lau.target, session, Session.lightEn]

/-- A selection of the fans changes at most what the LAU holds of the excess, and what it forms from it. -/
theorem State.selectFans_lau_cases (s : State) :
    s.selectFans.lau = s.lau ∨ ∃ held, s.selectFans.lau = s.lau.take s.now held := by
  simp only [State.selectFans]
  split
  · exact .inl rfl
  · exact .inr ⟨_, rfl⟩

theorem State.selectFans_dark {s : State} (h : s.lau.Dark) : s.selectFans.lau.Dark := by
  rcases s.selectFans_lau_cases with eq | ⟨held, eq⟩ <;> rw [eq]
  · exact h
  · exact Lau.form_dark s.now h.session h.ignition h.coolMin h.coolMax

theorem State.enterTripped_dark (s : State) (cause : SessionCause) : (s.enterSession .tripped cause).lau.Dark :=
  State.selectFans_dark (s := State.raise { s with lau := (s.lau.switch s.now .tripped).form s.now } _)
    (Lau.form_dark (l := s.lau.switch s.now .tripped) s.now rfl rfl rfl rfl)

theorem State.selectFans_lau_kept (s : State) :
    s.selectFans.lau.session = s.lau.session ∧ s.selectFans.lau.fault = s.lau.fault ∧ s.selectFans.lau.mode = s.lau.mode := by
  rcases s.selectFans_lau_cases with eq | ⟨held, eq⟩ <;> simp [eq, Lau.take]

theorem State.enterSession_lau_kept (s : State) (new : Session) (cause : SessionCause) :
    (s.enterSession new cause).lau.fault = s.lau.fault ∧ (s.enterSession new cause).lau.mode = s.lau.mode := by
  obtain ⟨-, fault, mode⟩ := (State.raise { s with lau := (s.lau.switch s.now new).form s.now }
    (.lightState new s.lau.session cause)).selectFans_lau_kept
  exact ⟨fault.trans (by simp), mode.trans (by simp)⟩

/-! ### The fans of a tripped part (R125) -/

theorem State.DuesFull.excess {s : State} (h : s.DuesFull) : s.selectFans.afc.excess = 0 := by
  have uncapped : s.airInputs.capped s.afc.quiet = false := by
    rcases h with h | h <;> simp [AirInputs.capped, State.airInputs, h]
  simp [Afc.select, Afc.formExcess, uncapped]

theorem EachFan.of_get {a : Afc} {p : FanRecord → Prop} (h : ∀ f, p (a.fans.get f)) : EachFan a p :=
  ⟨h .intake, h .exhaust, h .blower⟩

theorem EachFan.get {a : Afc} {p : FanRecord → Prop} (h : EachFan a p) (f : Fan) : p (a.fans.get f) := by
  obtain ⟨intake, exhaust, blower⟩ := h
  cases f <;> assumption

theorem State.DuesFull.full {s : State} (h : s.DuesFull) (start : s.afc.startDuty ≤ 63) (kicks : EachFan s.afc FanRecord.KickFits) :
    EachFan s.selectFans.afc FanRecord.Full :=
  EachFan.of_get fun f => by
    rw [h.select]
    exact FanRecord.select_full start (EachFan.get kicks f)

theorem FanRecord.Full.kickFits {x : FanRecord} (h : x.Full) : x.KickFits := fun _ => h.2.le

/-! ### The trip by the critical dwell (R112, R113, R114) -/

/-- The zone a DWELL trip names is the hottest by R113. -/
theorem Tmon.dwellZone_eq (t : Tmon) :
    t.dwellZone = match [Zone.src, .panel, .lens, .supply, .intake, .exhaust].find? fun z =>
      (t.zones.get z).inUse && decide ((t.zones.get z).state = .critical) with | some z => .zone z | none => .fans := by
  have level : ∀ z, decide ((t.zones.get z).level = some .critical) =
      ((t.zones.get z).inUse && decide ((t.zones.get z).state = .critical)) := fun z => by
    cases hz : (t.zones.get z).inUse <;> simp [ZoneRecord.level, hz]
  unfold Tmon.dwellZone Tmon.sourceOf
  simp only [level, allZones]
  generalize List.find? _ _ = found
  cases found with
  | some z => rfl
  | none =>
    by_cases fans : 0 < stalledCount t.stalled ∧ fansLevel t.stalled = .critical
    · simp only [if_pos fans]
    · simp only [if_neg fans]

/-- The part whose latch has just taken a DWELL trip. -/
def State.latched (s : State) (e : Nat) : State :=
  { s with now := max s.now e,
           tmon := { s.tmon with
             trip := some ⟨.dwell, s.tmon.dwellZone, s.tmon.sourceTemperature s.tmon.dwellZone⟩, dwell := none } }

/-- TRIP of a DWELL trip. -/
def State.dwellEvent (s : State) : Event := .trip .dwell s.tmon.dwellZone (s.tmon.sourceTemperature s.tmon.dwellZone)

/-- The part whose axes the trip has halted. -/
def State.dwellHalted (s : State) (e : Nat) : State := ((s.latched e).raise s.dwellEvent).tripHalt

/-- The part after a DWELL trip. -/
def State.dwellTripped (s : State) (e : Nat) : State := (s.dwellHalted e).selectFans.enterSession .tripped .trip

theorem execCriticalDwellExpiry_some {s : State} {e : Nat} (awake : Awake s) (dwell : s.tmon.dwell = some e)
    (untripped : s.tmon.trip = none) : execCriticalDwellExpiry s = .next (s.dwellTripped e) := by
  rw [execCriticalDwellExpiry, unlessReset_awake _ awake]
  simp only [dwell]
  rw [State.declareTrip, if_neg (by simp [State.at_, untripped])]
  rfl

theorem execCriticalDwellExpiry_none {s : State} (awake : Awake s) (stopped : s.tmon.dwell = none) :
    execCriticalDwellExpiry s = .next s := by
  rw [execCriticalDwellExpiry, unlessReset_awake _ awake]
  simp only [stopped]

section
variable (s : State) (e : Nat)

theorem State.dwellHalted_tmon : (s.dwellHalted e).tmon = (s.latched e).tmon := by simp [State.dwellHalted, State.tripHalt]
theorem State.dwellHalted_lau : (s.dwellHalted e).lau = s.lau := by simp [State.dwellHalted, State.tripHalt, State.latched]
theorem State.dwellHalted_afc : (s.dwellHalted e).afc = s.afc := by simp [State.dwellHalted, State.tripHalt, State.latched]

theorem State.dwellTripped_now : (s.dwellTripped e).now = max s.now e := by
  simp [State.dwellTripped, State.dwellHalted, State.tripHalt, State.latched]
theorem State.dwellTripped_fmon : (s.dwellTripped e).fmon = s.fmon := by
  simp [State.dwellTripped, State.dwellHalted, State.tripHalt, State.latched]
theorem State.dwellTripped_tmon : (s.dwellTripped e).tmon = (s.latched e).tmon := by
  simp [State.dwellTripped, State.dwellHalted_tmon]
theorem State.dwellTripped_irm : (s.dwellTripped e).irm = (s.dwellHalted e).irm := by simp [State.dwellTripped]
theorem State.dwellTripped_ge : (s.dwellTripped e).ge = (s.dwellHalted e).ge := by simp [State.dwellTripped]
theorem State.dwellTripped_lmc : (s.dwellTripped e).lmc = (s.dwellHalted e).lmc := by simp [State.dwellTripped]
theorem State.dwellTripped_geoInputs : (s.dwellTripped e).geoInputs = (s.dwellHalted e).geoInputs := by
  simp [State.geoInputs, State.dwellTripped]

theorem State.dwellTripped_axis (a : Axis) :
    (s.dwellTripped e).axis a = ((s.axis a).halt (((s.latched e).raise s.dwellEvent).axisEnv a) .trip).axis := by
  have lmc : (s.dwellTripped e).lmc = _ := (s.dwellTripped_lmc e).trans (State.tripHalt_lmc _)
  cases a
  · exact congrArg Lmc.v lmc
  · exact congrArg Lmc.h lmc

theorem State.dwellTripped_lau_kept : (s.dwellTripped e).lau.fault = s.lau.fault ∧ (s.dwellTripped e).lau.mode = s.lau.mode := by
  obtain ⟨fault, mode⟩ := (s.dwellHalted e).selectFans.enterSession_lau_kept .tripped .trip
  obtain ⟨-, fault', mode'⟩ := (s.dwellHalted e).selectFans_lau_kept
  rw [State.dwellHalted_lau] at fault' mode'
  exact ⟨fault.trans fault', mode.trans mode'⟩

/-- Every fan of a tripped part is at 63, with no excess (R125, R136). -/
theorem State.dwellTripped_afc (start : s.afc.startDuty ≤ 63) (kicks : EachFan s.afc FanRecord.KickFits) :
    EachFan (s.dwellTripped e).afc FanRecord.Full ∧ (s.dwellTripped e).afc.excess = 0 := by
  have due : (s.dwellHalted e).DuesFull := .inl (by rw [State.dwellHalted_tmon]; rfl)
  have first := due.full (by rwa [State.dwellHalted_afc]) (by rwa [State.dwellHalted_afc])
  obtain ⟨u, hu⟩ : ∃ u : State, u = State.raise
    { (s.dwellHalted e).selectFans with
      lau := ((s.dwellHalted e).selectFans.lau.switch (s.dwellHalted e).selectFans.now .tripped).form
        (s.dwellHalted e).selectFans.now }
    (.lightState .tripped (s.dwellHalted e).selectFans.lau.session .trip) := ⟨_, rfl⟩
  have afc : u.afc = (s.dwellHalted e).selectFans.afc := by rw [hu]; rfl
  have due' : u.DuesFull := .inl (by rw [hu, State.raise_tmon]; simp [State.dwellHalted_tmon, State.latched])
  have entered : s.dwellTripped e = u.selectFans := by rw [hu]; rfl
  have startDuty : u.afc.startDuty = s.afc.startDuty := by rw [afc, State.selectFans_afc, State.dwellHalted_afc]; rfl
  rw [entered]
  refine ⟨due'.full (by rwa [startDuty]) ?_, due'.excess⟩
  rw [afc]
  exact EachFan.of_get fun f => FanRecord.Full.kickFits (EachFan.get first f)

/-- What both processors hear of a DWELL trip, in its order (R114, R38, R150). -/
def State.dwellRaises : List Event :=
  [s.dwellEvent] ++ s.haltsRaise ++ [.lightState .tripped s.lau.session .trip]

theorem State.dwellRaises_eq : s.dwellRaises =
    [s.dwellEvent] ++ s.lmc.v.haltEvents .v .trip ++ s.lmc.h.haltEvents .h .trip ++
      (if s.lmc.v.moving || s.lmc.h.moving then [.installChanged (s.irm.generation + 1) .part] else []) ++
      [.lightState .tripped s.lau.session .trip] := by
  rw [State.dwellRaises, State.haltsRaise, ← List.append_assoc, ← List.append_assoc]

theorem State.dwellRaises_shared : ∀ x ∈ s.dwellRaises, x.Shared := by
  intro x hx
  rcases List.mem_append.mp hx with hx | hx
  · rcases List.mem_append.mp hx with hx | hx
    · obtain rfl := List.mem_singleton.mp hx
      exact shared_trip _ _ _
    · exact s.haltsRaise_shared x hx
  · obtain rfl := List.mem_singleton.mp hx
    exact shared_lightState _ _ _

theorem State.dwellTripped_ports : PortsAlike (s.raiseAll s.dwellRaises) (s.dwellTripped e) := by
  have first : PortsAlike (s.raiseAll [s.dwellEvent]) ((s.latched e).raise s.dwellEvent) := ⟨rfl, rfl⟩
  have halts : PortsAlike (State.raiseAll ((s.latched e).raise s.dwellEvent) s.haltsRaise) (s.dwellHalted e) :=
    ((s.latched e).raise s.dwellEvent).tripHalt_ports
  have session : (s.dwellHalted e).selectFans.lau.session = s.lau.session := by
    rw [((s.dwellHalted e).selectFans_lau_kept).1, State.dwellHalted_lau]
  have selected : PortsAlike (s.dwellHalted e) (s.dwellHalted e).selectFans :=
    ⟨State.selectFans_cpi _, State.selectFans_fpi _⟩
  have last : PortsAlike ((s.dwellHalted e).selectFans.raiseAll [.lightState .tripped s.lau.session .trip]) (s.dwellTripped e) := by
    rw [← session]
    exact ⟨State.selectFans_cpi _, State.selectFans_fpi _⟩
  rw [State.dwellRaises, State.raiseAll_append, State.raiseAll_append]
  exact ((((first.raiseAll _).trans halts).trans selected).raiseAll _).trans last

theorem State.dwellTripped_cpi : (s.dwellTripped e).cpi =
    { s.cpi with port := { s.cpi.port with events := raisedTo s.dwellRaises s.cpi.port.events } } :=
  (s.dwellTripped_ports e).1.trans (State.raiseAll_cpi_of_shared s.dwellRaises_shared)

theorem State.dwellTripped_fpi : (s.dwellTripped e).fpi =
    { s.fpi with port := { s.fpi.port with events := raisedTo s.dwellRaises s.fpi.port.events } } :=
  (s.dwellTripped_ports e).2.trans (State.raiseAll_fpi_of_shared s.dwellRaises_shared)

end

/-- Settles O41. -/
theorem dwellTrip : Obligations.DwellTrip := by
  intro s awake
  refine ⟨execCriticalDwellExpiry_none awake, fun e dwell untripped start kicks => ?_⟩
  have judged := execCriticalDwellExpiry_some awake dwell untripped
  obtain ⟨full, excess⟩ := s.dwellTripped_afc e start kicks
  obtain ⟨fault, mode⟩ := s.dwellTripped_lau_kept e
  have axis_ := s.dwellTripped_axis e
  have tmon := s.dwellTripped_tmon e
  have cpi := s.dwellTripped_cpi e
  have fpi := s.dwellTripped_fpi e
  have irm := (s.dwellTripped_irm e).trans (State.tripHalt_irm _)
  obtain ⟨geStill, geMoved⟩ := State.tripHalt_ge ((s.latched e).raise s.dwellEvent)
  rw [← State.dwellHalted, ← s.dwellTripped_ge, ← s.dwellTripped_geoInputs] at geMoved
  rw [← State.dwellHalted, ← s.dwellTripped_ge] at geStill
  have dark : (s.dwellTripped e).lau.Dark := State.enterTripped_dark _ _
  refine ⟨_, judged, s.dwellTripped_now e, by rw [tmon]; rfl, ?_, by rw [tmon]; rfl, by rw [tmon]; rfl,
    dark.session, dark.drive, dark.ignition, dark.coolMin, dark.coolMax, dark.slew, fault, mode, ?_, ?_, full, excess,
    fun a moving => ?_, fun a still => ?_, ?_⟩
  · have source := s.tmon.dwellZone_eq
    have temperature : s.tmon.sourceTemperature s.tmon.dwellZone = match
        [Zone.src, .panel, .lens, .supply, .intake, .exhaust].find? fun z =>
          (s.tmon.zones.get z).inUse && decide ((s.tmon.zones.get z).state = .critical) with
        | some z => (s.tmon.zones.get z).temperature | none => none := by
      rw [source]
      generalize List.find? _ _ = found
      cases found <;> rfl
    rw [tmon, cpi, fpi, State.latched, s.dwellRaises_eq, State.dwellEvent, temperature, source]
    exact ⟨rfl, rfl, rfl⟩
  · simp [State.lightEnable, dark.session, Session.lightEn]
  · simp [State.lightPwm, State.lightEnable, dark.session, Session.lightEn]
  · rw [axis_, AxisState.halt_trip_of_moving _ _ moving]
  · rw [axis_, AxisState.halt_of_still _ _ _ still]
  have record : (s.dwellTripped e).irm = if s.lmc.v.moving || s.lmc.h.moving then
      { s.irm with targetV := if s.lmc.v.moving then s.lmc.v.position else s.irm.targetV,
                   targetH := if s.lmc.h.moving then s.lmc.h.position else s.irm.targetH,
                   generation := s.irm.generation + 1, reserveControl := none, reserveFrame := none }
      else s.irm := irm
  have ports : EventsOnly s (s.dwellTripped e) := by
    rw [EventsOnly, cpi, fpi]
    exact ⟨rfl, rfl⟩
  have presets : (s.dwellTripped e).irm.presets = s.irm.presets := by rw [record]; split <;> rfl
  refine ⟨?_, ?_, ?_, ?_, ?_, ?_, fun moved => ?_, fun still => ⟨?_, geStill still⟩, geMoved, presets, ports,
    s.dwellTripped_fmon e, by rw [tmon]; rfl⟩
  all_goals rw [record]
  · split <;> rfl
  · split <;> rfl
  · split <;> rfl
  · split <;> rfl
  · cases s.lmc.v.moving <;> cases s.lmc.h.moving <;> rfl
  · cases s.lmc.v.moving <;> cases s.lmc.h.moving <;> rfl
  · rw [if_pos moved]
    exact ⟨rfl, rfl⟩
  · rw [if_neg (Bool.eq_false_iff.mp still)]

end Sys2Proof.Machine
end

