-- ==== Sys2Proof/Proofs/FramePort.lean ====
section
/-! PROOFS. What no request of the Frame Port can change (R171, R8, R172). -/

namespace Sys2Proof.Machine

/-- From one state to another everything stays that the Frame Port cannot change. -/
structure FrameLimited (s t : State) : Prop where
  orientation : t.irm.orientation = s.irm.orientation
  presets : t.irm.presets = s.irm.presets
  axes : ∀ a : Axis, (t.axis a).params = (s.axis a).params ∧ (t.axis a).trust = (s.axis a).trust ∧
    (t.axis a).pendingHome = (s.axis a).pendingHome
  session : t.lau.session = s.lau.session
  mode : t.lau.mode = s.lau.mode
  fault : t.lau.fault = s.lau.fault
  lauParams : t.lau.params = s.lau.params
  afc : t.afc = s.afc
  tmon : t.tmon = s.tmon
  tk : t.ge.tk = s.ge.tk
  tkCount : t.ge.tkCount = s.ge.tkCount
  flim : t.ge.flim = s.ge.flim
  q : t.ge.q = s.ge.q
  lapseWindow : t.fmon.lapseWindow = s.fmon.lapseWindow
  load : t.cpi.load = s.cpi.load
  address : t.cpi.address = s.cpi.address
  slot : t.cpi.port.slot = s.cpi.port.slot
  mask : t.cpi.port.mask = s.cpi.port.mask
  inReset : t.inReset = s.inReset

namespace FrameLimited

theorem refl (s : State) : FrameLimited s s :=
  ⟨rfl, rfl, fun _ => ⟨rfl, rfl, rfl⟩, rfl, rfl, rfl, rfl, rfl, rfl, rfl, rfl, rfl, rfl, rfl, rfl, rfl, rfl, rfl, rfl⟩

theorem trans {s t u : State} (h : FrameLimited s t) (g : FrameLimited t u) : FrameLimited s u where
  orientation := g.orientation.trans h.orientation
  presets := g.presets.trans h.presets
  axes a := by
    obtain ⟨params, trust, home⟩ := h.axes a
    obtain ⟨params', trust', home'⟩ := g.axes a
    exact ⟨params'.trans params, trust'.trans trust, home'.trans home⟩
  session := g.session.trans h.session
  mode := g.mode.trans h.mode
  fault := g.fault.trans h.fault
  lauParams := g.lauParams.trans h.lauParams
  afc := g.afc.trans h.afc
  tmon := g.tmon.trans h.tmon
  tk := g.tk.trans h.tk
  tkCount := g.tkCount.trans h.tkCount
  flim := g.flim.trans h.flim
  q := g.q.trans h.q
  lapseWindow := g.lapseWindow.trans h.lapseWindow
  load := g.load.trans h.load
  address := g.address.trans h.address
  slot := g.slot.trans h.slot
  mask := g.mask.trans h.mask
  inReset := g.inReset.trans h.inReset

section
variable {s t : State} (h : FrameLimited s t)
include h

/-- A part of the state that no field of the relation reads may take any value. -/
theorem setFpi (x : Fpi) : FrameLimited s { t with fpi := x } := h.trans { refl t with }

theorem setCrossing (b : Bool) : FrameLimited s (t.setCrossing .frame b) := h.setFpi _

theorem setSlot (x : Slot) : FrameLimited s (t.setSlot .frame x) := h.setFpi _

theorem setPort (x : PortState) : FrameLimited s (t.setPort .frame x) := h.setFpi _

theorem raise (e : Event) : FrameLimited s (t.raise e) :=
  h.trans { refl t with slot := by simp, mask := by simp, address := by simp, load := by simp }

theorem raiseAll (es : List Event) : FrameLimited s (t.raiseAll es) := by
  induction es generalizing t with
  | nil => exact h
  | cons e es ih => exact ih (h.raise e)

/-- The record changes but for its orientation and its presets. -/
theorem setIrm {r : Irm} (orientation : r.orientation = t.irm.orientation := by rfl)
    (presets : r.presets = t.irm.presets := by rfl) : FrameLimited s { t with irm := r } :=
  h.trans { refl t with orientation := orientation, presets := presets }

theorem changed {r : Irm} (orientation : r.orientation = t.irm.orientation) (presets : r.presets = t.irm.presets)
    (o : Originator) : FrameLimited s (Machine.changed t r o) :=
  (h.setIrm (r := { r with generation := t.irm.generation + 1, reserveControl := none, reserveFrame := none }) orientation
    presets).raise _

theorem setFmon {x : Fmon} (window : x.lapseWindow = t.fmon.lapseWindow := by rfl) : FrameLimited s { t with fmon := x } :=
  h.trans { refl t with lapseWindow := window }

theorem setLau {l : Lau} (session : l.session = t.lau.session) (mode : l.mode = t.lau.mode) (fault : l.fault = t.lau.fault)
    (params : l.params = t.lau.params) : FrameLimited s { t with lau := l } :=
  h.trans { refl t with session := session, mode := mode, fault := fault, lauParams := params }

theorem setGe {x : Ge} (tk : x.tk = t.ge.tk := by rfl) (tkCount : x.tkCount = t.ge.tkCount := by rfl)
    (flim : x.flim = t.ge.flim := by rfl) (q : x.q = t.ge.q := by rfl) : FrameLimited s { t with ge := x } :=
  h.trans { refl t with tk := tk, tkCount := tkCount, flim := flim, q := q }

theorem recompute : FrameLimited s t.recompute := by
  unfold State.recompute State.startComputation
  split <;> exact h.setGe

theorem recomputeIf (b : Bool) : FrameLimited s (t.recomputeIf b) := by
  cases b with
  | false => exact h
  | true => exact h.recompute

theorem endLapse (cause : FrameCause) : FrameLimited s (t.endLapse cause) := by
  unfold State.endLapse
  split
  · exact h.raise _
  · exact h

theorem dropRequests : FrameLimited s t.dropRequests := h.trans { refl t with }

theorem handFrameState : FrameLimited s t.handFrameState :=
  h.setLau (by simp [Lau.take]) (by simp [Lau.take]) (by simp [Lau.take]) (by simp [Lau.take])

theorem attach (width height : Nat) : FrameLimited s (t.attach width height) :=
  (((((h.setFpi _).endLapse _).setFmon).dropRequests.handFrameState).setGe).recompute

theorem detach : FrameLimited s t.detach := ((((h.setFpi _).endLapse _).setFmon).dropRequests.handFrameState).setGe

/-- Two axes change but for what the Frame Port cannot change of them. -/
theorem setLmc {l : Lmc}
    (v : l.v.params = t.lmc.v.params ∧ l.v.trust = t.lmc.v.trust ∧ l.v.pendingHome = t.lmc.v.pendingHome)
    (k : l.h.params = t.lmc.h.params ∧ l.h.trust = t.lmc.h.trust ∧ l.h.pendingHome = t.lmc.h.pendingHome) :
    FrameLimited s { t with lmc := l } :=
  h.trans { refl t with axes := fun a => by cases a; exacts [v, k] }

end

/-- A request keeps the limits that its effect keeps. -/
theorem takeRequest {kind : Byte} {s t : State} {f : State → State × Answer} (hf : FrameLimited s (f s).1)
    (h : Machine.takeRequest .frame kind s f = .next t) : FrameLimited s t :=
  takeRequest_keeps (fun _ _ hu => hu.setSlot _) (fun hs => hs.setCrossing _) (refl s) hf h

theorem judge {fields : List (Nat × Bool)} {checks : List (Bool × Status)} {refuse : State → List Byte}
    {effect : State → State × Answer} {s : State}
    (he : firstFail checks = none → FrameLimited s (effect s).1) : FrameLimited s (Machine.judge fields checks refuse effect s).1 :=
  judge_keeps (P := FrameLimited s) (refl s) fun _ => he

/-- A kind of the Control Port alone does nothing on the Frame Port (R171). -/
theorem controlOnly {fields : List (Nat × Bool)} {checks : List (Bool × Status)} {refuse : State → List Byte}
    {effect : State → State × Answer} {s : State} :
    FrameLimited s (Machine.judge fields (Machine.controlOnly .frame :: checks) refuse effect s).1 :=
  judge fun passed => absurd ((firstFail_eq_none_iff _).mp passed _ (List.mem_cons_self ..)) (by simp [Machine.controlOnly])

end FrameLimited

/-! ### Installation writes of the Frame Port (R8) -/

theorem AxisState.settle_limited (env : AxisEnv) (x : AxisState) (q : List Entry) :
    (x.settle env q).axis.params = x.params ∧ (x.settle env q).axis.trust = x.trust ∧
      (x.settle env q).axis.pendingHome = x.pendingHome := by
  induction q with
  | nil => simp [AxisState.settle]
  | cons e rest ih =>
    unfold AxisState.settle
    split
    · split
      · exact ⟨rfl, rfl, rfl⟩
      · exact ih
    · simp

theorem Write.queue_limited (w : Write) (s : State) (a : Axis) :
    (w.queue s a).params = (s.axis a).params ∧ (w.queue s a).trust = (s.axis a).trust ∧
      (w.queue s a).pendingHome = (s.axis a).pendingHome := by
  unfold Write.queue
  split <;> exact ⟨rfl, rfl, rfl⟩

theorem Write.outcome_limited (w : Write) (s : State) (a : Axis) :
    (w.outcome s a).axis.params = (s.axis a).params ∧ (w.outcome s a).axis.trust = (s.axis a).trust ∧
      (w.outcome s a).axis.pendingHome = (s.axis a).pendingHome := by
  obtain ⟨params, trust, home⟩ := w.queue_limited s a
  unfold Write.outcome AxisState.startIfIdle
  split
  · obtain ⟨params', trust', home'⟩ := AxisState.settle_limited (w.env s a) (w.queue s a) _
    exact ⟨params'.trans params, trust'.trans trust, home'.trans home⟩
  · exact ⟨params, trust, home⟩

/-- A write without an orientation field keeps the limits, refused or accepted. -/
theorem FrameLimited.write {w : Write} (s : State) (p : Port) (conditional : Bool) (orientation : w.orientation = none) :
    FrameLimited s (s.write p conditional w).1 := by
  unfold State.write
  split
  · exact (FrameLimited.refl s).setIrm (by cases p <;> rfl) (by cases p <;> rfl)
  · refine FrameLimited.judge fun _ => ?_
    change FrameLimited s (w.apply (portOriginator p) s)
    rw [Write.apply_eq_changed]
    refine (FrameLimited.raiseAll ?_ _).recomputeIf _
    have lmc := (FrameLimited.refl s).setLmc (l := ⟨(w.outcome s .v).axis, (w.outcome s .h).axis⟩) (w.outcome_limited s .v)
      (w.outcome_limited s .h)
    exact lmc.changed (r := w.record s.irm) (by simp [Write.record, orientation]) rfl _

theorem setParameter_frame (param index : Byte) (value : Word32) (s : State) :
    FrameLimited s (setParameter .frame param index value s).1 := by
  unfold setParameter
  split
  · exact .refl s
  · exact .controlOnly

theorem jogWrite_orientation (p : Port) (a : Axis) (delta : Word32) (speed : Byte) (s : State) :
    (jogWrite p a delta speed s).orientation = none := rfl

/-- The permission check of R8 lets no orientation field pass from the Frame Port. -/
theorem installWrite_orientation (presence orientation kv kh : Byte) (v k : Word32) (speed : Byte) (s : State)
    (passed : (decide (Port.frame = .control) || !bit presence 0) = true) :
    (installWrite .frame presence orientation kv kh v k speed s).orientation = none := by
  have noField : bit presence 0 = false := by simpa using passed
  simp [installWrite, noField]

/-- Settles O59. -/
theorem framePortLimits : Obligations.FramePortLimits := by
  intro c s hp t h
  have limited : FrameLimited s t := by
    have none_ := FrameLimited.refl s
    unfold exec at h
    cases c with
    | readInstall =>
      obtain rfl := Option.some.inj hp
      refine FrameLimited.takeRequest (.judge fun _ => ?_) h
      dsimp only
      split
      · exact none_.setIrm
      · exact none_
    | writeInstall =>
      obtain rfl := Option.some.inj hp
      unfold execWriteInstall at h
      refine FrameLimited.takeRequest (.judge fun passed => ?_) h
      refine FrameLimited.write s _ _ ?_
      exact installWrite_orientation _ _ _ _ _ _ _ _ ((firstFail_eq_none_iff _).mp passed _ (List.mem_singleton.mpr rfl))
    | jog =>
      obtain rfl := Option.some.inj hp
      unfold execJog at h
      refine FrameLimited.takeRequest (.judge fun _ => ?_) h
      refine FrameLimited.write s _ _ ?_
      exact jogWrite_orientation ..
    | readAxis | readPreset =>
      obtain rfl := Option.some.inj hp
      exact FrameLimited.takeRequest (.judge fun _ => none_) h
    | readThermal | readLight =>
      obtain rfl := Option.some.inj hp
      exact FrameLimited.takeRequest none_ h
    | readWarp | getEvents =>
      obtain rfl := Option.some.inj hp
      exact FrameLimited.takeRequest (none_.setPort _) h
    | setEventMask =>
      obtain rfl := Option.some.inj hp
      exact FrameLimited.takeRequest (.judge fun _ => none_.setPort _) h
    | attach =>
      obtain rfl := Option.some.inj hp
      exact FrameLimited.takeRequest (.judge fun _ => none_.attach _ _) h
    | detach =>
      obtain rfl := Option.some.inj hp
      refine FrameLimited.takeRequest (.judge fun _ => ?_) h
      dsimp only
      split
      · exact none_.detach
      · exact none_
    | lightRequest =>
      obtain rfl := Option.some.inj hp
      exact FrameLimited.takeRequest (.judge fun _ => none_.setFpi _) h
    | abortMotion =>
      obtain rfl := Option.some.inj hp
      unfold execAbortMotion at h
      exact FrameLimited.takeRequest .controlOnly h
    | home =>
      obtain rfl := Option.some.inj hp
      unfold execHome at h
      exact FrameLimited.takeRequest .controlOnly h
    | axisRecover =>
      obtain rfl := Option.some.inj hp
      unfold execAxisRecover at h
      exact FrameLimited.takeRequest .controlOnly h
    | storePreset =>
      obtain rfl := Option.some.inj hp
      unfold execStorePreset at h
      exact FrameLimited.takeRequest .controlOnly h
    | beginLoad =>
      obtain rfl := Option.some.inj hp
      unfold execBeginLoad at h
      exact FrameLimited.takeRequest .controlOnly h
    | readTable =>
      obtain rfl := Option.some.inj hp
      unfold execReadTable at h
      exact FrameLimited.takeRequest .controlOnly h
    | recallPreset | clearPreset | lightOn | lightOff | setLightMode | setQuiet | clearLightFault | endLoad | restart =>
      obtain rfl := Option.some.inj hp
      exact FrameLimited.takeRequest .controlOnly h
    | setParamAxis | setParam =>
      obtain rfl := Option.some.inj hp
      exact FrameLimited.takeRequest (setParameter_frame ..) h
    | getParam =>
      obtain rfl := Option.some.inj hp
      refine FrameLimited.takeRequest ?_ h
      split
      · exact none_
      · exact .controlOnly
    | loadSegment =>
      obtain rfl := Option.some.inj hp
      refine FrameLimited.takeRequest ?_ h
      dsimp only
      split
      · exact .controlOnly
      · exact none_
    | _ => exact absurd hp (by simp [portOf])
  exact ⟨limited.orientation, limited.presets, limited.axes, limited.session, limited.mode, limited.fault, limited.lauParams,
    limited.afc, limited.tmon, limited.tk, limited.tkCount, limited.flim, limited.q, limited.lapseWindow, limited.load,
    limited.address, limited.slot, limited.mask, limited.inReset⟩

end Sys2Proof.Machine
end

