-- ==== Sys2Proof/Proofs/Refusals.lean ====
section
/-! PROOFS. A refused request changes nothing but the slot of its port (R169, R170). -/

namespace Sys2Proof.Machine

/-- The effect of a request that is answered with a status of the second group is none, but for the statuses STALE and
TABLE_INVALID. -/
def Harmless (s : State) (r : State × Answer) : Prop :=
  0x10 ≤ statusCode r.2.status → r.2.status ≠ .stale → r.2.status ≠ .tableInvalid → r.1 = s

/-- What answers as `status` and changes nothing. -/
theorem Harmless.same (s : State) (a : Answer) : Harmless s (s, a) := fun _ _ _ => rfl

/-- The three statuses of the first group. -/
theorem Harmless.of_ok {s : State} {r : State × Answer} (h : r.2.status = .ok) : Harmless s r := fun refused => by
  rw [h] at refused
  exact absurd refused (by decide)

theorem Harmless.of_accepted {s : State} {r : State × Answer} (h : r.2.status = .accepted) : Harmless s r := fun refused => by
  rw [h] at refused
  exact absurd refused (by decide)

theorem Harmless.of_clamped {s : State} {r : State × Answer} (h : r.2.status = .clamped) : Harmless s r := fun refused => by
  rw [h] at refused
  exact absurd refused (by decide)

theorem Harmless.judge {fields : List (Nat × Bool)} {checks : List (Bool × Status)} {refuse : State → List Byte}
    {effect : State → State × Answer} {s : State} (he : Harmless s (effect s)) :
    Harmless s (Machine.judge fields checks refuse effect s) := by
  rcases judge_cases fields checks refuse effect s with ⟨_, -, h⟩ | ⟨_, -, -, h⟩ | ⟨-, -, h⟩ <;> rw [h]
  · exact Harmless.same _ _
  · exact Harmless.same _ _
  · exact he

theorem Harmless.write (s : State) (p : Port) (conditional : Bool) (w : Write) : Harmless s (s.write p conditional w) := by
  unfold State.write
  split
  · exact fun _ stale => absurd rfl stale
  · refine Harmless.judge ?_
    obtain h | h | h : w.status s = .clamped ∨ w.status s = .ok ∨ w.status s = .accepted := by
      unfold Write.status
      split
      · exact .inl rfl
      · split
        · exact .inr (.inl rfl)
        · exact .inr (.inr rfl)
    · exact .of_clamped h
    · exact .of_ok h
    · exact .of_accepted h

/-- A request whose effect is harmless keeps the statement. -/
theorem Harmless.takeRequest {p : Port} {kind : Byte} {s t : State} {f : State → State × Answer} (hf : Harmless s (f s))
    (listens : Listens s) (h : Machine.takeRequest p kind s f = .next t) (kind' : Byte) (status : Status) (body : List Byte)
    (slot : (t.port p).slot = .pending kind' status body) (refused : 0x10 ≤ statusCode status) (stale : status ≠ .stale)
    (invalid : status ≠ .tableInvalid) : t = answered s p kind' status body := by
  rw [takeRequest_listens listens] at h
  obtain rfl := Host.Outcome.next.inj h
  rw [State.setSlot_slot_self] at slot
  obtain ⟨rfl, rfl, rfl⟩ := Slot.pending.inj slot
  rw [hf refused stale invalid]

theorem State.lightOn_harmless (s : State) : Harmless s s.lightOn := by
  unfold State.lightOn
  cases s.lau.session with
  | tripped | ignition | lit | cooldown => exact .same _ _
  | standby =>
    dsimp only
    split
    · exact .same _ _
    · exact .of_accepted rfl

theorem setParameter_harmless (p : Port) (param index : Byte) (value : Word32) (s : State) :
    Harmless s (setParameter p param index value s) := by
  unfold setParameter
  split
  · exact .same _ _
  · exact .judge (.of_ok rfl)

/-- Settles O4. -/
theorem refusedRequestsChangeNothing : Obligations.RefusedRequestsChangeNothing := by
  intro c p s hp listens t h
  unfold exec at h
  cases c with
  | readThermal | readLight | readWarp | getEvents =>
    obtain rfl := Option.some.inj hp
    exact Harmless.takeRequest (.of_ok rfl) listens h
  | readInstall | readAxis | readPreset | setEventMask | attach | detach | lightRequest | clearPreset | lightOff
  | setLightMode | setQuiet | clearLightFault | restart =>
    obtain rfl := Option.some.inj hp
    exact Harmless.takeRequest (.judge (.of_ok rfl)) listens h
  | writeInstall =>
    obtain rfl := Option.some.inj hp
    unfold execWriteInstall at h
    refine Harmless.takeRequest (.judge ?_) listens h
    exact Harmless.write s _ _ _
  | jog =>
    obtain rfl := Option.some.inj hp
    unfold execJog at h
    refine Harmless.takeRequest (.judge ?_) listens h
    exact Harmless.write s _ _ _
  | recallPreset =>
    obtain rfl := Option.some.inj hp
    refine Harmless.takeRequest (.judge ?_) listens h
    split
    · exact .write s _ _ _
    · exact .same _ _
  | storePreset =>
    obtain rfl := Option.some.inj hp
    unfold execStorePreset at h
    refine Harmless.takeRequest (.judge ?_) listens h
    dsimp only
    split
    · exact .of_ok rfl
    · split
      · exact .of_clamped rfl
      · exact .of_ok rfl
  | abortMotion =>
    obtain rfl := Option.some.inj hp
    unfold execAbortMotion at h
    exact Harmless.takeRequest (.judge (.of_ok rfl)) listens h
  | home =>
    obtain rfl := Option.some.inj hp
    unfold execHome at h
    exact Harmless.takeRequest (.judge (.of_accepted rfl)) listens h
  | axisRecover =>
    obtain rfl := Option.some.inj hp
    unfold execAxisRecover at h
    exact Harmless.takeRequest (.judge (.of_ok rfl)) listens h
  | beginLoad =>
    obtain rfl := Option.some.inj hp
    unfold execBeginLoad at h
    exact Harmless.takeRequest (.judge (.of_ok rfl)) listens h
  | readTable =>
    obtain rfl := Option.some.inj hp
    unfold execReadTable at h
    exact Harmless.takeRequest (.judge (.of_ok rfl)) listens h
  | lightOn =>
    obtain rfl := Option.some.inj hp
    exact Harmless.takeRequest (.judge s.lightOn_harmless) listens h
  | setParamAxis | setParam =>
    obtain rfl := Option.some.inj hp
    exact Harmless.takeRequest (setParameter_harmless _ _ _ _ s) listens h
  | getParam =>
    obtain rfl := Option.some.inj hp
    refine Harmless.takeRequest ?_ listens h
    split
    · exact .same _ _
    · exact .judge (.of_ok rfl)
  | loadSegment =>
    obtain rfl := Option.some.inj hp
    refine Harmless.takeRequest ?_ listens h
    split
    · exact .judge (.of_accepted rfl)
    · exact .same _ _
  | endLoad =>
    obtain rfl := Option.some.inj hp
    refine Harmless.takeRequest (.judge ?_) listens h
    split
    · exact .same _ _
    · split
      · exact fun _ _ invalid => absurd rfl invalid
      · exact .of_ok rfl
  | _ => exact absurd hp (by simp [portOf])

end Sys2Proof.Machine
end

