-- ==== Sys2Proof/Proofs/Counting.lean ====
section
/-! PROOFS. Installation changes are counted (R3, R4, R5): how many an operation makes, and what each leaves. -/

namespace Sys2Proof.Machine

/-- From one state to another a number of installation changes are made: each counts the generation on, ends both reservations
and is told in both event sets; with none the record stays. -/
structure Counts (n : Nat) (s t : State) : Prop where
  generation : t.irm.generation = s.irm.generation + BitVec.ofNat 16 n
  same : n = 0 → t.irm = s.irm
  ended : n ≠ 0 → t.irm.reserveControl = none ∧ t.irm.reserveFrame = none ∧ t.Told
  told : s.Told → t.Told

/-- At most so many installation changes are made. -/
def CountsAtMost (m : Nat) (s t : State) : Prop := ∃ n ≤ m, Counts n s t

namespace Counts

theorem zero {s t : State} (irm : t.irm = s.irm) (told : s.Told → t.Told) : Counts 0 s t :=
  ⟨by rw [irm]; simp, fun _ => irm, fun h => absurd rfl h, told⟩

theorem refl (s : State) : Counts 0 s s := zero rfl id

theorem trans {s t u : State} {m n : Nat} (h : Counts m s t) (g : Counts n t u) : Counts (m + n) s u where
  generation := by rw [g.generation, h.generation, BitVec.add_assoc, ← BitVec.ofNat_add]
  same hn := (g.same (by omega)).trans (h.same (by omega))
  ended hn := by
    by_cases hz : n = 0
    · obtain ⟨control, frame, told⟩ := h.ended (by omega)
      rw [g.same hz]
      exact ⟨control, frame, g.told told⟩
    · exact g.ended hz
  told hs := g.told (h.told hs)

/-- One installation change. -/
theorem changed (s : State) (r : Irm) (o : Originator) : Counts 1 s (Machine.changed s r o) where
  generation := rfl
  same h := absurd h (by decide)
  ended _ := ⟨rfl, rfl, (PortState.told_place_iff _ _ _).mpr (.inl ⟨rfl, rfl⟩),
    (PortState.told_place_iff _ _ _).mpr (.inl ⟨rfl, rfl⟩)⟩
  told h := State.Told.raise (s := { s with irm := _ }) h _

end Counts

namespace CountsAtMost

theorem refl (s : State) : CountsAtMost 0 s s := ⟨0, Nat.le_refl 0, .refl s⟩

theorem mono {s t : State} {m n : Nat} (h : CountsAtMost m s t) (hmn : m ≤ n) : CountsAtMost n s t := by
  obtain ⟨k, hk, h⟩ := h
  exact ⟨k, hk.trans hmn, h⟩

theorem trans {s t u : State} {m n : Nat} (h : CountsAtMost m s t) (g : CountsAtMost n t u) : CountsAtMost (m + n) s u := by
  obtain ⟨j, hj, h⟩ := h
  obtain ⟨k, hk, g⟩ := g
  exact ⟨j + k, Nat.add_le_add hj hk, h.trans g⟩

/-- What no change is made by may follow. -/
theorem after {s t u : State} {m : Nat} (h : CountsAtMost m s t) (irm : u.irm = t.irm := by rfl)
    (told : t.Told → u.Told := by exact id) : CountsAtMost m s u := h.trans ⟨0, Nat.le_refl 0, .zero irm told⟩

theorem aside {s t u : State} {m : Nat} (h : CountsAtMost m s t) (g : Aside t u) : CountsAtMost m s u := h.after g.irm g.told

theorem raiseAll {s t : State} {m : Nat} (h : CountsAtMost m s t) (es : List Event) : CountsAtMost m s (t.raiseAll es) :=
  h.aside ((Aside.refl t).raiseAll es)

theorem recomputeIf {s t : State} {m : Nat} (h : CountsAtMost m s t) (b : Bool) : CountsAtMost m s (t.recomputeIf b) :=
  h.aside ((Aside.refl t).recomputeIf b)

/-- One installation change. -/
theorem changed (s : State) (r : Irm) (o : Originator) : CountsAtMost 1 s (Machine.changed s r o) :=
  ⟨1, Nat.le_refl 1, .changed s r o⟩

theorem partChange (s : State) (v h : Option Int) : CountsAtMost 1 s (s.partChange v h) := by
  rw [State.partChange_eq]
  split
  · exact (refl s).mono (by decide)
  · exact changed s _ _

theorem deliver (s : State) (v h : LensOut) : CountsAtMost 1 s (s.deliver v h) := by
  have start : CountsAtMost 0 s (State.raiseAll { s with lmc := ⟨v.axis, h.axis⟩ } (v.events ++ h.events)) :=
    (refl s).after.raiseAll _
  exact (start.trans (partChange _ _ _)).raiseAll _

/-- Axes that change no target make no change. -/
theorem deliver_none (s : State) {v h : LensOut} (hv : v.change = none) (hh : h.change = none) :
    CountsAtMost 0 s (s.deliver v h) := by
  rw [State.deliver, hv, hh]
  exact ((refl s).after.raiseAll _).raiseAll _

theorem deliverOne (s : State) (a : Axis) (o : LensOut) : CountsAtMost 1 s (s.deliverOne a o) := by
  cases a <;> exact deliver _ _ _

theorem axisEvent (s : State) (a : Axis) (f : AxisEnv → AxisState → LensOut) : CountsAtMost 1 s (s.axisEvent a f) :=
  (deliverOne _ _ _).recomputeIf _

theorem lensEvent (s : State) (f : Axis → AxisEnv → AxisState → LensOut) : CountsAtMost 2 s (s.lensEvent f) :=
  ((deliver _ _ _).trans (deliver _ _ _)).recomputeIf _

theorem thermalStop (s : State) : CountsAtMost 2 s s.thermalStop := lensEvent _ _

theorem tripHalt (s : State) : CountsAtMost 1 s s.tripHalt := by
  rw [State.tripHalt_eq]
  have start : CountsAtMost 0 s (State.raiseAll { s with lmc := ⟨s.halted .v, s.halted .h⟩ }
      (s.lmc.v.haltEvents .v .trip ++ s.lmc.h.haltEvents .h .trip)) := (refl s).after.raiseAll _
  exact (start.trans (partChange _ _ _)).recomputeIf _

/-- The trip halt of a part whose axes stand still. -/
theorem tripHalt_still {s : State} (h : ∀ a, (s.axis a).moving = false) : CountsAtMost 0 s s.tripHalt := by
  have v : s.lmc.v.moving = false := h .v
  have k : s.lmc.h.moving = false := h .h
  rw [State.tripHalt_eq, v, k]
  exact ((refl s).after.raiseAll _).recomputeIf _

theorem declareTrip (s : State) (cause : TripCause) (zone : Source) : CountsAtMost 1 s (s.declareTrip cause zone) := by
  unfold State.declareTrip
  split
  · exact (refl s).mono (by decide)
  · have start : CountsAtMost 0 s (State.raise { s with tmon := { s.tmon with
        trip := some ⟨cause, zone, s.tmon.sourceTemperature zone⟩, dwell := none } }
        (.trip cause zone (s.tmon.sourceTemperature zone))) := (refl s).after.aside ((Aside.refl _).raise _)
    exact (start.trans (tripHalt _)).aside (((Aside.refl _).selectFans).enterSession _ _)

theorem declareTrip_still {s : State} (h : ∀ a, (s.axis a).moving = false) (cause : TripCause) (zone : Source) :
    CountsAtMost 0 s (s.declareTrip cause zone) := by
  unfold State.declareTrip
  split
  · exact refl s
  · have start : CountsAtMost 0 s (State.raise { s with tmon := { s.tmon with
        trip := some ⟨cause, zone, s.tmon.sourceTemperature zone⟩, dwell := none } }
        (.trip cause zone (s.tmon.sourceTemperature zone))) := (refl s).after.aside ((Aside.refl _).raise _)
    exact (start.trans (tripHalt_still h)).aside (((Aside.refl _).selectFans).enterSession _ _)

theorem checkAbsolute (s : State) : CountsAtMost 1 s s.checkAbsolute := by
  unfold State.checkAbsolute
  split
  · exact declareTrip _ _ _
  · exact (refl s).mono (by decide)

theorem checkAbsolute_still {s : State} (h : ∀ a, (s.axis a).moving = false) : CountsAtMost 0 s s.checkAbsolute := by
  unfold State.checkAbsolute
  split
  · exact declareTrip_still h _ _
  · exact refl s

end CountsAtMost

/-! ### The evaluation of a scan (R109) -/

/-- Forming the device thermal state makes no change of the record or the axes, or is a thermal stop of a CRITICAL part. -/
theorem State.formDevice_cases (s : State) :
    (CountsAtMost 0 s s.formDevice ∧ s.formDevice.lmc = s.lmc) ∨
      ∃ u : State, u.tmon.device = .critical ∧ u.lmc = s.lmc ∧ CountsAtMost 0 s u ∧ CountsAtMost 0 u.thermalStop s.formDevice ∧
        s.formDevice.lmc = u.thermalStop.lmc := by
  obtain ⟨c, hc⟩ : ∃ c, c = State.raise
      { s with tmon := { s.tmon with device := s.tmon.formDevice, dwell := s.tmon.dwellAfter s.now s.tmon.formDevice } }
      (.thermalState s.tmon.formDevice s.tmon.device (s.tmon.sourceOf s.tmon.formDevice)) := ⟨_, rfl⟩
  have start : CountsAtMost 0 s c := by
    rw [hc]
    exact (CountsAtMost.refl s).after.aside ((Aside.refl _).raise _)
  have formed : s.formDevice =
      if s.tmon.formDevice = s.tmon.device then s
      else
        let u := (if s.tmon.formDevice = .critical then c.thermalStop else c).selectFans
        { u with lau := { u.lau with held := { u.lau.held with device := s.tmon.formDevice } } } := by
    rw [hc]
    rfl
  have rest : ∀ u : State, Aside u { u.selectFans with
      lau := { u.selectFans.lau with held := { u.selectFans.lau.held with device := s.tmon.formDevice } } } := fun u =>
    ((Aside.refl u).selectFans).setLau _
  rw [formed]
  split
  · exact .inl ⟨CountsAtMost.refl s, rfl⟩
  · by_cases hot : s.tmon.formDevice = .critical
    · rw [if_pos hot]
      refine .inr ⟨c, by rw [hc]; exact hot, by rw [hc]; rfl, start, (CountsAtMost.refl _).aside (rest _), (rest _).lmc⟩
    · rw [if_neg hot]
      refine .inl ⟨start.aside (rest _), (rest c).lmc.trans (by rw [hc]; rfl)⟩

theorem CountsAtMost.formDevice (s : State) : CountsAtMost 2 s s.formDevice := by
  rcases s.formDevice_cases with ⟨none_, -⟩ | ⟨u, -, -, start, rest, -⟩
  · exact none_.mono (by decide)
  · exact (start.trans (CountsAtMost.thermalStop u)).trans rest

theorem CountsAtMost.evaluate (s : State) (bus : BusCondition) : CountsAtMost 3 s (s.evaluate bus) := by
  rw [State.evaluate_eq]
  have start : CountsAtMost 0 s { s with tmon := { s.tmon.evaluateZones with scan := none, bus := bus } } :=
    (CountsAtMost.refl s).after
  exact ((start.trans (CountsAtMost.formDevice _)).trans (CountsAtMost.checkAbsolute _)).aside
    (Aside.refl _).countScan.handResults

/-! ### A part with an axis in FAULT -/

/-- An axis is in FAULT. -/
def State.OneDown (s : State) : Prop := ∃ a, (s.axis a).motion = .fault

theorem State.OneDown.congr {s t : State} (h : s.OneDown) (lmc : t.lmc = s.lmc) : t.OneDown := by
  obtain ⟨a, ha⟩ := h
  refine ⟨a, ?_⟩
  cases a <;> simpa [State.axis, lmc] using ha

/-- A queue that may not start leaves the axis where it stands. -/
theorem AxisState.settle_cold {env : AxisEnv} (x : AxisState) (cold : env.canRun = false) (q : List Entry) :
    (x.settle env q).axis.motion = x.motion := by
  cases q <;> simp [AxisState.settle, cold]

/-- A stop that ends on an axis that may not run leaves it standing. -/
theorem AxisState.endStop_still {env : AxisEnv} (x : AxisState) (cold : env.canRun = false) (st : Stop) :
    (x.endStop env st).axis.motion = .idle := by
  have settles : ∀ y : AxisState, y.afterStop env = y.settle env y.queue := fun y => if_neg (by simp [cold])
  change (AxisState.afterStop env _).axis.motion = _
  rw [settles, AxisState.settle_cold _ cold]

/-- A change at the end of a stop of no microstep means that the stop has ended, and an axis that may not run stands still. -/
theorem AxisState.endIfStopped_still {env : AxisEnv} {x : AxisState} (cold : env.canRun = false)
    (h : (x.endIfStopped env).change ≠ none) : (x.endIfStopped env).axis.moving = false := by
  unfold AxisState.endIfStopped at h ⊢
  split at h
  · split at h
    · rename_i hr
      rw [if_pos hr, AxisState.moving, AxisState.endStop_still x cold]
    · exact absurd rfl h
  all_goals exact absurd rfl h

/-- An event of both axes before the stops of no microstep end: the action, and at most one change. -/
def State.acted (s : State) (f : Axis → AxisEnv → AxisState → LensOut) : State :=
  s.deliver (f .v (s.axisEnv .v) (s.axis .v)) (f .h (s.axisEnv .h) (s.axis .h))

theorem State.acted_axis (s : State) (f : Axis → AxisEnv → AxisState → LensOut) (a : Axis) :
    (s.acted f).axis a = (f a (s.axisEnv a) (s.axis a)).axis := by
  cases a <;> simp [State.acted, State.axis]

theorem State.lensEvent_eq_acted (s : State) (f : Axis → AxisEnv → AxisState → LensOut) :
    ∃ b, s.lensEvent f =
      ((s.acted f).deliver (((s.acted f).axis .v).endIfStopped ((s.acted f).axisEnv .v))
        (((s.acted f).axis .h).endIfStopped ((s.acted f).axisEnv .h))).recomputeIf b :=
  ⟨_, rfl⟩

theorem State.lensEvent_axis (s : State) (f : Axis → AxisEnv → AxisState → LensOut) (a : Axis) :
    (s.lensEvent f).axis a = (((s.acted f).axis a).endIfStopped ((s.acted f).axisEnv a)).axis := by
  obtain ⟨b, e⟩ := s.lensEvent_eq_acted f
  rw [e]
  cases a <;> simp [State.axis]

/-- An axis that the action leaves in FAULT has no stop to end. -/
theorem AxisState.endIfStopped_of_fault {x : AxisState} (h : x.motion = .fault) (env : AxisEnv) :
    x.endIfStopped env = { axis := x } := by rw [AxisState.endIfStopped, h]

theorem Axis.eq_of_ne_of_ne {a b c : Axis} (ha : a ≠ c) (hb : b ≠ c) : a = b := by
  cases a <;> cases b <;> cases c <;> simp_all

/-- The thermal stop of a part with an axis in FAULT makes one change, or two and leaves no axis moving. -/
theorem State.OneDown.thermalStop {s : State} (h : s.OneDown) (hot : s.tmon.device = .critical) :
    CountsAtMost 1 s s.thermalStop ∨ CountsAtMost 2 s s.thermalStop ∧ ∀ a, (s.thermalStop.axis a).moving = false := by
  obtain ⟨down, fault⟩ := h
  obtain ⟨t, ht⟩ : ∃ t, t = s.acted fun _ env x => x.thermalStop env := ⟨_, rfl⟩
  have first : CountsAtMost 1 s t := ht ▸ CountsAtMost.deliver _ _ _
  obtain ⟨b, stopped⟩ := s.lensEvent_eq_acted fun _ env x => x.thermalStop env
  have after := s.lensEvent_axis fun _ env x => x.thermalStop env
  rw [← ht] at stopped after
  have fault' : (t.axis down).motion = .fault := by
    rw [ht, State.acted_axis, AxisState.thermalStop, fault]
    exact fault
  by_cases quiet : ∀ a, ((t.axis a).endIfStopped (t.axisEnv a)).change = none
  · left
    rw [State.thermalStop, stopped]
    exact (first.trans (CountsAtMost.deliver_none t (quiet .v) (quiet .h))).recomputeIf b
  · right
    refine ⟨.thermalStop s, fun a => ?_⟩
    obtain ⟨other, changes⟩ := not_forall.mp quiet
    have apart : other ≠ down := fun e => changes (by rw [e, AxisState.endIfStopped_of_fault fault'])
    have cold : (t.axisEnv other).canRun = false := by simp [State.axisEnv, ht, State.acted, hot]
    rw [State.thermalStop, after]
    by_cases ha : a = down
    · rw [ha, AxisState.endIfStopped_of_fault fault', AxisState.moving, fault']
    · obtain rfl := Axis.eq_of_ne_of_ne ha apart
      exact AxisState.endIfStopped_still cold changes

/-- The evaluation of a part with an axis in FAULT makes at most two changes. -/
theorem State.OneDown.evaluate {s : State} (h : s.OneDown) (bus : BusCondition) : CountsAtMost 2 s (s.evaluate bus) := by
  rw [State.evaluate_eq]
  obtain ⟨u, hu⟩ : ∃ u : State, u = { s with tmon := { s.tmon.evaluateZones with scan := none, bus := bus } } := ⟨_, rfl⟩
  have start : CountsAtMost 0 s u := by rw [hu]; exact (CountsAtMost.refl s).after
  have down : u.OneDown := h.congr (by rw [hu])
  rw [← hu]
  suffices CountsAtMost 2 u u.formDevice.checkAbsolute from (start.trans this).aside (Aside.refl _).countScan.handResults
  rcases u.formDevice_cases with ⟨none_, -⟩ | ⟨c, hot, lmc, start', rest, lmc'⟩
  · exact (none_.trans (CountsAtMost.checkAbsolute _)).mono (by decide)
  · rcases (down.congr lmc).thermalStop hot with one | ⟨two, still⟩
    · exact ((start'.trans one).trans rest).trans (CountsAtMost.checkAbsolute _)
    · have still' : ∀ a, (u.formDevice.axis a).moving = false := fun a => by
        have := still a
        cases a <;> simpa [State.axis, lmc'] using this
      exact ((start'.trans two).trans rest).trans (CountsAtMost.checkAbsolute_still still')

/-! ### The scan (R100, R103, R104) -/

/-- The next slot of a scan makes no change, or is the evaluation. -/
theorem State.nextSlot_cases (s : State) (slots : List Nat) (worst : BusCondition) (bus : BusSample) :
    Aside s (s.nextSlot slots worst bus) ∨
      ∃ (u : State) (found : BusCondition), Aside s u ∧ s.nextSlot slots worst bus = u.evaluate found := by
  cases slots with
  | nil => exact .inr ⟨s, worst, .refl s, rfl⟩
  | cons n rest =>
    rw [State.nextSlot_cons]
    split
    · exact .inr ⟨_, _, Aside.failStuck s _, rfl⟩
    · exact .inl .of_quiet

namespace CountsAtMost

/-- What no change is made by may come first. -/
theorem before {s t u : State} {m : Nat} (h : Aside s t) (g : CountsAtMost m t u) : CountsAtMost m s u :=
  Nat.zero_add m ▸ ((refl s).aside h).trans g

theorem nextSlot (s : State) (slots : List Nat) (worst : BusCondition) (bus : BusSample) :
    CountsAtMost 3 s (s.nextSlot slots worst bus) := by
  rcases s.nextSlot_cases slots worst bus with quiet | ⟨u, found, quiet, e⟩
  · exact ((refl s).aside quiet).mono (by decide)
  · rw [e]
    exact before quiet (evaluate u found)

theorem startScan (s : State) (bus : BusSample) : CountsAtMost 3 s (s.startScan bus) :=
  before (.beginScan s _) (nextSlot _ _ _ _)

theorem finishSlot (s : State) (outcome : Int → Except ReadCause Int) (bus : BusSample) :
    CountsAtMost 3 s (s.finishSlot outcome bus) := by
  rcases s.finishSlot_cases outcome bus with e | ⟨n, rest, worst, -, e⟩ <;> rw [e]
  · exact (refl s).mono (by decide)
  · exact before (.finishRead s _ _) (nextSlot _ _ _ _)

end CountsAtMost

/-- The scan that starts on a part with an axis in FAULT makes at most two changes. -/
theorem State.OneDown.startScan {s : State} (h : s.OneDown) (bus : BusSample) : CountsAtMost 2 s (s.startScan bus) := by
  refine .before (.beginScan s (s.tmon.nextScan.getD s.now)) ?_
  rcases State.nextSlot_cases { s with tmon := s.tmon.beginScan (s.tmon.nextScan.getD s.now) } (enabledSlots s.tmon.table)
    .clear bus with quiet | ⟨u, found, quiet, e⟩
  · exact ((CountsAtMost.refl _).aside quiet).mono (by decide)
  · rw [State.startScan_eq, e]
    exact .before quiet ((h.congr quiet.lmc).evaluate found)

/-! ### Fan stalls and recoveries (R134, R135) -/

namespace CountsAtMost

theorem handStalled (s : State) (f : Fan) (b : Bool) : CountsAtMost 2 s (s.handStalled f b) :=
  (before (.of_quiet) (formDevice _)).aside ((Aside.refl _).lauTake _)

theorem stallFan (s : State) (f : Fan) : CountsAtMost 2 s (s.stallFan f) :=
  before (((Aside.refl s).setFan f _).raise _) (handStalled _ _ _)

theorem recoverFan (s : State) (f : Fan) (fall : Nat) (x : FanRecord) : CountsAtMost 2 s (s.recoverFan f fall x) :=
  before (((Aside.refl s).setFan f _).raise _) (handStalled _ _ _)

end CountsAtMost

/-! ### The end of hard reset (R180) -/

/-- What the end of hard reset does to an axis: with its driver at fault it enters FAULT. -/
def faultFound (_ : Axis) (env : AxisEnv) (x : AxisState) : LensOut := if x.drvFlt then x.driverFault env else { axis := x }

theorem AxisState.driverFault_motion (env : AxisEnv) (x : AxisState) : (x.driverFault env).axis.motion = .fault := by
  cases h : x.motion <;> simp [AxisState.driverFault, h]

/-- At the end of hard reset an axis is in FAULT, or the drivers made no change. -/
theorem State.faultFound_cases (s : State) : (s.lensEvent faultFound).OneDown ∨ CountsAtMost 1 s (s.lensEvent faultFound) := by
  by_cases clear : ∀ a, (s.axis a).drvFlt = false
  · right
    have quiet : ∀ a, (faultFound a (s.axisEnv a) (s.axis a)).change = none := fun a => by simp [faultFound, clear a]
    obtain ⟨b, e⟩ := s.lensEvent_eq_acted faultFound
    rw [e]
    exact ((CountsAtMost.deliver_none s (quiet .v) (quiet .h)).trans (.deliver _ _ _)).recomputeIf b
  · left
    obtain ⟨a, active⟩ := not_forall.mp clear
    have fault : ((s.acted faultFound).axis a).motion = .fault := by
      rw [State.acted_axis, faultFound, if_pos (by simpa using active), AxisState.driverFault_motion]
    exact ⟨a, by rw [State.lensEvent_axis, AxisState.endIfStopped_of_fault fault, fault]⟩

/-- The drivers found at fault and the first scan make at most four changes together. -/
theorem CountsAtMost.faultsThenScan (s : State) (bus : BusSample) :
    CountsAtMost 4 s ((s.lensEvent faultFound).startScan bus) := by
  rcases s.faultFound_cases with down | one
  · exact (CountsAtMost.lensEvent s _).trans (down.startScan bus)
  · exact one.trans (CountsAtMost.startScan _ bus)

end Sys2Proof.Machine
end

