-- ==== Sys2Proof/Proofs/RecordChanges.lean ====
section
/-! PROOFS. A step's changes of the record are counted and announced (R3, R4, R5): the requests, the other commands, the step. -/

namespace Sys2Proof.Machine

/-! ### What a command leaves of the record -/

/-- Orientation, codes, targets and generation stay, and a reservation stays, ends or is made of the present generation. -/
structure RecordKept (s t : State) : Prop where
  generation : t.irm.generation = s.irm.generation
  orientation : t.irm.orientation = s.irm.orientation
  kv : t.irm.kv = s.irm.kv
  kh : t.irm.kh = s.irm.kh
  targetV : t.irm.targetV = s.irm.targetV
  targetH : t.irm.targetH = s.irm.targetH
  reservations : ∀ p, t.irm.reservation p = s.irm.reservation p ∨ t.irm.reservation p = none ∨
    t.irm.reservation p = some t.irm.generation

/-- The record is kept, or at most four installation changes are made: counted, told in both event sets, with both reservations
ended. -/
def Counted (s t : State) : Prop :=
  ∃ n ≤ 4, t.irm.generation = s.irm.generation + BitVec.ofNat 16 n ∧ (n = 0 → RecordKept s t) ∧
    (n ≠ 0 → t.irm.reserveControl = none ∧ t.irm.reserveFrame = none ∧ t.Told)

namespace RecordKept

theorem of_irm {s t : State} (h : t.irm = s.irm := by rfl) : RecordKept s t := by
  constructor <;> simp [h]

theorem trans {s t u : State} (h : RecordKept s t) (g : RecordKept t u) : RecordKept s u where
  generation := g.generation.trans h.generation
  orientation := g.orientation.trans h.orientation
  kv := g.kv.trans h.kv
  kh := g.kh.trans h.kh
  targetV := g.targetV.trans h.targetV
  targetH := g.targetH.trans h.targetH
  reservations p := by
    rcases g.reservations p with same | ended | made
    · rw [same, g.generation]
      exact h.reservations p
    · exact .inr (.inl ended)
    · exact .inr (.inr made)

/-- A reservation ends, or is made of the present generation (R5, R6). -/
theorem setReservation (s : State) (p : Port) {g : Option Word16} (h : g = none ∨ g = some s.irm.generation) :
    RecordKept s { s with irm := s.irm.setReservation p g } := by
  constructor
  case reservations =>
    intro q
    cases p <;> cases q <;> simp [Irm.setReservation, Irm.reservation, h]
  all_goals cases p <;> rfl

theorem setPreset (s : State) (slot : Byte) (x : Option Preset) : RecordKept s (s.setPreset slot x) :=
  ⟨rfl, rfl, rfl, rfl, rfl, rfl, fun p => .inl (by cases p <;> rfl)⟩

theorem counted {s t : State} (h : RecordKept s t) : Counted s t :=
  ⟨0, by decide, by simpa using h.generation, fun _ => h, fun hn => absurd rfl hn⟩

end RecordKept

theorem CountsAtMost.counted {s t : State} {m : Nat} (h : CountsAtMost m s t) (hm : m ≤ 4 := by decide) : Counted s t := by
  obtain ⟨n, hn, h⟩ := h
  exact ⟨n, hn.trans hm, h.generation, fun hz => .of_irm (h.same hz), h.ended⟩

namespace Counted

theorem of_irm {s t : State} (h : t.irm = s.irm := by rfl) : Counted s t := (RecordKept.of_irm h).counted

theorem refl (s : State) : Counted s s := of_irm

/-- Before the changes the record may be kept. -/
theorem before {s t u : State} (kept : RecordKept s t) (h : Counted t u) : Counted s u := by
  obtain ⟨n, hn, generation, same, ended⟩ := h
  exact ⟨n, hn, by rw [generation, kept.generation], fun hz => kept.trans (same hz), ended⟩

/-- After the changes the record may stay, with what the event sets tell. -/
theorem after {s t u : State} (h : Counted s t) (irm : u.irm = t.irm) (told : t.Told → u.Told) : Counted s u := by
  obtain ⟨n, hn, generation, same, ended⟩ := h
  refine ⟨n, hn, by rw [irm, generation], fun hz => (same hz).trans (.of_irm irm), fun hz => ?_⟩
  obtain ⟨control, frame, tells⟩ := ended hz
  rw [irm]
  exact ⟨control, frame, told tells⟩

theorem aside {s t u : State} (h : Counted s t) (g : Aside t u) : Counted s u := h.after g.irm g.told

theorem takeRequest {p : Port} {kind : Byte} {s t : State} {f : State → State × Answer} (hf : Counted s (f s).1)
    (h : Machine.takeRequest p kind s f = .next t) : Counted s t :=
  takeRequest_keeps (P := Counted s) (fun u x hu => hu.aside ((Aside.refl u).setSlot p x))
    (fun hs => hs.aside ((Aside.refl s).setCrossing p false)) (refl s) hf h

theorem judge {fields : List (Nat × Bool)} {checks : List (Bool × Status)} {refuse : State → List Byte}
    {effect : State → State × Answer} {s : State} (he : Counted s (effect s).1) :
    Counted s (Machine.judge fields checks refuse effect s).1 :=
  judge_keeps (P := Counted s) (refl s) fun _ _ => he

theorem unlessReset {s t : State} {f : State → State} (hf : Counted s (f s)) (h : Machine.unlessReset s f = .next t) :
    Counted s t :=
  unlessReset_keeps (P := Counted s) (refl s) (fun _ => hf) h

end Counted

/-! ### Requests -/

/-- An accepted write is one installation change. -/
theorem Write.apply_counted (w : Write) (o : Originator) (s : State) : Counted s (w.apply o s) := by
  rw [Write.apply_eq_changed]
  refine .before (t := { s with lmc := ⟨(w.outcome s .v).axis, (w.outcome s .h).axis⟩ }) .of_irm ?_
  exact (((CountsAtMost.changed _ _ _).raiseAll _).recomputeIf _).counted

/-- A write is accepted, or leaves the record but for the caller's reservation (R9). -/
theorem State.write_counted (s : State) (p : Port) (conditional : Bool) (w : Write) :
    Counted s (s.write p conditional w).1 := by
  unfold State.write
  split
  · exact (RecordKept.setReservation s p (.inl rfl)).counted
  · refine .judge ?_
    exact w.apply_counted _ s

/-- A parameter is no part of the record (R21, R192). -/
theorem setParameter_counted (p : Port) (param index : Byte) (value : Word32) (s : State) :
    Counted s (setParameter p param index value s).1 := by
  unfold setParameter
  split
  · exact .refl s
  · rename_i n _
    refine .judge (.of_irm ?_)
    cases n with
    | block b => exact (((Aside.refl s).storeBlock b _).paramEffect b).irm
    | axis a b => exact s.setAxis_irm a _

/-- RESTART is one installation change of a record whose reservations have ended (R178). -/
theorem State.restart_counted (s : State) : Counted s s.restart := by
  have cleared : RecordKept s s.cleared := ⟨rfl, rfl, rfl, rfl, rfl, rfl, fun p => .inr (.inl (by cases p <;> rfl))⟩
  rw [State.restart_eq]
  have halted : CountsAtMost 0 s.cleared
      (State.raiseAll { s.cleared with lmc := ⟨s.restarted .v, s.restarted .h⟩ } s.restartEvents) :=
    (CountsAtMost.refl _).after.raiseAll _
  exact .before cleared ((halted.trans (.changed _ _ _)).recomputeIf true).counted

/-- The requests that reach an axis or the record. -/
theorem counted_of_request {c : Instr} {p : Port} {s t : State} (hp : portOf c = some p) (hc : reachesLens c = true)
    (h : exec c s = .next t) : Counted s t := by
  unfold exec at h
  cases c with
  | readInstall p reserve =>
    refine .takeRequest (.judge ?_) h
    dsimp only
    split
    · exact (RecordKept.setReservation s p (.inr rfl)).counted
    · exact .refl s
  | writeInstall =>
    unfold execWriteInstall at h
    refine .takeRequest ?_ h
    exact .judge (s.write_counted _ _ _)
  | jog =>
    unfold execJog at h
    refine .takeRequest ?_ h
    exact .judge (s.write_counted _ _ _)
  | getEvents p => exact .takeRequest (.of_irm (by cases p <;> rfl)) h
  | abortMotion =>
    unfold execAbortMotion at h
    exact .takeRequest (.judge (CountsAtMost.lensEvent s _).counted) h
  | home =>
    unfold execHome at h
    exact .takeRequest (.judge (CountsAtMost.lensEvent s _).counted) h
  | axisRecover =>
    unfold execAxisRecover at h
    exact .takeRequest (.judge .of_irm) h
  | storePreset =>
    unfold execStorePreset at h
    exact .takeRequest (.judge (RecordKept.setPreset s _ _).counted) h
  | recallPreset =>
    refine .takeRequest (.judge ?_) h
    split
    · exact s.write_counted _ _ _
    · exact .refl s
  | clearPreset => exact .takeRequest (.judge (RecordKept.setPreset s _ _).counted) h
  | setParamAxis => exact .takeRequest (setParameter_counted _ _ _ _ s) h
  | setParam => exact .takeRequest (setParameter_counted _ _ _ _ s) h
  | restart => exact .takeRequest (.judge s.restart_counted) h
  | _ => simp [reachesLens, portOf] at hc hp

/-- A request makes counted changes. -/
theorem request_counted {c : Instr} {s t : State} (hp : (portOf c).isSome = true) (h : exec c s = .next t) : Counted s t := by
  obtain ⟨p, hp⟩ := Option.isSome_iff_exists.mp hp
  cases hc : reachesLens c with
  | false => exact (Counted.refl s).aside (aside_of_exec hc h)
  | true => exact counted_of_request hp hc h

/-! ### The other commands -/

namespace Counted

/-- Changes that follow an operation with the record at rest. -/
theorem of_counts {s u t : State} {m : Nat} (h : CountsAtMost m u t) (irm : u.irm = s.irm := by rfl)
    (hm : m ≤ 4 := by decide) : Counted s t := .before (.of_irm irm) (h.counted hm)

end Counted

theorem State.endReset_counted (s : State) (ports : PortsFound) (bus : BusSample) : Counted s (s.endReset ports bus) := by
  obtain ⟨u, hu⟩ : ∃ u, u = (State.setCrossing { s with inReset := false, cpi := .reset ports.cpAsel } .control
    ports.controlBusy).setCrossing .frame ports.frameBusy := ⟨_, rfl⟩
  have ends : s.endReset ports bus = (u.lensEvent faultFound).startScan bus := by rw [hu]; rfl
  rw [ends]
  exact .of_counts (CountsAtMost.faultsThenScan u bus) (by rw [hu]; rfl)

/-- The commands, no requests, that reach an axis; a hard reset is no counted change (R180). -/
theorem counted_of_command {c : Instr} {s t : State} (hp : portOf c = none) (hc : reachesLens c = true)
    (hr : ∀ ns, c ≠ .hardReset ns) (h : exec c s = .next t) : Counted s t := by
  unfold exec at h
  cases c with
  | malformedRequest p bytes =>
    rcases execMalformedRequest_cases p bytes s with e | ⟨kind, cause, e⟩ | ⟨i, hi, e⟩ <;>
      replace h := e.symm.trans h
    · obtain rfl := Host.Outcome.next.inj h
      exact .refl s
    · exact .takeRequest (.refl s) h
    · exact request_counted hi h
  | hardReset ns => exact absurd rfl (hr ns)
  | hardResetEnd ports bus =>
    obtain rfl := Host.Outcome.next.inj h
    split
    · exact s.endReset_counted ports bus
    · exact .refl s
  | stepTimerExpiry a =>
    refine .unlessReset ?_ h
    split
    · exact .of_counts (CountsAtMost.axisEvent _ a _) (by simp)
    · exact .refl s
  | endStopEdge a stop active =>
    obtain rfl := Host.Outcome.next.inj h
    exact .of_irm (s.setAxis_irm a _)
  | refMkEdge a rising =>
    obtain rfl := Host.Outcome.next.inj h
    split
    · exact .of_counts (CountsAtMost.axisEvent _ a _) (s.setAxis_irm a _)
    · exact .of_irm (s.setAxis_irm a _)
  | drvFlt a active =>
    obtain rfl := Host.Outcome.next.inj h
    split
    · exact .of_counts (CountsAtMost.axisEvent _ a _) (s.setAxis_irm a _)
    · exact .of_irm (s.setAxis_irm a _)
  | holdTimerExpiry a =>
    refine .unlessReset ?_ h
    split
    · exact .of_irm (by simp)
    · exact .refl s
  | scanStart bus => exact .unlessReset (.of_counts (CountsAtMost.startScan _ bus)) h
  | slotReadDone result bus => exact .unlessReset (CountsAtMost.finishSlot s _ _).counted h
  | probeBusTimeout timedOut => exact .unlessReset (CountsAtMost.finishSlot s _ _).counted h
  | criticalDwellExpiry =>
    refine .unlessReset ?_ h
    split
    · exact .of_counts (CountsAtMost.declareTrip _ _ _)
    · exact .refl s
  | tachEdgeAccepted f fall low =>
    refine .unlessReset ?_ h
    dsimp only
    split
    · split
      · exact .of_counts (CountsAtMost.recoverFan _ _ _ _)
      · exact .of_irm
    · exact .refl s
  | graceTimerExpiry f =>
    refine .unlessReset ?_ h
    dsimp only
    split
    · split
      · exact .of_irm
      · exact .of_counts (CountsAtMost.stallFan _ _)
    · exact .refl s
  | edgeTimerExpiry f =>
    refine .unlessReset ?_ h
    dsimp only
    split
    · split
      · exact .of_counts (CountsAtMost.stallFan _ _)
      all_goals exact .of_irm
    · exact .refl s
  | _ => simp [reachesLens, portOf] at hc hp

/-- Every command but a hard reset makes counted changes. -/
theorem exec_counted {c : Instr} {s t : State} (hr : ∀ ns, c ≠ .hardReset ns) (h : exec c s = .next t) : Counted s t := by
  cases hc : reachesLens c with
  | false => exact (Counted.refl s).aside (aside_of_exec hc h)
  | true =>
    cases hp : portOf c with
    | some p => exact counted_of_request hp hc h
    | none => exact counted_of_command hp hc hr h

/-! ### The step -/

/-- A step makes counted changes, but where it takes a hard reset, which resets the record or leaves it (R180). -/
theorem step_counted {s t : State} (h : step s = .next t) :
    Counted s t ∨ (∃ low rest, s.pending = .hardReset low :: rest) ∧ (t.irm = .reset ∨ t.irm = s.irm) := by
  unfold step at h
  split at h
  · obtain rfl := Host.Outcome.next.inj h
    exact .inl .of_irm
  · rename_i i rest pending
    by_cases hr : ∃ ns, i = .hardReset ns
    · obtain ⟨ns, rfl⟩ := hr
      refine .inr ⟨⟨ns, rest, pending⟩, ?_⟩
      obtain rfl := Host.Outcome.next.inj h
      dsimp only
      split <;> split <;> first | exact .inl rfl | exact .inr rfl
    · exact .inl (.before (t := { s with pending := rest }) .of_irm (exec_counted (not_exists.mp hr) h))

/-- Counted changes leave each VALID reservation with the present generation. -/
theorem Counted.reservationsCurrent {s t : State} (h : Counted s t) (hs : ReservationsCurrent s) : ReservationsCurrent t := by
  obtain ⟨n, -, -, same, ended⟩ := h
  intro p g hg
  by_cases hz : n = 0
  · have kept := same hz
    rcases kept.reservations p with e | e | e <;> rw [e] at hg
    · rw [kept.generation]
      exact hs p g hg
    · exact absurd hg nofun
    · exact (Option.some.inj hg).symm
  · obtain ⟨control, frame, -⟩ := ended hz
    cases p <;> simp [Irm.reservation, control, frame] at hg

theorem PortState.any_of_told {x : PortState} (h : x.Told) :
    x.events.any (fun e => decide (e.event.kind = .installChanged)) = true := by
  simpa [PortState.Told] using h

/-- Settles O58: a step makes at most four installation changes, and each counts the generation on, ends the reservations and
is told. -/
theorem recordChangesAreCounted : Obligations.RecordChangesAreCounted := by
  intro s
  refine ⟨fun hs t h => ?_, fun soft t h => ?_⟩
  · rcases step_counted h with counted | ⟨-, reset | same⟩
    · exact counted.reservationsCurrent hs
    · intro p g hg
      rw [reset] at hg
      cases p <;> simp [Irm.reservation, Irm.reset] at hg
    · unfold ReservationsCurrent
      rw [same]
      exact hs
  · rcases step_counted h with ⟨n, hn, generation, same, ended⟩ | ⟨⟨low, rest, pending⟩, -⟩
    · refine ⟨n, by simp; omega, generation, fun hz => ?_, fun hz => ?_⟩
      · obtain ⟨-, orientation, kv, kh, targetV, targetH, -⟩ := same hz
        exact ⟨orientation, kv, kh, targetV, targetH⟩
      · obtain ⟨control, frame, told⟩ := ended hz
        exact ⟨control, frame, PortState.any_of_told told.1, PortState.any_of_told told.2⟩
    · exact absurd pending (soft low rest)

end Sys2Proof.Machine
end

