-- ==== Sys2Proof/Proofs/Coils.lean ====
section
/-! PROOFS. The coil outputs (R39, R40, R41). -/

namespace Sys2Proof.Machine

/-! ### The quarter-wave table (R39) -/

theorem quarter_le (j : Nat) : quarter j ≤ 255 := by
  have entries : ∀ q ∈ quarterWave, q ≤ 255 := by decide
  unfold quarter
  rw [List.getD_eq_getElem?_getD]
  cases h : quarterWave[j]? with
  | none => exact Nat.zero_le 255
  | some q => exact entries q (List.mem_of_getElem? h)

/-- A microstep index lies in one of four quadrants. -/
theorem quadrant_lt (i : BitVec 6) : i.toNat / 16 < 4 := by
  have := i.isLt
  omega

/-- A quarter cycle further the place within the quadrant is the same, and the quadrant is the next. -/
theorem quarter_cycle (i : BitVec 6) :
    (i + 16).toNat % 16 = i.toNat % 16 ∧ (i + 16).toNat / 16 = (i.toNat / 16 + 1) % 4 := by
  have sum : (i + 16).toNat = (i.toNat + 16) % 64 := BitVec.toNat_add i 16
  omega

/-- Coil B follows coil A a quarter cycle behind (R39). -/
theorem coilB_quarter_on (i : BitVec 6) : coilB (i + 16) = coilA i := by
  obtain ⟨place, quadrant⟩ := quarter_cycle i
  have := quadrant_lt i
  unfold coilA coilB
  rw [place, quadrant]
  interval_cases i.toNat / 16 <;> rfl

theorem coilA_magnitude_le (i : BitVec 6) : (coilA i).magnitude ≤ 255 := by
  have := quadrant_lt i
  unfold coilA
  interval_cases i.toNat / 16 <;> exact quarter_le _

theorem coilB_magnitude_le (i : BitVec 6) : (coilB i).magnitude ≤ 255 := by
  have := quadrant_lt i
  unfold coilB
  interval_cases i.toNat / 16 <;> exact quarter_le _

/-- The phase line of coil A is high in the first and the last quadrant. -/
theorem coilA_positive (i : BitVec 6) : (coilA i).positive = decide (i.toNat / 16 = 0 ∨ i.toNat / 16 = 3) := by
  have := quadrant_lt i
  unfold coilA
  interval_cases i.toNat / 16 <;> rfl

/-- The phase line of coil B is high in the first and the second quadrant. -/
theorem coilB_positive (i : BitVec 6) : (coilB i).positive = decide (i.toNat / 16 = 0 ∨ i.toNat / 16 = 1) := by
  have := quadrant_lt i
  unfold coilB
  interval_cases i.toNat / 16 <;> rfl

/-! ### Levels (R39, R40) -/

theorem Coil.natAbs_value (c : Coil) : c.value.natAbs = c.magnitude := by
  cases c with
  | mk positive magnitude => cases positive <;> simp [Coil.value]

theorem Coil.level_le {c : Coil} (h : c.magnitude ≤ 255) (level : Nat) : c.level level ≤ level :=
  Nat.div_le_of_le_mul (Nat.mul_le_mul_right level h)

/-- The gravity level counts for V in CEILING alone, and not in OFF (R40). -/
theorem currentLevel_of_ceiling {x : AxisState} (h : x.phase ≠ .off) :
    currentLevel .v .ceiling x = max (x.params.phaseLevel x.phase) (x.params.iGrav.getD 0) := by
  unfold currentLevel
  cases hp : x.phase with
  | off => exact absurd hp h
  | run => rfl
  | hold => rfl
  | rest => rfl

/-- Settles O30: quadrant by quadrant of the microstep index. -/
theorem coilDrive : Obligations.CoilDrive := by
  refine ⟨fun i => ⟨coilB_quarter_on i, ?_⟩, fun i level => ?_, fun s a => ?_, fun x => ⟨fun o => ?_, ?_, ?_, ?_⟩⟩
  · have := quadrant_lt i
    unfold coilA coilB
    dsimp only
    interval_cases i.toNat / 16 <;> rfl
  · exact ⟨Coil.level_le (coilA_magnitude_le i) level, Coil.level_le (coilB_magnitude_le i) level⟩
  · simp only [Coil.natAbs_value, ← coilA_positive, ← coilB_positive]
    rfl
  · rfl
  · rfl
  · intro off
    unfold currentLevel
    rw [off]
  · intro g grav on
    rw [currentLevel_of_ceiling on, grav]
    rfl

end Sys2Proof.Machine
end

