-- ==== Sys2Proof/Proofs/Legs.lean ====
section
/-! PROOFS. The plan of a move's legs (R28, R29) and the periods of a leg (R30, R31). -/

namespace Sys2Proof.Machine

/-! ### The plan (R28, R29) -/

theorem preloadOf_eq (a : Axis) (o : Orientation) (x : AxisParams) :
    preloadOf a o x =
      if a = .v ∧ o = .ceiling then (match x.preload with | .minus => .plus | .plus => .minus) else x.preload := by
  cases a <;> cases o <;> cases h : x.preload <;> simp [preloadOf, h, Dir.opposite]

/-- The way to a target ends there: no overshoot is asked for, or none is possible (R29). -/
def AxisEnv.endsMove (env : AxisEnv) (x : AxisState) (e : Entry) (u : Dir) : Prop :=
  x.params.backlash = 0 ∨ u = preloadOf env.axis env.orientation x.params ∨ x.overshoot u e.target = e.target

/-- Away from its target the axis runs a final leg to it, or an overshoot leg to the point beyond it. -/
theorem AxisEnv.planLeg_of_ne {env : AxisEnv} {x : AxisState} {e : Entry} (away : x.position ≠ e.target) (number : Nat) :
    let u : Dir := if x.position < e.target then .plus else .minus
    (env.endsMove x e u → env.planLeg x e number = some (env.makeLeg x e.speed number .final e.target)) ∧
      (¬ env.endsMove x e u →
        env.planLeg x e number = some (env.makeLeg x e.speed number .overshoot (x.overshoot u e.target))) := by
  intro u
  unfold AxisEnv.planLeg
  rw [if_neg away]
  exact ⟨fun h => if_pos h, fun h => if_neg h⟩

theorem AxisState.overshoot_eq (x : AxisState) (u : Dir) (target : Int) :
    x.overshoot u target =
      let beyond := target + (match u with | .minus => -1 | .plus => 1) * x.params.backlash
      if x.trust = .homed then max 0 (min (x.params.travel : Int) beyond) else beyond := by
  cases u <;> rfl

/-! ### The periods (R30, R31) -/

/-- A ramp period lies between the run period and the start period. -/
theorem AxisParams.rampPeriod_mem {x : AxisParams} {pRun j : Nat} (run : pRun ≤ x.pStart) (ramp : j ≤ x.nRamp) :
    pRun ≤ x.rampPeriod pRun j ∧ x.rampPeriod pRun j ≤ x.pStart := by
  have drop : j * (x.pStart - pRun) / x.nRamp ≤ x.pStart - pRun :=
    Nat.div_le_of_le_mul (Nat.mul_le_mul_right _ ramp)
  exact ⟨(Nat.sub_sub_self run).symm.trans_le (Nat.sub_le_sub_left drop _), Nat.sub_le ..⟩

section
variable {x : AxisParams} {l : Leg} {k : Nat}

/-- Speeding up, the ramp index is the number of the microstep. -/
theorem Leg.rampIndex_of_accelerating (acc : l.nAcc ≤ l.n / 2) (hk : k < l.nAcc) : l.rampIndex k = k := by
  unfold Leg.rampIndex
  omega

/-- Slowing down, it is the number of microsteps still to come. -/
theorem Leg.rampIndex_of_decelerating (acc : l.nAcc ≤ l.n / 2) (hk : l.n - l.nAcc ≤ k) (more : k < l.n) :
    l.rampIndex k = l.n - 1 - k := by
  unfold Leg.rampIndex
  omega

theorem Leg.rampIndex_of_cruising (hk : l.nAcc ≤ k) (more : k < l.n - l.nAcc) : l.rampIndex k = l.nAcc := by
  unfold Leg.rampIndex
  omega

theorem Leg.period_of_ramp (h : l.rampIndex k < l.nAcc) : l.period x k = x.rampPeriod l.pRun (l.rampIndex k) := if_pos h

theorem Leg.period_of_cruising (h : l.rampIndex k = l.nAcc) : l.period x k = l.pRun := if_neg (by omega)

/-- Every period of a leg lies between its run period and the start period. -/
theorem Leg.period_mem (acc : l.nAcc ≤ x.nRamp) (run : l.pRun ≤ x.pStart) (k : Nat) :
    l.pRun ≤ l.period x k ∧ l.period x k ≤ x.pStart := by
  by_cases h : l.rampIndex k < l.nAcc
  · rw [Leg.period_of_ramp h]
    exact AxisParams.rampPeriod_mem run (by omega)
  · have cruising : l.period x k = l.pRun := if_neg h
    omega

end

/-- Settles O29. -/
theorem legs : Obligations.Legs := by
  refine ⟨?_, ?_⟩
  · intro env x e number u preload beyond held final slowest
    refine ⟨(env.planLeg_eq_none_iff x e number).mpr, fun away => ?_⟩
    have overshoot : x.overshoot u e.target = held := AxisState.overshoot_eq ..
    have preload_ : preloadOf env.axis env.orientation x.params = preload := preloadOf_eq ..
    have ends : env.endsMove x e u ↔ final := or_congr Iff.rfl (or_congr (by rw [preload_]) (by rw [overshoot]))
    have run : env.effectiveRun x.params e.speed = slowest (match e.speed with
        | .slow => x.params.pRunSlow | .normal => x.params.pRunNormal | .fast => x.params.pRunFast) := by
      unfold AxisEnv.effectiveRun
      cases e.speed <;> rfl
    obtain ⟨straight, beyond_⟩ := AxisEnv.planLeg_of_ne (env := env) away number
    rw [overshoot] at beyond_
    by_cases h : final
    · exact ⟨_, straight (ends.mpr h), rfl, rfl, fun _ => ⟨rfl, rfl⟩, fun no => absurd h no, rfl, rfl, rfl, run⟩
    · exact ⟨_, beyond_ (mt ends.mp h), rfl, rfl, fun yes => absurd yes h, fun _ => ⟨rfl, rfl⟩, rfl, rfl, rfl, run⟩
  · intro x l k _ acc more run ramp
    have half : l.nAcc ≤ l.n / 2 := acc ▸ Nat.min_le_right ..
    have whole : l.nAcc ≤ x.nRamp := acc ▸ Nat.min_le_left ..
    refine ⟨fun hk => ?_, fun hk => ?_, fun hk late => ?_, Leg.period_mem whole run k⟩
    · have index := Leg.rampIndex_of_accelerating half hk
      rw [Leg.period_of_ramp (by omega), index]
      rfl
    · have index := Leg.rampIndex_of_decelerating half hk more
      rw [Leg.period_of_ramp (by omega), index]
      rfl
    · exact Leg.period_of_cruising (Leg.rampIndex_of_cruising hk late)

end Sys2Proof.Machine
end

