-- ==== Sys2Proof/Proofs/AxisParameters.lean ====
section
/-! PROOFS. SET_PARAM of an axis parameter (R21, R22). -/

namespace Sys2Proof.Machine

/-! ### A parameter and its value (R21, R196) -/

theorem within_iff (x : Int) (r : Int × Int) : within x r = true ↔ r.1 ≤ x ∧ x ≤ r.2 := by
  simp [within]

/-- No axis parameter takes a negative value. -/
theorem AxisParams.range_fst_nonneg (x : AxisParams) (p : AxisParam) : 0 ≤ (x.range p).1 := by
  cases p <;> simp only [AxisParams.range] <;> decide

/-- A parameter holds the value that replaced it; the gravity level only where the axis has one. -/
theorem AxisParams.value_replace_self {x : AxisParams} {p : AxisParam} {value : Int} (h : within value (x.range p) = true)
    (grav : p = .iGrav → x.iGrav.isSome = true) : (x.replace p value).value p = value := by
  obtain ⟨least, most⟩ := (within_iff _ _).mp h
  have nonneg := least.trans' (x.range_fst_nonneg p)
  have stored : ((value.toNat : Nat) : Int) = value := Int.toNat_of_nonneg nonneg
  cases p with
  | preload =>
    have value_ : value = 0 ∨ value = 1 := by
      simp only [AxisParams.range] at most
      omega
    rcases value_ with rfl | rfl <;> rfl
  | iGrav =>
    obtain ⟨g, hg⟩ := Option.isSome_iff_exists.mp (grav rfl)
    simpa [AxisParams.value, AxisParams.replace, hg] using nonneg
  | _ => exact stored

theorem AxisParams.value_replace_of_ne (x : AxisParams) {p other : AxisParam} (value : Int) (h : other ≠ p) :
    (x.replace p value).value other = x.value other := by
  cases p <;> cases other <;> first | rfl | exact absurd rfl h

/-- Axis H has no gravity level, and no code and index name one (R196). -/
theorem axis_v_of_iGrav {code index : Byte} {a : Axis} (h : paramOf code index = .ok (.axis a .iGrav)) : a = .v := by
  unfold paramOf at h
  cases hp : axisParamOf code with
  | none =>
    rw [hp] at h
    cases hb : blockParamOf code index <;> rw [hb] at h <;> cases h
  | some p =>
    rw [hp] at h
    cases hx : readAxis index with
    | none =>
      rw [hx] at h
      cases h
    | some b =>
      rw [hx] at h
      dsimp only at h
      split at h
      · cases h
      · rename_i named
        cases h
        cases a with
        | v => rfl
        | h => exact absurd ⟨rfl, rfl⟩ named

/-! ### The checks and the effect (R22) -/

/-- A parameter set agrees with its partners and with where a HOMED axis stands (R22). -/
theorem AxisParams.consistent_iff (x : AxisParams) (trust : Trust) (position : Int) :
    x.consistent trust position = true ↔
      x.pRunSlow ≤ x.pStart ∧ x.pRunNormal ≤ x.pStart ∧ x.pRunFast ≤ x.pStart ∧ x.centre ≤ x.travel ∧ x.refPos ≤ x.travel ∧
        (trust = .homed → position ≤ x.travel) := by
  have homed : (trust != .homed || decide (position ≤ x.travel)) = true ↔ (trust = .homed → position ≤ x.travel) := by
    rw [Bool.or_eq_true, bne_iff_ne, decide_eq_true_iff, imp_iff_not_or]
  simp only [AxisParams.consistent, Bool.and_eq_true, decide_eq_true_iff, homed, and_assoc]

/-- An axis is IDLE with an empty queue. -/
theorem AxisState.still_iff (x : AxisState) :
    (x.motion.mode = .idle && x.queue.isEmpty : Bool) = true ↔ x.motion = .idle ∧ x.queue = [] := by
  rw [Bool.and_eq_true, decide_eq_true_iff, List.isEmpty_iff]
  cases x.motion <;> simp [Motion.mode]

theorem execSetParamAxis_eq {s : State} {code index : Byte} {n : ParamName} (named : paramOf code index = .ok n)
    (value : Word32) :
    execSetParamAxis .control code index value s =
      takeRequest .control 0x40 s
        (judge [] (controlOnly .control :: s.paramChecks n value.toInt) (fun s => s32 (s.paramValue n)) fun s =>
          let t := s.setParam n value.toInt
          (t, ⟨.ok, s32 (t.paramValue n)⟩)) := by
  unfold execSetParamAxis takeRequest setParameter
  rw [named]

/-- Settles O48. -/
theorem axisParameters : Obligations.AxisParameters := by
  intro code index value a p s h named x y inRange partners still held
  have taken : exec (.setParamAxis .control code index value) s = _ := execSetParamAxis_eq named value
  rw [taken]
  have range_ : within value.toInt (x.params.range p) = true ↔ inRange := within_iff _ _
  have partners_ : y.consistent x.trust x.position = true ↔ partners := AxisParams.consistent_iff ..
  have still_ : (x.motion.mode = .idle && x.queue.isEmpty : Bool) = true ↔ still := AxisState.still_iff x
  have checks : firstFail (controlOnly .control :: s.paramChecks (.axis a p) value.toInt) =
      if inRange ∧ partners then if still then none else some .busy else some .outOfRange := by
    simp only [controlOnly, State.paramChecks, firstFail_cons, firstFail_nil, decide_true, if_true]
    change (if within value.toInt (x.params.range p) = true then if y.consistent x.trust x.position = true then
      if (x.motion.mode = .idle && x.queue.isEmpty : Bool) = true then _ else _ else _ else _) = _
    simp only [range_, partners_, still_, ite_and]
  refine ⟨taken, fun bad => ?_, fun range partners busy => ?_, fun range partners free => ⟨?_, ?_, fun other ne => ?_⟩⟩
  · exact request_refused h rfl (checks.trans (if_neg bad))
  · exact request_refused h rfl ((checks.trans (if_pos ⟨range, partners⟩)).trans (if_neg busy))
  · have passed := (checks.trans (if_pos ⟨range, partners⟩)).trans (if_pos free)
    rw [request_passed h rfl passed]
    simp only [State.setParam, State.paramValue, State.setAxis_axis_self]
    rfl
  · exact fun grav => AxisParams.value_replace_self (range_.mpr range) fun hp => grav (axis_v_of_iGrav (hp ▸ named))
  · exact AxisParams.value_replace_of_ne _ _ ne

end Sys2Proof.Machine
end

