-- ==== Sys2Proof/Proofs/LensUpkeep.lean ====
section
/-! PROOFS. The axes a request names (R34, R47, R61); AXIS_RECOVER, READ_AXIS, the hold timer and the end-stop lines (R40, R44,
R54, R61). -/

namespace Sys2Proof.Machine

/-! ### The axes a request names -/

theorem eachNamed_iff (named : Bool × Bool) (p : Axis → Bool) :
    eachNamed named p = true ↔ ∀ a, namesAxis named a = true → p a = true := by
  have each : (∀ a, namesAxis named a = true → p a = true) ↔
      (named.1 = true → p .v = true) ∧ (named.2 = true → p .h = true) :=
    ⟨fun h => ⟨h .v, h .h⟩, fun h a => by
      cases a
      · exact h.1
      · exact h.2⟩
  rw [each, eachNamed, Bool.and_eq_true]
  cases named.1 <;> cases named.2 <;> simp

theorem eachNamed_eq_false_iff (named : Bool × Bool) (p : Axis → Bool) :
    eachNamed named p = false ↔ ∃ a, namesAxis named a = true ∧ p a = false := by
  rw [← Bool.not_eq_true, eachNamed_iff]
  simp

theorem namedAxes_of_read {axes : Byte} {named : Bool × Bool} (h : readAxes axes = some named) : namedAxes axes = named := by
  rw [namedAxes, h]
  rfl

theorem Motion.mode_eq_fault_iff (m : Motion) : m.mode = .fault ↔ m = .fault := by
  cases m <;> simp [Motion.mode]

/-! ### AXIS_RECOVER (R61) -/

theorem AxisState.recover_eq (x : AxisState) :
    x.recover = if x.motion = .fault then { x with motion := .idle, queue := [], phase := .rest, holdTimer := none } else x := by
  unfold AxisState.recover
  cases h : x.motion <;> simp

/-- The check of AXIS_RECOVER fails exactly at a named axis in FAULT whose driver is still at fault. -/
theorem recoverCheck_eq_false_iff (named : Bool × Bool) (s : State) :
    (eachNamed named fun a => (s.axis a).motion.mode ≠ .fault || !(s.axis a).drvFlt) = false ↔
      ∃ a, namesAxis named a = true ∧ (s.axis a).motion = .fault ∧ (s.axis a).drvFlt = true := by
  simp [eachNamed_eq_false_iff, Motion.mode_eq_fault_iff]

theorem execAxisRecover_eq {axes : Byte} {named : Bool × Bool} (axes_ : readAxes axes = some named) (s : State) :
    execAxisRecover .control axes s =
      takeRequest .control 0x22 s
        (judge [(0, true)]
          [controlOnly .control, (eachNamed named fun a => (s.axis a).motion.mode ≠ .fault || !(s.axis a).drvFlt, .faulted)]
          (·.recoverReply named) fun s =>
            let t := { s with lmc := ⟨if named.1 then s.lmc.v.recover else s.lmc.v,
                                      if named.2 then s.lmc.h.recover else s.lmc.h⟩ }
            (t, ⟨.ok, t.recoverReply named⟩)) := by
  rw [execAxisRecover, namedAxes_of_read axes_, axes_]
  rfl

/-! ### READ_AXIS (R44) -/

theorem execReadAxis_of_axis {s : State} (h : Listens s) (p : Port) {code : Byte} {a : Axis} (code_ : readAxis code = some a) :
    execReadAxis p code s = .next (answered s p 0x04 .ok (s.axisReply a)) := by
  rw [execReadAxis, code_]
  exact request_passed h

theorem execReadAxis_of_fault {s : State} (h : Listens s) (p : Port) {code : Byte} (code_ : readAxis code = none) :
    execReadAxis p code s = .next (answered s p 0x04 .badRequest [3, 0]) := by
  rw [execReadAxis, code_]
  exact request_fault h rfl

/-! ### The hold timer (R40) and the end-stop lines (R54) -/

theorem AxisState.holdExpired_of_hold {x : AxisState} (h : x.phase = .hold) :
    x.holdExpired = { x with phase := .rest, holdTimer := none } := by
  rw [AxisState.holdExpired, h]

theorem execHoldTimerExpiry_of_stopped {s : State} (awake : Awake s) {a : Axis} (stopped : (s.axis a).holdTimer = none) :
    execHoldTimerExpiry a s = .next s := by
  rw [execHoldTimerExpiry, unlessReset_awake _ awake, stopped]

theorem execHoldTimerExpiry_of_running {s : State} (awake : Awake s) {a : Axis} {e : Nat}
    (running : (s.axis a).holdTimer = some e) :
    execHoldTimerExpiry a s = .next ((s.at_ e).setAxis a (s.axis a).holdExpired) := by
  rw [execHoldTimerExpiry, unlessReset_awake _ awake, running]

/-- An end-stop line of a part that runs: its level, and on activation its flag. -/
theorem execEndStopEdge_awake {s : State} (awake : Awake s) (a : Axis) (stop : EndStop) (active : Bool) :
    execEndStopEdge a stop active s = .next (s.setAxis a (match stop with
      | .lo => { s.axis a with endLo := active, flagLo := (s.axis a).flagLo || active }
      | .hi => { s.axis a with endHi := active, flagHi := (s.axis a).flagHi || active })) := by
  unfold execEndStopEdge AxisState.endStopEdge
  rw [awake]
  cases stop <;> cases active <;> rfl

/-- Settles O23. -/
theorem lensUpkeep : Obligations.LensUpkeep := by
  intro s awake
  refine ⟨fun axes named h axes_ => ?_, fun p code a h => execReadAxis_of_axis h p, fun p code h => execReadAxis_of_fault h p,
    fun a => ⟨execHoldTimerExpiry_of_stopped awake, fun e running hold => ?_⟩, fun a => ⟨?_, ?_, ?_, ?_⟩⟩
  · have taken : exec (.axisRecover .control axes) s = _ := execAxisRecover_eq axes_ s
    rw [taken]
    refine ⟨fun bad => ⟨_, request_refused h rfl (by rw [(recoverCheck_eq_false_iff named s).mpr bad]; rfl)⟩, ?_⟩
    intro good after
    have fine := mt (recoverCheck_eq_false_iff named s).mp fun ⟨a, named_, fault, driver⟩ =>
      Bool.false_ne_true ((good a named_ fault).symm.trans driver)
    rw [Bool.not_eq_false] at fine
    have after_ : ∀ a, after a = if namesAxis named a then (s.axis a).recover else s.axis a := fun a => by
      rw [AxisState.recover_eq, ← ite_and]
    rw [request_passed h rfl (by rw [fine]; rfl), after_, after_]
    exact ⟨_, rfl⟩
  · have taken : exec (.holdTimerExpiry a) s = _ := execHoldTimerExpiry_of_running awake running
    rw [taken, AxisState.holdExpired_of_hold hold]
    rfl
  all_goals
    refine (execEndStopEdge_awake awake a _ _).trans ?_
    simp

end Sys2Proof.Machine
end

