-- ==== Sys2Proof/Proofs/StepTimer.lean ====
section
/-! PROOFS. What an event of one axis does to the part, the microstep of a leg or a stop, and how each ends (R25, R26, R29, R32,
R35, R36, R48). -/

namespace Sys2Proof.Machine

/-! ### An event of one axis (R14, R83) -/

/-- The part after an axis has done something: its record, the events before its change of the target, that change, the events
after it, the trigger. -/
def State.delivered (s : State) (a : Axis) (o : LensOut) : State :=
  let t := (s.setAxis a o.axis).raiseAll o.events
  ((match o.change with
    | none => t
    | some p => changed t (retarget s.irm a p) .part).raiseAll o.later).recomputeIf o.trigger

theorem State.axisEvent_eq {s : State} {a : Axis} {f : AxisEnv → AxisState → LensOut} {o : LensOut}
    (h : f (s.axisEnv a) (s.axis a) = o) : s.axisEvent a f = s.delivered a o := by
  have record : ((s.setAxis a o.axis).raiseAll o.events).irm = s.irm := by simp
  unfold State.axisEvent
  rw [h]
  unfold State.delivered State.deliverOne State.deliver
  cases a with
  | v =>
    simp only [State.still, List.append_nil]
    cases o.change with
    | none => rfl
    | some p =>
      change State.recomputeIf (State.raiseAll (changed ((s.setAxis .v o.axis).raiseAll o.events)
        (retarget ((s.setAxis .v o.axis).raiseAll o.events).irm .v p) .part) o.later) o.trigger = _
      rw [record]
  | h =>
    simp only [State.still, List.nil_append]
    cases o.change with
    | none => rfl
    | some p =>
      change State.recomputeIf (State.raiseAll (changed ((s.setAxis .h o.axis).raiseAll o.events)
        (retarget ((s.setAxis .h o.axis).raiseAll o.events).irm .h p) .part) o.later) o.trigger = _
      rw [record]

@[simp] theorem State.axisEnv_at_now (s : State) (e : Nat) (a : Axis) : ((s.at_ e).axisEnv a).now = max s.now e := rfl
@[simp] theorem State.axisEnv_axis (s : State) (a : Axis) : (s.axisEnv a).axis = a := rfl

theorem State.axisEnv_at_meetsQuantum (s : State) (e : Nat) (a : Axis) (p : Int) :
    ((s.at_ e).axisEnv a).meetsQuantum p = s.meets a p := by
  cases a <;> rfl

theorem execStepTimerExpiry_of_stopped {s : State} (awake : Awake s) {a : Axis} (stopped : (s.axis a).stepTimer = none) :
    execStepTimerExpiry a s = .next s := by
  rw [execStepTimerExpiry, unlessReset_awake _ awake, stopped]

/-- The step timer's expiry moves the clock, and the part takes what the axis does. -/
theorem execStepTimerExpiry_of_step {s : State} (awake : Awake s) {a : Axis} {e : Nat} (timer : (s.axis a).stepTimer = some e)
    {o : LensOut} (h : (s.axis a).step ((s.at_ e).axisEnv a) = o) :
    execStepTimerExpiry a s = .next ((s.at_ e).delivered a o) := by
  rw [execStepTimerExpiry, unlessReset_awake _ awake, timer]
  exact congrArg _ (State.axisEvent_eq h)

/-! ### The test of an end stop (R54) -/

theorem AxisState.testStop_of_clear {x : AxisState} {d : Dir} (h : x.clear d) : x.testStop d = (false, x) := by
  cases d with
  | minus =>
    obtain ⟨line, flag⟩ := h
    have same : { x with flagLo := false } = x := by rw [← flag]
    exact Prod.ext (by simp [AxisState.testStop, line, flag]) same
  | plus =>
    obtain ⟨line, flag⟩ := h
    have same : { x with flagHi := false } = x := by rw [← flag]
    exact Prod.ext (by simp [AxisState.testStop, line, flag]) same

/-- The axis after the test of the end stop in a direction, which clears its flag. -/
def AxisState.tested (x : AxisState) : Dir → AxisState
  | .minus => { x with flagLo := false }
  | .plus => { x with flagHi := false }

theorem AxisState.testStop_of_contact {x : AxisState} {d : Dir} (h : ¬ x.clear d) : x.testStop d = (true, x.tested d) := by
  cases d with
  | minus =>
    have contact : (x.endLo || x.flagLo) = true := by
      cases hl : x.endLo <;> cases hf : x.flagLo <;> simp_all
    rw [AxisState.testStop, contact]
    rfl
  | plus =>
    have contact : (x.endHi || x.flagHi) = true := by
      cases hl : x.endHi <;> cases hf : x.flagHi <;> simp_all
    rw [AxisState.testStop, contact]
    rfl

/-! ### A leg begins, an axis comes to rest (R25, R26, R29) -/

/-- The axis one microstep further (R32). -/
def AxisState.moved (x : AxisState) (d : Dir) : AxisState := { x with position := x.position + d.sign, index := x.turned d }

theorem AxisState.microstep_eq_moved {x : AxisState} {d : Dir} (fits : fitsCount (x.position + d.sign) = true) (a : Axis) :
    x.microstep a d = x.moved d := by
  rw [AxisState.microstep_of_fits fits]
  cases d <;> rfl

section
variable {env : AxisEnv} {x : AxisState}

theorem AxisState.settle_nil (env : AxisEnv) (x : AxisState) :
    x.settle env [] = { axis := { x with queue := [] }.holding env.now } := by
  rw [AxisState.settle, AxisState.enterHold_eq_holding]

/-- The head entry of a stationary axis starts with the leg planned for it. -/
theorem AxisState.settle_of_plan {e : Entry} {l : Leg} (run : env.canRun = true) (plan : env.planLeg x e 1 = some l)
    (rest : List Entry) :
    x.settle env (e :: rest) = { axis := { x.atLeg env.now l with queue := { e with active := true } :: rest } } := by
  rw [AxisState.settle, if_pos run, plan]
  rfl

/-- A head entry whose target is the position completes at once. -/
theorem AxisState.settle_of_arrived {e : Entry} (run : env.canRun = true) (plan : env.planLeg x e 1 = none)
    (rest : List Entry) :
    x.settle env (e :: rest) =
      { x.settle env rest with events := .lensDone env.axis x.position .complete :: (x.settle env rest).events,
                               trigger := true } := by
  rw [AxisState.settle, if_pos run, plan]

theorem AxisEnv.exists_planLeg {e : Entry} (away : e.target ≠ x.position) (number : Nat) :
    ∃ l, env.planLeg x e number = some l :=
  Option.ne_none_iff_exists'.mp (mt (AxisEnv.planLeg_eq_none_iff ..).mp (Ne.symm away))

/-! ### The end of a move (R26) -/

theorem AxisState.complete_of_last {e : Entry} (queue : x.queue = [e]) :
    x.complete env =
      { axis := { x.atHold env.now with queue := [] }, events := [.lensDone env.axis x.position .complete],
        trigger := true } := by
  rw [AxisState.complete, queue]
  dsimp only [List.tail_cons]
  rw [AxisState.settle_nil]

theorem AxisState.complete_of_waiting {e next : Entry} {rest : List Entry} {l : Leg} (queue : x.queue = e :: next :: rest)
    (run : env.canRun = true) (plan : env.planLeg x next 1 = some l) :
    x.complete env =
      { axis := { x.atLeg env.now l with queue := { next with active := true } :: rest },
        events := [.lensDone env.axis x.position .complete], trigger := true } := by
  have plan_ : env.planLeg { x with motion := .idle, stepTimer := none, queue := next :: rest } next 1 = some l := plan
  rw [AxisState.complete, queue]
  dsimp only [List.tail_cons]
  rw [AxisState.settle_of_plan run plan_]

theorem AxisState.complete_of_arrived {e next : Entry} (queue : x.queue = [e, next]) (run : env.canRun = true)
    (arrived : x.position = next.target) :
    x.complete env =
      { axis := { x.atHold env.now with queue := [] },
        events := [.lensDone env.axis x.position .complete, .lensDone env.axis x.position .complete], trigger := true } := by
  have plan : env.planLeg { x with motion := .idle, stepTimer := none, queue := [next] } next 1 = none :=
    (AxisEnv.planLeg_eq_none_iff ..).mpr arrived
  rw [AxisState.complete, queue]
  dsimp only [List.tail_cons]
  rw [AxisState.settle_of_arrived run plan, AxisState.settle_nil]

/-! ### A microstep of a leg (R29, R30, R32) -/

/-- The axis after a microstep of its leg or stop that has just been issued. -/
def AxisState.issued (env : AxisEnv) (x : AxisState) (d : Dir) : AxisState := { x.moved d with lastStepAt := env.now }

section
variable {l : Leg} (clear : x.clear l.dir) (fits : fitsCount (x.position + l.dir.sign) = true)
include clear fits

theorem AxisState.stepLeg_goes_on (more : l.issued + 1 < l.n) :
    x.stepLeg env l =
      let m : Leg := { l with issued := l.issued + 1, lastRamp := l.rampIndex l.issued }
      { axis := { x.issued env l.dir with
          motion := .running m, stepTimer := some (env.now + m.period x.params (l.issued + 1)) },
        trigger := env.meetsQuantum (x.position + l.dir.sign) } := by
  unfold AxisState.stepLeg
  rw [AxisState.testStop_of_clear clear]
  simp only [AxisState.microstep_eq_moved fits, Bool.false_eq_true, if_false, if_neg (Nat.not_le.mpr more)]
  rfl

theorem AxisState.stepLeg_ends_final (last : l.n ≤ l.issued + 1) (kind : l.kind = .final) :
    x.stepLeg env l = (x.issued env l.dir).complete env := by
  unfold AxisState.stepLeg
  rw [AxisState.testStop_of_clear clear]
  simp only [AxisState.microstep_eq_moved fits, Bool.false_eq_true, if_false, if_pos last, kind]
  rfl

theorem AxisState.stepLeg_ends_overshoot (last : l.n ≤ l.issued + 1) (kind : l.kind = .overshoot) {e : Entry} {next : Leg}
    (queue : x.queue.head? = some e) (plan : env.planLeg (x.moved l.dir) e (l.number + 1) = some next) :
    x.stepLeg env l =
      { axis := { x.issued env l.dir with
          motion := .running next, flagLo := false, flagHi := false,
          stepTimer := some (env.now + next.period x.params 0) },
        trigger := env.meetsQuantum (x.position + l.dir.sign) } := by
  have queue_ : ({ x.moved l.dir with lastStepAt := env.now } : AxisState).queue.head? = some e := queue
  have plan_ : env.planLeg { x.moved l.dir with lastStepAt := env.now } e (l.number + 1) = some next := plan
  unfold AxisState.stepLeg
  rw [AxisState.testStop_of_clear clear]
  simp only [AxisState.microstep_eq_moved fits, Bool.false_eq_true, if_false, if_pos last, kind, AxisState.nextLeg, queue_,
    plan_, Bool.false_or]
  rfl

end

/-! ### A microstep of a stop, and its end (R35, R36, R48) -/

/-- A homing run begins on a stationary axis (R48, R49). -/
theorem AxisState.beginHoming_eq (env : AxisEnv) (x : AxisState) :
    x.beginHoming env = { axis := x.atHoming env.now, trigger := x.trust != .unhomed } := by
  unfold AxisState.beginHoming AxisState.atHoming AxisParams.homeDistance
  by_cases h : x.endLo = true ∧ 0 < min x.params.backoff x.params.travel
  · simp only [h]
    rfl
  · simp only [if_neg h]
    rfl

/-- The entries behind a stop. -/
def AxisState.behind (x : AxisState) (st : Stop) : List Entry := if st.abandoned then x.queue else x.queue.tail

/-- The axis whose stop has ended, before it goes on. -/
def AxisState.rested (x : AxisState) (st : Stop) : AxisState :=
  { x.moved st.dir with motion := .idle, stepTimer := none, queue := x.behind st }

section
variable {st : Stop} (clear : x.clear st.dir) (fits : fitsCount (x.position + st.dir.sign) = true)
include clear fits

theorem AxisState.stepStop_goes_on (more : 1 < st.remaining) :
    x.stepStop env st =
      { axis := { x.issued env st.dir with
          motion := .stopping { st with remaining := st.remaining - 1 },
          stepTimer := some (env.now + x.params.rampPeriod st.pRun (st.remaining - 2)) },
        trigger := env.meetsQuantum (x.position + st.dir.sign) } := by
  unfold AxisState.stepStop
  rw [AxisState.testStop_of_clear clear]
  simp only [AxisState.microstep_eq_moved fits, Bool.false_eq_true, if_false, if_neg (Nat.sub_ne_zero_of_lt more)]
  rfl

/-- The last microstep of a stop ends it: LENS_DONE, one more change when the axis rests elsewhere than recorded, then what the
axis does next. -/
theorem AxisState.stepStop_ends (last : st.remaining = 1) {next : AxisState} {trigger : Bool}
    (goes : (x.rested st).afterStop env = { axis := next, trigger := trigger }) :
    x.stepStop env st =
      { axis := next, events := [.lensDone env.axis (x.position + st.dir.sign) st.reason],
        change := if x.position + st.dir.sign = st.position then none
          else some (((x.behind st).getLast?.map Entry.target).getD (x.position + st.dir.sign)),
        trigger := true } := by
  have drains : (x.rested st).drain (x.position + st.dir.sign) =
      ((x.behind st).getLast?.map Entry.target).getD (x.position + st.dir.sign) := by
    change (match (x.behind st).getLast? with | some e => e.target | none => x.position + st.dir.sign) = _
    cases (x.behind st).getLast? <;> rfl
  unfold AxisState.stepStop
  rw [AxisState.testStop_of_clear clear]
  simp only [AxisState.microstep_eq_moved fits, Bool.false_eq_true, if_false, last, Nat.sub_self, if_true]
  rw [← drains]
  change LensOut.mk ((x.rested st).afterStop env).axis _ _ ([] ++ ((x.rested st).afterStop env).events ++
    ((x.rested st).afterStop env).later) true = _
  rw [goes]
  rfl

end

theorem AxisState.afterStop_of_home (home : x.pendingHome = true) (run : env.canRun = true) :
    x.afterStop env = { axis := x.atHoming env.now, trigger := x.trust != .unhomed } := by
  rw [AxisState.afterStop, if_pos ⟨home, run⟩, AxisState.beginHoming_eq]

theorem AxisState.afterStop_of_waiting {e : Entry} {rest : List Entry} {l : Leg} (home : x.pendingHome = false)
    (run : env.canRun = true) (queue : x.queue = e :: rest) (plan : env.planLeg x e 1 = some l) :
    x.afterStop env = { axis := { x.atLeg env.now l with queue := { e with active := true } :: rest } } := by
  rw [AxisState.afterStop, if_neg (by simp [home]), queue, AxisState.settle_of_plan run plan]

end

theorem AxisState.step_of_running {x : AxisState} {l : Leg} (h : x.motion = .running l) (env : AxisEnv) :
    x.step env = x.stepLeg env l := by
  rw [AxisState.step, h]

theorem AxisState.step_of_stopping {x : AxisState} {st : Stop} (h : x.motion = .stopping st) (env : AxisEnv) :
    x.step env = x.stepStop env st := by
  rw [AxisState.step, h]

theorem AxisState.step_of_homing {x : AxisState} {run : Homing} (h : x.motion = .homing run) (env : AxisEnv) :
    x.step env = x.stepHoming env run := by
  rw [AxisState.step, h]

/-- Settles O24. -/
theorem stepTimer : Obligations.StepTimer := by
  intro a s awake x c
  refine ⟨execStepTimerExpiry_of_stopped awake, ?_⟩
  intro e timer now at_ stepped
  have taken := fun o (h : x.step ((s.at_ e).axisEnv a) = o) => execStepTimerExpiry_of_step awake timer h
  have meets := s.axisEnv_at_meetsQuantum e a
  refine ⟨?_, ?_⟩
  · intro l running clear fits p m completed
    have run := AxisState.step_of_running running ((s.at_ e).axisEnv a)
    refine ⟨fun more => ?_, fun last kind => ⟨fun entry queue => ?_, fun entry next rest queue can => ⟨?_, ?_⟩⟩,
      fun last kind entry rest queue away => ?_⟩
    · have out := run.trans (AxisState.stepLeg_goes_on clear fits more)
      rw [meets] at out
      exact taken _ out
    · have out := run.trans (AxisState.stepLeg_ends_final clear fits last kind)
      exact taken _ (out.trans (AxisState.complete_of_last queue))
    · intro away
      obtain ⟨first, plan⟩ := AxisEnv.exists_planLeg (env := s.axisEnv a) (x := { x with position := p }) away 1
      have out := run.trans (AxisState.stepLeg_ends_final clear fits last kind)
      have canRun := ((s.at_ e).axisEnv_canRun_iff a).mpr can
      exact ⟨first, taken _ (out.trans (AxisState.complete_of_waiting queue canRun plan)), plan, AxisEnv.planLeg_leads plan⟩
    · rintro arrived rfl
      have out := run.trans (AxisState.stepLeg_ends_final clear fits last kind)
      have canRun := ((s.at_ e).axisEnv_canRun_iff a).mpr can
      exact taken _ (out.trans (AxisState.complete_of_arrived queue canRun arrived.symm))
    · obtain ⟨next, plan⟩ :=
        AxisEnv.exists_planLeg (env := s.axisEnv a) (x := { x with position := p }) (Ne.symm away) (l.number + 1)
      have head : x.queue.head? = some entry := by rw [queue]; rfl
      have out := run.trans (AxisState.stepLeg_ends_overshoot clear fits last kind head plan)
      rw [meets] at out
      exact ⟨next, taken _ out, plan, AxisEnv.planLeg_leads plan⟩
  · intro st stopping clear fits p behind rested ended
    have run := AxisState.step_of_stopping stopping ((s.at_ e).axisEnv a)
    have ended_ : ∀ y, (s.at_ e).delivered a
        { axis := y, events := [.lensDone a p st.reason],
          change := if p = st.position then none else some ((behind.getLast?.map Entry.target).getD p), trigger := true } =
        State.recompute (ended y) := fun y => by
      by_cases h : p = st.position
      · simp only [ended, if_pos h]
        rfl
      · simp only [ended, if_neg h]
        rfl
    refine ⟨fun more => ?_, fun last noHome empty => ?_, fun last home can => ?_, fun last noHome can next rest queue away => ?_⟩
    · have out := run.trans (AxisState.stepStop_goes_on clear fits more)
      rw [meets] at out
      exact taken _ out
    · have goes := AxisState.afterStop_of_nil (env := (s.at_ e).axisEnv a) (x := x.rested st)
        (fun h => Bool.false_ne_true (noHome.symm.trans h.1)) empty
      have out := run.trans (AxisState.stepStop_ends clear fits last goes)
      rw [← ended_]
      exact taken _ out
    · have canRun := ((s.at_ e).axisEnv_canRun_iff a).mpr can
      have goes := AxisState.afterStop_of_home (env := (s.at_ e).axisEnv a) (x := x.rested st) home canRun
      have out := run.trans (AxisState.stepStop_ends clear fits last goes)
      rw [← ended_]
      exact taken _ out
    · obtain ⟨first, plan⟩ := AxisEnv.exists_planLeg (env := s.axisEnv a) (x := { x with position := p }) away 1
      have canRun := ((s.at_ e).axisEnv_canRun_iff a).mpr can
      have goes := AxisState.afterStop_of_waiting (env := (s.at_ e).axisEnv a) (x := x.rested st) noHome canRun queue plan
      have out := run.trans (AxisState.stepStop_ends clear fits last goes)
      refine ⟨first, ?_, plan, AxisEnv.planLeg_leads plan⟩
      rw [← ended_]
      exact taken _ out

end Sys2Proof.Machine
end

