-- ==== Sys2Proof/Proofs/Homing.lean ====
section
/-! PROOFS. End-stop contacts of a leg or a stop (R54 to R56), and the course of a homing run (R49 to R52). -/

namespace Sys2Proof.Machine

/-! ### Contacts (R55, R56) -/

/-- Where an end-stop contact in a direction leaves the count. -/
def AxisState.contactPoint (x : AxisState) : Dir → Int
  | .minus => 0
  | .plus => x.position

/-- The end stop that lies in a direction. -/
def Dir.endStop : Dir → EndStop
  | .minus => .lo
  | .plus => .hi

/-- An axis that a contact has halted, before it holds or begins its pending homing run. -/
def AxisState.halted (x : AxisState) (d : Dir) : AxisState :=
  { x.tested d with queue := [], position := x.contactPoint d, trust := .unsure }

section
variable {env : AxisEnv} {x : AxisState}

theorem AxisState.contactHalt_eq (home : x.pendingHome = true → env.canRun = true) (d : Dir) (kind : Halted) :
    (x.tested d).contactHalt env d kind =
      { axis := if x.pendingHome then (x.halted d).atHoming env.now else (x.halted d).atHold env.now,
        events := [.lensDone env.axis (x.contactPoint d) .limit], change := some (x.contactPoint d),
        later := [.limitHit env.axis d.endStop x.position kind], trigger := true } := by
  unfold AxisState.contactHalt
  cases hp : x.pendingHome with
  | false =>
    have none_ : ¬ ((x.tested d).pendingHome = true ∧ env.canRun = true) := by cases d <;> simp [AxisState.tested, hp]
    rw [if_neg none_, AxisState.enterHold_eq_holding]
    cases d <;> rfl
  | true =>
    have home_ : (x.tested d).pendingHome = true ∧ env.canRun = true := by cases d <;> simp [AxisState.tested, hp, home hp]
    rw [if_pos home_, AxisState.enterHold_eq_holding]
    simp only [LensOut.andThen, AxisState.beginHoming_eq]
    cases d <;> rfl

theorem AxisState.stepLeg_of_contact {l : Leg} (contact : ¬ x.clear l.dir) :
    x.stepLeg env l = (x.tested l.dir).contactHalt env l.dir .move := by
  unfold AxisState.stepLeg
  rw [AxisState.testStop_of_contact contact]
  rfl

theorem AxisState.stepStop_of_contact {st : Stop} (contact : ¬ x.clear st.dir) :
    x.stepStop env st = (x.tested st.dir).contactHalt env st.dir .stop := by
  unfold AxisState.stepStop
  rw [AxisState.testStop_of_contact contact]
  rfl

end

/-- Settles O25. -/
theorem endStopContacts : Obligations.EndStopContacts := by
  intro a d kind e s awake x moving timer contact home now p flags halted
  have run : x.step ((s.at_ e).axisEnv a) = (x.tested d).contactHalt ((s.at_ e).axisEnv a) d kind := by
    cases kind with
    | move =>
      obtain ⟨l, running, rfl⟩ := moving
      exact (AxisState.step_of_running running _).trans (AxisState.stepLeg_of_contact contact)
    | stop =>
      obtain ⟨st, stopping, rfl⟩ := moving
      exact (AxisState.step_of_stopping stopping _).trans (AxisState.stepStop_of_contact contact)
  have out := run.trans
    (AxisState.contactHalt_eq (fun pending => ((s.at_ e).axisEnv_canRun_iff a).mpr (home pending)) d kind)
  refine (execStepTimerExpiry_of_step awake timer out).trans ?_
  cases d <;> rfl

/-! ### The phases of a homing run (R49 to R51) -/

section
variable {env : AxisEnv} {x : AxisState}

/-- The axis whose homing run has failed, its coils OFF (R52). -/
def AxisState.failed (x : AxisState) : AxisState :=
  { x with motion := .fault, stepTimer := none, holdTimer := none, trust := .unhomed, phase := .off }

theorem AxisState.homed_eq (env : AxisEnv) (x : AxisState) (contact : Int) :
    x.homed env contact =
      { axis := { x.atHold env.now with trust := .homed }, change := some x.position,
        later := [.homeDone env.axis x.position contact], trigger := true } := by
  unfold AxisState.homed
  rw [AxisState.enterHold_eq_holding]

/-- A homing run that goes on, in the phase it is in or in the next. -/
def AxisState.goesOn (env : AxisEnv) (x : AxisState) (run : Homing) : AxisState :=
  { x with motion := .homing run, stepTimer := some (env.now + x.params.pHome), lastStepAt := env.now }

section
variable {run : Homing} {finish : AxisState → Homing → LensOut}

/-- A microstep of APPROACH is never the last of its phase, which a contact or the limit ends. -/
theorem AxisState.homeStep_approach (phase : run.phase = .approach) (fits : fitsCount (x.position - 1) = true) :
    x.homeStep env run finish =
      { axis := (x.moved .minus).goesOn env { run with taken := run.taken + 1 },
        trigger := env.meetsQuantum (x.position - 1) } := by
  have back : run.phase.dir = .minus := by rw [phase]; rfl
  have same : ¬ (run.phase ≠ .approach ∧ run.limit ≤ run.taken + 1) := fun h => h.1 phase
  unfold AxisState.homeStep
  simp only [back, AxisState.microstep_eq_moved (d := .minus) fits, if_neg same]
  rfl

variable (forward : run.phase ≠ .approach) (fits : fitsCount (x.position + 1) = true)
include forward fits

/-- A microstep of CLEAR or of BACKOFF that is not its last. -/
theorem AxisState.homeStep_goes_on (more : run.taken + 1 < run.limit) :
    x.homeStep env run finish =
      { axis := (x.moved .plus).goesOn env { run with taken := run.taken + 1 },
        trigger := env.meetsQuantum (x.position + 1) } := by
  have plus : run.phase.dir = .plus := by cases h : run.phase <;> first | rfl | exact absurd h forward
  have same : ¬ (run.phase ≠ .approach ∧ run.limit ≤ run.taken + 1) := fun h => Nat.not_le.mpr more h.2
  unfold AxisState.homeStep
  simp only [plus, AxisState.microstep_eq_moved (d := .plus) fits, if_neg same]
  rfl

/-- The last microstep of CLEAR or of BACKOFF. -/
theorem AxisState.homeStep_ends (last : run.limit ≤ run.taken + 1) {o : LensOut}
    (ends : finish (x.moved .plus) { run with taken := run.taken + 1 } = o) :
    x.homeStep env run finish = { o with trigger := o.trigger || env.meetsQuantum (x.position + 1) } := by
  have plus : run.phase.dir = .plus := by cases h : run.phase <;> first | rfl | exact absurd h forward
  unfold AxisState.homeStep
  simp only [plus, AxisState.microstep_eq_moved (d := .plus) fits, if_pos (And.intro forward last), ends]
  rfl

end

theorem AxisState.endClear_of_active {run : Homing} (line : x.endLo = true) (some_ : 0 < run.limit) :
    x.endClear env run = x.homeFailed env .stuckLo := if_pos ⟨line, some_⟩

theorem AxisState.endClear_of_inactive {run : Homing} (line : x.endLo = false) :
    x.endClear env run =
      { axis := { x with flagLo := false, flagHi := false }.goesOn env ⟨.approach, 0, x.params.travel * 9 / 8, 0⟩ } :=
  if_neg (by simp [line])

theorem AxisState.endBackoff_of_active {run : Homing} (line : x.endLo = true) (some_ : 0 < run.limit) :
    x.endBackoff env run = x.homeFailed env .stuckLo := if_pos ⟨line, some_⟩

theorem AxisState.endBackoff_of_inactive {run : Homing} (line : x.endLo = false) :
    x.endBackoff env run = x.homed env run.contact := if_neg (by simp [line])

/-! ### A step of each phase (R49 to R52) -/

theorem AxisState.stepHoming_clear {run : Homing} (phase : run.phase = .clear) :
    x.stepHoming env run = x.homeStep env run (·.endClear env ·) := by
  unfold AxisState.stepHoming
  rw [phase]

theorem AxisState.stepHoming_backoff {run : Homing} (phase : run.phase = .backoff) (clear : x.clear .plus) :
    x.stepHoming env run = x.homeStep env run (·.endBackoff env ·) := by
  unfold AxisState.stepHoming
  rw [phase, AxisState.testStop_of_clear clear]
  rfl

/-- END_HI found in BACKOFF fails the run. -/
theorem AxisState.stepHoming_backoff_contact {run : Homing} (phase : run.phase = .backoff) (contact : ¬ x.clear .plus) :
    x.stepHoming env run = (x.tested .plus).homeFailed env .endHi := by
  unfold AxisState.stepHoming
  rw [phase, AxisState.testStop_of_contact contact]
  rfl

theorem AxisState.stepHoming_approach {run : Homing} (phase : run.phase = .approach) (clear : x.clear .minus)
    (more : run.taken < run.limit) : x.stepHoming env run = x.homeStep env run fun y _ => { axis := y } := by
  unfold AxisState.stepHoming
  rw [phase, AxisState.testStop_of_clear clear]
  exact if_neg (Nat.not_le.mpr more)

theorem AxisState.stepHoming_approach_limit {run : Homing} (phase : run.phase = .approach) (clear : x.clear .minus)
    (last : run.limit ≤ run.taken) : x.stepHoming env run = x.homeFailed env .noContact := by
  unfold AxisState.stepHoming
  rw [phase, AxisState.testStop_of_clear clear]
  exact if_pos last

theorem AxisState.stepHoming_approach_contact {run : Homing} (phase : run.phase = .approach) (contact : ¬ x.clear .minus) :
    x.stepHoming env run = (x.tested .minus).homeContact env := by
  unfold AxisState.stepHoming
  rw [phase, AxisState.testStop_of_contact contact]
  rfl

/-- At homing contact BACKOFF begins from 0, its first microstep a period away (R50, R51). -/
theorem AxisState.homeContact_of_pos (away : 0 < x.params.homeDistance) :
    x.homeContact env =
      { axis := { x with
          position := 0, flagLo := false, flagHi := false,
          motion := .homing ⟨.backoff, 0, x.params.homeDistance, x.position⟩,
          stepTimer := some (env.now + x.params.pHome) },
        trigger := env.meetsQuantum 0 } := by
  unfold AxisState.homeContact
  simp only [if_neg (Nat.ne_of_gt away)]
  rfl

/-- With no back-off distance the run ends at the contact (R51). -/
theorem AxisState.homeContact_of_zero (here : x.params.homeDistance = 0) :
    x.homeContact env =
      { axis := { x.atHold env.now with position := 0, flagLo := false, flagHi := false, trust := .homed },
        change := some 0, later := [.homeDone env.axis 0 x.position], trigger := true } := by
  unfold AxisState.homeContact
  simp only [if_pos here, AxisState.homed_eq]
  rfl

end

/-- Settles O26. -/
theorem homingSteps : Obligations.HomingSteps := by
  intro a run e s awake x homing timer c now at_ b up failed goesOn
  have taken := fun o (h : x.step ((s.at_ e).axisEnv a) = o) => execStepTimerExpiry_of_step awake timer h
  have meets := s.axisEnv_at_meetsQuantum e a
  have step := AxisState.step_of_homing homing ((s.at_ e).axisEnv a)
  refine ⟨fun phase fits => ?_, fun phase => ?_, fun phase => ⟨fun contact => ?_, fun clear fits => ?_⟩⟩
  · have step := step.trans (AxisState.stepHoming_clear phase)
    have forward : run.phase ≠ .approach := by rw [phase]; nofun
    refine ⟨fun more => ?_, fun last line some_ => ?_, fun last line => ?_⟩
    · have out := step.trans (AxisState.homeStep_goes_on forward fits more)
      rw [meets] at out
      exact taken _ out
    · exact taken _ (step.trans (AxisState.homeStep_ends forward fits last (AxisState.endClear_of_active line some_)))
    · have out := step.trans (AxisState.homeStep_ends forward fits last (AxisState.endClear_of_inactive line))
      rw [meets] at out
      exact taken _ out
  · refine ⟨fun contact away => ?_, fun contact here => ?_, fun clear last => ?_, fun clear more fits => ?_⟩
    · have step := step.trans (AxisState.stepHoming_approach_contact phase contact)
      have out := step.trans (AxisState.homeContact_of_pos (x := x.tested .minus) away)
      rw [meets] at out
      exact taken _ out
    · have step := step.trans (AxisState.stepHoming_approach_contact phase contact)
      exact taken _ (step.trans (AxisState.homeContact_of_zero (x := x.tested .minus) here))
    · exact taken _ (step.trans (AxisState.stepHoming_approach_limit phase clear last))
    · have out := step.trans ((AxisState.stepHoming_approach phase clear more).trans (AxisState.homeStep_approach phase fits))
      rw [meets] at out
      exact taken _ out
  · exact taken _ (step.trans (AxisState.stepHoming_backoff_contact phase contact))
  · have step := step.trans (AxisState.stepHoming_backoff phase clear)
    have forward : run.phase ≠ .approach := by rw [phase]; nofun
    refine ⟨fun more => ?_, fun last line some_ => ?_, fun last line => ?_⟩
    · have out := step.trans (AxisState.homeStep_goes_on forward fits more)
      rw [meets] at out
      exact taken _ out
    · exact taken _ (step.trans (AxisState.homeStep_ends forward fits last (AxisState.endBackoff_of_active line some_)))
    · have done := AxisState.endBackoff_of_inactive (env := (s.at_ e).axisEnv a) (x := x.moved .plus)
        (run := { run with taken := run.taken + 1 }) line
      exact taken _ (step.trans (AxisState.homeStep_ends forward fits last (done.trans (AxisState.homed_eq ..))))

end Sys2Proof.Machine
end

