-- ==== Sys2Proof/Proofs/Home.lean ====
section
/-! PROOFS. HOME (R35, R36, R47 to R49). -/

namespace Sys2Proof.Machine

/-! ### An event that stops both axes, on a part that may run (R14, R35) -/

/-- An event that acts on both axes, given what each does at once and what the end of its stop adds, which may begin a homing
run or a leg where the part may run. -/
theorem State.lensEvent_of_outcomes {s : State} {f : Axis → AxisEnv → AxisState → LensOut} {out : Axis → LensOut}
    {after : Axis → AxisState} {done : Axis → List Event} (hout : ∀ a, f a (s.axisEnv a) (s.axis a) = out a)
    (events : ∀ a, (out a).events = []) (later : ∀ a, (out a).later = [])
    (ends : ∀ a env, env.axis = a → env.now = s.now → (env.canRun = true ↔ CanRun s) →
      (out a).axis.endIfStopped env = { axis := after a, events := done a, trigger := !(done a).isEmpty }) :
    s.lensEvent f =
      ((State.partChange { s with lmc := ⟨after .v, after .h⟩ } (out .v).change (out .h).change).raiseAll
        (done .v ++ done .h)).recomputeIf
        ((out .v).trigger || (out .h).trigger || !(done .v).isEmpty || !(done .h).isEmpty) := by
  obtain ⟨t, ht⟩ : ∃ t, t = State.partChange { s with lmc := ⟨(out .v).axis, (out .h).axis⟩ } (out .v).change
    (out .h).change := ⟨_, rfl⟩
  have first : s.deliver (out .v) (out .h) = t := by
    rw [State.deliver, events, events, later, later, ht]
    rfl
  have run : ∀ a, (t.axisEnv a).canRun = true ↔ CanRun s := fun a => by
    rw [State.axisEnv_canRun_iff, ht, CanRun, State.partChange_tmon]
  have now : t.now = s.now := by rw [ht, State.partChange_now]
  have axis_ : ∀ a, t.axis a = (out a).axis := fun a => by
    cases a <;> simp only [State.axis, ht, State.partChange_lmc]
  have end_ : ∀ a, (t.axis a).endIfStopped (t.axisEnv a) =
      { axis := after a, events := done a, trigger := !(done a).isEmpty } := fun a => by
    rw [axis_]
    exact ends a _ rfl now (run a)
  have endV : t.lmc.v.endIfStopped (t.axisEnv .v) =
    { axis := after .v, events := done .v, trigger := !(done .v).isEmpty } := end_ .v
  have endH : t.lmc.h.endIfStopped (t.axisEnv .h) =
    { axis := after .h, events := done .h, trigger := !(done .h).isEmpty } := end_ .h
  have outV : f .v (s.axisEnv .v) s.lmc.v = out .v := hout .v
  have outH : f .h (s.axisEnv .h) s.lmc.h = out .h := hout .h
  rw [State.lensEvent, outV, outH]
  simp only [first, endV, endH]
  rw [← State.partChange_setLmc { s with lmc := ⟨(out .v).axis, (out .h).axis⟩ } _ _ ⟨after .v, after .h⟩, ← ht]
  rfl

/-! ### What HOME does with one axis (R47, R48, R49) -/

/-- An axis has done something with no event of its own, and ends as another once a stop of no microstep has ended. -/
structure LensOut.Becomes (env : AxisEnv) (x : AxisState) (o : LensOut) (after : AxisState × Option Int) (done : List Event) :
    Prop where
  events : o.events = []
  later : o.later = []
  change : o.change = after.2
  trigger : (o.trigger || !done.isEmpty) = (after.1.trust != x.trust || !done.isEmpty)
  ends : ∀ e : AxisEnv, e.axis = env.axis → e.now = env.now → e.canRun = env.canRun →
    o.axis.endIfStopped e = { axis := after.1, events := done, trigger := !done.isEmpty }

section
variable {env : AxisEnv} {x : AxisState}

/-- An axis left alone goes on as it is. -/
theorem LensOut.becomes_still (env : AxisEnv) (run : ∀ st, x.motion = .stopping st → 0 < st.remaining) :
    LensOut.Becomes env x { axis := x } (x, none) [] where
  events := rfl
  later := rfl
  change := rfl
  trigger := by simp
  ends _ _ _ _ := AxisState.endIfStopped_of_run run

/-- The stop that HOME begins on a RUNNING axis. -/
def AxisState.homeStop (x : AxisState) (l : Leg) : Stop :=
  ⟨x.position + l.dir.sign * l.toStop, l.toStop, l.dir, .aborted, l.pRun, false⟩

/-- The axis after HOME, and the target that a stop or a flush gives it (R47, R48, R49). -/
def AxisState.homeAfter (x : AxisState) (now : Nat) : AxisState × Option Int :=
  match x.motion with
  | .idle => (x.atHoming now, none)
  | .running l =>
    if l.toStop = 0 then (({ x with queue := [] } : AxisState).atHoming now, some (x.homeStop l).position)
    else
      ({ x with
          motion := .stopping (x.homeStop l), pendingHome := true, flagLo := false, flagHi := false,
          queue := (x.queue.take 1).map fun e => { e with target := (x.homeStop l).position },
          stepTimer := some (x.lastStepAt + x.params.rampPeriod l.pRun (l.toStop - 1)) }, some (x.homeStop l).position)
  | .stopping st =>
    let kept := if st.abandoned then [] else x.queue.take 1
    ({ x with queue := kept, pendingHome := true }, if kept.length < x.queue.length then some st.position else none)
  | .homing _ | .fault => (x, none)

theorem AxisState.home_of_idle (idle : x.motion = .idle) :
    x.home env = { axis := x.atHoming env.now, trigger := x.trust != .unhomed } := by
  rw [AxisState.home, idle]
  exact AxisState.beginHoming_eq env x

/-- HOME begins a stop on a RUNNING axis, with a pending home. -/
theorem AxisState.home_of_running {l : Leg} (running : x.motion = .running l)
    (fits : fitsCount (x.homeStop l).position = true) :
    x.home env =
      { axis := ({ x with pendingHome := true } : AxisState).slowing (x.homeStop l), change := some (x.homeStop l).position } := by
  have stop : ({ x with pendingHome := true } : AxisState).stopOf .aborted = some (x.homeStop l) := by
    simp only [AxisState.stopOf, running]
    rfl
  have begun := AxisState.beginStop_eq (env := env) (x := { x with pendingHome := true }) (reason := .aborted) fun st hst => by
    obtain rfl := Option.some.inj (stop.symm.trans hst)
    exact fits
  have out : x.home env = ({ x with pendingHome := true } : AxisState).beginStop env .aborted := by
    simp only [AxisState.home, running]
  rw [out, begun, stop]
  simp [AxisState.stopOut, AxisState.homeStop]

/-- A pending home begins its homing run at once where the stop has no microstep (R35, R48). -/
theorem AxisState.slowing_homes {l : Leg} (near : l.toStop = 0) (run : env.canRun = true) :
    (({ x with pendingHome := true } : AxisState).slowing (x.homeStop l)).endIfStopped env =
      { axis := ({ x with queue := [] } : AxisState).atHoming env.now, events := [.lensDone env.axis x.position .aborted],
        trigger := true } := by
  have there : x.position = (x.homeStop l).position := by simp [AxisState.homeStop, near]
  have empty : (({ x with pendingHome := true } : AxisState).slowing (x.homeStop l)).queue.tail = [] := by
    cases x.queue <;> simp [AxisState.slowing, AxisState.homeStop]
  have ends : (({ x with pendingHome := true } : AxisState).slowing (x.homeStop l)).endIfStopped env =
      (({ x with pendingHome := true } : AxisState).slowing (x.homeStop l)).endStop env (x.homeStop l) := if_pos near
  have kept : (x.homeStop l).abandoned = false := rfl
  rw [ends, AxisState.endStop]
  simp only [kept, Bool.false_eq_true, if_false, empty, LensOut.andThen]
  rw [AxisState.afterStop_of_home rfl run]
  simp only [AxisState.slowing, ← there, if_true]
  rfl

/-- A stop with microsteps to take leaves the axis STOPPING. -/
theorem AxisState.homeAfter_of_far {l : Leg} (running : x.motion = .running l) (far : (x.homeStop l).remaining ≠ 0) (now : Nat) :
    x.homeAfter now =
      (({ x with pendingHome := true } : AxisState).slowing (x.homeStop l), some (x.homeStop l).position) := by
  rw [AxisState.slowing, if_neg far]
  simp only [AxisState.homeAfter, running]
  exact if_neg far

theorem AxisState.home_of_stopping {st : Stop} (stopping : x.motion = .stopping st) :
    x.home env = { axis := (x.homeAfter env.now).1, change := (x.homeAfter env.now).2 } := by
  simp only [AxisState.home, AxisState.homeAfter, stopping, AxisState.flushBehind, present, decide_eq_true_eq]

/-- What HOME makes of an axis that may take it. -/
theorem AxisState.home_becomes (fault : x.motion ≠ .fault) (homing : x.motion.mode ≠ .homing) (can : env.canRun = true)
    (run : ∀ st, x.motion = .stopping st → 0 < st.remaining)
    (fits : ∀ l, x.motion = .running l → fitsCount (x.homeStop l).position = true) :
    (x.home env).Becomes env x (x.homeAfter env.now) (x.doneAtOnce env.axis .aborted) := by
  cases hm : x.motion with
  | idle =>
    have after : x.homeAfter env.now = (x.atHoming env.now, none) := by simp only [AxisState.homeAfter, hm]
    rw [AxisState.home_of_idle hm, after, AxisState.doneAtOnce_of_none (by simp only [AxisState.stopOf, hm])]
    exact ⟨rfl, rfl, rfl, congrArg (· || _) (bne_comm ..), fun e _ _ _ => AxisState.endIfStopped_of_run nofun⟩
  | running l =>
    have stop : x.stopOf .aborted = some (x.homeStop l) := by
      simp only [AxisState.stopOf, hm]
      rfl
    rw [AxisState.home_of_running hm (fits l hm)]
    by_cases near : (x.homeStop l).remaining = 0
    · have after : x.homeAfter env.now =
          (({ x with queue := [] } : AxisState).atHoming env.now, some (x.homeStop l).position) := by
        simp only [AxisState.homeAfter, hm]
        exact if_pos near
      have done : x.doneAtOnce env.axis .aborted = [.lensDone env.axis x.position .aborted] := by
        rw [AxisState.doneAtOnce, stop]
        exact if_pos near
      rw [after, done]
      refine ⟨rfl, rfl, rfl, by simp, fun e axis_ now_ run_ => ?_⟩
      rw [AxisState.slowing_homes near (run_.trans can), axis_, now_]
      rfl
    · have done : x.doneAtOnce env.axis .aborted = [] := by
        rw [AxisState.doneAtOnce, stop]
        exact if_neg near
      rw [AxisState.homeAfter_of_far hm near, done]
      refine ⟨rfl, rfl, rfl, by simp [AxisState.slowing, AxisState.homeStop], fun e _ _ _ =>
        AxisState.endIfStopped_of_run fun st hst => ?_⟩
      obtain rfl := Motion.stopping.inj hst
      exact Nat.pos_of_ne_zero near
  | stopping st =>
    rw [AxisState.home_of_stopping hm, AxisState.doneAtOnce_of_none (by simp only [AxisState.stopOf, hm])]
    have after : (x.homeAfter env.now).1 =
        { x with queue := if st.abandoned then [] else x.queue.take 1, pendingHome := true } := by
      simp only [AxisState.homeAfter, hm]
    refine ⟨rfl, rfl, rfl, by simp [after], fun e _ _ _ => AxisState.endIfStopped_of_run fun st' hst => ?_⟩
    rw [after] at hst
    exact run st' hst
  | homing r => exact absurd (by rw [hm]; rfl) homing
  | fault => exact absurd hm fault

end

/-! ### The request (R47) -/

theorem execHome_eq {axes : Byte} {named : Bool × Bool} (axes_ : readAxes axes = some named) (s : State) :
    execHome .control axes s =
      takeRequest .control 0x21 s
        (judge [(0, true)]
          [controlOnly .control, (s.tmon.device ≠ .critical && s.tmon.trip.isNone, .thermalHold),
           (eachNamed named fun a => (s.axis a).motion.mode ≠ .fault, .faulted),
           (eachNamed named fun a => (s.axis a).motion.mode ≠ .homing && !(s.axis a).pendingHome, .busy)]
          (·.homeReply (false, false)) fun s =>
            let t := s.lensEvent (onNamed named fun env x => x.home env)
            (t, ⟨.accepted, t.homeReply named⟩)) := by
  rw [execHome, namedAxes_of_read axes_, axes_]
  rfl

/-- The first check of HOME (R49). -/
theorem canRun_check_iff (s : State) : (s.tmon.device ≠ .critical && s.tmon.trip.isNone : Bool) = true ↔ CanRun s := by
  simp [CanRun]

theorem homeFaulted_iff (named : Bool × Bool) (s : State) :
    (eachNamed named fun a => (s.axis a).motion.mode ≠ .fault) = true ↔
      ∀ a, namesAxis named a = true → (s.axis a).motion ≠ .fault := by
  simp [eachNamed_iff, Motion.mode_eq_fault_iff]

theorem homeBusy_iff (named : Bool × Bool) (s : State) :
    (eachNamed named fun a => (s.axis a).motion.mode ≠ .homing && !(s.axis a).pendingHome) = true ↔
      ∀ a, namesAxis named a = true → (s.axis a).motion.mode ≠ .homing ∧ (s.axis a).pendingHome = false := by
  simp [eachNamed_iff]

/-- Settles O22. -/
theorem home : Obligations.Home := by
  intro axes named s h axes_ c
  have taken : exec c s = _ := execHome_eq axes_ s
  rw [taken]
  refine ⟨fun hot => ⟨_, request_refused h rfl ?_⟩, fun can fault => ⟨_, request_refused h rfl ?_⟩,
    fun can sound busy => ⟨_, request_refused h rfl ?_⟩, ?_⟩
  · rw [Bool.eq_false_iff.mpr (mt (canRun_check_iff s).mp hot)]
    rfl
  · obtain ⟨a, named_, fault⟩ := fault
    rw [(canRun_check_iff s).mpr can, Bool.eq_false_iff.mpr (mt (homeFaulted_iff named s).mp fun all => all a named_ fault)]
    rfl
  · obtain ⟨a, named_, busy⟩ := busy
    rw [(canRun_check_iff s).mpr can, (homeFaulted_iff named s).mpr sound,
      Bool.eq_false_iff.mpr (mt (homeBusy_iff named s).mp fun all => by
        obtain ⟨notHoming, noHome⟩ := all a named_
        rcases busy with homing | pending
        · exact notHoming homing
        · exact Bool.false_ne_true (noHome.symm.trans pending))]
    rfl
  · intro can run free fits after moved recorded done
    have passed : firstFail [controlOnly .control, (s.tmon.device ≠ .critical && s.tmon.trip.isNone, .thermalHold),
        (eachNamed named fun a => (s.axis a).motion.mode ≠ .fault, .faulted),
        (eachNamed named fun a => (s.axis a).motion.mode ≠ .homing && !(s.axis a).pendingHome, .busy)] = none := by
      rw [(canRun_check_iff s).mpr can, (homeFaulted_iff named s).mpr fun a ha => (free a ha).1,
        (homeBusy_iff named s).mpr fun a ha => (free a ha).2]
      rfl
    have after_ : ∀ a, after a = if namesAxis named a then (s.axis a).homeAfter s.now else (s.axis a, none) := fun _ => rfl
    have each : ∀ a, (onNamed named (fun env x => x.home env) a (s.axisEnv a) (s.axis a)).Becomes (s.axisEnv a) (s.axis a)
        (after a) (done a) := by
      intro a
      rw [after_]
      cases ha : namesAxis named a with
      | false =>
        have quiet : done a = [] := if_neg (by simp [ha])
        rw [onNamed_of_not ha, quiet]
        exact LensOut.becomes_still _ (run a)
      | true =>
        have done_ : done a = (s.axis a).doneAtOnce a .aborted := if_pos ha
        obtain ⟨fault, homing, -⟩ := free a ha
        rw [onNamed_of_named ha, done_]
        exact AxisState.home_becomes fault homing ((s.axisEnv_canRun_iff a).mpr can) (run a) fun l => fits a l ha
    have event := State.lensEvent_of_outcomes (s := s) (f := onNamed named fun env x => x.home env) (fun _ => rfl)
      (fun a => (each a).events) (fun a => (each a).later) fun a env axis_ now_ run_ =>
        (each a).ends env axis_ now_ (Bool.eq_iff_iff.mpr (run_.trans (s.axisEnv_canRun_iff a).symm))
    have triggers : ∀ v h dv dh v' h' : Bool, (v || dv) = (v' || dv) → (h || dh) = (h' || dh) →
        (v || h || dv || dh) = (v' || h' || (dv || dh)) := by decide
    have both : (!(done .v ++ done .h).isEmpty) = (!(done .v).isEmpty || !(done .h).isEmpty) := by
      cases done .v <;> simp
    rw [(each .v).change, (each .h).change, triggers _ _ _ _ _ _ (each .v).trigger (each .h).trigger, ← both,
      State.partChange_eq] at event
    rw [request_passed h rfl passed]
    simp only [event]
    exact ⟨_, rfl⟩

end Sys2Proof.Machine
end


-- ==== Sys2Proof/Proofs/HardResetLines.lean ====
section
/-! PROOFS. In hard reset a command other than the two resets does nothing, or sets the level of a line and nothing else; so the
lines that are driven stay at the levels they took as hard reset began (R180). -/

namespace Sys2Proof.Machine

/-! ### The commands that do nothing in hard reset -/

section

variable {s : State} (reset : s.inReset = true)
include reset

/-- No port takes a request. -/
theorem exec_request_inReset {c : Instr} {p : Port} (request : portOf c = some p) : exec c s = .next s := by
  unfold exec
  cases c with
  | abortMotion =>
    change execAbortMotion _ _ s = _
    unfold execAbortMotion
    exact takeRequest_inReset _ _ _ reset
  | home =>
    change execHome _ _ s = _
    unfold execHome
    exact takeRequest_inReset _ _ _ reset
  | axisRecover =>
    change execAxisRecover _ _ s = _
    unfold execAxisRecover
    exact takeRequest_inReset _ _ _ reset
  | storePreset =>
    change execStorePreset _ _ _ _ _ _ _ _ s = _
    unfold execStorePreset
    exact takeRequest_inReset _ _ _ reset
  | beginLoad =>
    change execBeginLoad _ _ _ s = _
    unfold execBeginLoad
    exact takeRequest_inReset _ _ _ reset
  | readTable =>
    change execReadTable _ _ _ s = _
    unfold execReadTable
    exact takeRequest_inReset _ _ _ reset
  | writeInstall =>
    change execWriteInstall _ _ _ _ _ _ _ _ _ s = _
    unfold execWriteInstall
    exact takeRequest_inReset _ _ _ reset
  | jog =>
    change execJog _ _ _ _ _ s = _
    unfold execJog
    exact takeRequest_inReset _ _ _ reset
  | readInstall | readAxis | readThermal | readLight | readWarp | readPreset | getEvents | setEventMask | attach | detach
  | lightRequest | recallPreset | clearPreset | lightOn | lightOff | setLightMode | setQuiet | clearLightFault | setParamAxis
  | setParam | getParam | loadSegment | endLoad | restart => exact takeRequest_inReset _ _ _ reset
  | _ => cases request

/-- Bytes that are no request are not taken either. -/
theorem exec_malformedRequest_inReset (p : Port) (bytes : List Byte) : exec (.malformedRequest p bytes) s = .next s := by
  change execMalformedRequest p bytes s = .next s
  obtain same | ⟨kind, cause, taken⟩ | ⟨i, request, taken⟩ := execMalformedRequest_cases p bytes s
  · exact same
  · rw [taken]
    exact takeRequest_inReset _ _ _ reset
  · obtain ⟨q, request⟩ := Option.isSome_iff_exists.mp request
    exact taken.trans (exec_request_inReset reset request)

theorem State.attention_inReset (p : Port) : s.attention p = false := by
  rw [State.attention, reset]
  rfl

theorem lines_released_inReset (before after : Transaction) (clocked : List Bool) :
    cpSda (some (before ++ ⟨s, clocked⟩ :: after)) = false ∧ fpSdo (some (before ++ ⟨s, clocked⟩ :: after)) = none :=
  lines_released_of_lost _ <| (Transaction.lost_iff _).mpr ⟨⟨s, clocked⟩, List.mem_append_right _ List.mem_cons_self, reset⟩

theorem State.probeBus_inReset (result : ReadResult) (x : TimedOut) (bus : BusSample) :
    s.probeBus (.scanStart bus) = [] ∧ s.probeBus (.slotReadDone result bus) = [] ∧ s.probeBus (.probeBusTimeout x) = [] :=
  ⟨if_pos reset, if_pos reset, if_pos reset⟩

end

/-! ### The commands that set the level of a line -/

/-- The command tells of the level of an input line. -/
def setsLevel : Instr → Bool
  | .endStopEdge .. | .refMkEdge .. | .drvFlt .. | .lightOkRise .. | .lightOkFall .. | .lightFlt .. => true
  | _ => false

section

variable {s : State} (reset : s.inReset = true)
include reset

/-- No timer and no engine acts, and no response is formed. -/
theorem exec_inReset_of_no_level {c : Instr} (level : setsLevel c = false) (begun : ∀ low, c ≠ .hardReset low)
    (ended : ∀ ports bus, c ≠ .hardResetEnd ports bus) : exec c s = .next s := by
  cases request : portOf c with
  | some p => exact exec_request_inReset reset request
  | none =>
    unfold exec
    cases c with
    | malformedRequest p bytes => exact exec_malformedRequest_inReset reset p bytes
    | hardReset low => exact absurd rfl (begun low)
    | hardResetEnd ports bus => exact absurd rfl (ended ports bus)
    | responseFormed | fmark | lapseWindowExpiry | stepTimerExpiry | holdTimerExpiry | computationComplete | scanStart
    | slotReadDone | probeBusTimeout | criticalDwellExpiry | kickExpiry | tachEdgeAccepted | graceTimerExpiry | edgeTimerExpiry
    | ignitionTimerExpiry | cooldownMinExpiry | coolMax | slewTimerExpiry => exact unlessReset_inReset _ reset
    | endStopEdge | refMkEdge | drvFlt | lightOkRise | lightOkFall | lightFlt => cases level
    | _ => cases request

theorem exec_lightOkRise_inReset (time : Nat) :
    exec (.lightOkRise time) s = .next { s with lau := { s.lau with lightOk := true } } := by
  change execLightOkRise time s = _
  unfold execLightOkRise
  exact unlessReset_inReset _ reset

theorem exec_lightOkFall_inReset (time : Nat) :
    exec (.lightOkFall time) s = .next { s with lau := { s.lau with lightOk := false } } := by
  change execLightOkFall time s = _
  unfold execLightOkFall
  exact unlessReset_inReset _ reset

theorem exec_lightFlt_inReset (active : Bool) (time : Nat) :
    exec (.lightFlt active time) s = .next { s with lau := { s.lau with lightFlt := active } } := by
  change execLightFlt active time s = _
  unfold execLightFlt
  exact unlessReset_inReset _ reset

theorem exec_endStopEdge_lo_inReset (a : Axis) (b : Bool) :
    exec (.endStopEdge a .lo b) s = .next (s.setAxis a { s.axis a with endLo := b }) := by
  change execEndStopEdge a .lo b s = _
  simp [execEndStopEdge, AxisState.endStopEdge, reset]

theorem exec_endStopEdge_hi_inReset (a : Axis) (b : Bool) :
    exec (.endStopEdge a .hi b) s = .next (s.setAxis a { s.axis a with endHi := b }) := by
  change execEndStopEdge a .hi b s = _
  simp [execEndStopEdge, AxisState.endStopEdge, reset]

theorem exec_refMkEdge_inReset (a : Axis) (b : Bool) :
    exec (.refMkEdge a b) s = .next (s.setAxis a { s.axis a with refMk := b }) := by
  change execRefMkEdge a b s = _
  simp [execRefMkEdge, reset]

theorem exec_drvFlt_inReset (a : Axis) (b : Bool) :
    exec (.drvFlt a b) s = .next (s.setAxis a { s.axis a with drvFlt := b }) := by
  change execDrvFlt a b s = _
  simp [execDrvFlt, reset]

end

/-! ### The lines that are driven -/

/-- The part is in hard reset, and the lines it drives stand at their reset levels (R42, R180). -/
structure State.Silent (t : State) : Prop where
  inReset : t.inReset = true
  lightEnable : t.lightEnable = false
  fans : ∀ f : Fan, t.fanDuty f = 0
  coils : ∀ a : Axis, t.coils a = (⟨true, 40⟩, ⟨true, 0⟩)

theorem State.silent_hardReset (s : State) : s.hardReset.Silent where
  inReset := rfl
  lightEnable := rfl
  fans f := by cases f <;> rfl
  coils a := by
    have index : (s.hardReset.axis a).index = 0 := by cases a <;> rfl
    have level : s.hardReset.coilLevel a = 40 := by cases a <;> rfl
    have outputs : ((coilA 0).output 40, (coilB 0).output 40) = ((⟨true, 40⟩, ⟨true, 0⟩) : CoilOutput × CoilOutput) := by decide
    rw [State.coils, index, level, outputs]

namespace State.Silent

variable {s : State} (silent : s.Silent)
include silent

/-- A level of the light source's inputs moves no output. -/
theorem setLau {l : Lau} (session : l.session = s.lau.session) : State.Silent { s with lau := l } where
  inReset := silent.inReset
  lightEnable := (congrArg Session.lightEn session).trans silent.lightEnable
  fans := silent.fans
  coils := silent.coils

/-- A level of an axis's inputs moves no output. -/
theorem setAxis (a : Axis) {x : AxisState} (index : x.index = (s.axis a).index) (phase : x.phase = (s.axis a).phase)
    (params : x.params = (s.axis a).params) : State.Silent (s.setAxis a x) where
  inReset := (State.setAxis_inReset s a x).trans silent.inReset
  lightEnable := by cases a <;> exact silent.lightEnable
  fans f := by cases a <;> exact silent.fans f
  coils b := by
    have level : currentLevel a s.irm.orientation x = currentLevel a s.irm.orientation (s.axis a) := by
      simp only [currentLevel, phase, params]
    have own : (s.setAxis a x).coils a = s.coils a := by
      simp only [State.coils, State.coilLevel, State.setAxis_axis_self, State.setAxis_irm, level, index]
    cases a <;> cases b
    · exact own.trans (silent.coils .v)
    · exact silent.coils .h
    · exact silent.coils .v
    · exact own.trans (silent.coils .h)

/-- No command but the two resets moves an output. -/
theorem exec_ {c : Instr} {t : State} (begun : ∀ low, c ≠ .hardReset low) (ended : ∀ ports bus, c ≠ .hardResetEnd ports bus)
    (run : exec c s = .next t) : t.Silent := by
  have reset := silent.inReset
  cases level : setsLevel c with
  | false =>
    rw [exec_inReset_of_no_level reset level begun ended] at run
    exact Host.Outcome.next.inj run ▸ silent
  | true =>
    cases c with
    | endStopEdge a stop b =>
      cases stop with
      | lo =>
        rw [exec_endStopEdge_lo_inReset reset] at run
        exact Host.Outcome.next.inj run ▸ silent.setAxis a rfl rfl rfl
      | hi =>
        rw [exec_endStopEdge_hi_inReset reset] at run
        exact Host.Outcome.next.inj run ▸ silent.setAxis a rfl rfl rfl
    | refMkEdge a b =>
      rw [exec_refMkEdge_inReset reset] at run
      exact Host.Outcome.next.inj run ▸ silent.setAxis a rfl rfl rfl
    | drvFlt a b =>
      rw [exec_drvFlt_inReset reset] at run
      exact Host.Outcome.next.inj run ▸ silent.setAxis a rfl rfl rfl
    | lightOkRise time =>
      rw [exec_lightOkRise_inReset reset] at run
      exact Host.Outcome.next.inj run ▸ silent.setLau rfl
    | lightOkFall time =>
      rw [exec_lightOkFall_inReset reset] at run
      exact Host.Outcome.next.inj run ▸ silent.setLau rfl
    | lightFlt b time =>
      rw [exec_lightFlt_inReset reset] at run
      exact Host.Outcome.next.inj run ▸ silent.setLau rfl
    | _ => cases level

/-- The levels of the driven lines, and the two port lines of a transaction whose present state is this one. -/
theorem lines : s.lightEnable = false ∧ s.lightPwm = 0 ∧ (∀ f : Fan, s.fanDuty f = 0) ∧
    (∀ a : Axis, s.coils a = (⟨true, 40⟩, ⟨true, 0⟩)) ∧ ∀ (before : Transaction) (clocked : List Bool),
      cpSda (some (before ++ [⟨s, clocked⟩])) = false ∧ fpSdo (some (before ++ [⟨s, clocked⟩])) = none := by
  refine ⟨silent.lightEnable, ?_, silent.fans, silent.coils, fun before clocked =>
    lines_released_inReset silent.inReset before [] clocked⟩
  rw [State.lightPwm, silent.lightEnable]
  rfl

end State.Silent

/-- Settles O3. -/
theorem hardResetSilencesThePart : Obligations.HardResetSilencesThePart := by
  refine ⟨fun s => ⟨s.silent_hardReset.lines, fun c t begun ended run =>
    (s.silent_hardReset.exec_ begun ended run).lines⟩, fun s reset => ?_⟩
  have idle {c : Instr} (level : setsLevel c = false) (begun : ∀ low, c ≠ .hardReset low)
      (ended : ∀ ports bus, c ≠ .hardResetEnd ports bus) : exec c s = .next s :=
    exec_inReset_of_no_level reset level begun ended
  refine ⟨fun _ _ => exec_request_inReset reset, exec_malformedRequest_inReset reset, fun p => ⟨?_, State.attention_inReset reset p⟩,
    lines_released_inReset reset, State.probeBus_inReset reset, fun c timer => ?_, fun a => ⟨?_, ?_⟩,
    fun f => ⟨?_, ?_, ?_, fun _ _ => ?_⟩, fun bus => ⟨?_, fun _ => ?_, fun _ => ?_⟩, fun time => ⟨?_,
      exec_lightOkRise_inReset reset time, exec_lightOkFall_inReset reset time, fun b => exec_lightFlt_inReset reset b time⟩,
    fun a b => ⟨exec_endStopEdge_lo_inReset reset a b, exec_endStopEdge_hi_inReset reset a b, exec_refMkEdge_inReset reset a b,
      exec_drvFlt_inReset reset a b⟩⟩
  case refine_2 =>
    simp only [List.mem_cons, List.not_mem_nil, or_false] at timer
    obtain rfl | rfl | rfl | rfl | rfl | rfl | rfl := timer <;> exact idle rfl nofun nofun
  all_goals exact idle rfl nofun nofun

end Sys2Proof.Machine
end


-- ==== Sys2Proof/Proofs/Parameters.lean ====
section
/-! PROOFS. The parameters of the part (R21, R192), and the operations of the axes and the blocks, which move none of them. -/

namespace Sys2Proof.Machine

/-! ### The parameters of the part -/

/-- Every parameter of the part (R21, R192). -/
structure Parameters where
  v : AxisParams
  h : AxisParams
  lau : LauParams
  q : Nat
  flim : Nat
  lapseWindow : Nat
  dwellSeconds : Nat
  quietCap : PerFan Nat
  coolDuty : PerFan Nat
  startDuty : Nat
  glitch : List (Nat × Nat)

def State.parameters (s : State) : Parameters :=
  { v := s.lmc.v.params, h := s.lmc.h.params, lau := s.lau.params, q := s.ge.q, flim := s.ge.flim,
    lapseWindow := s.fmon.lapseWindow, dwellSeconds := s.tmon.dwellSeconds, quietCap := s.afc.quietCap,
    coolDuty := s.afc.coolDuty, startDuty := s.afc.startDuty, glitch := s.afc.glitch }

/-- The ranges look at the parameters alone. -/
theorem paramsFit_of_parameters {s t : State} (kept : t.parameters = s.parameters) (fit : ParamsFit s) : ParamsFit t := by
  obtain ⟨v, h, lau, q, flim, window, dwell, caps, duties, start, glitch⟩ := Parameters.mk.inj kept
  unfold ParamsFit at *
  rw [v, h, lau, q, flim, window, dwell, caps, duties, start, glitch]
  exact fit

/-! ### What an axis does moves none of its parameters -/

/-- What one axis did, its parameters left. -/
abbrev LensOut.SameParams (o : LensOut) (x : AxisState) : Prop := o.axis.params = x.params

theorem AxisState.settle_params (env : AxisEnv) (x : AxisState) (queue : List Entry) :
    (x.settle env queue).SameParams x := by
  induction queue with
  | nil => exact AxisState.enterHold_params env _
  | cons e rest ih =>
    unfold AxisState.settle
    split
    · split
      · rfl
      · exact ih
    · exact AxisState.enterHold_params env _

theorem AxisState.startIfIdle_params (env : AxisEnv) (x : AxisState) : (x.startIfIdle env).SameParams x := by
  unfold AxisState.startIfIdle
  split
  · exact AxisState.settle_params ..
  · rfl

theorem AxisState.complete_params (env : AxisEnv) (x : AxisState) : (x.complete env).SameParams x :=
  AxisState.settle_params env { x with motion := .idle, stepTimer := none, queue := x.queue.tail } x.queue.tail

theorem AxisState.nextLeg_params (env : AxisEnv) (x : AxisState) (number : Nat) : (x.nextLeg env number).SameParams x := by
  unfold AxisState.nextLeg
  split
  · exact AxisState.complete_params env x
  · split
    · rfl
    · exact AxisState.complete_params env x

theorem AxisState.beginHoming_params (env : AxisEnv) (x : AxisState) : (x.beginHoming env).SameParams x := by
  unfold AxisState.beginHoming
  dsimp only [AxisState.setTrust]
  split <;> rfl

theorem AxisState.homed_params (env : AxisEnv) (x : AxisState) (contact : Int) : (x.homed env contact).SameParams x :=
  AxisState.enterHold_params env _

theorem AxisState.homeContact_params (env : AxisEnv) (x : AxisState) : (x.homeContact env).SameParams x := by
  unfold AxisState.homeContact
  dsimp only
  split
  · exact AxisState.homed_params env _ _
  · rfl

theorem AxisState.afterStop_params (env : AxisEnv) (x : AxisState) : (x.afterStop env).SameParams x := by
  unfold AxisState.afterStop
  split
  · exact AxisState.beginHoming_params env x
  · exact AxisState.settle_params ..

theorem AxisState.contactHalt_params (env : AxisEnv) (x : AxisState) (d : Dir) (motion : Halted) :
    (x.contactHalt env d motion).SameParams x := by
  unfold AxisState.contactHalt
  dsimp only
  split
  · exact (AxisState.beginHoming_params env _).trans (AxisState.enterHold_params env _)
  · exact AxisState.enterHold_params env _

theorem AxisState.stopAfter_params (env : AxisEnv) (x : AxisState) (r : Nat) (d : Dir) (pRun : Nat) (reason : DoneReason)
    (abandoned : Bool) : (x.stopAfter env r d pRun reason abandoned).SameParams x :=
  AxisState.countTo_params ..

theorem AxisState.beginStop_params (env : AxisEnv) (x : AxisState) (reason : DoneReason) :
    (x.beginStop env reason).SameParams x := by
  unfold AxisState.beginStop
  split
  · exact AxisState.stopAfter_params ..
  · exact AxisState.stopAfter_params env { x with trust := .unhomed } ..
  · rfl
  · rfl
  · rfl

theorem AxisState.endStop_params (env : AxisEnv) (x : AxisState) (st : Stop) : (x.endStop env st).SameParams x :=
  AxisState.afterStop_params env
    { x with motion := .idle, stepTimer := none, queue := if st.abandoned then x.queue else x.queue.tail }

theorem AxisState.endIfStopped_params (env : AxisEnv) (x : AxisState) : (x.endIfStopped env).SameParams x := by
  unfold AxisState.endIfStopped
  split
  · split
    · exact AxisState.endStop_params ..
    · rfl
  all_goals rfl

theorem AxisState.stepLeg_params (env : AxisEnv) (x : AxisState) (l : Leg) : (x.stepLeg env l).SameParams x := by
  have tested := x.testStop_snd_params l.dir
  have moved := (AxisState.microstep_params env.axis (x.testStop l.dir).2 l.dir).trans tested
  unfold AxisState.stepLeg
  dsimp only
  split
  · exact (AxisState.contactHalt_params ..).trans tested
  · split
    · split
      · exact (AxisState.complete_params env _).trans moved
      · exact (AxisState.nextLeg_params env _ _).trans moved
    · exact moved

theorem AxisState.stepStop_params (env : AxisEnv) (x : AxisState) (st : Stop) : (x.stepStop env st).SameParams x := by
  have tested := x.testStop_snd_params st.dir
  have moved := (AxisState.microstep_params env.axis (x.testStop st.dir).2 st.dir).trans tested
  unfold AxisState.stepStop
  dsimp only
  split
  · exact (AxisState.contactHalt_params ..).trans tested
  · split
    · exact (AxisState.endStop_params env _ _).trans moved
    · exact moved

theorem AxisState.homeStep_params {env : AxisEnv} {x : AxisState} {run : Homing} {finish : AxisState → Homing → LensOut}
    (finished : ∀ y r, (finish y r).SameParams y) : (x.homeStep env run finish).SameParams x := by
  have moved := AxisState.microstep_params env.axis x run.phase.dir
  unfold AxisState.homeStep
  dsimp only
  split
  · exact (finished _ _).trans moved
  · exact moved

theorem AxisState.endClear_params (env : AxisEnv) (x : AxisState) (run : Homing) : (x.endClear env run).SameParams x := by
  unfold AxisState.endClear
  split <;> rfl

theorem AxisState.endBackoff_params (env : AxisEnv) (x : AxisState) (run : Homing) : (x.endBackoff env run).SameParams x := by
  unfold AxisState.endBackoff
  split
  · rfl
  · exact AxisState.homed_params ..

theorem AxisState.stepHoming_params (env : AxisEnv) (x : AxisState) (run : Homing) : (x.stepHoming env run).SameParams x := by
  unfold AxisState.stepHoming
  split
  · exact AxisState.homeStep_params fun y r => AxisState.endClear_params env y r
  · have tested := x.testStop_snd_params .minus
    dsimp only
    split
    · exact (AxisState.homeContact_params env _).trans tested
    · split
      · exact tested
      · exact (AxisState.homeStep_params fun _ _ => rfl).trans tested
  · have tested := x.testStop_snd_params .plus
    dsimp only
    split
    · exact tested
    · exact (AxisState.homeStep_params fun y r => AxisState.endBackoff_params env y r).trans tested

theorem AxisState.step_params (env : AxisEnv) (x : AxisState) : (x.step env).SameParams x := by
  unfold AxisState.step
  split
  · exact AxisState.stepLeg_params ..
  · exact AxisState.stepStop_params ..
  · exact AxisState.stepHoming_params ..
  · rfl
  · rfl

theorem AxisState.thermalStop_params (env : AxisEnv) (x : AxisState) : (x.thermalStop env).SameParams x := by
  unfold AxisState.thermalStop
  split
  · exact AxisState.beginStop_params ..
  · exact AxisState.beginStop_params ..
  all_goals rfl

theorem AxisState.home_params (env : AxisEnv) (x : AxisState) : (x.home env).SameParams x := by
  unfold AxisState.home
  split
  · exact AxisState.beginHoming_params ..
  · exact AxisState.beginStop_params env { x with pendingHome := true } .aborted
  all_goals rfl

theorem AxisState.halt_params (env : AxisEnv) (x : AxisState) (reason : DoneReason) : (x.halt env reason).SameParams x := by
  unfold AxisState.halt
  split
  · dsimp only
    split
    · exact AxisState.enterHold_params ..
    · rfl
  · rfl

theorem AxisState.driverFault_params (env : AxisEnv) (x : AxisState) : (x.driverFault env).SameParams x := by
  unfold AxisState.driverFault
  split <;> rfl

theorem AxisState.correctLeg_params (env : AxisEnv) (x : AxisState) (l : Leg) : (x.correctLeg env l).SameParams x := by
  unfold AxisState.correctLeg
  dsimp only
  split
  · exact AxisState.nextLeg_params env { x with position := x.params.refPos } _
  · rfl

theorem AxisState.refMark_params (env : AxisEnv) (x : AxisState) : (x.refMark env).SameParams x := by
  unfold AxisState.refMark
  dsimp only
  split
  · rfl
  · split
    · split
      · exact AxisState.correctLeg_params ..
      · rfl
    · split <;> rfl
    all_goals rfl

theorem AxisState.recover_params (x : AxisState) : x.recover.params = x.params := by
  unfold AxisState.recover
  split <;> rfl

theorem AxisState.holdExpired_params (x : AxisState) : x.holdExpired.params = x.params := by
  unfold AxisState.holdExpired
  split <;> rfl

theorem AxisState.endStopEdge_params (x : AxisState) (stop : EndStop) (active counted : Bool) :
    (x.endStopEdge stop active counted).params = x.params := by
  cases stop <;> rfl

theorem onNamed_params {named : Bool × Bool} {f : AxisEnv → AxisState → LensOut} (same : ∀ env x, (f env x).SameParams x)
    (a : Axis) (env : AxisEnv) (x : AxisState) : (onNamed named f a env x).SameParams x := by
  cases a
  all_goals
    unfold onNamed
    dsimp only
    split
    · exact same env x
    · rfl

/-! ### The operations of the part move no parameter -/

/-- A state that differs in other fields of the blocks alone. -/
theorem State.parameters_congr {s t : State} (lmc : t.lmc = s.lmc := by simp) (lau : t.lau.params = s.lau.params := by simp)
    (ge : t.ge = s.ge := by simp) (fmon : t.fmon = s.fmon := by simp) (tmon : t.tmon = s.tmon := by simp)
    (afc : t.afc = s.afc := by simp) : t.parameters = s.parameters := by
  simp only [State.parameters, lmc, lau, ge, fmon, tmon, afc]

@[simp] theorem State.raiseAll_parameters (s : State) (es : List Event) : (s.raiseAll es).parameters = s.parameters :=
  State.parameters_congr

@[simp] theorem State.at_parameters (s : State) (time : Nat) : (s.at_ time).parameters = s.parameters := rfl

@[simp] theorem State.setPort_parameters (s : State) (p : Port) (x : PortState) : (s.setPort p x).parameters = s.parameters := by
  cases p <;> rfl

@[simp] theorem State.setAxis_parameters {s : State} {a : Axis} {x : AxisState} (same : x.params = (s.axis a).params) :
    (s.setAxis a x).parameters = s.parameters := by
  cases a
  · exact congrArg (fun v => { s.parameters with v := v }) same
  · exact congrArg (fun h => { s.parameters with h := h }) same

@[simp] theorem State.partChange_parameters (s : State) (v h : Option Int) : (s.partChange v h).parameters = s.parameters := by
  cases v <;> cases h <;> rfl

@[simp] theorem State.recompute_parameters (s : State) : s.recompute.parameters = s.parameters := by
  unfold State.recompute
  split <;> rfl

@[simp] theorem State.recomputeIf_parameters (s : State) (b : Bool) : (s.recomputeIf b).parameters = s.parameters := by
  cases b
  · rfl
  · exact s.recompute_parameters

theorem State.deliver_parameters {s : State} {v h : LensOut} (sameV : v.SameParams s.lmc.v) (sameH : h.SameParams s.lmc.h) :
    (s.deliver v h).parameters = s.parameters := by
  have moved : State.parameters { s with lmc := { v := v.axis, h := h.axis } } = s.parameters :=
    congrArg₂ (fun v h => { s.parameters with v := v, h := h }) sameV sameH
  rw [State.deliver, State.raiseAll_parameters, State.partChange_parameters, State.raiseAll_parameters, moved]

theorem State.axisEvent_parameters {s : State} {a : Axis} {f : AxisEnv → AxisState → LensOut}
    (same : ∀ env, (f env (s.axis a)).SameParams (s.axis a)) : (s.axisEvent a f).parameters = s.parameters := by
  refine (State.recomputeIf_parameters _ _).trans ?_
  cases a
  · exact State.deliver_parameters (same _) rfl
  · exact State.deliver_parameters rfl (same _)

theorem State.lensEvent_parameters {s : State} {f : Axis → AxisEnv → AxisState → LensOut}
    (same : ∀ a env x, (f a env x).SameParams x) : (s.lensEvent f).parameters = s.parameters := by
  refine (State.recomputeIf_parameters _ _).trans ((State.deliver_parameters ?_ ?_).trans
    (State.deliver_parameters (same ..) (same ..)))
  · exact AxisState.endIfStopped_params ..
  · exact AxisState.endIfStopped_params ..

@[simp] theorem State.thermalStop_parameters (s : State) : s.thermalStop.parameters = s.parameters :=
  State.lensEvent_parameters fun _ => AxisState.thermalStop_params

@[simp] theorem State.tripHalt_parameters (s : State) : s.tripHalt.parameters = s.parameters :=
  State.lensEvent_parameters fun _ env x => AxisState.halt_params env x .trip

@[simp] theorem State.startHeads_parameters (s : State) (b : Bool) : (s.startHeads b).parameters = s.parameters :=
  (State.recomputeIf_parameters _ _).trans
    (State.deliver_parameters (AxisState.startIfIdle_params ..) (AxisState.startIfIdle_params ..))

@[simp] theorem State.lauTake_parameters (s : State) (x : LauInputs) : (s.lauTake x).parameters = s.parameters :=
  State.parameters_congr (lau := Lau.form_params ..)

@[simp] theorem State.lauForm_parameters (s : State) : s.lauForm.parameters = s.parameters :=
  State.parameters_congr (lau := Lau.form_params ..)

@[simp] theorem State.selectFans_parameters (s : State) : s.selectFans.parameters = s.parameters := by
  unfold State.selectFans
  dsimp only
  split
  · rfl
  · exact State.lauTake_parameters _ _

@[simp] theorem State.enterSession_parameters (s : State) (new : Session) (cause : SessionCause) :
    (s.enterSession new cause).parameters = s.parameters :=
  (State.selectFans_parameters _).trans
    (State.parameters_congr (lau := (Lau.form_params ..).trans (Lau.switch_params ..)))

@[simp] theorem State.checkCooled_parameters (s : State) : s.checkCooled.parameters = s.parameters := by
  unfold State.checkCooled
  split
  · exact s.enterSession_parameters _ _
  · rfl

@[simp] theorem State.enterCooldown_parameters (s : State) (cause : SessionCause) :
    (s.enterCooldown cause).parameters = s.parameters := by
  rw [State.enterCooldown, State.checkCooled_parameters, State.enterSession_parameters]

@[simp] theorem State.lightFault_parameters (s : State) (reason : FaultReason) :
    (s.lightFault reason).parameters = s.parameters :=
  State.enterCooldown_parameters _ _

@[simp] theorem State.formDevice_parameters (s : State) : s.formDevice.parameters = s.parameters := by
  unfold State.formDevice
  dsimp only
  split
  · rfl
  · refine Eq.trans (b := State.parameters (State.selectFans _)) rfl ((State.selectFans_parameters _).trans ?_)
    split
    · exact State.thermalStop_parameters _
    · rfl

@[simp] theorem State.handStalled_parameters (s : State) (f : Fan) (stalled : Bool) :
    (s.handStalled f stalled).parameters = s.parameters :=
  (State.lauTake_parameters _ _).trans (State.formDevice_parameters _)

@[simp] theorem State.declareTrip_parameters (s : State) (cause : TripCause) (zone : Source) :
    (s.declareTrip cause zone).parameters = s.parameters := by
  unfold State.declareTrip
  split
  · rfl
  · exact (State.enterSession_parameters _ _ _).trans ((State.selectFans_parameters _).trans (State.tripHalt_parameters _))

@[simp] theorem State.checkAbsolute_parameters (s : State) : s.checkAbsolute.parameters = s.parameters := by
  unfold State.checkAbsolute
  split
  · exact s.declareTrip_parameters _ _
  · rfl

@[simp] theorem State.handResults_parameters (s : State) : s.handResults.parameters = s.parameters :=
  (State.checkCooled_parameters _).trans ((State.lauTake_parameters _ _).trans (State.selectFans_parameters _))

@[simp] theorem State.countScan_parameters (s : State) : s.countScan.parameters = s.parameters := rfl

/-- A TMON record with the dwell parameter as it was. -/
theorem State.setTmon_parameters (s : State) {t : Tmon} (dwell : t.dwellSeconds = s.tmon.dwellSeconds) :
    State.parameters { s with tmon := t } = s.parameters :=
  congrArg (fun d => { s.parameters with dwellSeconds := d }) dwell

@[simp] theorem State.evaluate_parameters (s : State) (bus : BusCondition) : (s.evaluate bus).parameters = s.parameters := by
  rw [State.evaluate_eq, State.handResults_parameters, State.countScan_parameters, State.checkAbsolute_parameters,
    State.formDevice_parameters]
  exact s.setTmon_parameters rfl

theorem Tmon.finishRead_dwellSeconds (t : Tmon) (n : Nat) (r : Except ReadCause Int) :
    (t.finishRead n r).1.dwellSeconds = t.dwellSeconds := rfl

theorem Tmon.failStuck_dwellSeconds (t : Tmon) (slots : List Nat) :
    (t.failStuck slots).1.dwellSeconds = t.dwellSeconds := by
  induction slots generalizing t with
  | nil => rfl
  | cons n rest ih => exact ih _

@[simp] theorem State.nextSlot_parameters (s : State) (slots : List Nat) (worst : BusCondition) (bus : BusSample) :
    (s.nextSlot slots worst bus).parameters = s.parameters := by
  cases slots with
  | nil => exact s.evaluate_parameters _
  | cons n rest =>
    rw [State.nextSlot_cons]
    split
    · rw [State.evaluate_parameters, State.raiseAll_parameters]
      exact s.setTmon_parameters (Tmon.failStuck_dwellSeconds ..)
    · exact s.setTmon_parameters rfl

@[simp] theorem State.startScan_parameters (s : State) (bus : BusSample) : (s.startScan bus).parameters = s.parameters := by
  rw [State.startScan_eq, State.nextSlot_parameters]
  exact s.setTmon_parameters rfl

@[simp] theorem State.finishSlot_parameters (s : State) (outcome : Int → Except ReadCause Int) (bus : BusSample) :
    (s.finishSlot outcome bus).parameters = s.parameters := by
  obtain same | ⟨n, rest, worst, -, next⟩ := s.finishSlot_cases outcome bus
  · rw [same]
  · rw [next, State.nextSlot_parameters, State.raiseAll_parameters]
    exact s.setTmon_parameters (Tmon.finishRead_dwellSeconds ..)

@[simp] theorem State.stallFan_parameters (s : State) (f : Fan) : (s.stallFan f).parameters = s.parameters :=
  State.handStalled_parameters _ _ _

@[simp] theorem State.recoverFan_parameters (s : State) (f : Fan) (fall : Nat) (x : FanRecord) :
    (s.recoverFan f fall x).parameters = s.parameters :=
  State.handStalled_parameters _ _ _

@[simp] theorem State.endLapse_parameters (s : State) (cause : FrameCause) : (s.endLapse cause).parameters = s.parameters := by
  unfold State.endLapse
  split <;> rfl

@[simp] theorem State.handFrameState_parameters (s : State) : s.handFrameState.parameters = s.parameters :=
  State.lauTake_parameters _ _

@[simp] theorem State.promote_parameters (s : State) : s.promote.parameters = s.parameters := by
  unfold State.promote
  split <;> rfl

@[simp] theorem State.completeComputation_parameters (s : State) (c : Computation) :
    (s.completeComputation c).parameters = s.parameters := by
  unfold State.completeComputation
  dsimp only
  split <;> split <;> rfl

@[simp] theorem State.markFrame_parameters (s : State) : s.markFrame.parameters = s.parameters := by
  unfold State.markFrame
  dsimp only
  split
  · rfl
  · rfl
  · exact (State.handFrameState_parameters _).trans
      (Eq.trans (b := State.parameters (State.endLapse _ _)) rfl (State.endLapse_parameters _ _))

@[simp] theorem State.applyRequest_parameters (s : State) : s.applyRequest.parameters = s.parameters := by
  unfold State.applyRequest
  split
  · exact State.parameters_congr (lau := Lau.followTarget_params ..)
  · rfl

@[simp] theorem State.dropRequests_parameters (s : State) : s.dropRequests.parameters = s.parameters := rfl

/-- A GE record with its two parameters as they were. -/
theorem State.setGe_parameters (s : State) {g : Ge} (q : g.q = s.ge.q) (flim : g.flim = s.ge.flim) :
    State.parameters { s with ge := g } = s.parameters :=
  congrArg₂ (fun q flim => { s.parameters with q := q, flim := flim }) q flim

/-- An FMON record with the lapse window as it was. -/
theorem State.setFmon_parameters (s : State) {f : Fmon} (window : f.lapseWindow = s.fmon.lapseWindow) :
    State.parameters { s with fmon := f } = s.parameters :=
  congrArg (fun n => { s.parameters with lapseWindow := n }) window

theorem State.attach_parameters (s : State) (width height : Nat) : (s.attach width height).parameters = s.parameters := by
  rw [State.attach, State.recompute_parameters]
  refine (State.setGe_parameters _ rfl rfl).trans ?_
  rw [State.handFrameState_parameters, State.dropRequests_parameters]
  refine (State.setFmon_parameters _ rfl).trans ?_
  exact (State.endLapse_parameters _ _).trans rfl

theorem State.detach_parameters (s : State) : s.detach.parameters = s.parameters := by
  rw [State.detach]
  refine (State.setGe_parameters _ rfl rfl).trans ?_
  rw [State.handFrameState_parameters, State.dropRequests_parameters]
  refine (State.setFmon_parameters _ rfl).trans ?_
  exact (State.endLapse_parameters _ _).trans rfl

theorem State.lightOn_parameters (s : State) : s.lightOn.1.parameters = s.parameters := by
  unfold State.lightOn
  split
  case h_5 =>
    split
    · rfl
    · exact s.enterSession_parameters _ _
  all_goals rfl

theorem State.install_parameters (s : State) (l : Load) : (s.install l).parameters = s.parameters := by
  refine (State.recomputeIf_parameters _ _).trans ?_
  unfold State.installTable
  split <;> rfl

theorem Write.queue_params (w : Write) (s : State) (a : Axis) : (w.queue s a).params = (s.axis a).params := by
  unfold Write.queue
  split <;> rfl

theorem Write.apply_parameters (w : Write) (o : Originator) (s : State) : (w.apply o s).parameters = s.parameters :=
  (State.startHeads_parameters _ _).trans
    (congrArg₂ (fun v h => { s.parameters with v := v, h := h }) (w.queue_params s .v) (w.queue_params s .h))

theorem State.restart_parameters (s : State) : s.restart.parameters = s.parameters := by
  rw [State.restart_eq, State.recompute_parameters]
  refine Eq.trans (b := State.parameters (State.raiseAll _ _)) rfl ((State.raiseAll_parameters _ _).trans ?_)
  exact congrArg₂ (fun v h => { s.parameters with v := v, h := h }) (AxisState.halt_params ..) (AxisState.halt_params ..)

end Sys2Proof.Machine
end

