-- ==== Sys2Proof/Proofs/ParameterRanges.lean ====
section
/-! PROOFS. Every step keeps every parameter in its range (R21, R22, R192). No command moves a parameter but SET_PARAM, which
stores what its range and its partners admit, and hard reset, which takes the defaults. -/

namespace Sys2Proof.Machine

/-! ### The commands that move no parameter -/

section

variable {s t : State}

theorem takeRequest_parameters {p : Port} {kind : Byte} {f : State → State × Answer}
    (effect : (f s).1.parameters = s.parameters) (run : takeRequest p kind s f = .next t) : t.parameters = s.parameters :=
  takeRequest_keeps (P := fun u => u.parameters = s.parameters) (fun _ _ kept => (State.setPort_parameters ..).trans kept)
    (fun _ => State.setPort_parameters ..) rfl effect run

theorem judge_parameters {fields : List (Nat × Bool)} {checks : List (Bool × Status)} {refuse : State → List Byte}
    {effect : State → State × Answer} (kept : (effect s).1.parameters = s.parameters) :
    (judge fields checks refuse effect s).1.parameters = s.parameters :=
  judge_keeps (P := fun u => u.parameters = s.parameters) rfl fun _ _ => kept

theorem unlessReset_parameters {f : State → State} (kept : (f s).parameters = s.parameters)
    (run : unlessReset s f = .next t) : t.parameters = s.parameters :=
  unlessReset_keeps (P := fun u => u.parameters = s.parameters) rfl (fun _ => kept) run

theorem State.write_parameters (w : Write) (p : Port) (conditional : Bool) :
    (s.write p conditional w).1.parameters = s.parameters := by
  unfold State.write
  split
  · rfl
  · exact judge_parameters (w.apply_parameters _ s)

/-- The commands that may move a parameter, and the one whose bytes may carry such a request. -/
def movesParameters : Instr → Bool
  | .setParamAxis .. | .setParam .. | .malformedRequest .. | .hardReset .. => true
  | _ => false

/-- A request but SET_PARAM moves no parameter. -/
theorem request_parameters {c : Instr} {p : Port} (request : portOf c = some p) (still : movesParameters c = false)
    (run : exec c s = .next t) : t.parameters = s.parameters := by
  unfold exec at run
  cases c with
  | readThermal | readLight => exact takeRequest_parameters rfl run
  | readAxis | readPreset | lightRequest | clearPreset | clearLightFault =>
    exact takeRequest_parameters (judge_parameters rfl) run
  | readInstall =>
    refine takeRequest_parameters (judge_parameters ?_) run
    dsimp only
    split <;> rfl
  | writeInstall =>
    unfold execWriteInstall at run
    refine takeRequest_parameters ?_ run
    exact judge_parameters (State.write_parameters ..)
  | jog =>
    unfold execJog at run
    refine takeRequest_parameters ?_ run
    exact judge_parameters (State.write_parameters ..)
  | recallPreset =>
    refine takeRequest_parameters (judge_parameters ?_) run
    split
    · exact State.write_parameters ..
    · rfl
  | storePreset =>
    unfold execStorePreset at run
    exact takeRequest_parameters (judge_parameters rfl) run
  | readWarp | getEvents => exact takeRequest_parameters (State.setPort_parameters ..) run
  | setEventMask => exact takeRequest_parameters (judge_parameters (State.setPort_parameters ..)) run
  | attach => exact takeRequest_parameters (judge_parameters (State.attach_parameters ..)) run
  | detach =>
    refine takeRequest_parameters (judge_parameters ?_) run
    dsimp only
    split
    · exact s.detach_parameters
    · rfl
  | abortMotion =>
    unfold execAbortMotion at run
    refine takeRequest_parameters (judge_parameters ?_) run
    exact State.lensEvent_parameters (onNamed_params fun env x => AxisState.beginStop_params env x .aborted)
  | home =>
    unfold execHome at run
    refine takeRequest_parameters (judge_parameters ?_) run
    exact State.lensEvent_parameters (onNamed_params AxisState.home_params)
  | axisRecover p axes =>
    unfold execAxisRecover at run
    refine takeRequest_parameters (judge_parameters ?_) run
    refine congrArg₂ (fun v h => { s.parameters with v := v, h := h }) ?_ ?_
    all_goals
      dsimp only
      split
      · exact AxisState.recover_params _
      · rfl
  | lightOn => exact takeRequest_parameters (judge_parameters s.lightOn_parameters) run
  | lightOff =>
    refine takeRequest_parameters (judge_parameters ?_) run
    dsimp only
    split
    · exact s.enterCooldown_parameters _
    · rfl
  | setLightMode => exact takeRequest_parameters (judge_parameters (State.lauForm_parameters _)) run
  | setQuiet =>
    refine takeRequest_parameters (judge_parameters ?_) run
    dsimp only
    split
    · rfl
    · exact State.selectFans_parameters _
  | getParam =>
    refine takeRequest_parameters ?_ run
    split
    · rfl
    · exact judge_parameters rfl
  | beginLoad =>
    unfold execBeginLoad at run
    exact takeRequest_parameters (judge_parameters rfl) run
  | loadSegment =>
    refine takeRequest_parameters ?_ run
    dsimp only
    split
    · exact judge_parameters rfl
    · rfl
  | endLoad =>
    refine takeRequest_parameters (judge_parameters ?_) run
    dsimp only
    split
    · rfl
    · split
      · rfl
      · exact State.install_parameters _ _
  | readTable =>
    unfold execReadTable at run
    exact takeRequest_parameters (judge_parameters rfl) run
  | restart => exact takeRequest_parameters (judge_parameters s.restart_parameters) run
  | setParamAxis | setParam => cases still
  | _ => cases request

/-- A command that is no request moves no parameter, but hard reset. -/
theorem command_parameters {c : Instr} (request : portOf c = none) (still : movesParameters c = false)
    (run : exec c s = .next t) : t.parameters = s.parameters := by
  unfold exec at run
  cases c with
  | responseFormed p => exact unlessReset_parameters (State.setPort_parameters ..) run
  | hardResetEnd ports bus =>
    obtain rfl := Host.Outcome.next.inj run
    split
    · refine (State.startScan_parameters _ _).trans ((State.lensEvent_parameters fun _ env x => ?_).trans
        ((State.setPort_parameters ..).trans ((State.setPort_parameters ..).trans rfl)))
      split
      · exact AxisState.driverFault_params env x
      · rfl
    · rfl
  | fmark =>
    refine unlessReset_parameters ?_ run
    rw [State.applyRequest_parameters, State.markFrame_parameters, State.promote_parameters, State.at_parameters]
  | lapseWindowExpiry =>
    refine unlessReset_parameters ?_ run
    dsimp only
    split
    · exact State.handFrameState_parameters _
    · rfl
  | stepTimerExpiry a =>
    refine unlessReset_parameters ?_ run
    split
    · exact State.axisEvent_parameters fun env => AxisState.step_params env _
    · rfl
  | endStopEdge a stop active =>
    obtain rfl := Host.Outcome.next.inj run
    exact State.setAxis_parameters (AxisState.endStopEdge_params ..)
  | refMkEdge a rising =>
    obtain rfl := Host.Outcome.next.inj run
    split
    · exact (State.axisEvent_parameters fun env => AxisState.refMark_params env _).trans (State.setAxis_parameters rfl)
    · exact State.setAxis_parameters rfl
  | drvFlt a active =>
    obtain rfl := Host.Outcome.next.inj run
    split
    · exact (State.axisEvent_parameters fun env => AxisState.driverFault_params env _).trans (State.setAxis_parameters rfl)
    · exact State.setAxis_parameters rfl
  | holdTimerExpiry a =>
    refine unlessReset_parameters ?_ run
    split
    · refine (State.setAxis_parameters ?_).trans (State.at_parameters ..)
      exact AxisState.holdExpired_params _
    · rfl
  | computationComplete =>
    refine unlessReset_parameters ?_ run
    split
    · exact s.completeComputation_parameters _
    · rfl
  | scanStart bus => exact unlessReset_parameters (State.startScan_parameters _ bus) run
  | slotReadDone result bus => exact unlessReset_parameters (s.finishSlot_parameters _ bus) run
  | probeBusTimeout timedOut => exact unlessReset_parameters (s.finishSlot_parameters _ _) run
  | criticalDwellExpiry =>
    refine unlessReset_parameters ?_ run
    split
    · exact State.declareTrip_parameters ..
    · rfl
  | kickExpiry f =>
    refine unlessReset_parameters ?_ run
    split <;> rfl
  | tachEdgeAccepted f fall low =>
    refine unlessReset_parameters ?_ run
    dsimp only
    split
    · split
      · exact State.recoverFan_parameters ..
      · rfl
    · rfl
  | graceTimerExpiry f =>
    refine unlessReset_parameters ?_ run
    dsimp only
    split
    · split
      · rfl
      · exact State.stallFan_parameters ..
    · rfl
  | edgeTimerExpiry f =>
    refine unlessReset_parameters ?_ run
    dsimp only
    split
    · split
      · exact State.stallFan_parameters ..
      all_goals rfl
    · rfl
  | lightOkRise time =>
    unfold execLightOkRise at run
    refine (unlessReset_parameters ?_ run).trans rfl
    dsimp only
    split
    · exact State.enterSession_parameters ..
    · rfl
  | lightOkFall time =>
    unfold execLightOkFall at run
    refine (unlessReset_parameters ?_ run).trans rfl
    dsimp only
    split
    · exact State.lightFault_parameters ..
    · rfl
  | lightFlt active time =>
    unfold execLightFlt at run
    refine (unlessReset_parameters ?_ run).trans rfl
    dsimp only
    split
    · exact State.lightFault_parameters ..
    · rfl
  | ignitionTimerExpiry =>
    refine unlessReset_parameters ?_ run
    split
    · exact State.lightFault_parameters ..
    · rfl
  | cooldownMinExpiry =>
    refine unlessReset_parameters ?_ run
    dsimp only
    split
    · exact State.checkCooled_parameters _
    all_goals rfl
  | coolMax =>
    refine unlessReset_parameters ?_ run
    split
    · exact State.enterSession_parameters ..
    · rfl
  | slewTimerExpiry =>
    refine unlessReset_parameters ?_ run
    dsimp only
    split
    · exact State.parameters_congr (lau := Lau.slewStep_params ..)
    · rfl
  | malformedRequest | hardReset => cases still
  | _ => cases request

/-- A command but SET_PARAM and hard reset moves no parameter. -/
theorem exec_parameters {c : Instr} (still : movesParameters c = false) (run : exec c s = .next t) :
    t.parameters = s.parameters := by
  cases request : portOf c with
  | some p => exact request_parameters request still run
  | none => exact command_parameters request still run

end

/-! ### SET_PARAM and hard reset (R21, R22, R192) -/

/-- An axis parameter in its range, which its partners admit, leaves every one in its range. -/
theorem AxisParams.fit_replace {x : AxisParams} {p : AxisParam} {value : Int} {trust : Trust} {position : Int} (fit : x.Fit)
    (range : within value (x.range p) = true) (partners : (x.replace p value).consistent trust position = true) :
    (x.replace p value).Fit := by
  obtain ⟨least, most⟩ := (within_iff _ _).mp range
  obtain ⟨slow, normal, fast, centre, refPos, -⟩ := (AxisParams.consistent_iff ..).mp partners
  cases p
  all_goals
    simp only [AxisParams.range, AxisParams.replace] at least most slow normal fast centre refPos
    simp only [AxisParams.Fit, AxisParams.replace] at fit ⊢
    omega

/-- The gravity level takes a value in its range. -/
theorem AxisParams.iGrav_replace {x : AxisParams} {p : AxisParam} {value : Int} (grav : ∃ g, x.iGrav = some g ∧ g ≤ 255)
    (range : within value (x.range p) = true) : ∃ g, (x.replace p value).iGrav = some g ∧ g ≤ 255 := by
  obtain ⟨g, held, le⟩ := grav
  obtain ⟨-, most⟩ := (within_iff _ _).mp range
  cases p with
  | iGrav =>
    simp only [AxisParams.range] at most
    exact ⟨value.toNat, congrArg (Option.map fun _ => value.toNat) held, by omega⟩
  | _ => exact ⟨g, held, le⟩

/-- An axis with no gravity level takes none. -/
theorem AxisParams.iGrav_replace_none {x : AxisParams} (none_ : x.iGrav = none) (p : AxisParam) (value : Int) :
    (x.replace p value).iGrav = none := by
  cases p with
  | iGrav => exact congrArg (Option.map fun _ => value.toNat) none_
  | _ => exact none_

theorem dutiesFit_set {x : PerFan Nat} (fit : DutiesFit x) (f : Fan) {n : Nat} (le : n ≤ 63) : DutiesFit (x.set f n) := by
  obtain ⟨intake, exhaust, blower⟩ := fit
  cases f
  · exact ⟨le, exhaust, blower⟩
  · exact ⟨intake, le, blower⟩
  · exact ⟨intake, exhaust, le⟩

/-- A parameter of R192 that takes a value it admits stays in its range. -/
theorem State.storeBlock_paramsFit {s : State} (fit : ParamsFit s) {p : BlockParam} {value : Int}
    (admitted : p.admits value = true) : ParamsFit (s.storeBlock p value) := by
  obtain ⟨v, h, grav, noGrav, lau, q, q', flim, window, window', dwell, dwell', caps, duties, start, glitch⟩ := fit
  cases p with
  | glitch =>
    refine ⟨v, h, grav, noGrav, lau, q, q', flim, window, window', dwell, dwell', caps, duties, start, ?_⟩
    have width : value.toNat = 0 ∨ value.toNat = 50 ∨ value.toNat = 200 ∨ value.toNat = 800 := by
      simp only [BlockParam.admits, Bool.or_eq_true, decide_eq_true_eq] at admitted
      omega
    exact List.forall_mem_cons.mpr ⟨width, glitch⟩
  | quietCap f =>
    have most : value ≤ 63 := ((within_iff _ _).mp admitted).2
    exact ⟨v, h, grav, noGrav, lau, q, q', flim, window, window', dwell, dwell', dutiesFit_set caps f (by omega), duties, start,
      glitch⟩
  | coolDuty f =>
    have most : value ≤ 63 := ((within_iff _ _).mp admitted).2
    exact ⟨v, h, grav, noGrav, lau, q, q', flim, window, window', dwell, dwell', caps, dutiesFit_set duties f (by omega), start,
      glitch⟩
  | startDuty =>
    have most : value ≤ 63 := ((within_iff _ _).mp admitted).2
    exact ⟨v, h, grav, noGrav, lau, q, q', flim, window, window', dwell, dwell', caps, duties,
      (by omega : value.toNat ≤ 63), glitch⟩
  | q =>
    have bounds : 1 ≤ value ∧ value ≤ 4096 := (within_iff _ _).mp admitted
    exact ⟨v, h, grav, noGrav, lau, (by omega : 1 ≤ value.toNat), (by omega : value.toNat ≤ 4096), flim, window, window', dwell,
      dwell', caps, duties, start, glitch⟩
  | flim =>
    have bounds : 0 ≤ value ∧ value ≤ 16384 := (within_iff _ _).mp admitted
    exact ⟨v, h, grav, noGrav, lau, q, q', (by omega : value.toNat ≤ 16384), window, window', dwell, dwell', caps, duties, start,
      glitch⟩
  | lapseWindow =>
    have bounds : 20 ≤ value ∧ value ≤ 1000 := (within_iff _ _).mp admitted
    exact ⟨v, h, grav, noGrav, lau, q, q', flim, (by omega : 20 ≤ value.toNat), (by omega : value.toNat ≤ 1000), dwell, dwell',
      caps, duties, start, glitch⟩
  | dwell =>
    have bounds : 1 ≤ value ∧ value ≤ 60 := (within_iff _ _).mp admitted
    exact ⟨v, h, grav, noGrav, lau, q, q', flim, window, window', (by omega : 1 ≤ value.toNat), (by omega : value.toNat ≤ 60),
      caps, duties, start, glitch⟩
  | lLapse | lIgn | lStall | lCrit | lAcFloor | acStep | slew | ignTimeout | coolMin | coolMax | tCool =>
    refine ⟨v, h, grav, noGrav, ?_, q, q', flim, window, window', dwell, dwell', caps, duties, start, glitch⟩
    obtain ⟨least, most⟩ := (within_iff _ _).mp admitted
    simp only [BlockParam.range] at least most
    simp only [LauParams.Fit, State.storeBlock] at lau ⊢
    omega

/-- What an accepted value starts at once moves no parameter. -/
theorem State.paramEffect_parameters (s : State) (p : BlockParam) : (s.paramEffect p).parameters = s.parameters := by
  cases p with
  | flim => exact s.recompute_parameters
  | tCool => exact s.checkCooled_parameters
  | quietCap f | coolDuty f => exact s.selectFans_parameters
  | lLapse | lIgn | lStall | lCrit | lAcFloor | acStep => exact s.lauForm_parameters
  | q | lapseWindow | slew | ignTimeout | coolMin | coolMax | dwell | startDuty | glitch => rfl

/-- A parameter takes a value that its checks admit. -/
theorem State.setParam_paramsFit {s : State} (fit : ParamsFit s) (n : ParamName) {value : Int}
    (passed : ∀ c ∈ s.paramChecks n value, c.1 = true) : ParamsFit (s.setParam n value) := by
  cases n with
  | block p =>
    exact paramsFit_of_parameters (State.paramEffect_parameters _ p)
      (State.storeBlock_paramsFit fit (passed (p.admits value, .outOfRange) List.mem_cons_self))
  | axis a p =>
    simp only [State.paramChecks, List.forall_mem_cons] at passed
    obtain ⟨range, partners, -⟩ := passed
    obtain ⟨v, h, grav, noGrav, rest⟩ := fit
    cases a with
    | v => exact ⟨AxisParams.fit_replace v range partners, h, AxisParams.iGrav_replace grav range, noGrav, rest⟩
    | h => exact ⟨v, AxisParams.fit_replace h range partners, grav, AxisParams.iGrav_replace_none noGrav p value, rest⟩

theorem setParameter_paramsFit {s : State} (fit : ParamsFit s) (p : Port) (param index : Byte) (value : Word32) :
    ParamsFit (setParameter p param index value s).1 := by
  unfold setParameter
  split
  · exact fit
  · exact judge_keeps (P := ParamsFit) fit fun _ passed =>
      State.setParam_paramsFit fit _ fun c mem => (firstFail_eq_none_iff _).mp passed c (List.mem_cons_of_mem _ mem)

/-- The defaults lie in their ranges. -/
theorem paramsFit_reset : ParamsFit State.reset :=
  ⟨by decide, by decide, ⟨64, rfl, by decide⟩, rfl, by decide, by decide, by decide, by decide, by decide, by decide, by decide,
    by decide, by decide, by decide, by decide, by decide⟩

theorem State.hardReset_parameters (s : State) : s.hardReset.parameters = State.reset.parameters := rfl

/-! ### Every step -/

/-- A request whose effect keeps the ranges keeps them. -/
theorem takeRequest_paramsFit {s t : State} {p : Port} {kind : Byte} {f : State → State × Answer} (fit : ParamsFit s)
    (effect : ParamsFit (f s).1) (run : takeRequest p kind s f = .next t) : ParamsFit t :=
  takeRequest_keeps (P := ParamsFit) (fun _ _ => paramsFit_of_parameters (State.setPort_parameters ..))
    (paramsFit_of_parameters (State.setPort_parameters ..)) fit effect run

theorem request_paramsFit {c : Instr} {s t : State} (request : (portOf c).isSome = true) (fit : ParamsFit s)
    (run : exec c s = .next t) : ParamsFit t := by
  cases moves : movesParameters c with
  | false => exact paramsFit_of_parameters (exec_parameters moves run) fit
  | true =>
    cases c with
    | setParamAxis p param index value => exact takeRequest_paramsFit fit (setParameter_paramsFit fit ..) run
    | setParam p param index value => exact takeRequest_paramsFit fit (setParameter_paramsFit fit ..) run
    | malformedRequest | hardReset => cases request
    | _ => cases moves

theorem exec_paramsFit {c : Instr} {s t : State} (fit : ParamsFit s) (run : exec c s = .next t) : ParamsFit t := by
  cases moves : movesParameters c with
  | false => exact paramsFit_of_parameters (exec_parameters moves run) fit
  | true =>
    cases c with
    | malformedRequest p bytes =>
      obtain same | ⟨kind, cause, taken⟩ | ⟨i, request, taken⟩ := execMalformedRequest_cases p bytes s
      · obtain rfl := Host.Outcome.next.inj (same.symm.trans run)
        exact fit
      · exact takeRequest_paramsFit fit fit (taken.symm.trans run)
      · exact request_paramsFit request fit (taken.symm.trans run)
    | hardReset low =>
      obtain rfl := Host.Outcome.next.inj run
      have resets : ParamsFit (if s.resets low then s.hardReset else s) := by
        split
        · exact paramsFit_of_parameters s.hardReset_parameters paramsFit_reset
        · exact fit
      split
      · exact paramsFit_of_parameters rfl resets
      · exact resets
    | setParamAxis | setParam => exact request_paramsFit rfl fit run
    | _ => cases moves

/-- Settles O55. -/
theorem parameterRangesKept : Obligations.ParameterRangesKept := by
  intro s fit t run
  unfold step at run
  split at run
  · obtain rfl := Host.Outcome.next.inj run
    exact fit
  · rename_i rest _
    exact exec_paramsFit (s := { s with pending := rest }) fit run

end Sys2Proof.Machine
end


-- ==== Sys2Proof/Proofs/FanSelections.lean ====
section
/-! PROOFS. A selection of the fans as R124, R125 and R130 say it, and what it leaves of the light session. -/

namespace Sys2Proof.Machine

/-! ### What stays of the ports and of the light session -/

theorem EventsOnly.trans {s t u : State} (h : EventsOnly s t) (g : EventsOnly t u) : EventsOnly s u := by
  obtain ⟨cpi, fpi⟩ := h
  obtain ⟨cpi', fpi'⟩ := g
  rw [cpi] at cpi'
  rw [fpi] at fpi'
  exact ⟨cpi', fpi'⟩

theorem PortState.eq_of_fields {x y : PortState} (slot : y.slot = x.slot) (mask : y.mask = x.mask)
    (warp : y.lastWarp = x.lastWarp) (crossing : y.crossing = x.crossing) : y = { x with events := y.events } := by
  obtain ⟨_, _, _, _, _⟩ := x
  obtain ⟨_, _, _, _, _⟩ := y
  obtain ⟨rfl, rfl, rfl, rfl⟩ : _ ∧ _ ∧ _ ∧ _ := ⟨slot, mask, warp, crossing⟩
  rfl

/-- Two states whose interfaces differ in their event sets alone. -/
theorem eventsOnly_of_fields {s t : State} (address : t.cpi.address = s.cpi.address := by simp)
    (load : t.cpi.load = s.cpi.load := by simp) (slot : t.cpi.port.slot = s.cpi.port.slot := by simp)
    (mask : t.cpi.port.mask = s.cpi.port.mask := by simp) (warp : t.cpi.port.lastWarp = s.cpi.port.lastWarp := by simp)
    (crossing : t.cpi.port.crossing = s.cpi.port.crossing := by simp) (attached : t.fpi.attached = s.fpi.attached := by simp)
    (width : t.fpi.width = s.fpi.width := by simp) (height : t.fpi.height = s.fpi.height := by simp)
    (latched : t.fpi.latched = s.fpi.latched := by simp) (slot' : t.fpi.port.slot = s.fpi.port.slot := by simp)
    (mask' : t.fpi.port.mask = s.fpi.port.mask := by simp) (warp' : t.fpi.port.lastWarp = s.fpi.port.lastWarp := by simp)
    (crossing' : t.fpi.port.crossing = s.fpi.port.crossing := by simp) : EventsOnly s t := by
  have port := PortState.eq_of_fields slot mask warp crossing
  have port' := PortState.eq_of_fields slot' mask' warp' crossing'
  refine ⟨?_, ?_⟩
  · rw [← port]
    dsimp only
    rw [← address, ← load]
  · rw [← port']
    dsimp only
    rw [← attached, ← width, ← height, ← latched]

theorem LevelsOnly.trans {l m n : Lau} (h : LevelsOnly l m) (g : LevelsOnly m n) : LevelsOnly l n := by
  unfold LevelsOnly at *
  rw [h] at g
  exact g

theorem Lau.form_levelsOnly (now : Nat) (l : Lau) : LevelsOnly l (l.form now) := by
  unfold LevelsOnly Lau.form Lau.followTarget
  dsimp only
  split
  · rfl
  · split <;> rfl

theorem Lau.take_levelsOnly (now : Nat) (l : Lau) (held : LauInputs) : LevelsOnly l (l.take now held) :=
  LevelsOnly.trans (m := { l with held := held }) rfl (Lau.form_levelsOnly now _)

theorem State.selectFans_levelsOnly (s : State) : LevelsOnly s.lau s.selectFans.lau := by
  obtain same | ⟨held, taken⟩ := s.selectFans_lau_cases
  · rw [same]
  · rw [taken]
    exact Lau.take_levelsOnly ..

/-! ### The duty table and the excess (R124, R130) -/

/-- A selected duty reaches a fan as R125 says. -/
theorem FanRecord.select_eq_selectedAs (now start : Nat) (x : FanRecord) (d : Nat) :
    x.select now start d = x.selectedAs now start d := by
  unfold FanRecord.select FanRecord.selectedAs
  split
  · rfl
  · split
    · simp [FanRecord.start, Config.kickTime, Config.graceTime, Config.edgeTime]
    · cases kick : x.kick with
      | none => simp [← kick]
      | some e => simp

/-- A selection keeps a fan's demand. -/
theorem FanRecord.selectedAs_demand (now start : Nat) (x : FanRecord) (d : Nat) : (x.selectedAs now start d).demand = x.demand := by
  unfold FanRecord.selectedAs
  split
  · split <;> rfl
  · split
    · rfl
    · split <;> rfl

/-- The duty that the duty table gives a fan is the one a selection takes. -/
theorem State.dutyOf_eq (s : State) (f : Fan) :
    s.dutyOf f = s.airInputs.duty s.afc.quiet (s.afc.fans.get f).demand (s.afc.quietCap.get f) (s.afc.coolDuty.get f) := rfl

theorem State.excessOf_eq (s : State) : s.excessOf = s.afc.formExcess s.airInputs := by
  have capped : s.airInputs.capped s.afc.quiet = true ↔
      s.afc.quiet = true ∧ s.tmon.trip = none ∧ s.tmon.device.isHot = false ∧ s.lau.session.lightEn = true := by
    simp [AirInputs.capped, State.airInputs, and_assoc]
  unfold State.excessOf Afc.formExcess
  simp only [capped]
  refine if_congr Iff.rfl ?_ rfl
  simp only [allFans, List.map_cons, List.map_nil, List.foldl_cons, List.foldl_nil, PerFan.get]
  omega

section

variable (a : Afc) (i : AirInputs)

theorem Afc.select_fan (f : Fan) :
    (a.select i).fans.get f = (a.fans.get f).selectedAs i.now a.startDuty
      (i.duty a.quiet (a.fans.get f).demand (a.quietCap.get f) (a.coolDuty.get f)) := by
  rw [Afc.select, PerFan.get_build, FanRecord.select_eq_selectedAs]

theorem Afc.select_demand (f : Fan) : ((a.select i).fans.get f).demand = (a.fans.get f).demand := by
  rw [Afc.select_fan, FanRecord.selectedAs_demand]

theorem Afc.select_fansOnly : FansOnly a (a.select i) := ⟨rfl, a.select_demand i⟩

theorem Afc.formExcess_select : (a.select i).formExcess i = a.formExcess i := by
  simp only [Afc.formExcess, Afc.select_demand]
  rfl

end

/-- The fans of a part whose last selection was made with the inputs that stand. -/
theorem State.fans_of_selected {t : State} {a : Afc} (selected : t.afc = a.select t.airInputs) :
    FansOnly a t.afc ∧ t.afc.excess = t.excessOf ∧
      ∀ f : Fan, t.afc.fans.get f = (a.fans.get f).selectedAs t.now a.startDuty (t.dutyOf f) := by
  refine ⟨?_, ?_, fun f => ?_⟩
  · rw [selected]
    exact a.select_fansOnly _
  · rw [State.excessOf_eq, selected, Afc.formExcess_select]
    rfl
  · rw [State.dutyOf_eq, selected, Afc.select_demand, Afc.select_fan]
    rfl

end Sys2Proof.Machine
end


-- ==== Sys2Proof/Proofs/DeviceState.lean ====
section
/-! PROOFS. The device thermal state is formed when the stalled set reaches the TMON: what the processors hear, what the lens and
the fans do (R37, R110, R111, R125, R134, R135). -/

namespace Sys2Proof.Machine

/-! ### The events of a thermal stop -/

/-- An axis tells of the end of a move or of a failed homing run, and of nothing else. -/
def LensOut.TellsEnds (o : LensOut) : Prop := ∀ e ∈ o.events ++ o.later, e.kind = .lensDone ∨ e.kind = .homeFail

theorem LensOut.TellsEnds.spares {o : LensOut} (h : o.TellsEnds) {k : EventKind} (done : k ≠ .lensDone) (fail : k ≠ .homeFail) :
    o.Spares k := fun e he hk => (h e he).elim (fun h => done (hk.symm.trans h)) fun h => fail (hk.symm.trans h)

section

variable (env : AxisEnv) (x : AxisState)

theorem AxisState.settle_tellsEnds (q : List Entry) : (x.settle env q).TellsEnds := by
  unfold LensOut.TellsEnds
  rw [AxisState.settle_later, List.append_nil]
  induction q with
  | nil => exact List.forall_mem_nil _
  | cons e rest ih =>
    unfold AxisState.settle
    split
    · split
      · exact List.forall_mem_nil _
      · exact List.forall_mem_cons.mpr ⟨.inl rfl, ih⟩
    · exact List.forall_mem_nil _

theorem AxisState.endIfStopped_tellsEnds : (x.endIfStopped env).TellsEnds := by
  have after : ∀ y : AxisState, (y.afterStop env).TellsEnds := fun y => by
    unfold AxisState.afterStop
    split
    · exact List.forall_mem_nil _
    · exact y.settle_tellsEnds env _
  unfold AxisState.endIfStopped
  split
  · split
    · exact List.forall_mem_cons.mpr ⟨.inl rfl, after _⟩
    · exact List.forall_mem_nil _
  all_goals exact List.forall_mem_nil _

theorem AxisState.thermalStop_tellsEnds : (x.thermalStop env).TellsEnds := by
  unfold AxisState.thermalStop
  cases motion : x.motion with
  | stopping st =>
    simp only [LensOut.TellsEnds, List.append_nil, AxisState.cancelled]
    split
    · exact List.forall_mem_cons.mpr ⟨.inr rfl, List.forall_mem_nil _⟩
    · exact List.forall_mem_nil _
  | running l => simp only [AxisState.beginStop, motion]; exact List.forall_mem_nil _
  | homing run => simp only [AxisState.beginStop, motion]; exact List.forall_mem_nil _
  | idle | fault => exact List.forall_mem_nil _

end

/-- The kinds of event that the forming of the device thermal state raises. -/
def formKinds : List EventKind := [.thermalState, .installChanged, .lensDone, .homeFail]

theorem told_thermalStop_of_not_formKinds (s : State) {k : EventKind} (other : k ∉ formKinds) : Told s s.thermalStop k none := by
  simp only [formKinds, List.mem_cons, List.not_mem_nil, or_false, not_or] at other
  obtain ⟨-, change, done, fail⟩ := other
  exact told_lensEvent_of_spares change (fun _ env x => (x.thermalStop_tellsEnds env).spares done fail) fun env x =>
    (x.endIfStopped_tellsEnds env).spares done fail

/-! ### The level that the contributions give, and its source (R110, R111) -/

theorem Thermal.max_eq (a b : Thermal) : a.max b = a ∨ a.max b = b := by
  unfold Thermal.max
  split
  · exact .inr rfl
  · exact .inl rfl

theorem Thermal.foldl_max_mem (a : Thermal) (l : List Thermal) : l.foldl Thermal.max a = a ∨ l.foldl Thermal.max a ∈ l := by
  induction l generalizing a with
  | nil => exact .inl rfl
  | cons b l ih =>
    rw [List.foldl_cons]
    rcases ih (a.max b) with same | mem
    · rw [same]
      exact (a.max_eq b).imp id fun second => List.mem_cons.mpr (.inl second)
    · exact .inr (List.mem_cons_of_mem _ mem)

theorem Thermal.isHot_foldl_max {a : Thermal} (hot : a.isHot = true) (l : List Thermal) :
    (l.foldl Thermal.max a).isHot = true := by
  induction l generalizing a with
  | nil => exact hot
  | cons b l ih =>
    refine ih ?_
    cases a with
    | normal | warm => cases hot
    | hot | critical => cases b <;> rfl

/-- The level comes from the fans or from a zone. -/
theorem Tmon.formDevice_source (t : Tmon) :
    t.formDevice = fansLevel t.stalled ∨ ∃ z ∈ allZones, (t.zones.get z).level = some t.formDevice :=
  (Thermal.foldl_max_mem _ _).imp id List.mem_filterMap.mp

/-- The first contribution that sets the level is the source that R111 names. -/
theorem Tmon.sourceOf_formDevice (t : Tmon) (dwell : Option Nat) :
    t.sourceOf t.formDevice = Tmon.sourceSays { t with device := t.formDevice, dwell := dwell } := by
  have level : ∀ z, decide ((t.zones.get z).level = some t.formDevice) =
      ((t.zones.get z).inUse && decide ((t.zones.get z).state = t.formDevice)) := fun z => by
    cases use : (t.zones.get z).inUse <;> simp [ZoneRecord.level, use]
  have found : (allZones.find? fun z => decide ((t.zones.get z).level = some t.formDevice)) =
      [Zone.src, .panel, .lens, .supply, .intake, .exhaust].find? fun z =>
        (t.zones.get z).inUse && decide ((t.zones.get z).state = t.formDevice) := by
    simp only [level]
    rfl
  unfold Tmon.sourceOf Tmon.sourceSays
  dsimp only
  rw [← found]
  cases zone : allZones.find? fun z => decide ((t.zones.get z).level = some t.formDevice) with
  | some z => rfl
  | none =>
    have fans : fansLevel t.stalled = t.formDevice := by
      obtain fans | ⟨z, mem, level⟩ := t.formDevice_source
      · exact fans.symm
      · exact absurd (decide_eq_true level) (List.find?_eq_none.mp zone z mem)
    simp only [fans, and_true, Nat.pos_iff_ne_zero]
    by_cases none_ : stalledCount t.stalled = 0
    · rw [if_pos none_, if_neg (not_not.mpr none_)]
    · rw [if_neg none_, if_pos none_]

/-- A part with a stalled fan is HOT or CRITICAL. -/
theorem Tmon.formDevice_isHot {t : Tmon} {f : Fan} (stalled : t.stalled.get f = true) : t.formDevice.isHot = true := by
  refine Thermal.isHot_foldl_max ?_ _
  have some_ : 0 < stalledCount t.stalled :=
    List.length_pos_of_mem (List.mem_filter.mpr ⟨by cases f <;> decide, stalled⟩ : f ∈ allFans.filter t.stalled.get)
  unfold fansLevel
  rw [if_pos some_]
  split <;> rfl

/-! ### A formed device thermal state reaches the rest (R37, R111) -/

/-- The part that has taken a changed device thermal state and told of it. -/
def State.deviceTaken (s : State) : State :=
  State.raise
    { s with tmon := { s.tmon with device := s.tmon.formDevice, dwell := s.tmon.dwellAfter s.now s.tmon.formDevice } }
    (.thermalState s.tmon.formDevice s.tmon.device (s.tmon.sourceOf s.tmon.formDevice))

/-- The part whose lens has been told. -/
def State.lensTold (s : State) : State := if s.tmon.formDevice = .critical then s.deviceTaken.thermalStop else s.deviceTaken

section

variable (s : State)

theorem State.formDevice_of_same (same : s.tmon.formDevice = s.tmon.device) : s.formDevice = s := if_pos same

theorem State.formDevice_of_changed (changed : s.tmon.formDevice ≠ s.tmon.device) :
    s.formDevice = { s.lensTold.selectFans with
      lau := { s.lensTold.selectFans.lau with held := { s.lensTold.selectFans.lau.held with device := s.tmon.formDevice } } } :=
  if_neg changed

theorem State.lensTold_now : s.lensTold.now = s.now := by
  unfold State.lensTold
  split <;> simp [State.deviceTaken]

theorem State.lensTold_tmon : s.lensTold.tmon = s.deviceTaken.tmon := by
  unfold State.lensTold
  split <;> simp

theorem State.lensTold_afc : s.lensTold.afc = s.afc := by
  unfold State.lensTold
  split <;> simp [State.deviceTaken]

theorem State.lensTold_lau : s.lensTold.lau = s.lau := by
  unfold State.lensTold
  split <;> simp [State.deviceTaken]

theorem State.formDevice_tmon :
    s.formDevice.tmon = { s.tmon with device := s.tmon.formDevice, dwell := s.formDevice.tmon.dwell } := by
  by_cases changed : s.tmon.formDevice = s.tmon.device
  · rw [s.formDevice_of_same changed, changed]
  · rw [s.formDevice_of_changed changed]
    dsimp only
    rw [State.selectFans_tmon, State.lensTold_tmon]
    rfl

theorem State.formDevice_device : s.formDevice.tmon.device = s.tmon.formDevice := congrArg Tmon.device s.formDevice_tmon

theorem State.formDevice_levelsOnly : LevelsOnly s.lau s.formDevice.lau := by
  by_cases changed : s.tmon.formDevice = s.tmon.device
  · rw [s.formDevice_of_same changed]
  · rw [s.formDevice_of_changed changed]
    have selected := s.lensTold.selectFans_levelsOnly
    rw [State.lensTold_lau] at selected
    exact selected.trans rfl

/-- A changed device thermal state selects every fan's duty. -/
theorem State.formDevice_afc (changed : s.tmon.formDevice ≠ s.tmon.device) :
    s.formDevice.afc = s.afc.select s.formDevice.airInputs := by
  have session : s.formDevice.lau.session = s.lau.session :=
    (congrArg Lau.session s.formDevice_levelsOnly).trans rfl
  have trip : s.formDevice.tmon.trip = s.tmon.trip := (congrArg Tmon.trip s.formDevice_tmon).trans rfl
  have inputs : s.formDevice.airInputs = s.lensTold.airInputs := by
    rw [State.airInputs, State.airInputs, State.formDevice_now, trip, State.formDevice_device, session, State.lensTold_now,
      State.lensTold_tmon, State.lensTold_lau]
    rfl
  rw [inputs, s.formDevice_of_changed changed]
  dsimp only
  rw [State.selectFans_afc, State.lensTold_afc]

/-- Both processors hear of a changed device thermal state, once, and of an unchanged one nothing. -/
theorem thermalTold_formDevice : ThermalTold s s.formDevice := by
  rw [ThermalTold, State.formDevice_device]
  by_cases changed : s.tmon.formDevice = s.tmon.device
  · rw [if_pos changed, s.formDevice_of_same changed]
    exact Told.refl s _
  · have source : s.formDevice.tmon.sourceSays = s.tmon.sourceOf s.tmon.formDevice := by
      rw [s.formDevice_tmon]
      exact (s.tmon.sourceOf_formDevice _).symm
    have raised : Told s s.deviceTaken .thermalState
        (some (.thermalState s.tmon.formDevice s.tmon.device (s.tmon.sourceOf s.tmon.formDevice))) :=
      told_raise (s := { s with tmon := _ }) (e := .thermalState ..) fun p => by cases p <;> rfl
    have lens : Told s.deviceTaken s.lensTold .thermalState none := by
      unfold State.lensTold
      split
      · exact told_thermalStop _
      · exact Told.refl _ _
    rw [if_neg changed, source, s.formDevice_of_changed changed]
    exact ((raised.trans_none lens).trans_none (told_selectFans _ _)).trans_none (told_none_of_events _)

/-- Of every other kind but those of a stop they hear nothing. -/
theorem told_formDevice_of_not_formKinds {k : EventKind} (other : k ∉ formKinds) : Told s s.formDevice k none := by
  by_cases changed : s.tmon.formDevice = s.tmon.device
  · rw [s.formDevice_of_same changed]
    exact Told.refl s _
  · have raised : Told s s.deviceTaken k none :=
      told_raise_of_ne (s := { s with tmon := _ }) fun same => other (same ▸ List.mem_cons_self)
    have lens : Told s.deviceTaken s.lensTold k none := by
      unfold State.lensTold
      split
      · exact told_thermalStop_of_not_formKinds _ other
      · exact Told.refl _ _
    rw [s.formDevice_of_changed changed]
    exact ((raised.trans_none lens).trans_none (told_selectFans _ _)).trans_none (told_none_of_events _)

end

/-! ### The lens follows the device thermal state (R37) -/

/-- The lens side of a part that has become CRITICAL depends on the lens side alone. -/
theorem LensAlike.lensStopped {s t : State} (h : LensAlike s t) : LensAlike s.lensStopped t.lensStopped :=
  LensAlike.lensEvent (s := { s with tmon := { s.tmon with device := .critical } })
    (t := { t with tmon := { t.tmon with device := .critical } })
    ⟨h.irm, h.lmc, h.ge, h.now, rfl, h.trip, h.width, h.height⟩ _

theorem LensFollows.of_alike {s t u : State} (h : LensAlike s t) (follows : LensFollows t u) : LensFollows s u := by
  obtain ⟨still, stopped⟩ := follows
  have after := h.lensStopped
  rw [h.device, h.irm, h.lmc, h.ge] at still
  rw [h.device, after.irm, after.lmc, after.ge] at stopped
  exact ⟨still, stopped⟩

theorem State.formDevice_lensFollows (s : State) : LensFollows s s.formDevice := by
  rw [LensFollows, State.formDevice_device]
  by_cases changed : s.tmon.formDevice = s.tmon.device
  · rw [s.formDevice_of_same changed]
    exact ⟨fun _ => ⟨rfl, rfl, rfl⟩, fun moved => absurd changed moved⟩
  · rw [s.formDevice_of_changed changed]
    dsimp only
    rw [State.selectFans_irm, State.selectFans_lmc, State.selectFans_ge, State.lensTold]
    refine ⟨fun cold => ?_, fun _ hot => ?_⟩
    · rw [if_neg (cold.resolve_left changed)]
      exact ⟨rfl, rfl, rfl⟩
    · have before : LensAlike { s with tmon := { s.tmon with device := .critical } } s.deviceTaken :=
        ⟨rfl, rfl, rfl, rfl, hot, rfl, rfl, rfl⟩
      have after := before.lensEvent fun _ env x => x.thermalStop env
      rw [if_pos hot]
      exact ⟨after.irm, after.lmc, after.ge⟩

end Sys2Proof.Machine
end


-- ==== Sys2Proof/Proofs/FanEvents.lean ====
section
/-! PROOFS. The tach and kick events of a fan (R129 to R135), and a changed stalled set on its way through the part (R134, R135). -/

namespace Sys2Proof.Machine

/-! ### A changed stalled set reaches the part (R134, R135) -/

/-- The part in which a fan's record has been replaced and an event of it raised, at a time. -/
def State.fanRaised (s : State) (time : Nat) (f : Fan) (y : FanRecord) (e : Event) : State := ((s.at_ time).setFan f y).raise e

/-- The part whose TMON has taken a changed stalled set. -/
def State.stalledAs (s : State) (f : Fan) (b : Bool) : State :=
  { s with tmon := { s.tmon with stalled := s.tmon.stalled.set f b } }

section

variable (s : State) (time : Nat) (f : Fan) (y : FanRecord) (e : Event) (b : Bool)

/-- A fan's event with the changed stalled set it makes. -/
def State.fanHanded : State := (s.fanRaised time f y e).handStalled f b

/-- The part as the device thermal state is formed. -/
def State.fanTaken : State := (s.fanRaised time f y e).stalledAs f b

/-- The stalled set that the TMON takes. -/
def Tmon.stalledAs (t : Tmon) : Tmon := { t with stalled := t.stalled.set f b }

theorem State.fanHanded_eq :
    s.fanHanded time f y e b = (s.fanTaken time f y e b).formDevice.lauTake
      { (s.fanTaken time f y e b).formDevice.lau.held with
        anyStalled := 0 < stalledCount (s.fanTaken time f y e b).formDevice.tmon.stalled } := rfl

theorem State.fanHanded_now : (s.fanHanded time f y e b).now = max s.now time := by
  rw [State.fanHanded_eq, State.lauTake_now, State.formDevice_now]
  rfl

theorem State.fanHanded_fmon : (s.fanHanded time f y e b).fmon = s.fmon := by
  rw [State.fanHanded_eq, State.lauTake_fmon, State.formDevice_fmon]
  rfl

theorem State.fanHanded_tmon :
    (s.fanHanded time f y e b).tmon =
      { s.tmon with stalled := s.tmon.stalled.set f b, device := (s.tmon.stalledAs f b).formDevice,
                    dwell := (s.fanHanded time f y e b).tmon.dwell } := by
  rw [State.fanHanded_eq, State.lauTake_tmon]
  exact (s.fanTaken time f y e b).formDevice_tmon

theorem State.fanHanded_stalled : (s.fanHanded time f y e b).tmon.stalled = s.tmon.stalled.set f b :=
  (congrArg Tmon.stalled (s.fanHanded_tmon time f y e b)).trans rfl

theorem State.fanHanded_device : (s.fanHanded time f y e b).tmon.device = (s.tmon.stalledAs f b).formDevice :=
  (congrArg Tmon.device (s.fanHanded_tmon time f y e b)).trans rfl

theorem State.fanHanded_eventsOnly : EventsOnly s (s.fanHanded time f y e b) := by
  unfold State.fanHanded State.fanRaised State.at_
  exact eventsOnly_of_fields

theorem State.fanHanded_levelsOnly : LevelsOnly s.lau (s.fanHanded time f y e b).lau :=
  (s.fanTaken time f y e b).formDevice_levelsOnly.trans (Lau.take_levelsOnly ..)

theorem State.fanHanded_lensFollows : LensFollows { s with now := max s.now time } (s.fanHanded time f y e b) := by
  have alike : LensAlike { s with now := max s.now time } (s.fanTaken time f y e b) := ⟨rfl, rfl, rfl, rfl, rfl, rfl, rfl, rfl⟩
  exact LensFollows.of_alike alike (s.fanTaken time f y e b).formDevice_lensFollows

theorem thermalTold_fanHanded (other : e.kind ≠ .thermalState) : ThermalTold s (s.fanHanded time f y e b) := by
  have raised : Told s (s.fanTaken time f y e b) .thermalState none :=
    (told_raise_of_ne (s := (s.at_ time).setFan f y) other).trans_none (told_none_of_events _)
  have formed := raised.after_none (thermalTold_formDevice (s.fanTaken time f y e b))
  exact formed.trans_none (told_none_of_events _)

/-- The event stands in the Control Port's set, with the events of the device thermal state behind it. -/
theorem State.fanHanded_raises (routed_ : routed .control e.kind = true) (other : e.kind ∉ formKinds) :
    ∃ entry ∈ (s.fanHanded time f y e b).cpi.port.events, entry.event = e := by
  have raised : ∃ n, ((s.fanTaken time f y e b).port .control).entryOf e.kind = some ⟨e, n⟩ := by
    have port : (s.fanTaken time f y e b).port .control = (((s.at_ time).setFan f y).port .control).place .control e :=
      State.port_raise ((s.at_ time).setFan f y) e .control
    rw [port, PortState.place, if_pos routed_]
    exact ⟨_, (entryOf_placeEvent e _ e.kind).trans (if_pos rfl)⟩
  obtain ⟨n, raised⟩ := raised
  have kept : ((s.fanHanded time f y e b).port .control).entryOf e.kind = some ⟨e, n⟩ :=
    (told_formDevice_of_not_formKinds (s.fanTaken time f y e b) other .control).trans raised
  exact ⟨_, List.mem_of_find?_eq_some kept, rfl⟩

/-- With the device thermal state as it was, the fans stay as the event left them. -/
theorem State.fanHanded_afc_of_same (same : (s.fanHanded time f y e b).tmon.device = s.tmon.device) :
    (s.fanHanded time f y e b).afc = { s.afc with fans := s.afc.fans.set f y } := by
  rw [State.fanHanded_device] at same
  rw [State.fanHanded_eq, State.formDevice_of_same _ same]
  rfl

/-- A changed one selects every fan's duty from there. -/
theorem State.fanHanded_afc_of_changed (changed : (s.fanHanded time f y e b).tmon.device ≠ s.tmon.device) :
    (s.fanHanded time f y e b).afc =
      Afc.select { s.afc with fans := s.afc.fans.set f y } (s.fanHanded time f y e b).airInputs := by
  rw [State.fanHanded_device] at changed
  have session : (s.fanHanded time f y e b).lau.session = (s.fanTaken time f y e b).formDevice.lau.session :=
    Lau.form_session _ _
  have inputs : (s.fanHanded time f y e b).airInputs = (s.fanTaken time f y e b).formDevice.airInputs := by
    rw [State.airInputs, session]
    rfl
  rw [inputs]
  exact State.formDevice_afc _ changed

/-- What follows of a fan's event that changes the stalled set. -/
theorem State.fanHanded_follows (other : e.kind ≠ .thermalState) :
    let t := s.fanHanded time f y e b
    let put : Afc := { s.afc with fans := s.afc.fans.set f y }
    t.fmon = s.fmon ∧ EventsOnly s t ∧ LevelsOnly s.lau t.lau ∧ ThermalTold s t ∧
      t.tmon = { s.tmon with stalled := t.tmon.stalled, device := t.tmon.device, dwell := t.tmon.dwell } ∧
      (t.tmon.device = s.tmon.device → t.afc = put) ∧
      (t.tmon.device ≠ s.tmon.device → FansOnly put t.afc ∧ t.afc.excess = t.excessOf ∧
        ∀ g : Fan, t.afc.fans.get g = (put.fans.get g).selectedAs t.now s.afc.startDuty (t.dutyOf g)) := by
  refine ⟨State.fanHanded_fmon .., State.fanHanded_eventsOnly .., State.fanHanded_levelsOnly .., thermalTold_fanHanded _ _ _ _ _ _ other,
    ?_, State.fanHanded_afc_of_same _ _ _ _ _ _, fun changed => State.fans_of_selected (State.fanHanded_afc_of_changed _ _ _ _ _ _ changed)⟩
  rw [State.fanHanded_stalled, State.fanHanded_device]
  exact s.fanHanded_tmon time f y e b

end

/-! ### What a selection leaves of the tach state -/

/-- Between two duties above 0 a selection leaves the tach state and its timers. -/
theorem FanRecord.selectedAs_tach {x : FanRecord} (now start : Nat) {d : Nat} (due : d ≠ 0) (on : x.selected ≠ 0) :
    (x.selectedAs now start d).tach = x.tach ∧ (x.selectedAs now start d).grace = x.grace ∧
      (x.selectedAs now start d).edge = x.edge ∧ (x.selectedAs now start d).recovery = x.recovery := by
  unfold FanRecord.selectedAs
  rw [if_neg due, if_neg on]
  split <;> exact ⟨rfl, rfl, rfl, rfl⟩

/-- A selection counts no edge towards recovery. -/
theorem FanRecord.selectedAs_recovery {x : FanRecord} (none_ : x.recovery = 0) (now start d : Nat) :
    (x.selectedAs now start d).recovery = 0 := by
  unfold FanRecord.selectedAs
  split
  · split
    · exact none_
    · rfl
  · split
    · exact none_
    · split <;> exact none_

/-- A fan is as its event left it, or as a selection has made it from there. -/
theorem State.fanHanded_fan (s : State) (time : Nat) (f : Fan) (y : FanRecord) (e : Event) (b : Bool) :
    (s.fanHanded time f y e b).afc.fans.get f = y ∨
      (s.fanHanded time f y e b).afc.fans.get f = y.selectedAs (s.fanHanded time f y e b).now s.afc.startDuty
        ((s.fanHanded time f y e b).dutyOf f) := by
  by_cases same : (s.fanHanded time f y e b).tmon.device = s.tmon.device
  · rw [State.fanHanded_afc_of_same _ _ _ _ _ _ same]
    exact .inl (PerFan.get_set_self ..)
  · obtain ⟨-, -, fan⟩ := State.fans_of_selected (State.fanHanded_afc_of_changed _ _ _ _ _ _ same)
    have fan := fan f
    rw [PerFan.get_set_self] at fan
    exact .inr fan

/-! ### A stall and a recovery -/

section

variable (s : State) (f : Fan) (e : Nat)

/-- The part after the stall of a fan at a time. -/
def State.fanStalled : State :=
  s.fanHanded e f ((s.afc.fans.get f).stall (max s.now e))
    (.fanStall f (s.afc.fans.get f).output (s.afc.fans.get f).rpm (s.afc.fans.get f).tach) true

theorem State.stallFan_at : (s.at_ e).stallFan f = s.fanStalled f e := rfl

/-- With a fan stalled the part is HOT or CRITICAL, and every fan is due 63. -/
theorem State.fanStalled_dutyOf : (s.fanStalled f e).dutyOf f = 63 := by
  have hot : (s.fanStalled f e).tmon.device.isHot = true := by
    rw [State.fanStalled, State.fanHanded_device]
    exact Tmon.formDevice_isHot (f := f) (PerFan.get_set_self ..)
  rw [State.dutyOf_eq]
  exact State.DuesFull.duty (.inr hot) _ _ _ _

/-- A fan that is driven stays STALLED. -/
theorem State.fanStalled_tach (on : (s.afc.fans.get f).selected ≠ 0) :
    let x := (s.fanStalled f e).afc.fans.get f
    x.tach = .stalled ∧ x.grace = none ∧ x.edge = none ∧ x.recovery = 0 := by
  rcases s.fanHanded_fan e f _ _ true with fan | fan
  · have fan : (s.fanStalled f e).afc.fans.get f = _ := fan
    rw [fan]
    exact ⟨rfl, rfl, rfl, rfl⟩
  · have fan : (s.fanStalled f e).afc.fans.get f = FanRecord.selectedAs _ _ _ ((s.fanStalled f e).dutyOf f) := fan
    rw [fan, State.fanStalled_dutyOf]
    exact FanRecord.selectedAs_tach (x := (s.afc.fans.get f).stall (max s.now e)) _ _ (by decide) on

end

/-! ### The commands of a fan -/

section

variable {s : State} {f : Fan} (awake : Awake s)
include awake

theorem execKickExpiry_none (kick : (s.afc.fans.get f).kick = none) : execKickExpiry f s = .next s := by
  rw [execKickExpiry, unlessReset_awake _ awake]
  simp only [kick]

theorem execKickExpiry_some {e : Nat} (kick : (s.afc.fans.get f).kick = some e) :
    execKickExpiry f s = .next ((s.at_ e).setFan f (s.afc.fans.get f).kickEnds) := by
  rw [execKickExpiry, unlessReset_awake _ awake]
  simp only [kick]

theorem execGraceTimerExpiry_none (grace : (s.afc.fans.get f).grace = none) : execGraceTimerExpiry f s = .next s := by
  rw [execGraceTimerExpiry, unlessReset_awake _ awake]
  simp only [grace]

theorem execGraceTimerExpiry_turns {e g : Nat} (grace : (s.afc.fans.get f).grace = some e)
    (edge : (s.afc.fans.get f).edge = some g) :
    execGraceTimerExpiry f s = .next ((s.at_ e).setFan f { s.afc.fans.get f with grace := none, tach := .turning }) := by
  rw [execGraceTimerExpiry, unlessReset_awake _ awake]
  simp only [grace, edge]

theorem execGraceTimerExpiry_stalls {e : Nat} (grace : (s.afc.fans.get f).grace = some e)
    (edge : (s.afc.fans.get f).edge = none) : execGraceTimerExpiry f s = .next (s.fanStalled f e) := by
  rw [execGraceTimerExpiry, unlessReset_awake _ awake]
  simp only [grace, edge]
  exact congrArg _ (s.stallFan_at f e)

theorem execEdgeTimerExpiry_none (edge : (s.afc.fans.get f).edge = none) : execEdgeTimerExpiry f s = .next s := by
  rw [execEdgeTimerExpiry, unlessReset_awake _ awake]
  simp only [edge]

theorem execEdgeTimerExpiry_starting {e : Nat} (edge : (s.afc.fans.get f).edge = some e)
    (tach : (s.afc.fans.get f).tach = .starting) :
    execEdgeTimerExpiry f s = .next ((s.at_ e).setFan f { s.afc.fans.get f with edge := none }) := by
  rw [execEdgeTimerExpiry, unlessReset_awake _ awake]
  simp only [edge, tach]

theorem execEdgeTimerExpiry_stalled {e : Nat} (edge : (s.afc.fans.get f).edge = some e)
    (tach : (s.afc.fans.get f).tach = .stalled) :
    execEdgeTimerExpiry f s = .next ((s.at_ e).setFan f { s.afc.fans.get f with edge := none, recovery := 0 }) := by
  rw [execEdgeTimerExpiry, unlessReset_awake _ awake]
  simp only [edge, tach]

theorem execEdgeTimerExpiry_stalls {e : Nat} (edge : (s.afc.fans.get f).edge = some e)
    (tach : (s.afc.fans.get f).tach = .turning) : execEdgeTimerExpiry f s = .next (s.fanStalled f e) := by
  rw [execEdgeTimerExpiry, unlessReset_awake _ awake]
  simp only [edge, tach]
  exact congrArg _ (s.stallFan_at f e)

end

/-! ### The tach edges (R131, R132, R135) -/

/-- A fan after an edge that is accepted, less its tach state (R132, R133). -/
def FanRecord.edgeTaken (x : FanRecord) (fall : Nat) : FanRecord := { x.capture fall with edge := some (fall + Config.edgeTime) }

theorem FanRecord.edgeTaken_eq (x : FanRecord) (fall : Nat) :
    x.edgeTaken fall = match x.lastEdge with
      | none => { x with lastEdge := some fall, edge := some (fall + 500000) }
      | some t0 =>
        { x with lastEdge := some fall, period := max 1 (min 65535 (fall - t0)),
                 rpm := 30000000 / max 1 (min 65535 (fall - t0)), edge := some (fall + 500000) } := by
  unfold FanRecord.edgeTaken FanRecord.capture
  cases x.lastEdge <;> rfl

theorem FanRecord.edgeTaken_stalledAt (x : FanRecord) (fall : Nat) : (x.edgeTaken fall).stalledAt = x.stalledAt := by
  unfold FanRecord.edgeTaken FanRecord.capture
  cases x.lastEdge <;> rfl

section

variable {x : FanRecord} (fall : Nat)

theorem FanRecord.edgeSeen_of_running (tach : x.tach = .starting ∨ x.tach = .turning) :
    x.edgeSeen fall = (x.edgeTaken fall, false) := by
  unfold FanRecord.edgeSeen
  rcases tach with tach | tach <;> rw [tach] <;> rfl

theorem FanRecord.edgeSeen_of_first (tach : x.tach = .stalled) (first : x.recovery = 0) :
    x.edgeSeen fall = ({ x.edgeTaken fall with recovery := 1 }, false) := by
  unfold FanRecord.edgeSeen
  rw [tach]
  exact if_pos first

theorem FanRecord.edgeSeen_of_second (tach : x.tach = .stalled) (second : x.recovery ≠ 0) :
    x.edgeSeen fall = ({ x.edgeTaken fall with tach := .turning, recovery := 0 }, true) := by
  unfold FanRecord.edgeSeen
  rw [tach]
  exact if_neg second

end

/-- A fall is accepted once the fan has been driven from before it and the line has stayed low for the width (R131). -/
theorem Afc.accepts_iff (a : Afc) (f : Fan) (fall low : Nat) :
    a.accepts f fall low = true ↔ (a.fans.get f).output ≠ 0 ∧ (∃ t0, (a.fans.get f).drivenFrom = some t0 ∧ t0 ≤ fall) ∧
      glitchAt fall a.glitch ≤ low := by
  simp [Afc.accepts, FanRecord.drivenAt, Option.any_eq_true, and_assoc]

/-- The part after the recovery of a fan at a fall. -/
def State.fanRecovered (s : State) (f : Fan) (fall : Nat) : State :=
  s.fanHanded (fall + glitchAt fall s.afc.glitch) f
    { (s.afc.fans.get f).edgeTaken fall with tach := .turning, recovery := 0, stalledAt := none }
    (.fanRecover f ((s.afc.fans.get f).edgeTaken fall).rpm (durationMs (fall - (s.afc.fans.get f).stalledAt.getD fall))) false

section

variable {s : State} {f : Fan} (awake : Awake s) {fall low : Nat}
include awake

theorem execTachEdgeAccepted_refused (refused : ¬ s.afc.accepts f fall low = true) :
    execTachEdgeAccepted f fall low s = .next s := by
  rw [execTachEdgeAccepted, unlessReset_awake _ awake]
  exact congrArg _ (if_neg refused)

theorem execTachEdgeAccepted_put {y : FanRecord} (accepted : s.afc.accepts f fall low = true)
    (seen : (s.afc.fans.get f).edgeSeen fall = (y, false)) :
    execTachEdgeAccepted f fall low s = .next ((s.at_ (fall + glitchAt fall s.afc.glitch)).setFan f y) := by
  have seen : (((s.at_ (fall + glitchAt fall s.afc.glitch)).afc.fans.get f).edgeSeen fall) = (y, false) := seen
  rw [execTachEdgeAccepted, unlessReset_awake _ awake]
  simp only [accepted, seen, if_true, Bool.false_eq_true, if_false]

theorem execTachEdgeAccepted_recovers (accepted : s.afc.accepts f fall low = true)
    (tach : (s.afc.fans.get f).tach = .stalled) (second : (s.afc.fans.get f).recovery ≠ 0) :
    execTachEdgeAccepted f fall low s = .next (s.fanRecovered f fall) := by
  have seen : (((s.at_ (fall + glitchAt fall s.afc.glitch)).afc.fans.get f).edgeSeen fall) = _ :=
    FanRecord.edgeSeen_of_second (x := s.afc.fans.get f) fall tach second
  rw [execTachEdgeAccepted, unlessReset_awake _ awake]
  simp only [accepted, seen, if_true]
  refine congrArg _ ?_
  unfold State.recoverFan
  dsimp only
  rw [FanRecord.edgeTaken_stalledAt]
  rfl

end

/-- Settles O44. -/
theorem fanEvents : Obligations.FanEvents := by
  intro f s awake x put follows stalls
  have stalled {c : Instr} {e : Nat} (run : exec c s = .next (s.fanStalled f e)) (on : x.selected ≠ 0) : stalls c e := by
    obtain ⟨tach, grace, edge, recovery⟩ := s.fanStalled_tach f e on
    have now : (s.fanStalled f e).now = max s.now e := State.fanHanded_now ..
    refine ⟨_, run, now, tach, grace, edge, recovery, State.fanHanded_stalled .., State.fanHanded_device ..,
      State.fanHanded_raises _ _ _ _ _ _ rfl (by decide : EventKind.fanStall ∉ formKinds), State.fanHanded_lensFollows .., ?_⟩
    rw [now]
    exact State.fanHanded_follows _ _ _ _ _ _ nofun
  refine ⟨execKickExpiry_none awake, fun e => execKickExpiry_some awake, fun fall low bad => ?_, fun fall low t0 driven early => ?_,
    ?edge, execGraceTimerExpiry_none awake, fun e grace =>
      ⟨fun g => execGraceTimerExpiry_turns awake grace, fun edge => stalled (execGraceTimerExpiry_stalls awake grace edge)⟩,
    execEdgeTimerExpiry_none awake, fun e edge => ⟨execEdgeTimerExpiry_starting awake edge, execEdgeTimerExpiry_stalled awake edge,
      fun tach => stalled (execEdgeTimerExpiry_stalls awake edge tach)⟩⟩
  · refine execTachEdgeAccepted_refused awake fun accepted => ?_
    obtain ⟨output, ⟨t0, driven, -⟩, wide⟩ := (Afc.accepts_iff ..).mp accepted
    rcases bad with bad | bad | bad
    · exact output bad
    · rw [bad] at driven
      cases driven
    · omega
  · refine execTachEdgeAccepted_refused awake fun accepted => ?_
    obtain ⟨-, ⟨t1, driven', late⟩, -⟩ := (Afc.accepts_iff ..).mp accepted
    obtain rfl := Option.some.inj (driven.symm.trans driven')
    omega
  case edge =>
    intro fall low t0 output driven late wide later y
    have accepted : s.afc.accepts f fall low = true := (Afc.accepts_iff ..).mpr ⟨output, ⟨t0, driven, late⟩, wide⟩
    have taken : x.edgeTaken fall = y := FanRecord.edgeTaken_eq x fall
    refine ⟨fun tach => ?_, fun tach first => ?_, fun tach second => ?_⟩
    · rw [← taken]
      exact execTachEdgeAccepted_put awake accepted (FanRecord.edgeSeen_of_running fall tach)
    · rw [← taken]
      exact execTachEdgeAccepted_put awake accepted (FanRecord.edgeSeen_of_first fall tach first)
    · rw [← taken]
      refine ⟨_, execTachEdgeAccepted_recovers awake accepted tach second, State.fanHanded_now .., State.fanHanded_stalled ..,
        State.fanHanded_device .., ?_, State.fanHanded_lensFollows .., ?_, State.fanHanded_follows _ _ _ _ _ _ nofun⟩
      · obtain ⟨entry, mem, event⟩ := State.fanHanded_raises s (fall + glitchAt fall s.afc.glitch) f
          { x.edgeTaken fall with tach := .turning, recovery := 0, stalledAt := none }
          (.fanRecover f (x.edgeTaken fall).rpm (durationMs (fall - x.stalledAt.getD fall))) false rfl
          (by decide : EventKind.fanRecover ∉ formKinds)
        refine ⟨entry, mem, _, event, fun t1 since => ?_⟩
        rw [since]
        rfl
      · obtain fan | fan := s.fanHanded_fan (fall + glitchAt fall s.afc.glitch) f
          { x.edgeTaken fall with tach := .turning, recovery := 0, stalledAt := none }
          (.fanRecover f (x.edgeTaken fall).rpm (durationMs (fall - x.stalledAt.getD fall))) false
        · exact congrArg FanRecord.recovery fan
        · exact (congrArg FanRecord.recovery fan).trans (FanRecord.selectedAs_recovery rfl _ _ _)

end Sys2Proof.Machine
end

