-- ==== Sys2Proof/Proofs/DriverFaults.lean ====
section
/-! PROOFS. What DRV_FLT and the reference mark do to an axis and to the part (R53, R57 to R60). -/

namespace Sys2Proof.Machine

/-! ### An edge of a line that an axis takes (R14, R83) -/

theorem State.setAxis_setAxis (s : State) (a : Axis) (x y : AxisState) : (s.setAxis a x).setAxis a y = s.setAxis a y := by
  cases a <;> rfl

/-- The level of a line is nothing that an axis reads of the part. -/
theorem State.axisEnv_setAxis (s : State) (a : Axis) (x : AxisState) : (s.setAxis a x).axisEnv a = s.axisEnv a := by
  cases a <;> rfl

theorem State.axisEnv_meetsQuantum (s : State) (a : Axis) (p : Int) : (s.axisEnv a).meetsQuantum p = s.meets a p := by
  cases a <;> rfl

/-- The part once an axis has taken the new level of a line and acted on it. -/
theorem State.axisEvent_setAxis {s : State} {a : Axis} {x : AxisState} {f : AxisEnv → AxisState → LensOut} {o : LensOut}
    (h : f (s.axisEnv a) x = o) : (s.setAxis a x).axisEvent a f = s.delivered a o := by
  have acted : f ((s.setAxis a x).axisEnv a) ((s.setAxis a x).axis a) = o := by
    rw [State.axisEnv_setAxis, State.setAxis_axis_self, h]
  rw [State.axisEvent_eq acted, State.delivered, State.delivered, State.setAxis_setAxis, State.setAxis_irm]

section
variable {s : State} (awake : Awake s) {a : Axis}
include awake

theorem execDrvFlt_of_fault {o : LensOut}
    (h : AxisState.driverFault (s.axisEnv a) { s.axis a with drvFlt := true } = o) :
    execDrvFlt a true s = .next (s.delivered a o) := by
  rw [execDrvFlt, if_pos ⟨rfl, by simp [awake]⟩]
  exact congrArg _ (State.axisEvent_setAxis h)

theorem execRefMkEdge_of_mark {o : LensOut} (h : AxisState.refMark (s.axisEnv a) { s.axis a with refMk := true } = o) :
    execRefMkEdge a true s = .next (s.delivered a o) := by
  rw [execRefMkEdge, if_pos ⟨rfl, by simp [awake]⟩]
  exact congrArg _ (State.axisEvent_setAxis h)

end

/-! ### Driver faults (R53, R60) -/

section
variable {env : AxisEnv} {x : AxisState}

/-- An axis that a driver fault has put in FAULT, with the trust that this leaves it. -/
def AxisState.faulted (x : AxisState) (trust : Trust) : AxisState :=
  { x with motion := .fault, stepTimer := none, holdTimer := none, phase := .off, queue := [], pendingHome := false,
           trust := trust }

theorem AxisState.driverFault_of_fault (h : x.motion = .fault) :
    x.driverFault env = { axis := x, later := [.lensFault env.axis x.position .fault] } := by
  rw [AxisState.driverFault, h]

/-- An axis at rest with nothing to do raises LENS_FAULT alone, and makes no change. -/
theorem AxisState.driverFault_of_idle (h : x.motion = .idle) (queue : x.queue = []) (home : x.pendingHome = false) :
    x.driverFault env =
      { axis := x.faulted .unsure, events := [.lensFault env.axis x.position .idle], trigger := x.trust != .unsure } := by
  simp [AxisState.driverFault, AxisState.faultDone, AxisState.cancelled, AxisState.haltTrust, AxisState.moving, Motion.mode,
    present, h, queue, home, AxisState.faulted]

/-- A moving axis raises the events of a halt before LENS_FAULT, and rests where it stands. -/
theorem AxisState.driverFault_of_moving (h : x.moving = true) :
    x.driverFault env =
      { axis := x.faulted (if x.motion.mode = .homing then .unhomed else .unsure),
        events := x.haltEvents env.axis .fault ++ [.lensFault env.axis x.position x.motion.mode], change := some x.position,
        trigger := true } := by
  have raised : x.faultDone env ++ x.cancelled env = x.haltEvents env.axis .fault := by
    simp [AxisState.faultDone, AxisState.cancelled, AxisState.haltEvents, h]
  unfold AxisState.driverFault
  rw [raised, h, AxisState.haltTrust_eq]
  cases motion : x.motion with
  | idle | fault => simp [AxisState.moving, motion] at h
  | running | stopping | homing => simp [AxisState.faulted, present]

end

/-- Settles O27. -/
theorem driverFault : Obligations.DriverFault := by
  intro a s awake x fault
  refine ⟨rfl, fun motion => execDrvFlt_of_fault awake (AxisState.driverFault_of_fault motion), fun idle queue home =>
    execDrvFlt_of_fault awake (AxisState.driverFault_of_idle idle queue home), fun moving => ?_⟩
  refine (execDrvFlt_of_fault awake (AxisState.driverFault_of_moving moving)).trans ?_
  rw [State.delivered, State.raiseAll_append]
  rfl

/-! ### The reference mark (R57, R58, R59) -/

section
variable {env : AxisEnv} {x : AxisState}

/-- A mark says nothing on an axis that is UNHOMED, at the reference position, or not in a leg or a stop (R57). -/
theorem AxisState.refMark_of_unchecked
    (h : x.trust = .unhomed ∨ x.position - x.params.refPos = 0 ∨ x.motion.mode = .idle ∨ x.motion.mode = .homing ∨
      x.motion.mode = .fault) : x.refMark env = { axis := x } := by
  unfold AxisState.refMark
  by_cases here : x.trust = .unhomed ∨ x.position - x.params.refPos = 0
  · exact if_pos here
  · rw [if_neg here]
    rw [← or_assoc] at h
    cases motion : x.motion with
    | idle | homing | fault => rfl
    | running | stopping => simp [motion, Motion.mode, here] at h

section
variable (trust : x.trust ≠ .unhomed) (off : x.position - x.params.refPos ≠ 0)
include trust off

theorem AxisState.refMark_of_leg {l : Leg} (running : x.motion = .running l)
    (near : (x.position - x.params.refPos).natAbs ≤ x.params.refTol) : x.refMark env = x.correctLeg env l := by
  unfold AxisState.refMark
  rw [if_neg (not_or.mpr ⟨trust, off⟩), running]
  exact if_pos near

theorem AxisState.refMark_of_stop (stopping : x.motion.mode = .stopping)
    (near : (x.position - x.params.refPos).natAbs ≤ x.params.refTol) :
    x.refMark env = { axis := { x with position := x.params.refPos }, trigger := env.meetsQuantum x.params.refPos } := by
  unfold AxisState.refMark
  rw [if_neg (not_or.mpr ⟨trust, off⟩)]
  cases motion : x.motion with
  | stopping st => exact if_pos near
  | idle | running | homing | fault => simp [motion, Motion.mode] at stopping

theorem AxisState.refMark_of_slip (moves : x.motion.mode = .running ∨ x.motion.mode = .stopping)
    (far : x.params.refTol < (x.position - x.params.refPos).natAbs) :
    x.refMark env = x.slip env (x.position - x.params.refPos) := by
  unfold AxisState.refMark
  rw [if_neg (not_or.mpr ⟨trust, off⟩)]
  cases motion : x.motion with
  | running | stopping => exact if_neg (Nat.not_le.mpr far)
  | idle | homing | fault => simp [motion, Motion.mode] at moves

end

section
variable {l : Leg}

/-- A corrected leg that has its end point before it goes on to it (R58). -/
theorem AxisState.correctLeg_goes_on (ahead : 0 < l.dir.sign * (l.endPoint - x.params.refPos)) :
    x.correctLeg env l =
      let m : Leg := { l with n := l.issued + (l.dir.sign * (l.endPoint - x.params.refPos)).toNat }
      { axis := { x with
          position := x.params.refPos, motion := .running m, stepTimer := some (x.lastStepAt + m.period x.params l.issued) },
        trigger := env.meetsQuantum x.params.refPos } := by
  unfold AxisState.correctLeg
  simp only [if_neg (Int.not_le.mpr ahead), Bool.false_or]

/-- A corrected leg that has its end point at the reference position or behind it ends there (R58). -/
theorem AxisState.correctLeg_ends (behind : l.dir.sign * (l.endPoint - x.params.refPos) ≤ 0) :
    x.correctLeg env l =
      let out := AxisState.nextLeg env { x with position := x.params.refPos } (l.number + 1)
      { out with trigger := out.trigger || env.meetsQuantum x.params.refPos } := by
  unfold AxisState.correctLeg
  simp only [if_pos behind]

theorem AxisState.nextLeg_of_plan {e : Entry} {next : Leg} {number : Nat} (queue : x.queue.head? = some e)
    (plan : env.planLeg x e number = some next) : x.nextLeg env number = { axis := x.beginLeg env next } := by
  simp only [AxisState.nextLeg, queue, plan]

theorem AxisState.nextLeg_of_arrived {e : Entry} {number : Nat} (queue : x.queue.head? = some e) (arrived : x.position = e.target) :
    x.nextLeg env number = x.complete env := by
  simp only [AxisState.nextLeg, queue, (AxisEnv.planLeg_eq_none_iff env x e number).mpr arrived]

end

end

/-- Settles O28. -/
theorem referenceMark : Obligations.ReferenceMark := by
  intro a s awake x d
  have taken : ∀ o, x.refMark (s.axisEnv a) = o → exec (.refMkEdge a true) s = .next (s.delivered a o) :=
    fun o h => execRefMkEdge_of_mark awake h
  have meets := s.axisEnv_meetsQuantum a x.params.refPos
  refine ⟨rfl, fun unchecked => taken _ (AxisState.refMark_of_unchecked unchecked), fun trust off =>
    ⟨fun l running near ahead => ?_, fun l entry rest running near behind queue => ?_, fun stopping near => ?_, fun moves far =>
      taken _ (AxisState.refMark_of_slip trust off moves far)⟩⟩
  · have out := (AxisState.refMark_of_leg (env := s.axisEnv a) trust off running near).trans
      (AxisState.correctLeg_goes_on ahead)
    rw [meets] at out
    exact taken _ out
  · intro y
    have head : y.queue.head? = some entry := by rw [show y.queue = entry :: rest from queue]; rfl
    have ends := (AxisState.refMark_of_leg (env := s.axisEnv a) trust off running near).trans
      (AxisState.correctLeg_ends behind)
    refine ⟨fun away => ?_, ?_⟩
    · obtain ⟨next, plan⟩ := AxisEnv.exists_planLeg (env := s.axisEnv a) (x := y) away (l.number + 1)
      rw [AxisState.nextLeg_of_plan head plan, meets] at ends
      exact ⟨next, taken _ ends, plan, AxisEnv.planLeg_leads plan⟩
    · rintro arrived rfl
      have last : y.queue = [entry] := queue
      rw [AxisState.nextLeg_of_arrived head arrived.symm, AxisState.complete_of_last last] at ends
      exact taken _ ends
  · have out := AxisState.refMark_of_stop (env := s.axisEnv a) trust off stopping near
    rw [meets] at out
    exact taken _ out

end Sys2Proof.Machine
end

