-- ==== Sys2Proof/Proofs/FirstScan.lean ====
section
/-! PROOFS. The first scan of a part that has just left hard reset: its start check, and the evaluation that a stuck bus leads to
(R100, R103, R104, R109). -/

namespace Sys2Proof.Machine

/-! ### The start check of the first scan (R100) -/

theorem startCheck_eq_busFound (b : BusSample) : startCheck b = busFound b := by
  obtain ⟨scl, sda, freed⟩ := b
  cases scl <;> cases sda <;> cases freed <;> simp [startCheck, busFound]

theorem BusCondition.worst_eq_worseBus (a b : BusCondition) : a.worst b = worseBus a b := by
  cases a <;> cases b <;> rfl

/-- With the bus not stuck the scan's next transaction begins. -/
theorem State.nextSlot_of_clear (s : State) {slots : List Nat} (more : slots ≠ []) (worst : BusCondition) {bus : BusSample}
    (clear : busFound bus ≠ .stuck) :
    s.nextSlot slots worst bus = { s with tmon := { s.tmon with scan := some ⟨slots, worseBus worst (busFound bus)⟩ } } := by
  obtain ⟨n, rest, rfl⟩ := List.exists_cons_of_ne_nil more
  rw [State.nextSlot_cons, startCheck_eq_busFound, if_neg clear, BusCondition.worst_eq_worseBus]

/-! ### A first scan on a stuck bus (R100, R104, R109) -/

/-- The slot records after every read of the first scan has failed once. -/
def failedOnce : List SlotRecord :=
  List.replicate 6 { SlotRecord.reset with failures := 1, lastCause := some .busStuck } ++ List.replicate 2 .reset

/-- The part whose first scan a stuck bus has failed, before its evaluation. -/
def State.unread (s : State) (next : Option Nat) : State :=
  { s with tmon := { Tmon.reset with nextScan := next, slots := failedOnce } }

/-- Six first failures make no slot LOST, and nothing is raised. -/
theorem State.readsFailed_of_first {s : State} {next : Option Nat} (tmon : s.tmon = { Tmon.reset with nextScan := next }) :
    s.readsFailed [0, 1, 2, 3, 4, 5] .busStuck = s.unread next := by
  unfold State.readsFailed
  rw [tmon]
  rfl

/-- An evaluation ends the scan, whichever it was. -/
theorem State.evaluate_setScan (s : State) (x : Option Scan) (bus : BusCondition) :
    State.evaluate { s with tmon := { s.tmon with scan := x } } bus = s.evaluate bus := rfl

theorem Tmon.failStuck_reset (scan : Option Scan) (next : Option Nat) :
    Tmon.failStuck { Tmon.reset with scan := scan, nextScan := next } [0, 1, 2, 3, 4, 5] =
      ({ Tmon.reset with scan := scan, nextScan := next, slots := failedOnce }, []) := rfl

/-- On a stuck bus every read of the first scan fails, and the evaluation follows. -/
theorem State.nextSlot_of_stuck (s : State) (scan : Option Scan) (next : Option Nat) (worst : BusCondition) {bus : BusSample}
    (stuck : busFound bus = .stuck) :
    State.nextSlot { s with tmon := { Tmon.reset with scan := scan, nextScan := next } } [0, 1, 2, 3, 4, 5] worst bus =
      (s.unread next).evaluate .stuck := by
  rw [State.nextSlot_cons, startCheck_eq_busFound, if_pos stuck, Tmon.failStuck_reset, State.raiseAll_nil]
  exact (s.unread next).evaluate_setScan scan .stuck

/-- The part whose first evaluation has had no reading to judge: every zone is ABSENT, and the scan counts. -/
def State.firstCounted (s : State) (next : Option Nat) : State :=
  { s with
    tmon := { Tmon.reset with nextScan := next, slots := failedOnce, bus := .stuck, ready := true, scanNumber := 1 },
    lau := { s.lau with held := { s.lau.held with ready := true } } }

/-- The air and light blocks of a part at its reset values, but for the levels of its lines. -/
structure State.Fresh (s : State) : Prop where
  afc : s.afc = .reset
  lau : s.lau = { Lau.reset with lightOk := s.lau.lightOk, lightFlt := s.lau.lightFlt }
  orientation : s.irm.orientation = .floor

/-- No zone has a record that was read, so that every one stays ABSENT (R106). -/
theorem Tmon.evaluateZones_unread (next : Option Nat) :
    Tmon.evaluateZones { Tmon.reset with nextScan := next, slots := failedOnce } =
      { Tmon.reset with nextScan := next, slots := failedOnce } := rfl

/-- Of ABSENT zones the AFC forms the demand it had, and in STANDBY it selects 0 (R123, R124). -/
theorem Afc.select_evaluate_reset {i : AirInputs} (dark : i.session = .standby) (cold : i.device = .normal)
    (clear : i.tripped = false) : (Afc.reset.evaluate .floor (.same .reset)).select i = Afc.reset := by
  obtain ⟨_, _, _, _⟩ := i
  obtain ⟨rfl, rfl, rfl⟩ : _ ∧ _ ∧ _ := ⟨dark, cold, clear⟩
  rfl

theorem Lau.formComponents_reset : Lau.reset.formComponents = Lau.reset.components := by decide

theorem Lau.least_reset : Lau.reset.components.least Lau.reset.params = Lau.reset.allowance := by decide

/-- The LAU that hears of ABSENT zones stays dark, with the allowance it had (R152, R153). -/
theorem Lau.take_reset {l : Lau} (reset : l = { Lau.reset with lightOk := l.lightOk, lightFlt := l.lightFlt }) (now : Nat)
    (ready : Bool) :
    l.take now { l.held with ready := ready } = { l with held := { l.held with ready := ready } } := by
  have components : Lau.formComponents { l with held := { l.held with ready := ready } } = l.components := by
    rw [reset]
    exact Lau.formComponents_reset
  have allowance : l.components.least l.params = l.allowance := by
    rw [reset]
    exact Lau.least_reset
  unfold Lau.take Lau.form
  simp only [components, allowance]
  rw [reset]
  rfl

/-- With nothing to select a selection leaves the part as it is. -/
theorem State.selectFans_of_same {s : State} (same : s.afc.select s.airInputs = s.afc) : s.selectFans = s := by
  unfold State.selectFans
  rw [same]
  exact if_pos rfl

/-- The LAU of such a part hears from its first evaluation nothing but that the part is ready. -/
theorem State.Fresh.take {s : State} (fresh : s.Fresh) (now : Nat) :
    s.lau.take now { s.lau.held with zones := .same .reset, thresholds := Thresholds.defaults, ready := true } =
      { s.lau with held := { s.lau.held with ready := true } } := by
  rw [← Lau.take_reset fresh.lau now true]
  congr 1
  rw [fresh.lau]
  rfl

/-- The evaluation of unread slots counts the scan and changes nothing else. -/
theorem State.Fresh.evaluate_unread {s : State} (fresh : s.Fresh) (next : Option Nat) :
    (s.unread next).evaluate .stuck = s.firstCounted next := by
  have ⟨afc, lau, orientation⟩ := fresh
  obtain ⟨c, hc⟩ : ∃ c, c = s.firstCounted next := ⟨_, rfl⟩
  have counted : (s.unread next).evaluate .stuck = c.handResults := by
    rw [State.evaluate_eq, State.unread, Tmon.evaluateZones_unread, State.formDevice_of_same _ rfl, hc]
    rfl
  have session : c.lau.session = .standby := by rw [hc, State.firstCounted, lau]; rfl
  have fans : c.afc.evaluate c.irm.orientation c.tmon.zones = c.afc := by
    rw [hc]
    change s.afc.evaluate s.irm.orientation (.same .reset) = s.afc
    rw [orientation, afc]
    rfl
  have select : c.selectFans = c := State.selectFans_of_same <| by
    have air : c.afc = Afc.reset.evaluate .floor (.same .reset) := by rw [hc]; exact afc
    rw [air, Afc.select_evaluate_reset session (by rw [hc]; rfl) (by rw [hc]; rfl)]
    rfl
  have taken : c.lauTake { c.lau.held with zones := c.tmon.zones, thresholds := c.tmon.thresholds } = c := by
    rw [hc]
    exact congrArg (fun l => { s.firstCounted next with lau := l }) (fresh.take s.now)
  have cooled : c.checkCooled = c := if_neg fun h => by simp [session] at h
  rw [counted, State.handResults, fans, select, taken, cooled, hc]

/-- With the device thermal state and the excess as they were, the LAU hears of the zone records alone. -/
theorem lauReached_of_same {s t : State} (device : t.tmon.device = s.tmon.device) (excess : t.afc.excess = s.afc.excess) :
    lauReached s t =
      Lau.take s.now s.lau { s.lau.held with zones := t.tmon.zones, thresholds := s.tmon.thresholds, ready := true } := by
  rw [Lau.take, Lau.form_eq_formed]
  simp only [lauReached, Lau.hearsExcess, device, excess, if_true]

/-- The evaluation that a stuck bus leads to is the one that R109 describes. -/
theorem State.Fresh.evaluated {s : State} (fresh : s.Fresh) (next : Option Nat) :
    Evaluated (s.unread next) .stuck ((s.unread next).evaluate .stuck) := by
  rw [fresh.evaluate_unread]
  have ⟨afc, lau, orientation⟩ := fresh
  have session : s.lau.session = .standby := by rw [lau]; rfl
  have silent (k : EventKind) : Machine.Told (s.unread next) (s.firstCounted next) k none := told_none_of_events k
  refine ⟨rfl, rfl, rfl, rfl, rfl, rfl, rfl, rfl, rfl, rfl, rfl, rfl, fun z => by cases z <;> rfl, fun z => ?zone, rfl, rfl, rfl,
    fun _ => ⟨fun _ => ⟨rfl, rfl, rfl⟩, fun moved => absurd rfl moved⟩, fun tripped => absurd rfl tripped, ?zones, ?inUse, rfl,
    fun f => ⟨?demand, ?duty⟩, ?held, ?thresholds, fun moved => absurd rfl moved,
    ⟨silent _, fun tripped => absurd rfl tripped, fun _ => ⟨silent _, fun cooled => ?cooled, fun _ =>
      ⟨?lau, rfl, rfl, Nat.le_refl _, silent _⟩⟩⟩, rfl, rfl, ⟨rfl, rfl⟩, silent _⟩
  case zone => cases z <;> exact ⟨fun _ => rfl, nofun⟩
  case zones =>
    change s.afc.zones = .same .reset
    rw [afc]
    rfl
  case inUse =>
    change s.afc.inUse = s.irm.orientation
    rw [afc, orientation]
    rfl
  case demand =>
    refine ⟨fun z x => by cases z <;> exact nofun, .inr ⟨fun z x => by cases z <;> exact nofun, ?_⟩⟩
    change (s.afc.fans.get f).demand = _
    dsimp only [State.unread]
    rw [afc, orientation]
    cases f <;> rfl
  case duty =>
    have inputs : (s.firstCounted next).airInputs = ⟨s.now, false, .normal, .standby⟩ := by
      rw [State.airInputs, ← session]
      rfl
    rw [State.dutyOf_eq, inputs]
    change (s.afc.fans.get f).selected = 0
    rw [afc]
    cases f <;> rfl
  case held =>
    change s.lau.held.zones = .same .reset
    rw [lau]
    rfl
  case thresholds =>
    change s.lau.held.thresholds = Thresholds.defaults
    rw [lau]
    rfl
  case cooled => exact absurd (session.symm.trans cooled.1) nofun
  case lau =>
    exact ((lauReached_of_same (s := s.unread next) (t := s.firstCounted next) rfl rfl).trans (fresh.take s.now)).symm

end Sys2Proof.Machine
end

