-- ==== Sys2Proof/Proofs/HardResets.lean ====
section
/-! PROOFS. Hard reset and its end: the pulses of RESET_N, the drivers found at fault, the first scan, and the transactions that
run on (R60, R103, R164, R180, R181). -/

namespace Sys2Proof.Machine

/-! ### RESET_N (R180) -/

theorem execHardReset_of_long {low : Option Nat} (long : low.all (2000 ≤ ·) = true) (s : State) :
    execHardReset low s = .next s.hardReset := by
  cases low with
  | none => rfl
  | some ns =>
    have long' : 2000 ≤ ns := by simpa using long
    simp [execHardReset, State.resets, openPulse, long', Nat.not_lt.mpr long']

theorem execHardReset_of_short {ns : Nat} (short : ns < 1000) (s : State) : execHardReset (some ns) s = .next s := by
  have reach : ¬ 2000 ≤ ns := by omega
  simp [execHardReset, State.resets, openPulse, Nat.not_le.mpr short, reach]

/-- A low between the two times resets the part or not, as the free value has it, and is counted. -/
theorem execHardReset_of_open {ns : Nat} (low : 1000 ≤ ns) (high : ns < 2000) (s : State) :
    execHardReset (some ns) s =
      .next { if Config.shortPulseResets s.resetPulses then s.hardReset else s with resetPulses := s.resetPulses + 1 } := by
  simp [execHardReset, State.resets, openPulse, low, high, Nat.not_le.mpr high]

/-! ### What the scan and the events do not touch of each other -/

theorem State.raiseAll_setTmon (s : State) (es : List Event) (t : Tmon) :
    { s.raiseAll es with tmon := t } = State.raiseAll { s with tmon := t } es := by
  induction es generalizing s with
  | nil => rfl
  | cons e es ih => exact ih (s.raise e)

theorem State.recomputeIf_setTmon (s : State) (b : Bool) (t : Tmon) :
    { s.recomputeIf b with tmon := t } = State.recomputeIf { s with tmon := t } b := by
  cases b with
  | false => rfl
  | true =>
    simp only [State.recomputeIf_true, State.recompute]
    cases s.ge.inFlight <;> rfl

/-! ### The drivers found at fault as hard reset ends (R60) -/

section
variable (s : State) (asel cBusy fBusy : Bool)

/-- The part whose hard reset has ended: CP_ASEL sampled, a transaction under way on a port marked. -/
def State.released : State :=
  { s.hardReset with
    inReset := false, cpi := { Cpi.reset asel with port := { PortState.reset with crossing := cBusy } },
    fpi := { Fpi.reset with port := { PortState.reset with crossing := fBusy } } }

/-- An axis as hard reset ends, in FAULT when its driver is at fault. -/
def State.woken (a : Axis) : AxisState :=
  if (s.axis a).drvFlt then { s.hardReset.axis a with motion := .fault, trust := .unsure, phase := .off }
  else s.hardReset.axis a

/-- The event of a driver found at fault, at the reset position of its axis. -/
def State.foundAt (a : Axis) : List Event :=
  if (s.axis a).drvFlt then [.lensFault a (AxisParams.default a).centre .idle] else []

theorem State.hardReset_axis (a : Axis) : s.hardReset.axis a = (s.axis a).hardReset a := by cases a <;> rfl

/-- An axis at its reset values is IDLE with nothing to do, so that a driver at fault makes no change; its trust was UNHOMED. -/
theorem State.faultFound_hardReset {env : AxisEnv} {a : Axis} (own : env.axis = a) :
    faultFound a env (s.hardReset.axis a) =
      { axis := s.woken a, events := s.foundAt a, trigger := (s.axis a).drvFlt } := by
  have line : ((s.axis a).hardReset a).drvFlt = (s.axis a).drvFlt := rfl
  rw [faultFound, State.woken, State.foundAt, State.hardReset_axis, line]
  cases (s.axis a).drvFlt with
  | false => rfl
  | true =>
    rw [if_pos rfl, AxisState.driverFault_of_idle rfl rfl rfl, own]
    rfl

theorem State.woken_at_rest (a : Axis) (st : Stop) : (s.woken a).motion ≠ .stopping st := by
  unfold State.woken
  cases a <;> split <;> exact nofun

/-- The driver faults are one event of both axes, with one trigger. -/
theorem State.lensEvent_faultFound :
    (s.released asel cBusy fBusy).lensEvent faultFound =
      (State.raiseAll { s.released asel cBusy fBusy with lmc := ⟨s.woken .v, s.woken .h⟩ }
        (s.foundAt .v ++ s.foundAt .h)).recomputeIf (s.lmc.v.drvFlt || s.lmc.h.drvFlt) := by
  have found (a : Axis) : faultFound a ((s.released asel cBusy fBusy).axisEnv a) ((s.released asel cBusy fBusy).axis a) =
      { axis := s.woken a, events := s.foundAt a, trigger := (s.axis a).drvFlt } := by
    rw [← s.faultFound_hardReset (State.axisEnv_axis ..)]
    cases a <;> rfl
  rw [State.lensEvent_of_ends (after := s.woken) (done := fun _ => []) found (fun _ => rfl) fun a env _ _ _ =>
    AxisState.endIfStopped_of_run fun st stopping => absurd stopping (s.woken_at_rest a st)]
  simp

/-! ### The first scan (R103) -/

/-- The part once the drivers at fault have been found, the time of its second scan set. -/
def State.awoken : State :=
  { (s.released asel cBusy fBusy).lensEvent faultFound with tmon := { Tmon.reset with nextScan := some (s.now + 100000) } }

theorem State.awoken_eq :
    s.awoken asel cBusy fBusy =
      (State.raiseAll
        { s.released asel cBusy fBusy with
          lmc := ⟨s.woken .v, s.woken .h⟩, tmon := { Tmon.reset with nextScan := some (s.now + 100000) } }
        (s.foundAt .v ++ s.foundAt .h)).recomputeIf (s.lmc.v.drvFlt || s.lmc.h.drvFlt) := by
  unfold State.awoken
  rw [State.lensEvent_faultFound]
  exact (State.recomputeIf_setTmon ..).trans (congrArg (State.recomputeIf · _) (State.raiseAll_setTmon ..))

/-- The first scan begins on the six enabled slots of the reset table. -/
theorem State.endReset_hardReset (bus : BusSample) :
    s.hardReset.endReset ⟨asel, cBusy, fBusy⟩ bus =
      State.nextSlot
        { s.awoken asel cBusy fBusy with
          tmon := { Tmon.reset with scan := some ⟨[0, 1, 2, 3, 4, 5], .clear⟩, nextScan := some (s.now + 100000) } }
        [0, 1, 2, 3, 4, 5] .clear bus := by
  obtain ⟨w, hw⟩ : ∃ w, w = (s.released asel cBusy fBusy).lensEvent faultFound := ⟨_, rfl⟩
  have begun : s.hardReset.endReset ⟨asel, cBusy, fBusy⟩ bus = w.startScan bus := by rw [hw]; rfl
  have tmon : w.tmon = Tmon.reset := by rw [hw, State.lensEvent_tmon]; rfl
  have now : w.now = s.now := by rw [hw, State.lensEvent_now]; rfl
  have scan : Tmon.reset.beginScan (Tmon.reset.nextScan.getD w.now) =
      { Tmon.reset with scan := some ⟨[0, 1, 2, 3, 4, 5], .clear⟩, nextScan := some (w.now + 100000) } := rfl
  have slots : enabledSlots Tmon.reset.table = [0, 1, 2, 3, 4, 5] := rfl
  rw [begun, State.startScan_eq, tmon, scan, slots, State.awoken, ← hw, ← now]

theorem State.awoken_fresh : (s.awoken asel cBusy fBusy).Fresh where
  afc := State.lensEvent_afc ..
  lau := by
    rw [State.awoken]
    dsimp only
    rw [State.lensEvent_lau]
    rfl
  orientation := by
    rw [State.awoken_eq, State.recomputeIf_irm, State.raiseAll_irm]
    rfl

/-- The first scan goes on by what the Probe Bus shows. -/
theorem State.endReset_goesOn (bus : BusSample) :
    ScanGoesOn (s.awoken asel cBusy fBusy) [0, 1, 2, 3, 4, 5] .clear bus
      (s.hardReset.endReset ⟨asel, cBusy, fBusy⟩ bus) := by
  refine ⟨nofun, fun _ _ stuck => ?_, fun more clear => ?_⟩
  · rw [State.endReset_hardReset, State.nextSlot_of_stuck _ _ _ _ stuck, State.readsFailed_of_first rfl]
    exact (s.awoken_fresh asel cBusy fBusy).evaluated _
  · rw [State.endReset_hardReset, State.nextSlot_of_clear _ more _ clear]
    rfl

/-- On a free bus the first transaction begins. -/
theorem State.endReset_of_free :
    s.hardReset.endReset ⟨asel, cBusy, fBusy⟩ ⟨true, true, none⟩ =
      { s.awoken asel cBusy fBusy with
        tmon := { Tmon.reset with scan := some ⟨[0, 1, 2, 3, 4, 5], .clear⟩, nextScan := some (s.now + 100000) } } := by
  rw [State.endReset_hardReset, State.nextSlot_of_clear _ (List.cons_ne_nil _ _) _ (by decide)]
  rfl

theorem execHardResetEnd_hardReset (ports : PortsFound) (bus : BusSample) :
    execHardResetEnd ports bus s.hardReset = .next (s.hardReset.endReset ports bus) := rfl

theorem execHardResetEnd_of_free :
    execHardResetEnd ⟨asel, cBusy, fBusy⟩ ⟨true, true, none⟩ s.hardReset =
      .next { s.awoken asel cBusy fBusy with
        tmon := { Tmon.reset with scan := some ⟨[0, 1, 2, 3, 4, 5], .clear⟩, nextScan := some (s.now + 100000) } } :=
  (execHardResetEnd_hardReset ..).trans (congrArg _ (s.endReset_of_free asel cBusy fBusy))

theorem State.woken_of_clear {a : Axis} (clear : (s.axis a).drvFlt = false) :
    s.woken a = s.hardReset.axis a ∧ s.foundAt a = [] :=
  ⟨if_neg (by simp [clear]), if_neg (by simp [clear])⟩

theorem State.woken_of_active {a : Axis} (active : (s.axis a).drvFlt = true) :
    s.woken a = { s.hardReset.axis a with motion := .fault, trust := .unsure, phase := .off } ∧
      s.foundAt a = [.lensFault a (AxisParams.default a).centre .idle] :=
  ⟨if_pos active, if_pos active⟩

theorem State.awoken_of_no_fault (v : s.lmc.v.drvFlt = false) (h : s.lmc.h.drvFlt = false) :
    s.awoken asel cBusy fBusy =
      { s.released asel cBusy fBusy with tmon := { Tmon.reset with nextScan := some (s.now + 100000) } } := by
  obtain ⟨wokenV, silentV⟩ := s.woken_of_clear (a := .v) v
  obtain ⟨wokenH, silentH⟩ := s.woken_of_clear (a := .h) h
  rw [State.awoken_eq, wokenV, wokenH, silentV, silentH, v, h]
  rfl

/-- With the driver of V at fault V enters FAULT, LENS_FAULT is raised, and a computation starts. -/
theorem State.awoken_of_v_fault (v : s.lmc.v.drvFlt = true) (h : s.lmc.h.drvFlt = false) :
    s.awoken asel cBusy fBusy =
      State.recompute (State.raise
        { s.released asel cBusy fBusy with
          lmc := ⟨{ s.hardReset.lmc.v with motion := .fault, trust := .unsure, phase := .off }, s.hardReset.lmc.h⟩,
          tmon := { Tmon.reset with nextScan := some (s.now + 100000) } }
        (.lensFault .v 24000 .idle)) := by
  obtain ⟨wokenV, raised⟩ := s.woken_of_active (a := .v) v
  obtain ⟨wokenH, silent⟩ := s.woken_of_clear (a := .h) h
  rw [State.awoken_eq, wokenV, wokenH, raised, silent, v]
  rfl

end

/-! ### A transaction that runs on past the end of hard reset (R180) -/

/-- A command with a port is a request that its port takes. -/
theorem exec_eq_takeRequest {c : Instr} {p : Port} (request : portOf c = some p) (s : State) :
    ∃ kind f, exec c s = takeRequest p kind s f := by
  unfold exec
  cases c with
  | abortMotion | home | axisRecover | storePreset | beginLoad | readTable | writeInstall | jog =>
    obtain rfl := Option.some.inj request
    dsimp only [execAbortMotion, execHome, execAxisRecover, execStorePreset, execBeginLoad, execReadTable, execWriteInstall,
      execJog]
    exact ⟨_, _, rfl⟩
  | readInstall | readAxis | readThermal | readLight | readWarp | readPreset | getEvents | setEventMask | attach | detach
  | lightRequest | recallPreset | clearPreset | lightOn | lightOff | setLightMode | setQuiet | clearLightFault | setParamAxis
  | setParam | getParam | loadSegment | endLoad | restart =>
    obtain rfl := Option.some.inj request
    exact ⟨_, _, rfl⟩
  | _ => cases request

section
variable {s : State} (awake : Awake s) {p : Port} (crossing : (s.port p).crossing = true)
include awake crossing

theorem exec_request_of_crossing {c : Instr} (request : portOf c = some p) :
    exec c s = .next (s.setCrossing p false) := by
  obtain ⟨kind, f, taken⟩ := exec_eq_takeRequest request s
  rw [taken, takeRequest_crossing p kind f awake crossing]

theorem execMalformedRequest_of_crossing {bytes : List Byte} (malformed : isMalformed p bytes = true) :
    execMalformedRequest p bytes s = .next (s.setCrossing p false) := by
  cases read : readFrame p bytes with
  | malformed kind cause =>
    rw [execMalformedRequest, takeFrame, read]
    exact takeRequest_crossing p kind _ awake crossing
  | nothing | request => simp [isMalformed, read] at malformed

end

/-- Settles O13. -/
theorem hardResetAndItsEnd : Obligations.HardResetAndItsEnd := by
  refine ⟨fun s => ⟨fun low long => execHardReset_of_long long s, fun ns short => execHardReset_of_short short s,
    fun ns low high => ?pulse⟩, fun s asel => ⟨fun v h cBusy fBusy => ?quiet, fun v h => ?found, fun cBusy fBusy bus => ?goesOn,
    fun ports bus awake => ?awake, fun p awake crossing => ⟨fun c request => ?request, fun bytes malformed => ?malformed⟩⟩⟩
  case pulse =>
    have counted : exec (.hardReset (some ns)) s = _ := execHardReset_of_open low high s
    rw [counted]
    cases Config.shortPulseResets s.resetPulses with
    | false => exact .inl rfl
    | true => exact .inr rfl
  case quiet =>
    refine (execHardResetEnd_of_free s asel cBusy fBusy).trans ?_
    rw [s.awoken_of_no_fault asel cBusy fBusy v h]
    rfl
  case found =>
    have ended := execHardResetEnd_of_free s asel false false
    rw [s.awoken_of_v_fault asel false false v h] at ended
    refine ⟨_, ended, ?_⟩
    dsimp only
    rw [State.recompute_inReset, State.recompute_lmc, State.recompute_irm, State.recompute_cpi, State.recompute_fpi,
      State.recompute_ge_of_none rfl]
    exact ⟨rfl, rfl, rfl, rfl, rfl, rfl, rfl, rfl, rfl, rfl⟩
  case goesOn =>
    intro fault raised woken
    have same : woken = s.awoken asel cBusy fBusy := (s.awoken_eq asel cBusy fBusy).symm
    rw [same]
    exact ⟨_, execHardResetEnd_hardReset s _ bus, s.endReset_goesOn asel cBusy fBusy bus⟩
  case awake =>
    change execHardResetEnd ports bus s = _
    rw [execHardResetEnd, awake]
    rfl
  case request => exact exec_request_of_crossing awake crossing request
  case malformed => exact execMalformedRequest_of_crossing awake crossing malformed

end Sys2Proof.Machine
end

