-- ==== Sys2Proof/Proofs/KeystoneGeometry.lean ====
section
/-! PROOFS. The stages of a keystone computation: the inset fraction (R71, R72), the axis offset and the held fraction (R69, R70,
R73), and the corners and echoes of the record (R74, R75, R76). -/

namespace Sys2Proof.Machine

/-! ### The inset fraction (R71, R72) -/

theorem codeSign_of_ne_zero {k : Int} (h : k ≠ 0) : codeSign k = if 0 < k then 1 else -1 := by
  unfold codeSign
  split
  · rfl
  · exact if_pos (by omega)

@[simp] theorem insetFraction_zero (g : Nat) (a : Int) : insetFraction 0 g a = 0 := rfl

theorem insetFraction_of_ne_zero {k : Int} (h : k ≠ 0) (g : Nat) (a : Int) :
    let den : Int := 1073741824 + g * (16384 + (if 0 < k then 1 else -1) * a)
    insetFraction k g a = ((2 * g * 1073741824 + den / 2) / den).toNat := by
  rw [← codeSign_of_ne_zero h]
  exact if_neg h

/-- The distance to the wide edge, from a whole half-picture beyond it to three on this side. -/
theorem wideEdge_bounds {a : Int} (low : -32768 ≤ a) (high : a ≤ 32768) (k : Int) :
    -16384 ≤ 16384 + (if 0 < k then 1 else -1) * a ∧ 16384 + (if 0 < k then 1 else -1) * a ≤ 49152 := by
  split <;> omega

/-- The divisor lies between three quarters and seven quarters of 1. -/
theorem insetDivisor_bounds {g : Nat} {p : Int} (hg : g ≤ 16384) (low : -16384 ≤ p) (high : p ≤ 49152) :
    805306368 ≤ 1073741824 + g * p ∧ 1073741824 + g * p ≤ 1879048192 := by
  have fits : (g : Int) ≤ 16384 := by exact_mod_cast hg
  have least : (g : Int) * (-16384) ≤ g * p := Int.mul_le_mul_of_nonneg_left low (Int.natCast_nonneg g)
  have most : (g : Int) * p ≤ g * 49152 := Int.mul_le_mul_of_nonneg_left high (Int.natCast_nonneg g)
  omega

/-- Half the divisor added before the floor: the quotient is the nearest integer, a half rounded up. -/
theorem roundedQuotient_nearest (a : Int) {b : Int} (hb : 0 < b) :
    2 * ((a + b / 2) / b * b) ≤ 2 * a + b ∧ 2 * a < 2 * ((a + b / 2) / b * b) + b := by
  have floor := Int.ediv_mul_le (a + b / 2) hb.ne'
  have ceiling := Int.lt_ediv_add_one_mul_self (a + b / 2) hb
  rw [Int.add_mul, Int.one_mul] at ceiling
  generalize (a + b / 2) / b * b = q at floor ceiling
  omega

/-- A fraction is at most 43691, its value for the largest table entry and the wide edge a half-picture beyond the axis. -/
theorem roundedInset_le {g : Nat} {p : Int} (hg : g ≤ 16384) (low : -16384 ≤ p) (positive : 0 < 1073741824 + (g : Int) * p) :
    (2 * g * 1073741824 + (1073741824 + g * p) / 2) / (1073741824 + g * p) ≤ 43691 := by
  have fits : (g : Int) ≤ 16384 := by exact_mod_cast hg
  have least : (g : Int) * (-16384) ≤ g * p := Int.mul_le_mul_of_nonneg_left low (Int.natCast_nonneg g)
  refine Int.lt_add_one_iff.mp (Int.ediv_lt_of_lt_mul positive ?_)
  omega

/-- Settles O31. -/
theorem Keystone.insetFraction : Obligations.InsetFraction := by
  intro k g a nonzero hg low high p den f
  obtain ⟨pLow, pHigh⟩ : -16384 ≤ p ∧ p ≤ 49152 := wideEdge_bounds low high k
  obtain ⟨denLow, denHigh⟩ : 805306368 ≤ den ∧ den ≤ 1879048192 := insetDivisor_bounds hg pLow pHigh
  have positive : 0 < den := by omega
  have nonneg : 0 ≤ (2 * g * 1073741824 + den / 2) / den := Int.ediv_nonneg (by omega) positive.le
  have floor : (f : Int) = (2 * g * 1073741824 + den / 2) / den :=
    (congrArg Nat.cast (insetFraction_of_ne_zero nonzero g a)).trans (Int.toNat_of_nonneg nonneg)
  have most : (f : Int) ≤ 43691 := floor.trans_le (roundedInset_le hg pLow positive)
  obtain ⟨below, above⟩ := roundedQuotient_nearest (2 * g * 1073741824) positive
  rw [← floor] at below above
  exact ⟨pLow, pHigh, denLow, denHigh, floor, by exact_mod_cast most, below, above⟩

/-! ### The axis offset and the held fraction (R69, R70, R73) -/

theorem screenOffset_eq (o : Orientation) (pos : Int) (centre : Nat) :
    screenOffset o pos centre = match o with | .floor => pos - centre | .ceiling => centre - pos := by
  cases o
  · rfl
  · exact Int.neg_sub pos centre

theorem clampFraction_eq (flim f : Nat) : clampFraction flim f = (if flim < f then flim else f, decide (flim < f)) := by
  unfold clampFraction
  split <;> simp [*]

theorem clampFraction_le (flim f : Nat) : (clampFraction flim f).1 ≤ flim := by
  rw [clampFraction_eq]
  dsimp only
  split <;> omega

/-- Settles O32. -/
theorem Keystone.axisStages : Obligations.AxisStages := by
  intro o pos centre kspan k tk flim span ds raw f
  have offset : axisOffset (screenOffset o pos centre) kspan = max (-32768) (min 32768 raw) := by
    rw [screenOffset_eq]
    rfl
  have positive : 0 < 2 * (kspan : Int) := by omega
  have floor : raw * (2 * kspan) ≤ 2 * ds * 16384 + kspan := Int.ediv_mul_le _ positive.ne'
  have ceiling : 2 * ds * 16384 + kspan < (raw + 1) * (2 * kspan) := Int.lt_ediv_add_one_mul_self _ positive
  refine ⟨?_, (Int.mul_comm ..).trans_le floor, ceiling.trans_eq (Int.mul_comm ..), fun zero => by subst zero; rfl⟩
  simp only [Machine.axisStages, offset, clampFraction_eq]
  rfl

/-! ### The record of a computation (R74, R75, R76) -/

theorem axisStages_fraction_le (o : Orientation) (pos : Int) (centre kspan : Nat) (k : Int) (tk : List Nat) (flim : Nat) :
    (axisStages o pos centre kspan k tk flim).2.1 ≤ flim :=
  clampFraction_le ..

theorem pixelInset_le {f flim : Nat} (h : f ≤ flim) (size : Nat) : pixelInset size f ≤ pixelInset size flim :=
  Nat.div_le_div_right (Nat.add_le_add_right (Nat.mul_le_mul_left size h) _)

/-- A corner lies within a bound on each side. -/
def Corner.Within (c : Corner) (d e : Nat) : Prop := c.dx ≤ d ∧ c.dy ≤ e

/-- Every corner lies within a bound on each side. -/
def Corners.Within (c : Corners) (d e : Nat) : Prop :=
  c.tl.Within d e ∧ c.tr.Within d e ∧ c.bl.Within d e ∧ c.br.Within d e

theorem screenCorners_within (kv kh : Int) {d e dMax eMax : Nat} (hd : d ≤ dMax) (he : e ≤ eMax) :
    (screenCorners kv kh d e).Within dMax eMax := by
  have side (c : Prop) [Decidable c] {x most : Nat} (h : x ≤ most) : (if c then x else 0) ≤ most := by
    split <;> omega
  exact ⟨⟨side _ hd, side _ he⟩, ⟨side _ hd, side _ he⟩, ⟨side _ hd, side _ he⟩, ⟨side _ hd, side _ he⟩⟩

/-- The half-circle turn keeps a bound on the corners. -/
theorem panelCorners_within (o : Orientation) {c : Corners} {d e : Nat} (h : c.Within d e) : (panelCorners o c).Within d e := by
  obtain ⟨tl, tr, bl, br⟩ := h
  cases o
  · exact ⟨tl, tr, bl, br⟩
  · exact ⟨br, bl, tr, tl⟩

/-- No corner lies above what FLIM gives of the latched raster. -/
theorem compute_corners_within (i : GeoInputs) (seq : Word32) :
    let r := compute i seq
    Corners.Within ⟨r.tl, r.tr, r.bl, r.br⟩ (pixelInset i.width i.flim) (pixelInset i.height i.flim) :=
  panelCorners_within i.orientation (screenCorners_within i.kv i.kh
    (pixelInset_le (axisStages_fraction_le ..) i.width) (pixelInset_le (axisStages_fraction_le ..) i.height))

/-- The record's corners are the screen corners of its pixel insets in the panel frame. -/
theorem compute_corners (i : GeoInputs) (seq : Word32) :
    let r := compute i seq
    (⟨r.tl, r.tr, r.bl, r.br⟩ : Corners) =
      panelCorners i.orientation (screenCorners i.kv i.kh (pixelInset i.width r.fV) (pixelInset i.height r.fH)) := rfl

/-- Settles O33. -/
theorem warpCorners : Obligations.WarpCorners := by
  intro i seq r d e top bottom right left
  have corners := compute_corners i seq
  obtain ⟨tl, tr, bl, br⟩ := compute_corners_within i seq
  refine ⟨fun floor => ?_, fun ceiling => ?_, rfl, rfl, rfl, rfl, rfl, rfl, rfl, rfl, rfl, rfl, rfl,
    axisStages_fraction_le .., axisStages_fraction_le .., ?_⟩
  · rw [floor] at corners
    obtain ⟨tl, tr, bl, br⟩ := Corners.mk.inj corners
    exact ⟨tl, tr, bl, br⟩
  · rw [ceiling] at corners
    obtain ⟨tl, tr, bl, br⟩ := Corners.mk.inj corners
    exact ⟨br, bl, tr, tl⟩
  · simp only [List.forall_mem_cons]
    exact ⟨tl, tr, bl, br, fun _ none_ => absurd none_ List.not_mem_nil⟩

end Sys2Proof.Machine
end

