-- ==== Sys2Proof/Proofs/Computations.lean ====
section
/-! PROOFS. The order of sequence numbers (R79), and the starts and completions of computations (R67, R85, R86, R88). -/

namespace Sys2Proof.Machine

/-! ### The order of sequence numbers (R79) -/

theorem seqGreater_iff (a b : Word32) :
    seqGreater a b = true ↔
      1 ≤ (a.toNat + 4294967296 - b.toNat) % 4294967296 ∧ (a.toNat + 4294967296 - b.toNat) % 4294967296 ≤ 2147483647 := by
  have difference : (a - b).toNat = (a.toNat + 4294967296 - b.toNat) % 4294967296 := by
    rw [BitVec.toNat_sub]
    omega
  rw [seqGreater, Bool.and_eq_true, decide_eq_true_iff, decide_eq_true_iff, difference]

theorem seqGreater_succ (a : Word32) : seqGreater (a + 1) a = true := by
  rw [seqGreater, show a + 1 - a = 1 from add_sub_cancel_left a 1]
  rfl

theorem seqGreater_irrefl (a : Word32) : seqGreater a a = false := by
  simp [seqGreater]

/-- Of two distances that make up 2^32 one alone is below half of it. -/
theorem seqGreater_asymm {a b : Word32} (h : seqGreater a b = true) : seqGreater b a = false := by
  rw [seqGreater_iff] at h
  refine eq_false_of_ne_true fun back => ?_
  rw [seqGreater_iff] at back
  omega

/-! ### Starts (R67, R85) -/

theorem State.recompute_of_inFlight {s : State} {c : Computation} (h : s.ge.inFlight = some c) :
    s.recompute = { s with ge := { s.ge with pendingMark := true } } := by
  rw [State.recompute, h]

theorem State.recompute_of_none {s : State} (h : s.ge.inFlight = none) : s.recompute = s.startComputation := by
  rw [State.recompute, h]

/-! ### Completions (R86, R88) -/

theorem execComputationComplete_of_none {s : State} (awake : Awake s) (h : s.ge.inFlight = none) :
    execComputationComplete s = .next s := by
  rw [execComputationComplete, unlessReset_awake _ awake, h]

theorem execComputationComplete_of_inFlight {s : State} (awake : Awake s) {c : Computation} (h : s.ge.inFlight = some c) :
    execComputationComplete s = .next (s.completeComputation c) := by
  rw [execComputationComplete, unlessReset_awake _ awake, h]

/-- The part once a computation's result is staged under the next number, and published when it was marked. -/
def State.shown (s : State) (c : Computation) : State :=
  let done : State :=
    { s with ge := { s.ge with staged := compute c.inputs (s.ge.staged.seq + 1), inFlight := none } }
  if c.marked then done.publish .attach else done

theorem State.shown_pendingMark (s : State) (c : Computation) : (s.shown c).ge.pendingMark = s.ge.pendingMark := by
  unfold State.shown
  dsimp only
  split <;> rfl

theorem State.completeComputation_eq (s : State) (c : Computation) :
    s.completeComputation c =
      if s.ge.pendingMark then
        State.startComputation { s.shown c with ge := { (s.shown c).ge with pendingMark := false } }
      else s.shown c := by
  rw [← s.shown_pendingMark c]
  rfl

/-- The computation that the pending mark asks for latches the part's inputs, which the result shown before it has not moved. -/
theorem State.startComputation_shown (s : State) (c : Computation) :
    State.startComputation { s.shown c with ge := { (s.shown c).ge with pendingMark := false } } =
      { s.shown c with ge := { (s.shown c).ge with
        pendingMark := false, inFlight := some ⟨s.geoInputs, s.ge.attachMark⟩, refV := s.lmc.v.position,
        refH := s.lmc.h.position, attachMark := false } } := by
  unfold State.shown
  dsimp only
  split <;> rfl

/-- Settles O34. -/
theorem computations : Obligations.Computations := by
  refine ⟨seqGreater_iff, fun a => ⟨seqGreater_succ a, seqGreater_irrefl a⟩, fun _ _ => seqGreater_asymm, fun s =>
    ⟨fun _ => State.recompute_of_inFlight, State.recompute_of_none,
      fun awake => ⟨execComputationComplete_of_none awake, fun c inFlight => ?_⟩⟩⟩
  intro staged done shown
  have completes : exec .computationComplete s = .next (s.completeComputation c) :=
    execComputationComplete_of_inFlight awake inFlight
  rw [completes, State.completeComputation_eq, State.startComputation_shown]
  exact ⟨fun idle => by rw [idle]; rfl, fun pending => by rw [pending]; rfl⟩

end Sys2Proof.Machine
end

