-- ==== Sys2Proof/Proofs/BlockParams.lean ====
section
/-! PROOFS. SET_PARAM of a block parameter (R192). -/

namespace Sys2Proof.Machine

/-! ### A parameter of R192 and its value -/

/-- T_cool alone takes a negative value. -/
theorem BlockParam.nonneg_of_admits {p : BlockParam} {value : Int} (h : p.admits value = true) (warm : p ≠ .tCool) :
    0 ≤ value := by
  cases p with
  | glitch =>
    simp only [BlockParam.admits, Bool.or_eq_true, decide_eq_true_eq] at h
    omega
  | tCool => exact absurd rfl warm
  | q | lapseWindow | slew | ignTimeout | coolMax | dwell => exact ((within_iff _ _).mp h).1.trans' (by decide)
  | _ => exact ((within_iff _ _).mp h).1

/-- A parameter holds the value it was given. -/
theorem State.blockValue_storeBlock_self (s : State) {p : BlockParam} {value : Int} (h : p.admits value = true) :
    (s.storeBlock p value).blockValue p = value := by
  by_cases cold : p = .tCool
  · subst cold
    rfl
  · have stored : ((value.toNat : Nat) : Int) = value := Int.toNat_of_nonneg (BlockParam.nonneg_of_admits h cold)
    cases p with
    | tCool => exact absurd rfl cold
    | quietCap f | coolDuty f => exact (congrArg Nat.cast (PerFan.get_set_self ..)).trans stored
    | _ => exact stored

/-- The other parameters hold what they held; of a parameter per fan, those of the other fans too. -/
theorem State.blockValue_storeBlock_of_ne (s : State) {p other : BlockParam} (value : Int) (h : other ≠ p) :
    (s.storeBlock p value).blockValue other = s.blockValue other := by
  cases p with
  | quietCap f =>
    cases other with
    | quietCap g => exact congrArg Nat.cast (PerFan.get_set_of_ne _ _ fun same => h (congrArg _ same))
    | _ => rfl
  | coolDuty f =>
    cases other with
    | coolDuty g => exact congrArg Nat.cast (PerFan.get_set_of_ne _ _ fun same => h (congrArg _ same))
    | _ => rfl
  | _ => cases other <;> first | rfl | exact absurd rfl h

/-- The values look at the parameters alone. -/
theorem State.blockValue_of_parameters {s t : State} (kept : t.parameters = s.parameters) (p : BlockParam) :
    t.blockValue p = s.blockValue p := by
  obtain ⟨-, -, lau, q, flim, window, dwell, caps, duties, start, glitch⟩ := Parameters.mk.inj kept
  unfold State.blockValue Afc.glitchNow
  rw [lau, q, flim, window, dwell, caps, duties, start, glitch]

/-- What an accepted value starts at once leaves it in its place. -/
theorem State.blockValue_setParam (s : State) {p : BlockParam} {value : Int} (h : p.admits value = true) :
    (s.setParam (.block p) value).blockValue p = value :=
  (State.blockValue_of_parameters (State.paramEffect_parameters _ p) p).trans (s.blockValue_storeBlock_self h)

/-! ### The request (R192, R195, R197) -/

theorem s32_toInt (w : Word32) : s32 w.toInt = le32 w :=
  congrArg le32 (BitVec.ofInt_toInt)

/-- The one check of a block parameter is its range. -/
theorem firstFail_block (s : State) (p : BlockParam) (value : Int) :
    firstFail (controlOnly .control :: s.paramChecks (.block p) value) =
      if p.admits value = true then none else some .outOfRange := rfl

/-- Settles O49. -/
theorem blockParameters : Obligations.BlockParameters := by
  intro code index value p s h named c
  have taken : exec c s = _ := execSetParamAxis_eq named value
  have checks := firstFail_block s p value.toInt
  rw [taken]
  refine ⟨fun outside => ?_, fun inside => ⟨s.blockValue_storeBlock_self inside,
    fun _ => s.blockValue_storeBlock_of_ne value.toInt, ?_⟩⟩
  · exact request_refused h rfl (checks.trans (if_neg (by rw [outside]; decide)))
  · have shows : s32 ((s.setParam (.block p) value.toInt).blockValue p) = le32 value := by
      rw [s.blockValue_setParam inside, s32_toInt]
    rw [request_passed h rfl (checks.trans (if_pos inside))]
    dsimp only [State.paramValue]
    rw [shows]
    cases p <;> rfl

end Sys2Proof.Machine
end

