-- ==== Sys2Proof/Proofs/FrameMarks.lean ====
section
/-! PROOFS. The frame mark and the lapse window (R87, R88, R95, R96, R158, R159): each block's work at a frame mark as one update
of the part, and what the LAU makes of the lapse state. -/

namespace Sys2Proof.Machine

/-! ### Events that one processor alone hears (R174) -/

theorem State.raise_of_control (s : State) {e : Event} (control : routed .control e.kind = true)
    (frame : routed .frame e.kind = false) :
    s.raise e =
      { s with cpi := { s.cpi with port := { s.cpi.port with events := placeEvent e s.cpi.port.events } } } := by
  simp only [State.raise, PortState.place, control, frame, if_true, Bool.false_eq_true, if_false]

theorem State.raise_of_frame (s : State) {e : Event} (control : routed .control e.kind = false)
    (frame : routed .frame e.kind = true) :
    s.raise e =
      { s with fpi := { s.fpi with port := { s.fpi.port with events := placeEvent e s.fpi.port.events } } } := by
  simp only [State.raise, PortState.place, control, frame, if_true, Bool.false_eq_true, if_false]

/-! ### The LAU takes the attach state and the lapse state (R152, R155, R159) -/

theorem Lau.driven_levelsOnly (l : Lau) (now : Nat) : LevelsOnly l (l.driven now) := by
  unfold LevelsOnly Lau.driven
  dsimp only
  split
  · rfl
  · split <;> rfl

theorem Lau.formed_levelsOnly (l : Lau) (now : Nat) : LevelsOnly l (l.formed now) :=
  LevelsOnly.trans (m := { l with components := _, allowance := _ }) rfl (Lau.driven_levelsOnly _ now)

theorem Components.least_le_lLapse {c : Components} (lapsed : c.lapseApplies = true) (p : LauParams) :
    c.least p ≤ p.lLapse := by
  rw [Components.least, if_pos lapsed]
  omega

/-- The LAU once it holds another attach state and lapse state (R155). -/
def Lau.framed (l : Lau) (attached : Bool) (lapse : LapseState) (now : Nat) : Lau :=
  Lau.formed { l with held := { l.held with attached := attached, lapse := lapse } } now

section

variable (l : Lau) (attached : Bool) (lapse : LapseState) (now : Nat)

theorem Lau.framed_eq_form :
    l.framed attached lapse now = Lau.form now { l with held := { l.held with attached := attached, lapse := lapse } } :=
  (Lau.form_eq_formed ..).symm

theorem Lau.framed_levelsOnly : LevelsOnly l (l.framed attached lapse now) :=
  LevelsOnly.trans (m := { l with held := _ }) rfl (Lau.formed_levelsOnly _ now)

theorem Lau.framed_applied : (l.framed attached lapse now).applied = l.applied := by
  rw [Lau.framed_eq_form, Lau.form_applied]

theorem Lau.framed_held :
    (l.framed attached lapse now).held = { l.held with attached := attached, lapse := lapse } := by
  rw [Lau.framed_eq_form, Lau.form_held]

theorem Lau.framed_drive_le : (l.framed attached lapse now).drive ≤ l.drive := by
  rw [Lau.framed_eq_form]
  exact Lau.followTarget_drive_le ..

variable {l attached lapse now}

/-- While the picture processor is detached, or the part is LAPSED, the lapse cap holds the allowance. -/
theorem Lau.framed_allowance_le (dark : attached = false ∨ lapse = .lapsed) :
    (l.framed attached lapse now).allowance ≤ l.params.lLapse := by
  rw [Lau.framed_eq_form, Lau.form_allowance]
  refine Components.least_le_lLapse ?_ _
  obtain rfl | rfl := dark
  · rfl
  · exact Bool.or_true _

end

/-! ### The work of each block at a frame mark (R87, R96, R158) -/

/-- The Control Port's event set once a lapse, if there was one, has ended (R94, R96). -/
def State.lapseEnded (s : State) (cause : FrameCause) : List SetEntry :=
  if s.fmon.state = .lapsed then
    placeEvent (.lapseEnd cause (min 65535 ((s.now - s.fmon.lapseStart.getD s.now) / 1000))) s.cpi.port.events
  else s.cpi.port.events

theorem State.endLapse_eq (s : State) (cause : FrameCause) :
    s.endLapse cause =
      { s with cpi := { s.cpi with port := { s.cpi.port with events := s.lapseEnded cause } } } := by
  unfold State.endLapse State.lapseEnded
  split
  · exact s.raise_of_control rfl rfl
  · rfl

/-- The Frame Port's event set once a staged record that is newer, if there was one, is live (R87, R88). -/
def State.promoted (s : State) : List SetEntry :=
  if seqGreater s.ge.staged.seq s.ge.live.seq then
    placeEvent (.warpNew s.ge.staged.seq s.ge.staged.generation .fmark) s.fpi.port.events
  else s.fpi.port.events

theorem State.promote_eq (s : State) :
    s.promote =
      { s with
        ge := if seqGreater s.ge.staged.seq s.ge.live.seq then { s.ge with live := s.ge.staged } else s.ge,
        fpi := { s.fpi with port := { s.fpi.port with events := s.promoted } } } := by
  unfold State.promote State.promoted State.publish
  split
  · exact State.raise_of_frame _ rfl rfl
  · rfl

/-- The FMON after a frame mark: the period captured, and a window started unless it is DISARMED (R96). -/
def Fmon.marked (f : Fmon) (now : Nat) : Fmon :=
  if f.state = .disarmed then f.capture now else (f.capture now).startWindow now

/-- The LAU after the FMON's work at a frame mark: formed afresh by the end of a lapse alone (R96, R155). -/
def State.lauMarked (s : State) : Lau :=
  if s.fmon.state = .lapsed then s.lau.framed s.fpi.attached .armed s.now else s.lau

theorem State.markFrame_eq (s : State) :
    s.markFrame =
      { s with
        cpi := { s.cpi with port := { s.cpi.port with events := s.lapseEnded .fmark } },
        fmon := s.fmon.marked s.now, lau := s.lauMarked } := by
  unfold State.markFrame Fmon.marked State.lauMarked
  simp only [State.endLapse_eq, State.lapseEnded, Fmon.capture]
  cases s.fmon.state with
  | disarmed | armed => simp
  | lapsed =>
    simp only [State.handFrameState, State.lauTake, Lau.take, Lau.form_eq_formed]
    rfl

/-- The LAU once it has applied a latched request (R158, R159). -/
def Lau.requested (l : Lau) (latched : Option Nat) (now : Nat) : Lau :=
  match latched with
  | none => l
  | some level => Lau.driven { l with applied := some level } now

theorem State.applyRequest_eq (s : State) :
    s.applyRequest =
      { s with fpi := { s.fpi with latched := none }, lau := s.lau.requested s.fpi.latched s.now } := by
  unfold State.applyRequest Lau.requested
  cases h : s.fpi.latched with
  | none => simp [← h]
  | some level => simp [Lau.followTarget_eq_driven]

/-- The part after a frame mark (R87, R96, R158): the GE, the FMON, the LAU. -/
def State.frameMarked (s : State) (time : Nat) : State :=
  let now := max s.now time
  { s with
    now := now, cpi := { s.cpi with port := { s.cpi.port with events := (s.at_ time).lapseEnded .fmark } },
    fpi := { s.fpi with latched := none, port := { s.fpi.port with events := s.promoted } },
    ge := if seqGreater s.ge.staged.seq s.ge.live.seq then { s.ge with live := s.ge.staged } else s.ge,
    fmon := s.fmon.marked now,
    lau := (s.at_ time).lauMarked.requested s.fpi.latched now }

theorem execFmark_awake {s : State} (awake : Awake s) (time : Nat) :
    execFmark time s = .next (s.frameMarked time) := by
  rw [execFmark, unlessReset_awake _ awake, State.applyRequest_eq, State.markFrame_eq, State.promote_eq]
  rfl

/-! ### What the LAU makes of a frame mark (R158, R159) -/

theorem State.lauMarked_levelsOnly (s : State) : LevelsOnly s.lau s.lauMarked := by
  unfold State.lauMarked
  split
  · exact Lau.framed_levelsOnly ..
  · rfl

theorem State.lauMarked_of_not_lapsed {s : State} (running : s.fmon.state ≠ .lapsed) : s.lauMarked = s.lau := if_neg running

theorem State.lauMarked_applied (s : State) : s.lauMarked.applied = s.lau.applied := by
  unfold State.lauMarked
  split
  · exact Lau.framed_applied ..
  · rfl

theorem Lau.requested_levelsOnly (l : Lau) (latched : Option Nat) (now : Nat) :
    LevelsOnly l (l.requested latched now) := by
  cases latched with
  | none => rfl
  | some level => exact LevelsOnly.trans (m := { l with applied := some level }) rfl (Lau.driven_levelsOnly _ now)

theorem Lau.requested_applied (l : Lau) (latched : Option Nat) (now : Nat) :
    (l.requested latched now).applied = if latched.isSome then latched else l.applied := by
  cases latched with
  | none => rfl
  | some level => exact (congrArg Lau.applied (Lau.followTarget_eq_driven ..)).symm.trans (Lau.followTarget_applied ..)

/-- A request applied in IGNITION or LIT: the drive falls to the target at once, and rises to it by the slew (R159). -/
theorem Lau.requested_drive {l : Lau} (lit : l.session.lightEn = true) (level now : Nat) :
    (min level l.allowance ≤ l.drive →
      (l.requested (some level) now).drive = min level l.allowance ∧ (l.requested (some level) now).slew = none) ∧
    (l.drive < min level l.allowance →
      (l.requested (some level) now).drive = l.drive ∧
        (l.requested (some level) now).slew = some (l.slew.getD (now + 10000))) := by
  have target : (some level).getD l.mode.ceiling = level := rfl
  simp only [Lau.requested, Lau.driven, lit, target, Bool.true_eq_false, if_false]
  exact ⟨fun falls => by rw [if_pos falls]; exact ⟨rfl, rfl⟩,
    fun rises => by rw [if_neg (Nat.not_le.mpr rises)]; exact ⟨rfl, rfl⟩⟩

/-! ### A frame mark reaches the part (R87, R88, R96, R158) -/

theorem Fmon.marked_of_disarmed {f : Fmon} (disarmed : f.state = .disarmed) (now : Nat) :
    f.marked now = f.capture now := if_pos disarmed

theorem Fmon.marked_of_attached {f : Fmon} (attached : f.state ≠ .disarmed) (now : Nat) :
    f.marked now = (f.capture now).startWindow now := if_neg attached

theorem Fmon.marked_capture (f : Fmon) (now : Nat) :
    (f.marked now).lastMark = some now ∧
      (f.marked now).period = (match f.lastMark with | some m => min 65535 (now - m) | none => 0) ∧
      f.marked now = { f with
        state := (f.marked now).state, window := (f.marked now).window, lastMark := (f.marked now).lastMark,
        period := (f.marked now).period,
        windowLength := if f.state = .disarmed then f.windowLength else f.lapseWindow } := by
  by_cases disarmed : f.state = .disarmed
  · rw [Fmon.marked_of_disarmed disarmed, if_pos disarmed]
    exact ⟨rfl, rfl, rfl⟩
  · rw [Fmon.marked_of_attached disarmed, if_neg disarmed]
    exact ⟨rfl, rfl, rfl⟩

/-! ### The expiry of the lapse window (R95, R155) -/

/-- The part once its lapse window has expired (R95). -/
def State.windowExpired (s : State) (e : Nat) : State :=
  let now := max s.now e
  { s with
    now := now, fmon := { s.fmon with state := .lapsed, window := none, lapseStart := some now },
    cpi := { s.cpi with port := { s.cpi.port with events := placeEvent (.lapse s.fmon.windowLength) s.cpi.port.events } },
    lau := s.lau.framed s.fpi.attached .lapsed now }

theorem execLapseWindowExpiry_none {s : State} (awake : Awake s) (stopped : s.fmon.window = none) :
    execLapseWindowExpiry s = .next s := by
  rw [execLapseWindowExpiry, unlessReset_awake _ awake, stopped]

theorem execLapseWindowExpiry_some {s : State} {e : Nat} (awake : Awake s) (running : s.fmon.window = some e) :
    execLapseWindowExpiry s = .next (s.windowExpired e) := by
  rw [execLapseWindowExpiry, unlessReset_awake _ awake, running]
  dsimp only
  rw [State.raise_of_control _ rfl rfl, State.handFrameState, State.lauTake, Lau.take, Lau.form_eq_formed]
  rfl

/-- Settles O35: each block's work is one update of the part, and the LAU's levels follow from what it takes. -/
theorem frameMarksAndLapses : Obligations.FrameMarksAndLapses := by
  refine ⟨fun time s awake => ⟨_, execFmark_awake awake time, ?_⟩, fun s awake =>
    ⟨execLapseWindowExpiry_none awake, fun e running => ⟨_, execLapseWindowExpiry_some awake running, ?_⟩⟩⟩
  · obtain ⟨lastMark, period, fmon⟩ := s.fmon.marked_capture (max s.now time)
    have marked : LevelsOnly s.lau (s.at_ time).lauMarked := (s.at_ time).lauMarked_levelsOnly
    refine ⟨rfl, rfl, rfl, lastMark, period, fun disarmed => ?_, fun attached => ?_, rfl, ⟨rfl, rfl⟩,
      marked.trans (Lau.requested_levelsOnly ..), fmon, ?_, ?_, fun level latched running lit => ?_, rfl, rfl, rfl, rfl⟩
    · exact ⟨(congrArg Fmon.state (Fmon.marked_of_disarmed disarmed _)).trans disarmed,
        (congrArg Fmon.window (Fmon.marked_of_disarmed disarmed _)).trans rfl⟩
    · exact ⟨congrArg Fmon.state (Fmon.marked_of_attached attached _),
        congrArg Fmon.window (Fmon.marked_of_attached attached _)⟩
    · simp only [State.frameMarked, Lau.requested]
      cases s.fpi.latched <;> rfl
    · exact (Lau.requested_applied ..).trans (by rw [State.lauMarked_applied]; rfl)
    · have same : (s.at_ time).lauMarked = s.lau := State.lauMarked_of_not_lapsed running
      simp only [State.frameMarked, latched, same]
      exact Lau.requested_drive lit level _
  · have held := s.lau.framed_held s.fpi.attached .lapsed (max s.now e)
    exact ⟨rfl, rfl, rfl, rfl, ⟨rfl, rfl⟩, Lau.framed_levelsOnly .., Lau.framed_applied .., held,
      Lau.framed_allowance_le (.inr rfl), Lau.framed_drive_le ..,
      congrArg (fun x => Lau.formed { s.lau with held := x } (max s.now e)) held.symm, rfl, rfl, rfl, rfl, rfl⟩

end Sys2Proof.Machine
end

