-- ==== Sys2Proof/Proofs/Attachment.lean ====
section
/-! PROOFS. ATTACH and DETACH (R89 to R91, R94, R96, R157, R158): each as one update of the part, before the answer and, for
ATTACH, the recompute trigger. -/

namespace Sys2Proof.Machine

/-! ### The LAU without a request, under another frame state (R155, R158) -/

/-- The LAU with its applied request dropped, once it holds another attach state and lapse state (R155, R158). -/
def Lau.reframed (l : Lau) (attached : Bool) (lapse : LapseState) (now : Nat) : Lau :=
  { l with applied := none }.framed attached lapse now

section

variable (l : Lau) (attached : Bool) (lapse : LapseState) (now : Nat)

theorem Lau.reframed_applied : (l.reframed attached lapse now).applied = none := Lau.framed_applied ..

theorem Lau.reframed_held :
    (l.reframed attached lapse now).held = { l.held with attached := attached, lapse := lapse } := Lau.framed_held ..

theorem Lau.reframed_levelsOnly : LevelsOnly l (l.reframed attached lapse now) :=
  LevelsOnly.trans (m := { l with applied := none }) rfl (Lau.framed_levelsOnly ..)

theorem Lau.reframed_eq :
    l.reframed attached lapse now =
      Lau.formed { l with applied := none, held := (l.reframed attached lapse now).held } now := by
  rw [Lau.reframed_held]
  rfl

end

theorem State.handFrameState_dropRequests (s : State) :
    s.dropRequests.handFrameState =
      { s with fpi := { s.fpi with latched := none }, lau := s.lau.reframed s.fpi.attached s.fmon.state s.now } := by
  rw [State.handFrameState, State.lauTake, Lau.take, Lau.form_eq_formed]
  rfl

/-! ### ATTACH (R89, R90, R94, R96) -/

/-- The part under an accepted ATTACH, before its recompute trigger. -/
def State.attaching (s : State) (width height : Nat) : State :=
  { s with
    fpi := { s.fpi with attached := true, width := width, height := height, latched := none },
    cpi := { s.cpi with port := { s.cpi.port with events := s.lapseEnded .attach } },
    fmon := { s.fmon with
      state := .armed, window := some (s.now + 1000 * s.fmon.lapseWindow), windowLength := s.fmon.lapseWindow,
      lastMark := none },
    lau := s.lau.reframed true .armed s.now, ge := { s.ge with attachMark := true } }

theorem State.attach_eq (s : State) (width height : Nat) : s.attach width height = (s.attaching width height).recompute := by
  rw [State.attach, State.endLapse_eq]
  dsimp only
  rw [State.handFrameState_dropRequests]
  rfl

theorem rasterFits_iff (width height : Word16) :
    rasterFits width height = true ↔
      (640 ≤ width.toNat ∧ width.toNat ≤ 4096) ∧ 360 ≤ height.toNat ∧ height.toNat ≤ 2400 := by
  simp only [rasterFits, Bool.and_eq_true, decide_eq_true_eq, and_assoc]

theorem u16_toNat (w : Word16) : u16 w.toNat = le16 w := congrArg le16 (BitVec.ofNat_toNat ..)

/-- The checks of ATTACH on the Frame Port come down to the raster (R169, R89). -/
theorem firstFail_attach (width height : Word16) :
    firstFail [frameOnly .frame, (rasterFits width height, .outOfRange)] =
      if rasterFits width height then none else some .outOfRange := rfl

section

variable {s : State} (h : Listens s) {width height : Word16}
include h

theorem execAttach_refused (outside : rasterFits width height = false) :
    execAttach .frame width height s = .next (answered s .frame 0x10 .outOfRange (s.attachReply s.ge.live.seq)) :=
  request_refused h (hc := by rw [firstFail_attach, outside]; rfl)

theorem execAttach_accepted (fits : rasterFits width height = true) :
    execAttach .frame width height s =
      .next (answered (s.attaching width.toNat height.toNat).recompute .frame 0x10 .ok
        (le16 width ++ le16 height ++ le32 s.ge.live.seq)) := by
  refine (request_passed h (hc := by rw [firstFail_attach, fits]; rfl)).trans ?_
  dsimp only
  rw [State.attach_eq, State.attachReply, State.recompute_fpi, State.attaching]
  dsimp only
  rw [u16_toNat, u16_toNat]

end

/-! ### DETACH (R90, R91, R94) -/

/-- The part after a DETACH that finds the picture processor attached. -/
def State.detached (s : State) : State :=
  { s with
    fpi := { s.fpi with attached := false, latched := none },
    cpi := { s.cpi with port := { s.cpi.port with events := s.lapseEnded .detach } },
    fmon := { s.fmon with state := .disarmed, window := none }, lau := s.lau.reframed false .disarmed s.now,
    ge := { s.ge with attachMark := false, inFlight := s.ge.inFlight.map fun c => { c with marked := false } } }

theorem State.detach_eq (s : State) : s.detach = s.detached := by
  rw [State.detach, State.endLapse_eq]
  dsimp only
  rw [State.handFrameState_dropRequests]
  rfl

theorem execDetach_frame {s : State} (h : Listens s) :
    execDetach .frame s = .next (answered (if s.fpi.attached then s.detached else s) .frame 0x11 .ok []) := by
  rw [← State.detach_eq]
  exact request_passed h

/-- Settles O36: both are one update of the part, and ATTACH's trigger reaches the GE alone. -/
theorem attachAndDetach : Obligations.AttachAndDetach := by
  refine fun s h => ⟨fun width height => ⟨fun outside => ?_, fun fits => ?_⟩, fun detached => ?_, fun attached => ?_⟩
  · exact ⟨_, execAttach_refused h (eq_false_of_ne_true fun fits => outside ((rasterFits_iff ..).mp fits))⟩
  · refine ⟨_, execAttach_accepted h ((rasterFits_iff ..).mpr fits), ?_⟩
    let answer : Slot := .pending 0x10 .ok (le16 width ++ le16 height ++ le32 s.ge.live.seq)
    let u := s.attaching width.toNat height.toNat
    have control : u.recompute.cpi = u.cpi := u.recompute_cpi
    have light : u.recompute.lau = s.lau.reframed true .armed s.now := u.recompute_lau
    refine ⟨congrArg (fun x : Fpi => { x with port := { x.port with slot := answer } }) u.recompute_fpi, ?_, u.recompute_fmon,
      congrArg (·.port.events) control, fun idle => congrArg State.ge (State.recompute_of_none (s := u) idle),
      fun busy => ?_, (congrArg Lau.applied light).trans (Lau.reframed_applied ..),
      (congrArg Lau.held light).trans (Lau.reframed_held ..), ?_, ?_, u.recompute_irm, u.recompute_lmc, u.recompute_tmon,
      u.recompute_afc, u.recompute_now⟩
    · rw [State.setSlot_frame_cpi, control]
      rfl
    · obtain ⟨c, flying⟩ := Option.isSome_iff_exists.mp busy
      exact congrArg State.ge (State.recompute_of_inFlight (s := u) flying)
    · rw [State.setSlot_lau, light]
      exact Lau.reframed_eq ..
    · rw [State.setSlot_lau, light]
      exact Lau.reframed_levelsOnly ..
  · refine (execDetach_frame h).trans ?_
    rw [if_neg (ne_true_of_eq_false detached)]
  · refine ⟨_, execDetach_frame h, ?_⟩
    rw [if_pos attached]
    exact ⟨rfl, rfl, rfl, Lau.reframed_applied .., Lau.reframed_held .., Lau.framed_allowance_le (.inl rfl),
      Lau.reframed_levelsOnly .., Lau.reframed_eq .., rfl, rfl, rfl, rfl, rfl, rfl, rfl⟩

end Sys2Proof.Machine
end

