-- ==== Sys2Proof/Proofs/Handed.lean ====
section
/-! PROOFS. The values that the blocks hand to the LAU, and the frame side (R89 to R94, R141, R152, R158): what the operations of
the part leave of them. -/

namespace Sys2Proof.Machine

/-! ### An allowance formed from its inputs (R152) -/

/-- The components and the allowance are those that the LAU's inputs give. -/
def Lau.Fresh (l : Lau) : Prop := l.components = l.formComponents ∧ l.allowance = l.components.least l.params

theorem allowanceFresh_iff (s : State) : AllowanceFresh s ↔ s.lau.Fresh := Iff.rfl

theorem Lau.formComponents_form (now : Nat) (l : Lau) : (l.form now).formComponents = l.formComponents := by
  simp [Lau.formComponents, Lau.thermalCeiling, Lau.acousticCeiling]

theorem Lau.form_fresh (now : Nat) (l : Lau) : (l.form now).Fresh :=
  ⟨by rw [Lau.form_components, Lau.formComponents_form],
    by rw [Lau.form_allowance, Lau.form_components, Lau.form_params]⟩

theorem Lau.Fresh.slewStep {l : Lau} (h : l.Fresh) (now : Nat) : (l.slewStep now).Fresh := by
  unfold Lau.slewStep
  split <;> exact h

theorem Lau.Fresh.followTarget {l : Lau} (h : l.Fresh) (now : Nat) : (l.followTarget now).Fresh := by
  unfold Lau.followTarget
  split
  · exact h
  · split <;> exact h

/-! ### The frame side (R89 to R94, R158) -/

/-- What the frame side holds, and what the LAU holds of it. -/
structure FrameSide where
  attached : Bool
  latched : Option Nat
  lapse : LapseState
  window : Option Nat
  applied : Option Nat
  heldAttached : Bool
  heldLapse : LapseState

/-- The frame side of the part. -/
def State.frameSide (s : State) : FrameSide :=
  ⟨s.fpi.attached, s.fpi.latched, s.fmon.state, s.fmon.window, s.lau.applied, s.lau.held.attached, s.lau.held.lapse⟩

/-- What the LAU is handed and what it makes of it, with the frame side. -/
def State.handed (s : State) : Lau × Thermal × PerFan Bool × Bool × Nat × FrameSide :=
  (s.lau, s.tmon.device, s.tmon.stalled, s.tmon.ready, s.afc.excess, s.frameSide)

/-- No computation is marked for publication, and none is to be. -/
def Ge.Unmarked (g : Ge) : Prop := g.attachMark = false ∧ g.inFlight.all (fun c => !c.marked) = true

/-! ### What an operation keeps -/

/-- From one state to another the allowance stays formed, each value that the thermal and air blocks hand the LAU stays the one it
holds, the frame side stays, and no computation becomes marked. -/
structure Steady (s t : State) : Prop where
  fresh : s.lau.Fresh → t.lau.Fresh
  device : s.lau.held.device = s.tmon.device → t.lau.held.device = t.tmon.device
  stalled : s.lau.held.anyStalled = decide (0 < stalledCount s.tmon.stalled) →
    t.lau.held.anyStalled = decide (0 < stalledCount t.tmon.stalled)
  ready : s.lau.held.ready = s.tmon.ready → t.lau.held.ready = t.tmon.ready
  excess : s.lau.held.excess = s.afc.excess → t.lau.held.excess = t.afc.excess
  frame : t.frameSide = s.frameSide
  unmarked : s.ge.Unmarked → t.ge.Unmarked

/-- The invariants that the LAU's inputs and the frame side make up pass from one state to another. -/
structure Hands (s t : State) : Prop where
  fresh : AllowanceFresh s → AllowanceFresh t
  held : HeldFollows s → HeldFollows t
  frame : FrameSound s → FrameSound t

theorem Hands.refl (s : State) : Hands s s := ⟨id, id, id⟩

theorem Hands.trans {s t u : State} (h : Hands s t) (g : Hands t u) : Hands s u :=
  ⟨g.fresh ∘ h.fresh, g.held ∘ h.held, g.frame ∘ h.frame⟩

theorem Steady.hands {s t : State} (h : Steady s t) : Hands s t := by
  obtain ⟨fresh, device, stalled, ready, excess, frame, unmarked⟩ := h
  obtain ⟨attached, latched, lapse, window, applied, heldAttached, heldLapse⟩ := FrameSide.mk.inj frame
  refine ⟨(allowanceFresh_iff t).mpr ∘ fresh ∘ (allowanceFresh_iff s).mp,
    fun ⟨device', stalled', ready', excess', attached', lapse'⟩ =>
      ⟨device device', stalled stalled', ready ready', excess excess', ?_, ?_⟩,
    fun ⟨disarmed, armed, rest⟩ => ?_⟩
  · rw [heldAttached, attached, attached']
  · rw [heldLapse, lapse, lapse']
  · rw [FrameSound, attached, latched, lapse, window, applied]
    exact ⟨disarmed, armed, fun detached =>
      have ⟨noLatched, noApplied, quiet⟩ := rest detached
      ⟨noLatched, noApplied, unmarked quiet⟩⟩

namespace Steady

theorem refl (s : State) : Steady s s := ⟨id, id, id, id, id, rfl, id⟩

theorem trans {s t u : State} (h : Steady s t) (g : Steady t u) : Steady s u :=
  ⟨g.fresh ∘ h.fresh, g.device ∘ h.device, g.stalled ∘ h.stalled, g.ready ∘ h.ready, g.excess ∘ h.excess,
    g.frame.trans h.frame, g.unmarked ∘ h.unmarked⟩

/-- An operation that touches nothing of what is handed. -/
theorem of_quiet {s t : State} (same : t.handed = s.handed) (unmarked : s.ge.Unmarked → t.ge.Unmarked) : Steady s t := by
  simp only [State.handed, Prod.mk.injEq] at same
  obtain ⟨lau, device, stalled, ready, excess, frame⟩ := same
  refine ⟨?_, ?_, ?_, ?_, ?_, frame, unmarked⟩
  all_goals simp only [lau, device, stalled, ready, excess, imp_self]

/-- An operation after one that touches nothing of what is handed. -/
theorem after {s t u : State} (h : Steady t u) (same : t.handed = s.handed) (unmarked : s.ge.Unmarked → t.ge.Unmarked) :
    Steady s u :=
  (of_quiet same unmarked).trans h

/-- The LAU becomes another with the same applied request and the same inputs. -/
theorem setLau (s : State) {l : Lau} (fresh : s.lau.Fresh → l.Fresh) (applied : l.applied = s.lau.applied)
    (held : l.held = s.lau.held) : Steady s { s with lau := l } := by
  refine ⟨fresh, ?_, ?_, ?_, ?_, ?_, id⟩
  all_goals simp only [held, applied, State.frameSide, imp_self]

/-! ### The ports and the axes -/

theorem setSlot (s : State) (p : Port) (x : Slot) : Steady s (s.setSlot p x) := by cases p <;> exact of_quiet rfl id

theorem setPort (s : State) (p : Port) (x : PortState) : Steady s (s.setPort p x) := by cases p <;> exact of_quiet rfl id

theorem setCrossing (s : State) (p : Port) (b : Bool) : Steady s (s.setCrossing p b) := by cases p <;> exact of_quiet rfl id

theorem raiseAll (s : State) (es : List Event) : Steady s (s.raiseAll es) :=
  of_quiet (by simp [State.handed, State.frameSide]) (by simp)

theorem setAxis (s : State) (a : Axis) (x : AxisState) : Steady s (s.setAxis a x) := by cases a <;> exact of_quiet rfl id

theorem at_ (s : State) (time : Nat) : Steady s (s.at_ time) := of_quiet rfl id

theorem startComputation (s : State) : Steady s s.startComputation :=
  of_quiet rfl (fun ⟨mark, _⟩ => ⟨rfl, by rw [State.startComputation, mark]; rfl⟩)

theorem recompute (s : State) : Steady s s.recompute := by
  unfold State.recompute
  split
  · exact startComputation s
  · exact of_quiet rfl id

theorem recomputeIf (s : State) (b : Bool) : Steady s (s.recomputeIf b) := by
  cases b
  · exact refl s
  · exact recompute s

theorem deliver (s : State) (v h : LensOut) : Steady s (s.deliver v h) :=
  of_quiet (by simp [State.handed, State.frameSide]) (by simp)

theorem axisEvent (s : State) (a : Axis) (f : AxisEnv → AxisState → LensOut) : Steady s (s.axisEvent a f) := by
  unfold State.axisEvent
  refine trans ?_ (recomputeIf _ _)
  cases a <;> exact deliver s _ _

theorem lensEvent (s : State) (f : Axis → AxisEnv → AxisState → LensOut) : Steady s (s.lensEvent f) :=
  ((deliver s _ _).trans (deliver _ _ _)).trans (recomputeIf _ _)

/-! ### Selections and sessions (R125, R130, R142) -/

/-- The LAU takes inputs that agree with the blocks, in all but the frame side. -/
theorem lauTake (s : State) (x : LauInputs) (attached : x.attached = s.lau.held.attached) (lapse : x.lapse = s.lau.held.lapse)
    (device : s.lau.held.device = s.tmon.device → x.device = s.tmon.device)
    (stalled : s.lau.held.anyStalled = decide (0 < stalledCount s.tmon.stalled) →
      x.anyStalled = decide (0 < stalledCount s.tmon.stalled))
    (ready : s.lau.held.ready = s.tmon.ready → x.ready = s.tmon.ready)
    (excess : s.lau.held.excess = s.afc.excess → x.excess = s.afc.excess) : Steady s (s.lauTake x) := by
  have held : (s.lauTake x).lau.held = x := Lau.form_held ..
  refine ⟨fun _ => Lau.form_fresh _ _, ?_, ?_, ?_, ?_, ?_, id⟩
  · rwa [held]
  · rwa [held]
  · rwa [held]
  · rwa [held]
  · rw [State.frameSide, held, attached, lapse]
    simp [State.lauTake, Lau.take, State.frameSide]

/-- A selection hands the LAU the excess it forms (R130). -/
theorem selectFans (s : State) : Steady s s.selectFans := by
  simp only [State.selectFans]
  split
  · rename_i same
    exact of_quiet (by simp only [State.handed, State.frameSide, same]) id
  · obtain ⟨fresh, device, stalled, ready, -, frame, unmarked⟩ :=
      lauTake { s with afc := s.afc.select s.airInputs } { s.lau.held with excess := (s.afc.select s.airInputs).excess } rfl rfl
        id id id fun _ => rfl
    exact ⟨fresh, device, stalled, ready, fun _ => congrArg LauInputs.excess (Lau.form_held ..), frame, unmarked⟩

theorem enterSession (s : State) (new : Session) (cause : SessionCause) : Steady s (s.enterSession new cause) :=
  (setLau s (fun _ => Lau.form_fresh _ _) (by simp) (by simp)).trans ((raiseAll _ [_]).trans (selectFans _))

theorem checkCooled (s : State) : Steady s s.checkCooled := by
  unfold State.checkCooled
  split
  · exact enterSession s _ _
  · exact refl s

theorem enterCooldown (s : State) (cause : SessionCause) : Steady s (s.enterCooldown cause) :=
  (enterSession s _ _).trans (checkCooled _)

theorem lightFault (s : State) (reason : FaultReason) : Steady s (s.lightFault reason) :=
  (setLau s (l := { s.lau with fault := some ⟨reason, s.lau.timeToFault s.now⟩ }) id rfl rfl).trans
    ((raiseAll _ [.lightFault reason s.lau.session s.lau.drive (s.lau.timeToFault s.now)]).trans (enterCooldown _ _))

end Steady

end Sys2Proof.Machine
end

