-- ==== Sys2Proof/Proofs/HandedKept.lean ====
section
/-! PROOFS. The thermal, air, light and lens operations, and every command, keep the values that the LAU is handed fresh (R141,
R152) and the frame side as it stands, but the commands of the frame side and hard reset. -/

namespace Sys2Proof.Machine

namespace Steady

/-! ### The device thermal state and the trip (R110 to R114) -/

theorem formDevice (s : State) : Steady s s.formDevice := by
  by_cases changed : s.tmon.formDevice = s.tmon.device
  · rw [s.formDevice_of_same changed]
    exact refl s
  · have told : Steady s.deviceTaken s.lensTold := by
      unfold State.lensTold
      split
      · exact lensEvent _ _
      · exact refl _
    obtain ⟨fresh, -, stalled, ready, excess, frame, unmarked⟩ := told.trans (selectFans _)
    have device : s.lensTold.selectFans.tmon.device = s.tmon.formDevice := by
      rw [State.selectFans_tmon, State.lensTold_tmon]
      rfl
    rw [s.formDevice_of_changed changed]
    exact ⟨fresh, fun _ => device.symm, stalled, ready, excess, frame, unmarked⟩

/-- The LAU hears of a changed stalled set once the device state is formed (R153). -/
theorem handStalled (s : State) (f : Fan) (b : Bool) : Steady s (s.handStalled f b) := by
  let u : State := { s with tmon := { s.tmon with stalled := s.tmon.stalled.set f b } }
  obtain ⟨fresh, device, -, ready, excess, frame, unmarked⟩ := (formDevice u).trans
    (lauTake u.formDevice { u.formDevice.lau.held with anyStalled := 0 < stalledCount u.formDevice.tmon.stalled } rfl rfl id
      (fun _ => rfl) id id)
  exact ⟨fresh, device, fun _ => congrArg LauInputs.anyStalled (Lau.form_held ..), ready, excess, frame, unmarked⟩

theorem stallFan (s : State) (f : Fan) : Steady s (s.stallFan f) :=
  after ((raiseAll _ [_]).trans (handStalled _ _ _)) rfl id

theorem recoverFan (s : State) (f : Fan) (fall : Nat) (x : FanRecord) : Steady s (s.recoverFan f fall x) :=
  after ((raiseAll _ [_]).trans (handStalled _ _ _)) rfl id

theorem declareTrip (s : State) (cause : TripCause) (zone : Source) : Steady s (s.declareTrip cause zone) := by
  unfold State.declareTrip
  split
  · exact refl s
  · exact after ((raiseAll _ [_]).trans ((lensEvent _ _).trans ((selectFans _).trans (enterSession _ _ _)))) rfl id

theorem checkAbsolute (s : State) : Steady s s.checkAbsolute := by
  unfold State.checkAbsolute
  split
  · exact declareTrip s _ _
  · exact refl s

/-! ### The scan (R100, R103, R104, R109) -/

theorem countScan (s : State) : Steady s s.countScan := ⟨id, id, id, fun _ => rfl, id, rfl, id⟩

theorem handResults (s : State) : Steady s s.handResults := by
  let u : State := { s with afc := s.afc.evaluate s.irm.orientation s.tmon.zones }
  have taken : Steady u.selectFans (u.selectFans.lauTake { u.selectFans.lau.held with
      zones := u.selectFans.tmon.zones, thresholds := u.selectFans.tmon.thresholds }) :=
    lauTake _ _ rfl rfl id id id id
  exact after ((selectFans u).trans (taken.trans (checkCooled _))) rfl id

theorem evaluate (s : State) (bus : BusCondition) : Steady s (s.evaluate bus) :=
  after ((formDevice _).trans ((checkAbsolute _).trans ((countScan _).trans (handResults _)))) rfl id

end Steady

theorem Tmon.failStuck_handed (t : Tmon) (slots : List Nat) :
    (t.failStuck slots).1.stalled = t.stalled ∧ (t.failStuck slots).1.ready = t.ready := by
  induction slots generalizing t with
  | nil => exact ⟨rfl, rfl⟩
  | cons n rest ih => exact ih _

namespace Steady

theorem nextSlot (s : State) (slots : List Nat) (worst : BusCondition) (bus : BusSample) :
    Steady s (s.nextSlot slots worst bus) := by
  cases slots with
  | nil => exact evaluate s worst
  | cons n rest =>
    rw [State.nextSlot_cons]
    split
    · obtain ⟨device, -⟩ := Tmon.failStuck_keeps s.tmon (n :: rest)
      obtain ⟨stalled, ready⟩ := Tmon.failStuck_handed s.tmon (n :: rest)
      have failed : Steady s { s with tmon := (s.tmon.failStuck (n :: rest)).1 } :=
        of_quiet (by simp only [State.handed, State.frameSide, device, stalled, ready]) id
      exact failed.trans ((raiseAll _ _).trans (evaluate _ _))
    · exact of_quiet rfl id

theorem startScan (s : State) (bus : BusSample) : Steady s (s.startScan bus) :=
  after (nextSlot _ _ _ _) rfl id

theorem finishSlot (s : State) (outcome : Int → Except ReadCause Int) (bus : BusSample) :
    Steady s (s.finishSlot outcome bus) := by
  obtain same | ⟨n, rest, worst, -, finished⟩ := s.finishSlot_cases outcome bus
  · rw [same]
    exact refl s
  · rw [finished]
    exact after ((raiseAll _ _).trans (nextSlot _ _ _ _)) rfl id

/-! ### The record, the computations, the tables and the parameters -/

theorem changes (s : State) (r : Irm) (o : Originator) : Steady s (changed s r o) :=
  after (raiseAll _ [_]) rfl id

theorem installWrite (s : State) (w : Write) (o : Originator) : Steady s (w.apply o s) :=
  after ((changes _ (w.record s.irm) o).trans ((deliver _ _ _).trans (recomputeIf _ _))) rfl id

theorem completeComputation (s : State) (c : Computation) : Steady s (s.completeComputation c) := by
  have shown : Steady s (s.shown c) := by
    unfold State.shown
    dsimp only
    split <;> exact of_quiet rfl fun ⟨mark, _⟩ => ⟨mark, rfl⟩
  rw [State.completeComputation_eq]
  split
  · exact shown.trans (after (startComputation _) rfl id)
  · exact shown

theorem install (s : State) (l : Load) : Steady s (s.install l) := by
  refine trans ?_ (recomputeIf _ _)
  unfold State.installTable
  split <;> exact of_quiet rfl id

/-- A parameter of R192 takes a value, and the allowance is formed afresh where it depends on it (R152, R192). -/
theorem setBlock (s : State) (p : BlockParam) (value : Int) : Steady s ((s.storeBlock p value).paramEffect p) := by
  cases p with
  | lLapse | lIgn | lStall | lCrit | lAcFloor | acStep =>
    exact setLau s (fun _ => Lau.form_fresh _ _) (Lau.form_applied ..) (Lau.form_held ..)
  | slew | ignTimeout | coolMin | coolMax => exact setLau s id rfl rfl
  | tCool => exact (setLau s (l := (s.storeBlock .tCool value).lau) id rfl rfl).trans (checkCooled _)
  | quietCap | coolDuty => exact after (selectFans _) rfl id
  | flim => exact after (recompute _) rfl id
  | q | lapseWindow | dwell | startDuty | glitch => exact of_quiet rfl id

theorem setParam (s : State) (n : ParamName) (value : Int) : Steady s (s.setParam n value) := by
  cases n with
  | axis a p => exact setAxis s a _
  | block p => exact setBlock s p value

theorem restart (s : State) : Steady s s.restart := by
  rw [State.restart_eq]
  exact after ((raiseAll _ _).trans ((changes _ _ _).trans (recompute _))) rfl id

/-- Another mode forms the allowance afresh (R151). -/
theorem setMode (s : State) (mode : LightMode) : Steady s (State.lauForm { s with lau := { s.lau with mode := mode } }) :=
  setLau s (l := Lau.form s.now { s.lau with mode := mode }) (fun _ => Lau.form_fresh _ _) (Lau.form_applied ..)
    (Lau.form_held ..)

theorem lightOn (s : State) : Steady s s.lightOn.1 := by
  unfold State.lightOn
  split
  · exact refl s
  · exact refl s
  · exact refl s
  · exact refl s
  · split
    · exact refl s
    · exact enterSession s _ _

/-! ### Requests and commands (R166, R169, R180) -/

theorem takeRequest {p : Port} {kind : Byte} {s t : State} {f : State → State × Answer} (hf : Steady s (f s).1)
    (h : takeRequest p kind s f = .next t) : Steady s t :=
  takeRequest_keeps (P := Steady s) (fun u x hu => hu.trans (setSlot u p x)) (fun _ => setCrossing s p false) (refl s) hf h

theorem judge {fields : List (Nat × Bool)} {checks : List (Bool × Status)} {refuse : State → List Byte}
    {effect : State → State × Answer} {s : State} (he : Steady s (effect s).1) :
    Steady s (judge fields checks refuse effect s).1 :=
  judge_keeps (refl s) fun _ _ => he

theorem unlessReset {s t : State} {f : State → State} (hf : Steady s (f s)) (h : unlessReset s f = .next t) : Steady s t :=
  unlessReset_keeps (P := Steady s) (refl s) (fun _ => hf) h

theorem write (s : State) (p : Port) (conditional : Bool) (w : Write) : Steady s (s.write p conditional w).1 := by
  unfold State.write
  split
  · exact of_quiet rfl id
  · exact judge (installWrite s w _)

theorem setParameter (s : State) (p : Port) (param index : Byte) (value : Word32) :
    Steady s (setParameter p param index value s).1 := by
  unfold Machine.setParameter
  split
  · exact refl s
  · exact judge (setParam s _ _)

end Steady

/-- The commands that act on the frame side, hard reset, and the one whose bytes may carry a request of the frame side. -/
def actsOnFrameSide : Instr → Bool
  | .attach .. | .detach .. | .lightRequest .. | .fmark .. | .lapseWindowExpiry | .malformedRequest .. | .hardReset .. => true
  | _ => false

section

variable {s t : State}

/-- A request beside the frame side is steady. -/
theorem steady_of_request {c : Instr} {p : Port} (request : portOf c = some p) (aside : actsOnFrameSide c = false)
    (run : exec c s = .next t) : Steady s t := by
  unfold exec at run
  cases c with
  | readThermal | readLight => exact .takeRequest (.refl s) run
  | readAxis | readPreset => exact .takeRequest (.judge (.refl s)) run
  | readWarp | getEvents => exact .takeRequest (.setPort s _ _) run
  | setEventMask => exact .takeRequest (.judge (.setPort s _ _)) run
  | readInstall =>
    refine .takeRequest (.judge ?_) run
    dsimp only
    split
    · exact .of_quiet rfl id
    · exact .refl s
  | writeInstall =>
    unfold execWriteInstall at run
    exact .takeRequest (.judge (.write s _ _ _)) run
  | jog =>
    unfold execJog at run
    exact .takeRequest (.judge (.write s _ _ _)) run
  | recallPreset =>
    refine .takeRequest (.judge ?_) run
    split
    · exact .write s _ _ _
    · exact .refl s
  | storePreset =>
    unfold execStorePreset at run
    exact .takeRequest (.judge (.of_quiet rfl id)) run
  | clearPreset => exact .takeRequest (.judge (.of_quiet rfl id)) run
  | abortMotion =>
    unfold execAbortMotion at run
    exact .takeRequest (.judge (.lensEvent s _)) run
  | home =>
    unfold execHome at run
    exact .takeRequest (.judge (.lensEvent s _)) run
  | axisRecover =>
    unfold execAxisRecover at run
    exact .takeRequest (.judge (.of_quiet rfl id)) run
  | lightOn => exact .takeRequest (.judge (.lightOn s)) run
  | lightOff =>
    refine .takeRequest (.judge ?_) run
    dsimp only
    split
    · exact .enterCooldown s _
    · exact .refl s
  | setLightMode => exact .takeRequest (.judge (.setMode s _)) run
  | setQuiet =>
    refine .takeRequest (.judge ?_) run
    dsimp only
    split
    · exact .refl s
    · exact .after (.selectFans _) rfl id
  | clearLightFault => exact .takeRequest (.judge (.setLau s (l := { s.lau with fault := none }) id rfl rfl)) run
  | setParamAxis | setParam => exact .takeRequest (.setParameter s _ _ _ _) run
  | getParam =>
    refine .takeRequest ?_ run
    split
    · exact .refl s
    · exact .judge (.refl s)
  | beginLoad =>
    unfold execBeginLoad at run
    exact .takeRequest (.judge (.of_quiet rfl id)) run
  | loadSegment =>
    refine .takeRequest ?_ run
    dsimp only
    split
    · exact .judge (.of_quiet rfl id)
    · exact .refl s
  | endLoad =>
    refine .takeRequest (.judge ?_) run
    dsimp only
    split
    · exact .refl s
    · split
      · exact .of_quiet rfl id
      · exact .after (.install _ _) rfl id
  | readTable =>
    unfold execReadTable at run
    exact .takeRequest (.judge (.refl s)) run
  | restart => exact .takeRequest (.judge (.restart s)) run
  | attach | detach | lightRequest => cases aside
  | _ => cases request

/-- The end of hard reset leaves the reset values of what is handed (R180). -/
theorem steady_endReset (ports : PortsFound) (bus : BusSample) : Steady s (s.endReset ports bus) :=
  .after ((Steady.setCrossing _ _ _).trans ((Steady.setCrossing _ _ _).trans ((Steady.lensEvent _ _).trans (.startScan _ _))))
    rfl id

/-- A command that is no request is steady beside the frame side and hard reset. -/
theorem steady_of_command {c : Instr} (request : portOf c = none) (aside : actsOnFrameSide c = false)
    (run : exec c s = .next t) : Steady s t := by
  unfold exec at run
  cases c with
  | responseFormed p => exact .unlessReset (.setPort s _ _) run
  | hardResetEnd ports bus =>
    obtain rfl := Host.Outcome.next.inj run
    split
    · exact steady_endReset ports bus
    · exact .refl s
  | stepTimerExpiry a =>
    refine .unlessReset ?_ run
    split
    · exact (Steady.at_ s _).trans (.axisEvent _ _ _)
    · exact .refl s
  | endStopEdge a stop active =>
    obtain rfl := Host.Outcome.next.inj run
    exact .setAxis s a _
  | refMkEdge a rising =>
    obtain rfl := Host.Outcome.next.inj run
    split
    · exact (Steady.setAxis s a _).trans (.axisEvent _ _ _)
    · exact .setAxis s a _
  | drvFlt a active =>
    obtain rfl := Host.Outcome.next.inj run
    split
    · exact (Steady.setAxis s a _).trans (.axisEvent _ _ _)
    · exact .setAxis s a _
  | holdTimerExpiry a =>
    refine .unlessReset ?_ run
    split
    · exact (Steady.at_ s _).trans (.setAxis _ _ _)
    · exact .refl s
  | computationComplete =>
    refine .unlessReset ?_ run
    split
    · exact .completeComputation s _
    · exact .refl s
  | scanStart bus => exact .unlessReset ((Steady.at_ s _).trans (.startScan _ _)) run
  | slotReadDone result bus => exact .unlessReset (.finishSlot s _ _) run
  | probeBusTimeout timedOut => exact .unlessReset (.finishSlot s _ _) run
  | criticalDwellExpiry =>
    refine .unlessReset ?_ run
    split
    · exact (Steady.at_ s _).trans (.declareTrip _ _ _)
    · exact .refl s
  | kickExpiry f =>
    refine .unlessReset ?_ run
    split
    · exact .of_quiet rfl id
    · exact .refl s
  | tachEdgeAccepted f fall low =>
    refine .unlessReset ?_ run
    dsimp only
    split
    · split
      · exact (Steady.at_ s _).trans (.recoverFan _ _ _ _)
      · exact .of_quiet rfl id
    · exact .refl s
  | graceTimerExpiry f =>
    refine .unlessReset ?_ run
    dsimp only
    split
    · split
      · exact .of_quiet rfl id
      · exact (Steady.at_ s _).trans (.stallFan _ _)
    · exact .refl s
  | edgeTimerExpiry f =>
    refine .unlessReset ?_ run
    dsimp only
    split
    · split
      · exact (Steady.at_ s _).trans (.stallFan _ _)
      all_goals exact .of_quiet rfl id
    · exact .refl s
  | lightOkRise time =>
    unfold execLightOkRise at run
    refine (Steady.setLau s (l := { s.lau with lightOk := true }) id rfl rfl).trans (.unlessReset ?_ run)
    dsimp only
    split
    · exact (Steady.at_ _ time).trans (.enterSession _ _ _)
    · exact .of_quiet rfl id
  | lightOkFall time =>
    unfold execLightOkFall at run
    refine (Steady.setLau s (l := { s.lau with lightOk := false }) id rfl rfl).trans (.unlessReset ?_ run)
    dsimp only
    split
    · exact (Steady.at_ _ time).trans (.lightFault _ _)
    · exact .of_quiet rfl id
  | lightFlt active time =>
    unfold execLightFlt at run
    refine (Steady.setLau s (l := { s.lau with lightFlt := active }) id rfl rfl).trans (.unlessReset ?_ run)
    dsimp only
    split
    · exact (Steady.at_ _ time).trans (.lightFault _ _)
    · exact .of_quiet rfl id
  | ignitionTimerExpiry =>
    refine .unlessReset ?_ run
    split
    · exact (Steady.at_ s _).trans (.lightFault _ _)
    · exact .refl s
  | cooldownMinExpiry =>
    refine .unlessReset ?_ run
    dsimp only
    split
    · rename_i e _
      exact (Steady.at_ s e).trans
        ((Steady.setLau (s.at_ e) (l := { s.lau with coolMin := .elapsed }) id rfl rfl).trans (.checkCooled _))
    · exact .refl s
    · exact .refl s
  | coolMax =>
    refine .unlessReset ?_ run
    split
    · exact (Steady.at_ s _).trans (.enterSession _ _ _)
    · exact .refl s
  | slewTimerExpiry =>
    refine .unlessReset ?_ run
    dsimp only
    split
    · exact (Steady.at_ s _).trans
        (.setLau _ (fun fresh => fresh.slewStep _) (Lau.slewStep_applied ..) (Lau.slewStep_held ..))
    · exact .refl s
  | fmark | lapseWindowExpiry | malformedRequest | hardReset => cases aside
  | _ => cases request

/-- A command beside the frame side and hard reset is steady. -/
theorem steady_of_exec {c : Instr} (aside : actsOnFrameSide c = false) (run : exec c s = .next t) : Steady s t := by
  cases request : portOf c with
  | some p => exact steady_of_request request aside run
  | none => exact steady_of_command request aside run

end

end Sys2Proof.Machine
end

