-- ==== Sys2Proof/Proofs/HandedState.lean ====
section
/-! PROOFS. What the allowance is formed from (R151 to R156), the commands of the frame side, and every step (R141, R152,
R158). -/

namespace Sys2Proof.Machine

/-! ### The zone derates (R105, R153) -/

theorem ZoneRecord.derate_eq (r : ZoneRecord) (lCrit : Nat) (th : Thresholds) :
    r.derate lCrit th =
      match r.temperature with
      | none => 16383
      | some t => if r.inUse = false then 16383 else zoneDerate lCrit r.state t th := by
  unfold ZoneRecord.derate
  cases r.inUse <;> cases r.temperature <;> rfl

/-- Between WARM and HOT the derate falls from full light to the zone's level, and beyond HOT it is that level (R153). -/
theorem zoneDerate_bounds {lCrit : Nat} {state : Thermal} {t : Int} {th : Thresholds} (ordered : th.warm < th.hot)
    (low : th.lHot ≤ 16383) (below : state ≠ .critical) :
    th.lHot ≤ zoneDerate lCrit state t th ∧ zoneDerate lCrit state t th ≤ 16383 := by
  unfold zoneDerate
  rw [if_neg below]
  split
  · exact ⟨le_rfl, low⟩
  · rename_i cooler
    split
    · have drop : 0 ≤ (t - th.warm) * (16383 - (th.lHot : Int)) := mul_nonneg (by omega) (by omega)
      have least : 0 ≤ (t - th.warm) * (16383 - (th.lHot : Int)) / (th.hot - th.warm) := Int.ediv_nonneg drop (by omega)
      have most : (t - th.warm) * (16383 - (th.lHot : Int)) / (th.hot - th.warm) ≤ 16383 - (th.lHot : Int) := by
        refine Int.ediv_le_of_le_mul (by omega) ?_
        rw [Int.mul_comm]
        exact mul_le_mul_of_nonneg_left (by omega) (by omega)
      omega
    · exact ⟨low, le_rfl⟩

theorem ZoneRecord.derate_bounds {r : ZoneRecord} {lCrit : Nat} {t : Int} {th : Thresholds}
    (temperature : r.temperature = some t) (ordered : th.warm < th.hot) (low : th.lHot ≤ 16383) (below : r.state ≠ .critical) :
    th.lHot ≤ r.derate lCrit th ∧ r.derate lCrit th ≤ 16383 := by
  rw [ZoneRecord.derate_eq, temperature]
  dsimp only
  split
  · exact ⟨low, le_rfl⟩
  · exact zoneDerate_bounds ordered low below

/-- A zone's derate, as the LAU holds the zone (R153). -/
def Lau.derate (l : Lau) (z : Zone) : Nat := (l.held.zones.get z).derate l.params.lCrit (l.held.thresholds.get z)

theorem Lau.leastDerate_eq (l : Lau) :
    l.held.leastDerate l.params.lCrit =
      min 16383 (min (l.derate .src) (min (l.derate .panel) (min (l.derate .lens)
        (min (l.derate .supply) (min (l.derate .intake) (l.derate .exhaust)))))) := by
  simp only [LauInputs.leastDerate, allZones, List.map_cons, List.map_nil, List.foldl_cons, List.foldl_nil, Lau.derate, min_assoc]

/-! ### The components and the least of them (R151 to R156) -/

/-- The ceilings and caps that apply (R152). -/
def Components.caps (c : Components) (p : LauParams) : List Nat :=
  [c.modeCeiling, c.lTh, c.lAc] ++ (if c.lapseApplies = true then [p.lLapse] else []) ++
    (if c.ignApplies = true then [p.lIgn] else [])

theorem Components.least_spec (c : Components) (p : LauParams) :
    (∀ cap ∈ c.caps p, c.least p ≤ cap) ∧ c.least p ∈ c.caps p := by
  unfold Components.caps Components.least
  cases c.lapseApplies <;> cases c.ignApplies
  all_goals
    simp only [Bool.false_eq_true, if_true, if_false, List.append_nil, List.cons_append, List.nil_append, List.mem_cons,
      List.not_mem_nil, or_false, forall_eq_or_imp, forall_eq]
    omega

theorem Lau.formComponents_modeCeiling (l : Lau) :
    l.formComponents.modeCeiling = (match l.mode with | .eco => 9830 | .normal => 13107 | .bright => 16383) := by
  unfold Lau.formComponents LightMode.ceiling
  cases l.mode <;> rfl

theorem Lau.formComponents_lTh (l : Lau) :
    l.formComponents.lTh =
        (if l.held.anyStalled = true then min (l.held.leastDerate l.params.lCrit) l.params.lStall
         else l.held.leastDerate l.params.lCrit) ∧
      l.formComponents.stallCapped =
        (l.held.anyStalled && decide (l.params.lStall < l.held.leastDerate l.params.lCrit)) := by
  simp only [Lau.formComponents, Lau.thermalCeiling]
  split
  · rename_i stalled
    exact ⟨rfl, by rw [stalled, Bool.true_and]⟩
  · rename_i turning
    exact ⟨rfl, by rw [eq_false_of_ne_true turning, Bool.false_and]⟩

/-! ### The commands of the frame side (R89 to R96, R157, R158) -/

theorem Lau.framed_fresh (l : Lau) (attached : Bool) (lapse : LapseState) (now : Nat) :
    (l.framed attached lapse now).Fresh := by
  rw [Lau.framed_eq_form]
  exact Lau.form_fresh _ _

theorem Lau.Fresh.requested {l : Lau} (h : l.Fresh) (latched : Option Nat) (now : Nat) : (l.requested latched now).Fresh := by
  cases latched with
  | none => exact h
  | some level =>
    have applied : Lau.Fresh { l with applied := some level } := h
    rw [Lau.requested, ← Lau.followTarget_eq_driven]
    exact applied.followTarget now

theorem Lau.requested_held (l : Lau) (latched : Option Nat) (now : Nat) : (l.requested latched now).held = l.held := by
  cases latched with
  | none => rfl
  | some level => exact (congrArg Lau.held (Lau.followTarget_eq_driven ..)).symm.trans (Lau.followTarget_held ..)

/-- The LAU holds what it is handed when the thermal and air blocks stay, and it takes the frame state as it stands. -/
theorem HeldFollows.reframe {s t : State} (h : HeldFollows s) (tmon : t.tmon = s.tmon) (afc : t.afc = s.afc)
    (held : t.lau.held = { s.lau.held with attached := t.fpi.attached, lapse := t.fmon.state }) : HeldFollows t := by
  obtain ⟨device, stalled, ready, excess, -, -⟩ := h
  rw [HeldFollows, held, tmon, afc]
  exact ⟨device, stalled, ready, excess, rfl, rfl⟩

section

variable (s : State)

theorem hands_attach (width height : Nat) : Hands s (s.attach width height) := by
  rw [State.attach_eq]
  have attaching : Hands s (s.attaching width height) :=
    ⟨fun _ => Lau.framed_fresh .., fun held => held.reframe rfl rfl (Lau.reframed_held ..),
      fun _ => ⟨⟨nofun, nofun⟩, ⟨fun _ => rfl, fun _ => rfl⟩, nofun⟩⟩
  exact attaching.trans (Steady.recompute _).hands

theorem hands_detach : Hands s s.detach := by
  rw [State.detach_eq]
  refine ⟨fun _ => Lau.framed_fresh .., fun held => held.reframe rfl rfl (Lau.reframed_held ..), fun _ => ?_⟩
  refine ⟨⟨fun _ => rfl, fun _ => rfl⟩, ⟨nofun, nofun⟩, fun _ => ⟨rfl, Lau.reframed_applied .., rfl, ?_⟩⟩
  unfold State.detached
  cases s.ge.inFlight <;> rfl

theorem hands_lightRequest (level : Nat) (attached : s.fpi.attached = true) :
    Hands s { s with fpi := { s.fpi with latched := some level } } :=
  ⟨id, id, fun ⟨disarmed, armed, _⟩ =>
    ⟨disarmed, armed, fun detached => absurd attached (ne_true_of_eq_false detached)⟩⟩

theorem hands_windowExpired {e : Nat} (running : s.fmon.window = some e) : Hands s (s.windowExpired e) := by
  refine ⟨fun _ => Lau.framed_fresh .., fun held => held.reframe rfl rfl (Lau.framed_held ..),
    fun ⟨disarmed, armed, _⟩ => ?_⟩
  have state : s.fmon.state = .armed := armed.mp (by rw [running]; rfl)
  have attached : s.fpi.attached ≠ false := fun detached => by simp [disarmed.mp detached] at state
  exact ⟨⟨fun detached => absurd detached attached, nofun⟩, ⟨nofun, nofun⟩, fun detached => absurd detached attached⟩

/-- The frame side at a frame mark: at rest it stays at rest, and with the picture processor attached a window runs. -/
theorem State.frameMarked_sound (time : Nat) (sound : FrameSound s) : FrameSound (s.frameMarked time) := by
  obtain ⟨disarmed, armed, rest⟩ := sound
  by_cases detached : s.fpi.attached = false
  · obtain ⟨noLatched, noApplied, noMark, unmarked⟩ := rest detached
    have state := disarmed.mp detached
    have fmon : (s.frameMarked time).fmon = s.fmon.capture _ := Fmon.marked_of_disarmed state _
    have lau : (s.frameMarked time).lau = s.lau := by
      unfold State.frameMarked
      rw [noLatched]
      exact State.lauMarked_of_not_lapsed (s := s.at_ time) (by simp [state])
    have ge : (s.frameMarked time).ge.attachMark = s.ge.attachMark ∧ (s.frameMarked time).ge.inFlight = s.ge.inFlight := by
      unfold State.frameMarked
      dsimp only
      split <;> exact ⟨rfl, rfl⟩
    rw [FrameSound, fmon, lau, ge.1, ge.2]
    exact ⟨disarmed, armed, fun _ => ⟨rfl, noApplied, noMark, unmarked⟩⟩
  · have fmon : (s.frameMarked time).fmon = (s.fmon.capture _).startWindow _ :=
      Fmon.marked_of_attached (fun state => detached (disarmed.mpr state)) _
    rw [FrameSound, fmon]
    exact ⟨⟨fun h => absurd h detached, nofun⟩, ⟨fun _ => rfl, fun _ => rfl⟩, fun h => absurd h detached⟩

/-- After the FMON's work at a frame mark the LAU holds the lapse state as it then stands (R96, R155). -/
theorem State.lauMarked_held (attached : s.lau.held.attached = s.fpi.attached) (lapse : s.lau.held.lapse = s.fmon.state)
    (now : Nat) :
    s.lauMarked.held = { s.lau.held with attached := s.fpi.attached, lapse := (s.fmon.marked now).state } := by
  by_cases lapsed : s.fmon.state = .lapsed
  · have state : (s.fmon.marked now).state = .armed := by
      rw [Fmon.marked_of_attached (by rw [lapsed]; nofun)]
      rfl
    rw [State.lauMarked, if_pos lapsed, Lau.framed_held, state]
  · have state : (s.fmon.marked now).state = s.fmon.state := by
      unfold Fmon.marked
      split
      · rfl
      · cases present : s.fmon.state with
        | armed => rfl
        | lapsed => exact absurd present lapsed
        | disarmed => contradiction
    rw [State.lauMarked_of_not_lapsed lapsed, state, ← attached, ← lapse]

theorem hands_frameMarked (time : Nat) : Hands s (s.frameMarked time) := by
  refine ⟨fun fresh => ?_, fun held => ?_, s.frameMarked_sound time⟩
  · refine Lau.Fresh.requested ?_ _ _
    unfold State.lauMarked
    split
    · exact Lau.framed_fresh ..
    · exact fresh
  · refine held.reframe rfl rfl ((Lau.requested_held ..).trans ?_)
    obtain ⟨-, -, -, -, attached, lapse⟩ := held
    exact (s.at_ time).lauMarked_held attached lapse _

end

/-! ### Every step -/

/-- A request whose effect keeps the invariants keeps them. -/
theorem Hands.takeRequest {p : Port} {kind : Byte} {s t : State} {f : State → State × Answer} (effect : Hands s (f s).1)
    (run : takeRequest p kind s f = .next t) : Hands s t :=
  takeRequest_keeps (P := Hands s) (fun u x kept => kept.trans (Steady.setSlot u p x).hands)
    (fun _ => (Steady.setCrossing s p false).hands) (.refl s) effect run

theorem Hands.judge {fields : List (Nat × Bool)} {checks : List (Bool × Status)} {refuse : State → List Byte}
    {effect : State → State × Answer} {s : State} (kept : firstFail checks = none → Hands s (effect s).1) :
    Hands s (judge fields checks refuse effect s).1 :=
  judge_keeps (.refl s) fun _ passed => kept passed

theorem Hands.unlessReset {s t : State} {f : State → State} (kept : s.inReset = false → Hands s (f s))
    (run : unlessReset s f = .next t) : Hands s t :=
  unlessReset_keeps (P := Hands s) (.refl s) kept run

section

variable {s t : State}

theorem request_hands {c : Instr} (request : (portOf c).isSome = true) (run : exec c s = .next t) : Hands s t := by
  cases acts : actsOnFrameSide c with
  | false => exact (steady_of_exec acts run).hands
  | true =>
    unfold exec at run
    cases c with
    | attach => exact .takeRequest (.judge fun _ => hands_attach s _ _) run
    | detach =>
      refine .takeRequest (.judge fun _ => ?_) run
      dsimp only
      split
      · exact hands_detach s
      · exact .refl s
    | lightRequest p level =>
      refine .takeRequest (.judge fun passed => hands_lightRequest s _ ?_) run
      exact (firstFail_eq_none_iff _).mp passed (s.fpi.attached, .notReady) (by simp)
    | malformedRequest | hardReset => cases request
    | fmark | lapseWindowExpiry => cases request
    | _ => cases acts

/-- Hard reset takes values that meet the invariants (R180). -/
theorem hands_hardReset (s : State) : Hands s s.hardReset :=
  ⟨fun _ => ⟨Lau.formComponents_reset.symm, Lau.least_reset.symm⟩, fun _ => ⟨rfl, rfl, rfl, rfl, rfl, rfl⟩,
    fun _ => ⟨⟨fun _ => rfl, fun _ => rfl⟩, ⟨nofun, nofun⟩, fun _ => ⟨rfl, rfl, rfl, rfl⟩⟩⟩

theorem Hands.of_run {o : Outcome} {s t u : State} (kept : Hands s u) (runs : o = .next u) (run : o = .next t) : Hands s t := by
  obtain rfl := Host.Outcome.next.inj (runs.symm.trans run)
  exact kept

theorem fmark_hands {time : Nat} (run : exec (.fmark time) s = .next t) : Hands s t := by
  cases reset : s.inReset with
  | true => exact Hands.of_run (.refl s) (exec_inReset_of_no_level (c := .fmark time) reset rfl nofun nofun) run
  | false => exact (hands_frameMarked s time).of_run (execFmark_awake reset time) run

theorem lapseWindowExpiry_hands (run : exec .lapseWindowExpiry s = .next t) : Hands s t := by
  cases reset : s.inReset with
  | true => exact Hands.of_run (.refl s) (exec_inReset_of_no_level (c := .lapseWindowExpiry) reset rfl nofun nofun) run
  | false =>
    cases window : s.fmon.window with
    | none => exact Hands.of_run (.refl s) (execLapseWindowExpiry_none reset window) run
    | some e => exact (hands_windowExpired s window).of_run (execLapseWindowExpiry_some reset window) run

theorem exec_hands {c : Instr} (run : exec c s = .next t) : Hands s t := by
  cases acts : actsOnFrameSide c with
  | false => exact (steady_of_exec acts run).hands
  | true =>
    cases c with
    | attach | detach | lightRequest => exact request_hands rfl run
    | fmark time => exact fmark_hands run
    | lapseWindowExpiry => exact lapseWindowExpiry_hands run
    | malformedRequest p bytes =>
      obtain same | ⟨kind, cause, taken⟩ | ⟨i, request, taken⟩ := execMalformedRequest_cases p bytes s
      · obtain rfl := Host.Outcome.next.inj (same.symm.trans run)
        exact .refl _
      · exact .takeRequest (.refl s) (taken.symm.trans run)
      · exact request_hands request (taken.symm.trans run)
    | hardReset low =>
      obtain rfl := Host.Outcome.next.inj run
      have resets : Hands s (if s.resets low then s.hardReset else s) := by
        split
        · exact hands_hardReset s
        · exact .refl s
      split
      · exact resets.trans (Steady.hands (.of_quiet rfl id))
      · exact resets
    | _ => cases acts

theorem step_hands (run : step s = .next t) : Hands s t := by
  unfold step at run
  split at run
  · obtain rfl := Host.Outcome.next.inj run
    exact (Steady.hands (.of_quiet rfl id))
  · rename_i rest _
    exact Hands.trans (t := { s with pending := rest }) (Steady.hands (.of_quiet rfl id)) (exec_hands run)

end

/-- Settles O57: the allowance is the least of the caps that apply, and every step hands the invariants on. -/
theorem handedStateKept : Obligations.HandedStateKept := by
  refine ⟨fun l => ?_, fun s => ⟨fun fresh t run => (step_hands run).fresh fresh,
    fun held t run => (step_hands run).held held, fun sound t run => (step_hands run).frame sound⟩⟩
  intro derate least c
  have zones : derate = l.derate := funext fun z => (ZoneRecord.derate_eq ..).symm
  have lowest : least = l.held.leastDerate l.params.lCrit := by rw [Lau.leastDerate_eq, ← zones]
  rw [zones, lowest]
  refine ⟨l.formComponents_modeCeiling, l.formComponents_lTh.1, l.formComponents_lTh.2, rfl, rfl, rfl,
    Components.least_spec _ _, fun z t temperature ordered low below => ?_⟩
  exact ZoneRecord.derate_bounds temperature ordered low below

end Sys2Proof.Machine
end

