-- ==== Sys2Proof/Proofs/Layouts.lean ====
section
/-! PROOFS. Where a field stands in a payload made of fields of known widths (R195). -/

namespace Sys2Proof.Machine

/-! ### A field at an offset -/

section

variable {payload field a b : List Byte} {o k : Nat}

theorem hasField_iff : HasField payload o field ↔ field <+: payload.drop o := by
  rw [List.prefix_iff_eq_take]
  exact eq_comm

/-- A field of a field stands at the sum of their offsets. -/
theorem hasField_within {n : Nat} (outer : HasField payload o a) (inner : HasField a k field) (sum : o + k = n := by omega) :
    HasField payload n field := by
  subst sum
  rw [hasField_iff] at *
  rw [← List.drop_drop]
  exact inner.trans (outer.drop k)

theorem hasField_append_left (h : HasField a o field) : HasField (a ++ b) o field := by
  rw [hasField_iff] at *
  rw [List.drop_append]
  exact h.trans (List.prefix_append ..)

theorem hasField_append_right (h : HasField b k field) : HasField (a ++ b) (a.length + k) field := by
  rw [hasField_iff] at *
  rwa [List.drop_append, List.drop_eq_nil_of_le (by omega), List.nil_append, Nat.add_sub_cancel_left]

theorem hasField_self : HasField payload 0 payload := List.take_length

/-- A field made of two holds the first at its own offset and the second behind it. -/
theorem hasField_both (h : HasField payload o (a ++ b)) : HasField payload o a ∧ HasField payload (o + a.length) b :=
  ⟨hasField_within h (hasField_append_left hasField_self), hasField_within h (hasField_append_right hasField_self) rfl⟩

end

/-! ### A payload made of fields -/

/-- In fields set one behind another each stands at the sum of the widths before it. -/
theorem hasField_of_widths {fields : List (List Byte)} {widths : List Nat} (wide : fields.map List.length = widths) (n : Nat)
    {field : List Byte} (mem : fields[n]? = some field) : HasField fields.flatten (widths.take n).sum field := by
  induction fields generalizing widths n with
  | nil => cases mem
  | cons first rest ih =>
    subst wide
    cases n with
    | zero =>
      obtain rfl := Option.some.inj mem
      exact hasField_append_left hasField_self
    | succ n => exact hasField_append_right (ih rfl n mem)

theorem length_flatten_of_widths {fields : List (List Byte)} {widths : List Nat} (wide : fields.map List.length = widths) :
    fields.flatten.length = widths.sum := by
  rw [List.length_flatten, wide]

theorem hasField_at {fields : List (List Byte)} {widths : List Nat} (wide : fields.map List.length = widths) (n : Nat) {o : Nat}
    {field : List Byte} (offset : (widths.take n).sum = o) (mem : fields[n]? = some field) : HasField fields.flatten o field :=
  offset ▸ hasField_of_widths wide n mem

theorem map_length_of_width {fields : List (List Byte)} {w : Nat} (wide : ∀ field ∈ fields, field.length = w) :
    fields.map List.length = List.replicate fields.length w :=
  List.eq_replicate_iff.mpr ⟨List.length_map .., List.forall_mem_map.mpr wide⟩

/-- In fields of one width each stands at that width's multiple. -/
theorem hasField_of_width {fields : List (List Byte)} {w : Nat} (wide : ∀ field ∈ fields, field.length = w) {n : Nat}
    {field : List Byte} (mem : fields[n]? = some field) : HasField fields.flatten (w * n) field := by
  have before : n < fields.length := (List.getElem?_eq_some_iff.mp mem).1
  refine hasField_at (map_length_of_width wide) n ?_ mem
  rw [List.take_replicate, List.sum_replicate, Nat.min_eq_left before.le, smul_eq_mul, Nat.mul_comm]

theorem length_flatten_of_width {fields : List (List Byte)} {w : Nat} (wide : ∀ field ∈ fields, field.length = w) :
    fields.flatten.length = w * fields.length := by
  rw [length_flatten_of_widths (map_length_of_width wide), List.sum_replicate, smul_eq_mul, Nat.mul_comm]

/-! ### The widths of encoded quantities (R195) -/

@[simp] theorem length_u8 (n : Nat) : (u8 n).length = 1 := rfl
@[simp] theorem length_s8 (x : Int) : (s8 x).length = 1 := rfl
@[simp] theorem length_le16 (w : Word16) : (le16 w).length = 2 := rfl
@[simp] theorem length_le32 (w : Word32) : (le32 w).length = 4 := rfl
@[simp] theorem length_u16 (n : Nat) : (u16 n).length = 2 := rfl
@[simp] theorem length_u32 (n : Nat) : (u32 n).length = 4 := rfl
@[simp] theorem length_s16 (x : Int) : (s16 x).length = 2 := rfl
@[simp] theorem length_s32 (x : Int) : (s32 x).length = 4 := rfl
@[simp] theorem length_flag (b : Bool) : (flag b).length = 1 := rfl
@[simp] theorem length_opt8 (x : Option Nat) : (opt8 x).length = 1 := by cases x <;> rfl
@[simp] theorem length_optLevel (x : Option Nat) : (optLevel x).length = 2 := by cases x <;> rfl
@[simp] theorem length_optTemp (x : Option Int) : (optTemp x).length = 2 := by cases x <;> rfl
@[simp] theorem length_optTime (x : Option Nat) : (optTime x).length = 4 := by cases x <;> rfl

/-! ### Absent quantities (R195) -/

theorem optTime_remainingMs (now : Nat) (timer : Option Nat) : optTime (remainingMs now timer) = msLeft now timer := by
  cases timer <;> rfl

theorem optLevel_eq (x : Option Nat) : optLevel x = levelOr x := by cases x <;> rfl

theorem optTemp_eq (x : Option Int) : optTemp x = tempOr x := by cases x <;> rfl

/-! ### Padding (R199) -/

theorem length_padTo {n : Nat} {bytes : List Byte} (short : bytes.length ≤ n) : (padTo n bytes).length = n := by
  rw [padTo, List.length_append, List.length_replicate]
  omega

/-- Behind its bytes a padded list holds zeros. -/
theorem hasField_padTo {n o w : Nat} {bytes : List Byte} (behind : bytes.length ≤ o) (inside : o + w ≤ n) :
    HasField (padTo n bytes) o (List.replicate w 0) := by
  obtain ⟨k, rfl⟩ := Nat.exists_eq_add_of_le behind
  refine hasField_append_right (hasField_iff.mpr ?_)
  rw [List.drop_replicate, List.prefix_replicate_iff]
  exact ⟨by rw [List.length_replicate]; omega, by rw [List.length_replicate]⟩

end Sys2Proof.Machine
end

