-- ==== Sys2Proof/Proofs/PlainReads.lean ====
section
/-! PROOFS. The reads answer one copy (R92, R117, R162, R187, R193), and the layouts of READ_INSTALL, READ_AXIS, READ_THERMAL
and READ_LIGHT (R198 to R201): each reply is its fields one behind another, each of its width. -/

namespace Sys2Proof.Machine

/-! ### READ_INSTALL (R198) -/

/-- The reservation of a port, as READ_INSTALL answers it. -/
def reservationBytes (r : Option Word16) : List Byte :=
  match r with
  | some g => flag true ++ le16 g
  | none => flag false ++ [0xFF, 0xFF]

theorem length_reservationBytes (r : Option Word16) : (reservationBytes r).length = 3 := by cases r <;> rfl

/-- The fields of READ_INSTALL behind the event summary. -/
def State.installFields (s : State) (p : Port) : List (List Byte) :=
  [u8 (orientationCode s.irm.orientation), s8 s.irm.kv ++ s8 s.irm.kh, s32 s.irm.targetV, s32 s.irm.targetH,
    le16 s.irm.generation, u8 (trustCode s.lmc.v.trust) ++ u8 (trustCode s.lmc.h.trust),
    u8 s.lmc.v.queue.length ++ u8 s.lmc.h.queue.length, reservationBytes (s.irm.reservation p)]

theorem installLayout (s : State) (p : Port) (summary : Byte) : InstallLayout s p (summary :: s.installReply p) := by
  have reply : summary :: s.installReply p = ([summary] :: s.installFields p).flatten := by
    cases r : s.irm.reservation p <;> simp [State.installReply, State.installFields, reservationBytes, r]
  have wide : ([summary] :: s.installFields p).map List.length = [1, 1, 2, 4, 4, 2, 2, 2, 3] := by
    simp [State.installFields, length_reservationBytes]
  rw [InstallLayout, reply]
  have field := @hasField_at _ _ wide
  refine ⟨length_flatten_of_widths wide, field 1 rfl rfl, field 2 rfl rfl, field 3 rfl rfl, field 4 rfl rfl, field 5 rfl rfl,
    field 6 rfl rfl, field 7 rfl rfl, ?_⟩
  have reservation := field 8 (o := 18) rfl rfl
  cases r : s.irm.reservation p <;> exact r ▸ reservation

/-! ### READ_LIGHT (R201) -/

/-- The fault items of READ_LIGHT. -/
def faultBytes (x : Option LightFault) : List Byte :=
  flag x.isSome ++ opt8 (x.map fun y => faultReasonCode y.reason) ++ u16 ((x.map LightFault.timeMs).getD 0)

theorem length_faultBytes (x : Option LightFault) : (faultBytes x).length = 4 := by simp [faultBytes]

theorem CoolMin.optTime_remaining (now : Nat) (c : CoolMin) :
    optTime (c.remaining now) =
      match c with
      | .stopped => msLeft now none
      | .running e => msLeft now (some e)
      | .elapsed => u32 0 := by
  cases c <;> rfl

/-- The fields of READ_LIGHT behind the event summary. -/
def State.lightFields (s : State) : List (List Byte) :=
  let l := s.lau
  [u8 (sessionCode l.session), msLeft s.now l.ignition, optTime (l.coolMin.remaining s.now),
    msLeft s.now l.coolMax, faultBytes l.fault, u8 (lightModeCode l.mode) ++ flag s.afc.quiet,
    u16 l.components.modeCeiling, u16 l.components.lTh, flag l.components.stallCapped, u16 l.components.lAc,
    u8 l.held.excess, u16 l.params.lLapse, flag l.components.lapseApplies, u16 l.params.lIgn, flag l.components.ignApplies,
    u16 l.allowance, levelOr s.fpi.latched, levelOr l.applied, u16 l.request, levelOr l.target, u16 l.drive,
    flag l.slew.isSome, flag s.fpi.attached, u8 (lapseCode s.fmon.state), u16 s.fmon.period, [l.lines]]

theorem lightLayout (s : State) (summary : Byte) : LightLayout s (summary :: s.lightReply) := by
  have reply : summary :: s.lightReply = ([summary] :: s.lightFields).flatten := by
    unfold State.lightReply State.lightFields faultBytes
    simp only [optTime_remainingMs, optLevel_eq, List.flatten_cons, List.flatten_nil, List.append_assoc, List.cons_append,
      List.nil_append, List.append_nil]
  have wide : ([summary] :: s.lightFields).map List.length =
      [1, 1, 4, 4, 4, 4, 2, 2, 2, 1, 2, 1, 2, 1, 2, 1, 2, 2, 2, 2, 2, 2, 1, 1, 1, 2, 1] := by
    simp [State.lightFields, length_faultBytes, ← optTime_remainingMs, ← optLevel_eq]
  rw [LightLayout, reply]
  have field := @hasField_at _ _ wide
  have fault := field 5 (o := 14) rfl rfl
  refine ⟨length_flatten_of_widths wide, field 1 rfl rfl, field 2 rfl rfl, ?_, field 4 rfl rfl, fun none_ => ?_,
    fun x some_ => ?_, field 6 rfl rfl, field 7 rfl rfl, field 8 rfl rfl, field 9 rfl rfl, field 10 rfl rfl, field 11 rfl rfl,
    field 12 rfl rfl, field 13 rfl rfl, field 14 rfl rfl, field 15 rfl rfl, field 16 rfl rfl, field 17 rfl rfl,
    field 18 rfl rfl, field 19 rfl rfl, field 20 rfl rfl, field 21 rfl rfl, field 22 rfl rfl, field 23 rfl rfl,
    field 24 rfl rfl, field 25 rfl rfl, field 26 rfl rfl⟩
  · have minimum := field 3 (o := 6) rfl rfl
    rw [CoolMin.optTime_remaining] at minimum
    exact minimum
  · rw [none_] at fault
    exact fault
  · rw [some_] at fault
    exact hasField_both fault

/-! ### READ_THERMAL (R200) -/

theorem length_tripBytes (x : Option TripRecord) : (tripBytes x).length = 5 := by cases x <;> simp [tripBytes]

/-- The fields of a zone's record. -/
def ZoneRecord.fields (z : ZoneRecord) : List (List Byte) :=
  [u8 (zoneStatusCode z.status), tempOr z.temperature, u8 (thermalCode z.state)]

theorem ZoneRecord.bytes_eq (z : ZoneRecord) : z.bytes = z.fields.flatten := by
  simp [ZoneRecord.bytes, ZoneRecord.fields, optTemp_eq]

theorem ZoneRecord.fields_wide (z : ZoneRecord) : z.fields.map List.length = [1, 2, 1] := by
  simp [ZoneRecord.fields, ← optTemp_eq]

/-- The fields of a slot's record, with its enabled item. -/
def SlotRecord.fields (enabled : Bool) (x : SlotRecord) : List (List Byte) :=
  [flag enabled ++ u8 (slotStatusCode x.status), tempOr x.value, u8 x.failures ++ u8 (causeCode x.lastCause)]

theorem SlotRecord.bytes_eq (enabled : Bool) (x : SlotRecord) : x.bytes enabled = (x.fields enabled).flatten := by
  simp [SlotRecord.bytes, SlotRecord.fields, optTemp_eq]

theorem SlotRecord.fields_wide (enabled : Bool) (x : SlotRecord) : (x.fields enabled).map List.length = [2, 2, 2] := by
  simp [SlotRecord.fields, ← optTemp_eq]

/-- The fields of a fan's record. -/
def FanRecord.fields (now : Nat) (x : FanRecord) : List (List Byte) :=
  [u8 x.demand ++ u8 x.selected ++ u8 x.output, msLeft now x.kick, u8 (tachCode x.tach), u16 x.period, u32 x.rpm]

theorem FanRecord.bytes_eq (now : Nat) (x : FanRecord) : x.bytes now = (x.fields now).flatten := by
  simp [FanRecord.bytes, FanRecord.fields, optTime_remainingMs]

theorem FanRecord.fields_wide (now : Nat) (x : FanRecord) : (x.fields now).map List.length = [3, 4, 1, 2, 4] := by
  simp [FanRecord.fields, ← optTime_remainingMs]

section

variable (s : State)

/-- The records of the zones, in code order. -/
def State.zoneBytes : List (List Byte) := allZones.map fun z => (s.tmon.zones.get z).bytes

/-- The records of the slots, in their order. -/
def State.slotBytes : List (List Byte) :=
  (List.range 8).map fun n => (s.tmon.slots.getD n .reset).bytes (slotAt s.tmon.latched n).enabled

/-- The records of the fans, in code order. -/
def State.fanBytes : List (List Byte) := allFans.map fun f => (s.afc.fans.get f).bytes s.now

theorem State.zoneBytes_wide : ∀ x ∈ s.zoneBytes, x.length = 4 :=
  List.forall_mem_map.mpr fun _ _ => by rw [ZoneRecord.bytes_eq, length_flatten_of_widths (ZoneRecord.fields_wide _)]; rfl

theorem State.slotBytes_wide : ∀ x ∈ s.slotBytes, x.length = 6 :=
  List.forall_mem_map.mpr fun _ _ => by rw [SlotRecord.bytes_eq, length_flatten_of_widths (SlotRecord.fields_wide ..)]; rfl

theorem State.fanBytes_wide : ∀ x ∈ s.fanBytes, x.length = 14 :=
  List.forall_mem_map.mpr fun _ _ => by rw [FanRecord.bytes_eq, length_flatten_of_widths (FanRecord.fields_wide ..)]; rfl

/-- The fields of READ_THERMAL behind the event summary. -/
def State.thermalFields : List (List Byte) :=
  [u8 (thermalCode s.tmon.device), tripBytes s.tmon.trip, msLeft s.now s.tmon.dwell, flag s.tmon.ready,
    le16 s.tmon.scanNumber, u8 (busCode s.tmon.bus), [stalledByte s.tmon.stalled], s.zoneBytes.flatten, s.slotBytes.flatten,
    flag s.afc.quiet ++ u8 s.afc.excess ++ u8 (orientationCode s.afc.inUse), s.fanBytes.flatten]

theorem State.zoneField (z : Zone) : HasField s.zoneBytes.flatten (4 * zoneCode z) (s.tmon.zones.get z).fields.flatten := by
  rw [← ZoneRecord.bytes_eq]
  exact hasField_of_width s.zoneBytes_wide (by cases z <;> rfl)

theorem State.slotField {n : Nat} (mem : n ∈ List.range 8) :
    HasField s.slotBytes.flatten (6 * n)
      ((s.tmon.slots.getD n .reset).fields (slotAt s.tmon.latched n).enabled).flatten := by
  rw [← SlotRecord.bytes_eq]
  refine hasField_of_width s.slotBytes_wide ?_
  rw [State.slotBytes, List.getElem?_map, List.getElem?_range (List.mem_range.mp mem)]
  rfl

theorem State.fanField (f : Fan) :
    HasField s.fanBytes.flatten (14 * fanCode f) ((s.afc.fans.get f).fields s.now).flatten := by
  rw [← FanRecord.bytes_eq]
  exact hasField_of_width s.fanBytes_wide (by cases f <;> rfl)

theorem thermalLayout (summary : Byte) : ThermalLayout s (summary :: s.thermalReply) := by
  have reply : summary :: s.thermalReply = ([summary] :: s.thermalFields).flatten := by
    unfold State.thermalReply State.thermalFields State.zoneBytes State.slotBytes State.fanBytes
    simp only [optTime_remainingMs, List.flatten_cons, List.flatten_nil, List.append_assoc, List.cons_append, List.nil_append,
      List.append_nil]
  have wide : ([summary] :: s.thermalFields).map List.length = [1, 1, 5, 4, 1, 2, 1, 1, 24, 48, 3, 42] := by
    simp only [State.thermalFields, List.map_cons, List.map_nil, length_flatten_of_width s.zoneBytes_wide,
      length_flatten_of_width s.slotBytes_wide, length_flatten_of_width s.fanBytes_wide, length_tripBytes,
      ← optTime_remainingMs, length_optTime]
    rfl
  rw [ThermalLayout, reply]
  have field := @hasField_at _ _ wide
  have trip := field 2 (o := 2) rfl rfl
  refine ⟨length_flatten_of_widths wide, field 1 rfl rfl, fun none_ => ?_, fun r some_ => ?_, field 3 rfl rfl, field 4 rfl rfl,
    field 5 rfl rfl, field 6 rfl rfl, field 7 rfl rfl, fun z => ?_, fun n mem => ?_, field 10 rfl rfl, fun f => ?_⟩
  · rw [none_] at trip
    exact trip
  · rw [some_, tripBytes, optTemp_eq] at trip
    exact hasField_both trip
  · have record := hasField_within (field 8 (o := 16) rfl rfl) (s.zoneField z) rfl
    have item := @hasField_at _ _ (s.tmon.zones.get z).fields_wide
    exact ⟨hasField_within record (item 0 (o := 0) rfl rfl), hasField_within record (item 1 (o := 1) rfl rfl),
      hasField_within record (item 2 (o := 3) rfl rfl)⟩
  · have record := hasField_within (field 9 (o := 40) rfl rfl) (s.slotField mem) rfl
    have item := @hasField_at _ _ ((s.tmon.slots.getD n .reset).fields_wide (slotAt s.tmon.latched n).enabled)
    exact ⟨hasField_within record (item 0 (o := 0) rfl rfl), hasField_within record (item 1 (o := 2) rfl rfl),
      hasField_within record (item 2 (o := 4) rfl rfl)⟩
  · have record := hasField_within (field 11 (o := 91) rfl rfl) (s.fanField f) rfl
    have item := @hasField_at _ _ ((s.afc.fans.get f).fields_wide s.now)
    exact ⟨hasField_within record (item 0 (o := 0) rfl rfl), hasField_within record (item 1 (o := 3) rfl rfl),
      hasField_within record (item 2 (o := 7) rfl rfl), hasField_within record (item 3 (o := 8) rfl rfl),
      hasField_within record (item 4 (o := 10) rfl rfl)⟩

end

/-! ### READ_AXIS (R199) -/

theorem Entry.length_bytes (e : Entry) : e.bytes.length = 8 := rfl

/-- The fields of a leg block (R199). -/
def Leg.fields (l : Leg) : List (List Byte) :=
  [if l.number < 256 then u8 l.number else [Config.legNumberByte l.number], u8 (legKindCode l.kind) ++ u8 (dirCode l.dir),
    s32 l.n, s32 l.issued, u16 l.pRun]

theorem Leg.bytes_eq (l : Leg) : l.bytes = l.fields.flatten := by simp [Leg.bytes, Leg.fields]

theorem Leg.fields_wide (l : Leg) : l.fields.map List.length = [1, 2, 4, 4, 2] := by
  unfold Leg.fields
  split <;> rfl

theorem Leg.length_bytes (l : Leg) : l.bytes.length = 13 := by
  rw [Leg.bytes_eq, length_flatten_of_widths l.fields_wide]
  rfl

section

variable {m : Motion}

theorem Motion.length_blocks : m.blocks.length = 22 := by
  cases m with
  | running l => rw [Motion.blocks, List.length_append, l.length_bytes, List.length_replicate]
  | _ => rfl

theorem Motion.legBlock {l : Leg} (running : m = .running l) : HasField m.blocks 0 l.fields.flatten := by
  rw [running, ← Leg.bytes_eq]
  exact hasField_append_left hasField_self

theorem Motion.noLegBlock (other : m.mode ≠ .running) : HasField m.blocks 0 (List.replicate 13 0) := by
  cases m with
  | running => exact absurd rfl other
  | _ => rfl

theorem Motion.stopBlock {st : Stop} (stopping : m = .stopping st) : HasField m.blocks 13 st.bytes := by
  rw [stopping]
  rfl

theorem Motion.noStopBlock (other : m.mode ≠ .stopping) : HasField m.blocks 13 (List.replicate 9 0) := by
  cases m with
  | running l => exact l.length_bytes ▸ hasField_append_right hasField_self
  | stopping => exact absurd rfl other
  | _ => rfl

end

/-- The queue entries of an axis, one behind another. -/
def AxisState.queueBytes (x : AxisState) : List Byte := (x.queue.map Entry.bytes).flatten

/-- The fields of READ_AXIS behind the event summary. -/
def State.axisFields (s : State) (a : Axis) : List (List Byte) :=
  let x := s.axis a
  let level := currentLevel a s.irm.orientation x
  [u8 (axisCode a) ++ u8 (modeCode x.motion.mode) ++ u8 (trustCode x.trust), s32 x.position, [x.index.setWidth 8],
    u8 (phaseCode x.phase) ++ u8 level, s16 (coilA x.index).value, u8 ((coilA x.index).level level),
    s16 (coilB x.index).value, u8 ((coilB x.index).level level), [x.presentByte], u8 x.queue.length,
    padTo 32 x.queueBytes, x.motion.blocks, [x.lines]]

section

variable {x : AxisState} {n : Nat}

theorem AxisState.length_queueBytes : x.queueBytes.length = 8 * x.queue.length := by
  rw [AxisState.queueBytes, length_flatten_of_width (w := 8) (List.forall_mem_map.mpr fun e _ => e.length_bytes),
    List.length_map]

theorem AxisState.queueField {e : Entry} (entry : x.queue[n]? = some e) :
    HasField (padTo 32 x.queueBytes) (8 * n) e.bytes := by
  refine hasField_append_left (hasField_of_width (List.forall_mem_map.mpr fun e _ => e.length_bytes) ?_)
  rw [List.getElem?_map, entry]
  rfl

theorem AxisState.noQueueField (inside : n < 4) (none_ : x.queue[n]? = none) :
    HasField (padTo 32 x.queueBytes) (8 * n) (List.replicate 8 0) := by
  have short : x.queue.length ≤ n := List.getElem?_eq_none_iff.mp none_
  exact hasField_padTo (by rw [AxisState.length_queueBytes]; omega) (by omega)

end

theorem axisLayout (s : State) (summary : Byte) (a : Axis) : AxisLayout s a (summary :: s.axisReply a) := by
  have reply : summary :: s.axisReply a = ([summary] :: s.axisFields a).flatten := by
    unfold State.axisReply State.axisFields AxisState.queueBytes
    simp only [List.flatten_cons, List.flatten_nil, List.append_assoc, List.cons_append, List.nil_append, List.append_nil]
  have wide : ([summary] :: s.axisFields a).map List.length =
      [1, 3, 4, 1, 2, 2, 1, 2, 1, 1, 1, (padTo 32 (s.axis a).queueBytes).length, 22, 1] := by
    simp only [State.axisFields, List.map_cons, List.map_nil, Motion.length_blocks]
    rfl
  rw [AxisLayout, reply]
  have field := @hasField_at _ _ wide
  refine ⟨field 1 rfl rfl, field 2 rfl rfl, field 3 rfl rfl, field 4 rfl rfl, field 5 rfl rfl, field 6 rfl rfl, field 7 rfl rfl,
    field 8 rfl rfl, field 9 rfl rfl, field 10 rfl rfl, fun short => ?_⟩
  have padded : (padTo 32 (s.axis a).queueBytes).length = 32 :=
    length_padTo (by rw [AxisState.length_queueBytes]; omega)
  rw [padded] at wide
  have queue : HasField ([summary] :: s.axisFields a).flatten 19 (padTo 32 (s.axis a).queueBytes) :=
    hasField_at wide 11 rfl rfl
  have blocks : HasField ([summary] :: s.axisFields a).flatten 51 (s.axis a).motion.blocks := hasField_at wide 12 rfl rfl
  refine ⟨length_flatten_of_widths wide, fun n mem e entry => ?_, fun n mem none_ => ?_, fun l running => ?_, fun other => ?_,
    fun st stopping => ?_, fun other => ?_, hasField_at wide 13 rfl rfl⟩
  · have bytes := hasField_within queue (AxisState.queueField entry) rfl
    exact ⟨hasField_within bytes (k := 0) rfl, hasField_within bytes (k := 2) rfl, hasField_within bytes (k := 6) rfl⟩
  · exact hasField_within queue (AxisState.noQueueField (List.mem_range.mp mem) none_)
  · have block := hasField_within blocks (Motion.legBlock running) rfl
    have item := @hasField_at _ _ l.fields_wide
    refine ⟨fun small => ?_, hasField_within block (item 1 (o := 1) rfl rfl), hasField_within block (item 2 (o := 3) rfl rfl),
      hasField_within block (item 3 (o := 7) rfl rfl), hasField_within block (item 4 (o := 11) rfl rfl)⟩
    exact hasField_within block (item 0 (o := 0) rfl (congrArg some (if_pos small)))
  · exact hasField_within blocks (Motion.noLegBlock other)
  · have block := hasField_within blocks (Motion.stopBlock stopping) rfl
    exact ⟨hasField_within block (k := 0) rfl, hasField_within block (k := 4) rfl, hasField_within block (k := 8) rfl⟩
  · exact hasField_within blocks (Motion.noStopBlock other)

/-! ### The reads (R92, R117, R162, R187, R193) -/

section

variable {s : State} (h : Listens s)
include h

theorem execReadThermal_eq (p : Port) : execReadThermal p s = .next (answered s p 0x05 .ok s.thermalReply) := by
  rw [execReadThermal, takeRequest_listens h]

theorem execReadLight_eq (p : Port) : execReadLight p s = .next (answered s p 0x06 .ok s.lightReply) := by
  rw [execReadLight, takeRequest_listens h]

/-- READ_WARP: the changed flag is 0 exactly when the port read the live record last (R92). -/
theorem execReadWarp_eq (p : Port) :
    execReadWarp p s =
      .next (answered (s.setPort p { s.port p with lastWarp := some s.ge.live.seq }) p 0x07 .ok
        (s.ge.live.bytes ++ [if (s.port p).lastWarp = some s.ge.live.seq then 0 else 1] ++ le32 s.ge.staged.seq ++
          [bits [s.ge.inFlight.isSome, s.ge.pendingMark]] ++ flag s.fpi.attached ++ u16 s.fpi.width ++
          u16 s.fpi.height)) := by
  have changed : flag (decide ((s.port p).lastWarp ≠ some s.ge.live.seq)) =
      [if (s.port p).lastWarp = some s.ge.live.seq then 0 else 1] := by
    by_cases same : (s.port p).lastWarp = some s.ge.live.seq <;> simp [flag, same]
  rw [execReadWarp, takeRequest_listens h]
  dsimp only
  rw [State.warpReply, changed]

variable {table : Byte} {offset : Word16} {x : Table} (named : readTableCode table = some x)
include named

theorem execReadTable_inside (inside : offset.toNat < x.length) :
    execReadTable .control table offset s =
      .next (answered s .control 0x4B .ok
        (u8 (tableCode x) ++ le16 (s.tableCount x) ++ u16 x.length ++ le16 offset ++
          ((s.tableImage x).drop offset.toNat).take 56)) := by
  unfold execReadTable
  rw [named]
  exact request_passed h (hc := by simp [controlOnly, inside])

theorem execReadTable_beyond (beyond : x.length ≤ offset.toNat) :
    execReadTable .control table offset s = .next (answered s .control 0x4B .outOfRange (s.tableReply x offset)) := by
  unfold execReadTable
  rw [named]
  exact request_refused h (hc := by simp [controlOnly, beyond])

omit named in
theorem execGetParam_ok {param index : Byte} {n : ParamName} (named : paramOf param index = .ok n) :
    execGetParam .control param index s = .next (answered s .control 0x41 .ok (s.paramReply n)) := by
  rw [execGetParam, takeRequest_listens h, named]
  rfl

end

theorem WarpRecord.length_bytes (r : WarpRecord) : r.bytes.length = 41 := by
  unfold WarpRecord.bytes Corner.bytes
  simp

/-- Settles O37: each reply is its fields one behind another. -/
theorem plainReads : Obligations.PlainReads := fun p s h =>
  ⟨execReadThermal_eq h p, execReadLight_eq h p, execReadWarp_eq h p, s.ge.live.length_bytes,
    fun summary => ⟨installLayout s p summary, axisLayout s summary, thermalLayout s summary, lightLayout s summary⟩,
    fun _ _ _ named => ⟨execReadTable_inside h named, fun beyond => ⟨_, execReadTable_beyond h named beyond⟩⟩,
    fun _ _ => ⟨fun _ named => execGetParam_ok h named, fun _ fault => getParam_fault fault h .control⟩⟩

end Sys2Proof.Machine
end

