-- ==== Sys2Proof/Proofs/LightGuard.lean ====
section
/-! PROOFS. The light rules and the trip rules (R112, R114, R142, R152): what each block's operations keep of them. -/

namespace Sys2Proof.Machine

/-! ### The LAU (R142, R152) -/

/-- The timers of the session, but for the slew timer, run each only in the state that starts it. -/
def Lau.StateTimers (l : Lau) : Prop :=
  (l.ignition.isSome → l.session = .ignition) ∧ (l.coolMin ≠ .stopped → l.session = .cooldown) ∧
    (l.coolMax.isSome → l.session = .cooldown)

/-- The light rules: the drive under the allowance under the mode's ceiling and 0 in the dark, each timer in its own session
state. -/
structure Lau.Safe (l : Lau) : Prop where
  drive : l.drive ≤ l.allowance
  allowance : l.allowance ≤ l.mode.ceiling
  dark : l.session.lightEn = false → l.drive = 0
  timers : l.StateTimers
  slew : l.slew.isSome → l.session.lightEn = true

section

variable {l : Lau} (now : Nat)

theorem Lau.target_of_dark (dark : l.session.lightEn = false) : l.target = none := by simp [Lau.target, dark]

theorem Lau.target_of_lit (lit : l.session.lightEn = true) : l.target = some (min l.request l.allowance) := by
  simp [Lau.target, lit]

/-- A target formed under the mode's ceiling brings the drive and the slew timer under the light rules, wherever they stood. -/
theorem Lau.followTarget_safe (allowance : l.allowance ≤ l.mode.ceiling) (timers : l.StateTimers) :
    (l.followTarget now).Safe := by
  unfold Lau.followTarget
  cases lit : l.session.lightEn with
  | false =>
    rw [Lau.target_of_dark lit]
    exact ⟨Nat.zero_le _, allowance, fun _ => rfl, timers, nofun⟩
  | true =>
    rw [Lau.target_of_lit lit]
    have dark : l.session.lightEn = false → l.drive = 0 := fun dark => absurd (lit.symm.trans dark) (by decide)
    dsimp only
    split
    · exact ⟨Nat.min_le_right _ _, allowance, fun dark => absurd (lit.symm.trans dark) (by decide), timers, nofun⟩
    · exact ⟨by dsimp only; omega, allowance, dark, timers, fun _ => lit⟩

theorem Lau.form_safe (timers : l.StateTimers) : (l.form now).Safe :=
  Lau.followTarget_safe now (l := { l with components := l.formComponents, allowance := l.formComponents.least l.params })
    (Components.least_le_modeCeiling _ _) timers

theorem Lau.Safe.slewStep (h : l.Safe) : (l.slewStep now).Safe := by
  unfold Lau.slewStep
  cases lit : l.session.lightEn with
  | false =>
    rw [Lau.target_of_dark lit]
    exact ⟨h.drive, h.allowance, h.dark, h.timers, nofun⟩
  | true =>
    rw [Lau.target_of_lit lit]
    exact ⟨(Nat.min_le_left _ _).trans (Nat.min_le_right _ _), h.allowance,
      fun dark => absurd (lit.symm.trans dark) (by decide), h.timers, fun _ => lit⟩

/-- A session change starts the timers of the new state alone. -/
theorem Lau.switch_stateTimers (l : Lau) (new : Session) : (l.switch now new).StateTimers := by
  cases new <;> simp [Lau.switch, Lau.StateTimers]

end

/-! ### A resting axis -/

theorem AxisState.moving_eq_false_iff (x : AxisState) : x.moving = false ↔ x.motion = .idle ∨ x.motion = .fault := by
  unfold AxisState.moving
  cases x.motion <;> simp

theorem AxisState.moving_congr {x y : AxisState} (h : y.motion = x.motion) : y.moving = x.moving := by
  rw [AxisState.moving, AxisState.moving, h]

/-- Both axes are at rest. -/
def Lmc.AtRest (x : Lmc) : Prop := x.v.moving = false ∧ x.h.moving = false

section

variable (env : AxisEnv) (x : AxisState)

theorem AxisState.halt_moving (reason : DoneReason) : (x.halt env reason).axis.moving = false :=
  (AxisState.moving_eq_false_iff _).mpr (x.halt_rest env reason).1

theorem AxisState.driverFault_moving : (x.driverFault env).axis.moving = false := by
  refine (AxisState.moving_eq_false_iff _).mpr (.inr ?_)
  unfold AxisState.driverFault
  cases hm : x.motion
  case fault => exact hm
  all_goals rfl

variable {env x}

/-- On a part that may not run, a settling axis starts nothing. -/
theorem AxisState.settle_motion (cold : env.canRun = false) (q : List Entry) : (x.settle env q).axis.motion = x.motion := by
  cases q with
  | nil => simp [AxisState.settle]
  | cons e rest => simp [AxisState.settle, cold]

theorem AxisState.startIfIdle_moving (cold : env.canRun = false) (rest : x.moving = false) :
    (x.startIfIdle env).axis.moving = false := by
  unfold AxisState.startIfIdle
  split
  · rw [AxisState.moving_congr (AxisState.settle_motion cold _)]
    exact rest
  · exact rest

section

variable (rest : x.moving = false)
include rest

theorem AxisState.beginStop_of_rest (reason : DoneReason) : x.beginStop env reason = { axis := x } := by
  obtain hm | hm := (AxisState.moving_eq_false_iff x).mp rest <;> rw [AxisState.beginStop, hm]

theorem AxisState.thermalStop_of_rest : x.thermalStop env = { axis := x } := by
  obtain hm | hm := (AxisState.moving_eq_false_iff x).mp rest <;> rw [AxisState.thermalStop, hm]

theorem AxisState.endIfStopped_of_rest : x.endIfStopped env = { axis := x } := by
  obtain hm | hm := (AxisState.moving_eq_false_iff x).mp rest <;> rw [AxisState.endIfStopped, hm]

theorem AxisState.step_of_rest : x.step env = { axis := x } := by
  obtain hm | hm := (AxisState.moving_eq_false_iff x).mp rest <;> rw [AxisState.step, hm]

theorem AxisState.refMark_of_rest : x.refMark env = { axis := x } := by
  unfold AxisState.refMark
  obtain hm | hm := (AxisState.moving_eq_false_iff x).mp rest <;> simp [hm]

theorem AxisState.recover_moving : x.recover.moving = false := by
  obtain hm | hm := (AxisState.moving_eq_false_iff x).mp rest
  · rw [AxisState.recover, hm]
    exact rest
  · rw [AxisState.recover, hm]
    rfl

theorem AxisState.onNamed_moving (named : Bool × Bool) {f : AxisEnv → AxisState → LensOut} (a : Axis)
    (kept : (f env x).axis.moving = false) : (onNamed named f a env x).axis.moving = false := by
  unfold onNamed
  cases a <;> dsimp only <;> split <;> assumption

end

end

/-! ### What an operation keeps -/

/-- The light rules hold, and under a set trip latch the session is TRIPPED and no axis moves. -/
structure State.Guarded (s : State) : Prop where
  light : s.lau.Safe
  tripped : s.tmon.trip.isSome → s.lau.session = .tripped ∧ s.lmc.AtRest

theorem State.guarded_iff (s : State) : s.Guarded ↔ LightSafe s ∧ SessionTimers s.lau ∧ TripSafe s := by
  constructor
  · intro ⟨⟨drive, allowance, dark, ⟨ignition, coolMin, coolMax⟩, slew⟩, tripped⟩
    refine ⟨⟨drive, allowance, dark⟩, ⟨ignition, coolMin, coolMax, slew⟩, fun latch => ?_⟩
    obtain ⟨session, v, h⟩ := tripped latch
    exact ⟨session, dark (by rw [session]; rfl), v, h⟩
  · intro ⟨⟨drive, allowance, dark⟩, ⟨ignition, coolMin, coolMax, slew⟩, tripped⟩
    refine ⟨⟨drive, allowance, dark, ⟨ignition, coolMin, coolMax⟩, slew⟩, fun latch => ?_⟩
    obtain ⟨session, -, v, h⟩ := tripped latch
    exact ⟨session, v, h⟩

/-- An operation keeps the light rules and the trip rules, keeps the dwell timer running exactly while the part is CRITICAL and
not tripped, and leaves a set trip latch. -/
structure Guards (s t : State) : Prop where
  guarded : s.Guarded → t.Guarded
  dwell : DwellSound s → DwellSound t
  latched : ∀ r, s.tmon.trip = some r → t.tmon.trip = some r

/-- What the rules read of a state. -/
def State.guard (s : State) : Lau × Lmc × Thermal × Option Nat × Option TripRecord :=
  (s.lau, s.lmc, s.tmon.device, s.tmon.dwell, s.tmon.trip)

theorem State.axisEnv_canRun_of_trip {s : State} (latch : s.tmon.trip.isSome) (a : Axis) : (s.axisEnv a).canRun = false := by
  simp [State.axisEnv, Option.isSome_iff_ne_none.mp latch]

namespace Guards

theorem refl (s : State) : Guards s s := ⟨id, id, fun _ => id⟩

theorem trans {s t u : State} (h : Guards s t) (g : Guards t u) : Guards s u :=
  ⟨g.guarded ∘ h.guarded, g.dwell ∘ h.dwell, fun r => g.latched r ∘ h.latched r⟩

/-- An operation that touches nothing of what the rules read. -/
theorem of_same {s t : State} (same : t.guard = s.guard) : Guards s t := by
  simp only [State.guard, Prod.mk.injEq] at same
  obtain ⟨lau, lmc, device, dwell, trip⟩ := same
  refine ⟨fun ⟨light, tripped⟩ => ⟨?_, ?_⟩, ?_, ?_⟩
  · rwa [lau]
  · rwa [lau, lmc, trip]
  · simp only [DwellSound, device, dwell, trip, imp_self]
  · simp only [trip, imp_self, implies_true]

/-- An operation after one that touches nothing of what the rules read. -/
theorem after {s t u : State} (h : Guards t u) (same : t.guard = s.guard) : Guards s u := (of_same same).trans h

theorem setLau (s : State) {l : Lau} (safe : s.Guarded → l.Safe)
    (stays : s.Guarded → s.tmon.trip.isSome → l.session = .tripped) : Guards s { s with lau := l } :=
  ⟨fun h => ⟨safe h, fun latch => ⟨stays h latch, (h.tripped latch).2⟩⟩, id, fun _ => id⟩

theorem setLmc (s : State) {x : Lmc} (rests : s.tmon.trip.isSome → s.lmc.AtRest → x.AtRest) : Guards s { s with lmc := x } :=
  ⟨fun h => ⟨h.light, fun latch => ⟨(h.tripped latch).1, rests latch (h.tripped latch).2⟩⟩, id, fun _ => id⟩

/-! ### The ports and the axes -/

theorem setSlot (s : State) (p : Port) (x : Slot) : Guards s (s.setSlot p x) := of_same (by simp [State.guard])

theorem setPort (s : State) (p : Port) (x : PortState) : Guards s (s.setPort p x) := of_same (by simp [State.guard])

theorem setCrossing (s : State) (p : Port) (b : Bool) : Guards s (s.setCrossing p b) := of_same (by simp [State.guard])

theorem raiseAll (s : State) (es : List Event) : Guards s (s.raiseAll es) := of_same (by simp [State.guard])

theorem recomputeIf (s : State) (b : Bool) : Guards s (s.recomputeIf b) := of_same (by simp [State.guard])

theorem at_ (s : State) (time : Nat) : Guards s (s.at_ time) := of_same rfl

theorem setAxis (s : State) (a : Axis) {x : AxisState} (rests : (s.axis a).moving = false → x.moving = false) :
    Guards s (s.setAxis a x) := by
  cases a
  · exact setLmc s fun _ rest => ⟨rests rest.1, rest.2⟩
  · exact setLmc s fun _ rest => ⟨rest.1, rests rest.2⟩

theorem deliver (s : State) (v h : LensOut)
    (rests : s.tmon.trip.isSome → s.lmc.AtRest → v.axis.moving = false ∧ h.axis.moving = false) :
    Guards s (s.deliver v h) :=
  (setLmc s (x := ⟨v.axis, h.axis⟩) rests).trans (of_same (by simp [State.guard]))

/-- An event of an axis that starts none at rest on a part that may not run. -/
theorem axisEvent (s : State) (a : Axis) {f : AxisEnv → AxisState → LensOut}
    (rests : ∀ env : AxisEnv, env.canRun = false → (s.axis a).moving = false → (f env (s.axis a)).axis.moving = false) :
    Guards s (s.axisEvent a f) := by
  unfold State.axisEvent
  refine trans ?_ (recomputeIf _ _)
  cases a
  · exact deliver s _ _ fun latch rest => ⟨rests _ (State.axisEnv_canRun_of_trip latch _) rest.1, rest.2⟩
  · exact deliver s _ _ fun latch rest => ⟨rest.1, rests _ (State.axisEnv_canRun_of_trip latch _) rest.2⟩

/-- An event of both axes that starts none at rest on a part that is tripped. -/
theorem lensEvent (s : State) {f : Axis → AxisEnv → AxisState → LensOut}
    (rests : s.tmon.trip.isSome → ∀ a env (x : AxisState), x.moving = false → (f a env x).axis.moving = false) :
    Guards s (s.lensEvent f) := by
  refine ((deliver s _ _ fun latch rest => ⟨rests latch .v _ _ rest.1, rests latch .h _ _ rest.2⟩).trans
    (deliver _ _ _ fun _ rest => ?_)).trans (recomputeIf _ _)
  rw [AxisState.endIfStopped_of_rest rest.1, AxisState.endIfStopped_of_rest rest.2]
  exact rest

/-! ### Selections and sessions (R125, R130, R142) -/

/-- The LAU forms its allowance with other inputs, settings or requests. -/
theorem formLau (s : State) {l : Lau} (session : l.session = s.lau.session)
    (timers : l.ignition = s.lau.ignition ∧ l.coolMin = s.lau.coolMin ∧ l.coolMax = s.lau.coolMax) :
    Guards s { s with lau := l.form s.now } := by
  obtain ⟨ignition, coolMin, coolMax⟩ := timers
  refine setLau s (fun h => Lau.form_safe _ ?_) fun h latch => ?_
  · rw [Lau.StateTimers, session, ignition, coolMin, coolMax]
    exact h.light.timers
  · rw [Lau.form_session, session, (h.tripped latch).1]

theorem lauTake (s : State) (x : LauInputs) : Guards s (s.lauTake x) :=
  formLau s (l := { s.lau with held := x }) rfl ⟨rfl, rfl, rfl⟩

theorem selectFans (s : State) : Guards s s.selectFans := by
  simp only [State.selectFans]
  split
  · exact of_same rfl
  · exact after (lauTake _ _) rfl

/-- The session leaves TRIPPED for no state, so none but TRIPPED is entered under a set latch. -/
theorem enterSession (s : State) {new : Session} (cause : SessionCause)
    (clear : s.Guarded → s.tmon.trip.isSome → new = .tripped) : Guards s (s.enterSession new cause) := by
  refine trans (setLau s (l := (s.lau.switch s.now new).form s.now) (fun _ => ?_) fun h latch => ?_)
    ((raiseAll _ [_]).trans (selectFans _))
  · exact Lau.form_safe _ (Lau.switch_stateTimers ..)
  · rw [Lau.form_session, Lau.switch_session, clear h latch]

/-- Entering a session state from one that is not TRIPPED. -/
theorem enterFrom (s : State) {new : Session} (cause : SessionCause) (other : s.lau.session ≠ .tripped) :
    Guards s (s.enterSession new cause) :=
  enterSession s cause fun h latch => absurd (h.tripped latch).1 other

theorem checkCooled (s : State) : Guards s s.checkCooled := by
  unfold State.checkCooled
  split
  · rename_i cooled
    exact enterFrom s _ (by rw [cooled.1]; decide)
  · exact refl s

theorem enterCooldown (s : State) (cause : SessionCause) (other : s.lau.session ≠ .tripped) :
    Guards s (s.enterCooldown cause) :=
  (enterFrom s _ other).trans (checkCooled _)

/-- The LAU takes values of the fields that the light rules do not read. -/
theorem setAside (s : State) (fault : Option LightFault) (held : LauInputs) (params : LauParams) (ok flt : Bool) :
    Guards s { s with lau := { s.lau with fault := fault, held := held, params := params, lightOk := ok, lightFlt := flt } } :=
  setLau s (fun ⟨⟨drive, allowance, dark, timers, slew⟩, _⟩ => ⟨drive, allowance, dark, timers, slew⟩)
    fun h latch => (h.tripped latch).1

theorem lightFault (s : State) (reason : FaultReason) (other : s.lau.session ≠ .tripped) :
    Guards s (s.lightFault reason) :=
  (setAside s (some ⟨reason, s.lau.timeToFault s.now⟩) _ _ _ _).trans
    ((raiseAll _ [.lightFault reason s.lau.session s.lau.drive (s.lau.timeToFault s.now)]).trans (enterCooldown _ _ other))

/-- An operation beside the TMON may be judged under the rules it keeps. -/
theorem of_guarded {s t : State} (tmon : t.tmon = s.tmon) (kept : s.Guarded → Guards s t) : Guards s t :=
  ⟨fun h => (kept h).guarded h, by rw [DwellSound, DwellSound, tmon]; exact id, fun r => by rw [tmon]; exact id⟩

/-! ### The device thermal state and the trip (R110 to R114) -/

theorem thermalStop (s : State) : Guards s s.thermalStop :=
  lensEvent s fun _ _ _ x rest => by rw [AxisState.thermalStop_of_rest rest]; exact rest

/-- A changed device thermal state starts or stops the dwell timer (R112). -/
theorem deviceTaken (s : State) : Guards s s.deviceTaken := by
  refine ⟨fun ⟨light, tripped⟩ => ⟨light, tripped⟩, fun sound => ?_, fun _ => id⟩
  change (s.tmon.dwellAfter s.now s.tmon.formDevice).isSome = true ↔ s.tmon.formDevice = .critical ∧ s.tmon.trip = none
  unfold Tmon.dwellAfter
  split
  · split
    · simp [*]
    · rename_i critical latch
      have stopped : s.tmon.dwell.isSome ≠ true := fun runs => latch (sound.mp runs).2
      simp [stopped, latch]
  · simp [*]

theorem formDevice (s : State) : Guards s s.formDevice := by
  by_cases changed : s.tmon.formDevice = s.tmon.device
  · rw [s.formDevice_of_same changed]
    exact refl s
  · have told : Guards s s.lensTold := by
      unfold State.lensTold
      split
      · exact (deviceTaken s).trans (thermalStop _)
      · exact deviceTaken s
    rw [s.formDevice_of_changed changed]
    exact (told.trans (selectFans _)).trans (setAside _ _ _ _ _ _)

theorem handStalled (s : State) (f : Fan) (b : Bool) : Guards s (s.handStalled f b) :=
  after ((formDevice _).trans (lauTake _ _)) rfl

theorem stallFan (s : State) (f : Fan) : Guards s (s.stallFan f) := after ((raiseAll _ [_]).trans (handStalled _ _ _)) rfl

theorem recoverFan (s : State) (f : Fan) (fall : Nat) (x : FanRecord) : Guards s (s.recoverFan f fall x) :=
  after ((raiseAll _ [_]).trans (handStalled _ _ _)) rfl

/-- The session enters TRIPPED on a part whose trip latch has just been set, its dwell timer stopped and its axes halted. -/
theorem enterTripped {s t : State} {x : TripRecord} (clear : s.tmon.trip = none)
    (tmon : t.tmon = { s.tmon with trip := some x, dwell := none }) (rest : t.lmc.AtRest) :
    Guards s (t.enterSession .tripped .trip) := by
  let u : State := { t with lau := (t.lau.switch t.now .tripped).form t.now }
  have entered : Guards s u := by
    refine ⟨fun _ => ⟨Lau.form_safe t.now (Lau.switch_stateTimers t.now t.lau .tripped), fun _ => ⟨?_, rest⟩⟩, fun _ => ?_,
      fun r latch => ?_⟩
    · exact (Lau.form_session ..).trans (Lau.switch_session ..)
    · change t.tmon.dwell.isSome = true ↔ t.tmon.device = .critical ∧ t.tmon.trip = none
      simp [tmon]
    · rw [clear] at latch
      cases latch
  exact entered.trans ((raiseAll u [_]).trans (selectFans _))

/-- A trip halts both axes, puts the session in TRIPPED and stops the dwell timer (R38, R112, R114, R150). -/
theorem declareTrip (s : State) (cause : TripCause) (zone : Source) : Guards s (s.declareTrip cause zone) := by
  unfold State.declareTrip
  split
  · exact refl s
  · rename_i clear
    refine enterTripped (x := ⟨cause, zone, s.tmon.sourceTemperature zone⟩) (by simpa using clear) (by simp) ?_
    rw [State.selectFans_lmc, State.tripHalt_lmc]
    exact ⟨AxisState.halt_moving _ _ _, AxisState.halt_moving _ _ _⟩

theorem checkAbsolute (s : State) : Guards s s.checkAbsolute := by
  unfold State.checkAbsolute
  split
  · exact declareTrip s _ _
  · exact refl s

/-! ### The scan (R100, R103, R104, R109) -/

theorem countScan (s : State) : Guards s s.countScan :=
  (of_same rfl : Guards s { s with tmon := s.countScan.tmon }).trans (setAside _ _ _ _ _ _)

theorem handResults (s : State) : Guards s s.handResults :=
  after ((selectFans _).trans ((lauTake _ _).trans (checkCooled _))) rfl

theorem evaluate (s : State) (bus : BusCondition) : Guards s (s.evaluate bus) :=
  after ((formDevice _).trans ((checkAbsolute _).trans ((countScan _).trans (handResults _)))) rfl

end Guards

end Sys2Proof.Machine
end

