-- ==== Sys2Proof/Proofs/LightAndTrip.lean ====
section
/-! PROOFS. Every command but a hard reset keeps the light rules, the dwell timer and a set trip latch, and every step keeps the
rules (R112, R114, R142, R152). -/

namespace Sys2Proof.Machine

theorem Session.ne_tripped_of_lightEn {x : Session} (lit : x.lightEn = true) : x ≠ .tripped := by
  rintro rfl
  cases lit

/-- Failing reads touch the slot records alone. -/
theorem Tmon.failStuck_fst (t : Tmon) (slots : List Nat) :
    (t.failStuck slots).1 = { t with slots := (t.failStuck slots).1.slots } := by
  induction slots generalizing t with
  | nil => rfl
  | cons n rest ih => exact ih _

namespace Guards

/-! ### The scan, the record, the tables and the parameters -/

theorem nextSlot (s : State) (slots : List Nat) (worst : BusCondition) (bus : BusSample) :
    Guards s (s.nextSlot slots worst bus) := by
  cases slots with
  | nil => exact evaluate s worst
  | cons n rest =>
    rw [State.nextSlot_cons]
    split
    · have failed : Guards s { s with tmon := (s.tmon.failStuck (n :: rest)).1 } := by
        rw [Tmon.failStuck_fst]
        exact of_same rfl
      exact failed.trans ((raiseAll _ _).trans (evaluate _ _))
    · exact of_same rfl

theorem startScan (s : State) (bus : BusSample) : Guards s (s.startScan bus) := after (nextSlot _ _ _ _) rfl

theorem finishSlot (s : State) (outcome : Int → Except ReadCause Int) (bus : BusSample) :
    Guards s (s.finishSlot outcome bus) := by
  obtain same | ⟨n, rest, worst, -, finished⟩ := s.finishSlot_cases outcome bus
  · rw [same]
    exact refl s
  · rw [finished]
    exact after ((raiseAll _ _).trans (nextSlot _ _ _ _)) rfl

theorem installChange (s : State) (o : Originator) : Guards s (s.installChange o) := after (raiseAll _ [_]) rfl

theorem recompute (s : State) : Guards s s.recompute := recomputeIf s true

/-- A write reaches the queues, and starts none of their heads on a part that may not run (R25). -/
theorem installWrite (s : State) (w : Write) (o : Originator) : Guards s (w.apply o s) := by
  have queued : Guards s { s with irm := w.record s.irm, lmc := ⟨w.queue s .v, w.queue s .h⟩ } := by
    have motion : ∀ a, (w.queue s a).motion = (s.axis a).motion := fun a => by
      unfold Write.queue
      split <;> rfl
    refine after (setLmc { s with irm := w.record s.irm } fun _ rest => ?_) rfl
    exact ⟨(AxisState.moving_congr (motion .v)).trans rest.1, (AxisState.moving_congr (motion .h)).trans rest.2⟩
  refine (queued.trans (installChange _ o)).trans (trans (deliver _ _ _ fun latch rest => ?_) (recomputeIf _ _))
  exact ⟨AxisState.startIfIdle_moving (State.axisEnv_canRun_of_trip latch .v) rest.1,
    AxisState.startIfIdle_moving (State.axisEnv_canRun_of_trip latch .h) rest.2⟩

theorem completeComputation (s : State) (c : Computation) : Guards s (s.completeComputation c) :=
  of_same (by simp [State.guard])

theorem install (s : State) (l : Load) : Guards s (s.install l) := by
  refine trans ?_ (recomputeIf _ _)
  unfold State.installTable
  split <;> exact of_same rfl

theorem setBlock (s : State) (p : BlockParam) (value : Int) : Guards s ((s.storeBlock p value).paramEffect p) := by
  cases p with
  | lLapse | lIgn | lStall | lCrit | lAcFloor | acStep => exact (setAside s _ _ _ _ _).trans (formLau _ rfl ⟨rfl, rfl, rfl⟩)
  | slew | ignTimeout | coolMin | coolMax => exact setAside s _ _ _ _ _
  | tCool => exact (setAside s _ _ _ _ _).trans (checkCooled _)
  | quietCap | coolDuty => exact after (selectFans _) rfl
  | flim => exact after (recompute _) rfl
  | q | lapseWindow | dwell | startDuty | glitch => exact of_same rfl

theorem setParam (s : State) (n : ParamName) (value : Int) : Guards s (s.setParam n value) := by
  cases n with
  | axis a p => exact setAxis s a id
  | block p => exact setBlock s p value

theorem setMode (s : State) (mode : LightMode) :
    Guards s (State.lauForm { s with lau := { s.lau with mode := mode } }) :=
  formLau s (l := { s.lau with mode := mode }) rfl ⟨rfl, rfl, rfl⟩

theorem restart (s : State) : Guards s s.restart := by
  rw [State.restart_eq]
  have halted : Guards s { s.cleared with lmc := ⟨s.restarted .v, s.restarted .h⟩ } :=
    after (setLmc s.cleared fun _ _ => ⟨AxisState.halt_moving _ (s.axis .v) _, AxisState.halt_moving _ (s.axis .h) _⟩) rfl
  exact halted.trans ((raiseAll _ _).trans (after ((raiseAll _ [_]).trans (recompute _)) rfl))

theorem lightOn (s : State) : Guards s s.lightOn.1 := by
  unfold State.lightOn
  split
  case h_5 session =>
    split
    · exact refl s
    · exact enterFrom s _ (by rw [session]; decide)
  all_goals exact refl s

/-! ### The frame side (R89 to R96, R158) -/

theorem endLapse (s : State) (cause : FrameCause) : Guards s (s.endLapse cause) := of_same (by simp [State.guard])

/-- The LAU drops its applied request and hears of the frame side (R155, R158). -/
theorem dropRequests (s : State) : Guards s s.dropRequests.handFrameState :=
  after (formLau { s with fpi := { s.fpi with latched := none } } rfl ⟨rfl, rfl, rfl⟩) rfl

theorem attach (s : State) (width height : Nat) : Guards s (s.attach width height) :=
  after ((endLapse _ _).trans (after ((dropRequests _).trans (after (recompute _) rfl)) rfl)) rfl

theorem detach (s : State) : Guards s s.detach :=
  after ((endLapse _ _).trans (after ((dropRequests _).trans (of_same rfl)) rfl)) rfl

theorem markFrame (s : State) : Guards s s.markFrame := by
  unfold State.markFrame
  dsimp only
  split
  · exact of_same rfl
  · exact of_same rfl
  · exact after ((endLapse _ _).trans (after (lauTake _ _) rfl)) rfl

theorem applyRequest (s : State) : Guards s s.applyRequest := by
  unfold State.applyRequest
  split
  · refine after (setLau { s with fpi := { s.fpi with latched := none } } (fun h => ?_) fun h latch => ?_) rfl
    · exact Lau.followTarget_safe _ h.light.allowance h.light.timers
    · exact (Lau.followTarget_session ..).trans (h.tripped latch).1
  · exact refl s

/-! ### Requests and commands (R166, R169, R180) -/

theorem takeRequest {p : Port} {kind : Byte} {s t : State} {f : State → State × Answer} (hf : Guards s (f s).1)
    (h : takeRequest p kind s f = .next t) : Guards s t :=
  takeRequest_keeps (P := Guards s) (fun u x hu => hu.trans (setSlot u p x)) (fun _ => setCrossing s p false) (refl s) hf h

theorem judge {fields : List (Nat × Bool)} {checks : List (Bool × Status)} {refuse : State → List Byte}
    {effect : State → State × Answer} {s : State} (he : firstFail checks = none → Guards s (effect s).1) :
    Guards s (judge fields checks refuse effect s).1 :=
  judge_keeps (refl s) fun _ passed => he passed

theorem unlessReset {s t : State} {f : State → State} (hf : Guards s (f s)) (h : unlessReset s f = .next t) : Guards s t :=
  unlessReset_keeps (P := Guards s) (refl s) (fun _ => hf) h

theorem write (s : State) (p : Port) (conditional : Bool) (w : Write) : Guards s (s.write p conditional w).1 := by
  unfold State.write
  split
  · exact of_same rfl
  · exact judge fun _ => installWrite s w _

theorem setParameter (s : State) (p : Port) (param index : Byte) (value : Word32) :
    Guards s (setParameter p param index value s).1 := by
  unfold Machine.setParameter
  split
  · exact refl s
  · exact judge fun _ => setParam s _ _

/-- HOME is refused on a tripped part (R47). -/
theorem home (s : State) (named : Bool × Bool) (clear : s.tmon.trip = none) :
    Guards s (s.lensEvent (onNamed named fun env x => x.home env)) :=
  lensEvent s fun latch => by rw [clear] at latch; cases latch

theorem abortMotion (s : State) (named : Bool × Bool) :
    Guards s (s.lensEvent (onNamed named fun env x => x.beginStop env .aborted)) :=
  lensEvent s fun _ a _ _ rest =>
    AxisState.onNamed_moving rest named a (by rw [AxisState.beginStop_of_rest rest]; exact rest)

theorem recover (s : State) (named : Bool × Bool) :
    Guards s { s with lmc := { v := if named.1 then s.lmc.v.recover else s.lmc.v,
                               h := if named.2 then s.lmc.h.recover else s.lmc.h } } := by
  refine setLmc s fun _ rest => ⟨?_, ?_⟩
  · dsimp only
    split
    · exact AxisState.recover_moving rest.1
    · exact rest.1
  · dsimp only
    split
    · exact AxisState.recover_moving rest.2
    · exact rest.2

end Guards

section

variable {s t : State}

theorem guards_of_request {c : Instr} {p : Port} (request : portOf c = some p) (run : exec c s = .next t) : Guards s t := by
  unfold exec at run
  cases c with
  | readThermal | readLight => exact .takeRequest (.refl s) run
  | readAxis | readPreset => exact .takeRequest (.judge fun _ => .refl s) run
  | readTable =>
    unfold execReadTable at run
    exact .takeRequest (.judge fun _ => .refl s) run
  | getParam =>
    refine .takeRequest ?_ run
    split
    · exact .refl s
    · exact .judge fun _ => .refl s
  | readWarp | getEvents => exact .takeRequest (.setPort s _ _) run
  | setEventMask => exact .takeRequest (.judge fun _ => .setPort s _ _) run
  | readInstall =>
    refine .takeRequest (.judge fun _ => ?_) run
    dsimp only
    split
    · exact .of_same rfl
    · exact .refl s
  | storePreset =>
    unfold execStorePreset at run
    exact .takeRequest (.judge fun _ => .of_same rfl) run
  | clearPreset | lightRequest => exact .takeRequest (.judge fun _ => .of_same rfl) run
  | beginLoad =>
    unfold execBeginLoad at run
    exact .takeRequest (.judge fun _ => .of_same rfl) run
  | loadSegment =>
    refine .takeRequest ?_ run
    dsimp only
    split
    · exact .judge fun _ => .of_same rfl
    · exact .refl s
  | endLoad =>
    refine .takeRequest (.judge fun _ => ?_) run
    dsimp only
    split
    · exact .refl s
    · split
      · exact .of_same rfl
      · exact .after (.install _ _) rfl
  | writeInstall =>
    unfold execWriteInstall at run
    refine .takeRequest (.judge fun _ => ?_) run
    exact .write s _ _ _
  | jog =>
    unfold execJog at run
    refine .takeRequest (.judge fun _ => ?_) run
    exact .write s _ _ _
  | recallPreset =>
    refine .takeRequest (.judge fun _ => ?_) run
    split
    · exact .write s _ _ _
    · exact .refl s
  | abortMotion =>
    unfold execAbortMotion at run
    exact .takeRequest (.judge fun _ => .abortMotion s _) run
  | home =>
    unfold execHome at run
    refine .takeRequest (.judge fun passed => .home s _ ?_) run
    have runs := (firstFail_eq_none_iff _).mp passed (s.tmon.device ≠ .critical && s.tmon.trip.isNone, .thermalHold) (by simp)
    simp_all
  | axisRecover =>
    unfold execAxisRecover at run
    exact .takeRequest (.judge fun _ => .recover s _) run
  | lightOn => exact .takeRequest (.judge fun _ => .lightOn s) run
  | lightOff =>
    refine .takeRequest (.judge fun _ => ?_) run
    dsimp only
    split
    · rename_i lit
      exact .enterCooldown s _ (Session.ne_tripped_of_lightEn lit)
    · exact .refl s
  | setLightMode => exact .takeRequest (.judge fun _ => .setMode s _) run
  | setQuiet =>
    refine .takeRequest (.judge fun _ => ?_) run
    dsimp only
    split
    · exact .refl s
    · exact .after (.selectFans _) rfl
  | clearLightFault => exact .takeRequest (.judge fun _ => .setAside s none _ _ _ _) run
  | setParamAxis | setParam => exact .takeRequest (.setParameter s _ _ _ _) run
  | attach => exact .takeRequest (.judge fun _ => .attach s _ _) run
  | detach =>
    refine .takeRequest (.judge fun _ => ?_) run
    dsimp only
    split
    · exact .detach s
    · exact .refl s
  | restart => exact .takeRequest (.judge fun _ => .restart s) run
  | _ => cases request

/-- Hard reset takes values that meet the rules, and the trip latch with them is clear (R180). -/
theorem State.hardReset_guarded (s : State) : s.hardReset.Guarded ∧ DwellSound s.hardReset :=
  ⟨⟨⟨Nat.zero_le _, (by decide : 1638 ≤ LightMode.normal.ceiling), fun _ => rfl,
    ⟨nofun, fun running => absurd rfl running, nofun⟩, nofun⟩, nofun⟩, ⟨nofun, nofun⟩⟩

theorem guards_endReset (ports : PortsFound) (bus : BusSample) : Guards s (s.endReset ports bus) := by
  refine .after ((Guards.setCrossing _ _ _).trans ((Guards.setCrossing _ _ _).trans
    ((Guards.lensEvent _ fun _ _ env x rest => ?_).trans (.startScan _ _)))) rfl
  split
  · exact AxisState.driverFault_moving env x
  · exact rest

theorem guards_of_command {c : Instr} (request : portOf c = none) (kept : ∀ low, c ≠ .hardReset low)
    (run : exec c s = .next t) : Guards s t := by
  unfold exec at run
  cases c with
  | hardReset low => exact absurd rfl (kept low)
  | malformedRequest p bytes =>
    obtain same | ⟨kind, cause, taken⟩ | ⟨i, inside, taken⟩ := execMalformedRequest_cases p bytes s
    · obtain rfl := Host.Outcome.next.inj (same.symm.trans run)
      exact .refl _
    · exact .takeRequest (.refl s) (taken.symm.trans run)
    · obtain ⟨q, named⟩ := Option.isSome_iff_exists.mp inside
      exact guards_of_request named (taken.symm.trans run)
  | responseFormed p => exact .unlessReset (.setPort s _ _) run
  | hardResetEnd ports bus =>
    obtain rfl := Host.Outcome.next.inj run
    split
    · exact guards_endReset ports bus
    · exact .refl s
  | fmark time => exact .unlessReset (.after ((Guards.of_same (by simp [State.guard])).trans
      ((Guards.markFrame (s.at_ time).promote).trans (.applyRequest _))) rfl) run
  | lapseWindowExpiry =>
    refine .unlessReset ?_ run
    dsimp only
    split
    · exact .after ((Guards.raiseAll _ [_]).trans (.lauTake _ _)) rfl
    · exact .refl s
  | stepTimerExpiry a =>
    refine .unlessReset ?_ run
    split
    · exact (Guards.at_ s _).trans (.axisEvent _ a fun _ _ rest => by rw [AxisState.step_of_rest rest]; exact rest)
    · exact .refl s
  | endStopEdge a stop active =>
    obtain rfl := Host.Outcome.next.inj run
    refine .setAxis s a fun rest => ?_
    cases stop <;> exact rest
  | refMkEdge a rising =>
    obtain rfl := Host.Outcome.next.inj run
    have line : Guards s (s.setAxis a { s.axis a with refMk := rising }) := .setAxis s a id
    split
    · exact line.trans (.axisEvent _ a fun _ _ rest => by rw [AxisState.refMark_of_rest rest]; exact rest)
    · exact line
  | drvFlt a active =>
    obtain rfl := Host.Outcome.next.inj run
    have line : Guards s (s.setAxis a { s.axis a with drvFlt := active }) := .setAxis s a id
    split
    · exact line.trans (.axisEvent _ a fun env _ _ => AxisState.driverFault_moving env _)
    · exact line
  | holdTimerExpiry a =>
    refine .unlessReset ?_ run
    split
    · refine (Guards.at_ s _).trans (.setAxis _ a fun rest => ?_)
      refine (AxisState.moving_congr ?_).trans rest
      unfold AxisState.holdExpired
      split <;> rfl
    · exact .refl s
  | computationComplete =>
    refine .unlessReset ?_ run
    split
    · exact .completeComputation s _
    · exact .refl s
  | scanStart bus => exact .unlessReset ((Guards.at_ s _).trans (.startScan _ _)) run
  | slotReadDone result bus => exact .unlessReset (.finishSlot s _ _) run
  | probeBusTimeout timedOut => exact .unlessReset (.finishSlot s _ _) run
  | criticalDwellExpiry =>
    refine .unlessReset ?_ run
    split
    · exact (Guards.at_ s _).trans (.declareTrip _ _ _)
    · exact .refl s
  | kickExpiry f =>
    refine .unlessReset ?_ run
    split
    · exact .of_same rfl
    · exact .refl s
  | tachEdgeAccepted f fall low =>
    refine .unlessReset ?_ run
    dsimp only
    split
    · split
      · exact (Guards.at_ s _).trans (.recoverFan _ _ _ _)
      · exact .of_same rfl
    · exact .refl s
  | graceTimerExpiry f =>
    refine .unlessReset ?_ run
    dsimp only
    split
    · split
      · exact .of_same rfl
      · exact (Guards.at_ s _).trans (.stallFan _ _)
    · exact .refl s
  | edgeTimerExpiry f =>
    refine .unlessReset ?_ run
    dsimp only
    split
    · split
      · exact (Guards.at_ s _).trans (.stallFan _ _)
      all_goals exact .of_same rfl
    · exact .refl s
  | lightOkRise time =>
    unfold execLightOkRise at run
    refine (Guards.setAside s _ _ _ true _).trans (.unlessReset ?_ run)
    dsimp only
    split
    · rename_i ignition
      exact .after (.enterFrom _ _ (by rw [ignition]; decide)) rfl
    · exact .of_same rfl
  | lightOkFall time =>
    unfold execLightOkFall at run
    refine (Guards.setAside s _ _ _ false _).trans (.unlessReset ?_ run)
    dsimp only
    split
    · rename_i lit
      exact .after (.lightFault _ _ (by rw [lit]; decide)) rfl
    · exact .of_same rfl
  | lightFlt active time =>
    unfold execLightFlt at run
    refine (Guards.setAside s _ _ _ _ active).trans (.unlessReset ?_ run)
    dsimp only
    split
    · rename_i lit
      exact .after (.lightFault _ _ (Session.ne_tripped_of_lightEn lit.2)) rfl
    · exact .of_same rfl
  | ignitionTimerExpiry =>
    refine .unlessReset ?_ run
    split
    · rename_i e timer
      refine .of_guarded (by simp) fun h => (Guards.at_ s e).trans (.lightFault _ _ ?_)
      rw [State.at_lau, h.light.timers.1 (by rw [timer]; rfl)]
      decide
    · exact .refl s
  | cooldownMinExpiry =>
    refine .unlessReset ?_ run
    dsimp only
    split
    · rename_i e timer
      refine .after ((Guards.setLau (s.at_ e) (l := { s.lau with coolMin := .elapsed }) (fun h => ?_) fun h latch =>
        (h.tripped latch).1).trans (.checkCooled _)) rfl
      obtain ⟨drive, allowance, dark, ⟨ignition, coolMin, coolMax⟩, slew⟩ := h.light
      exact ⟨drive, allowance, dark, ⟨ignition, fun _ => coolMin (by simp [timer]), coolMax⟩, slew⟩
    · exact .refl s
    · exact .refl s
  | coolMax =>
    refine .unlessReset ?_ run
    split
    · rename_i e timer
      refine .of_guarded (by simp) fun h => (Guards.at_ s e).trans (.enterFrom _ _ ?_)
      rw [State.at_lau, h.light.timers.2.2 (by rw [timer]; rfl)]
      decide
    · exact .refl s
  | slewTimerExpiry =>
    refine .unlessReset ?_ run
    dsimp only
    split
    · exact (Guards.at_ s _).trans (.setLau _ (fun h => h.light.slewStep _) fun h latch =>
        (Lau.slewStep_session ..).trans (h.tripped latch).1)
    · exact .refl s
  | _ => cases request

/-- Every command but a hard reset keeps the rules. -/
theorem guards_of_exec {c : Instr} (kept : ∀ low, c ≠ .hardReset low) (run : exec c s = .next t) : Guards s t := by
  cases request : portOf c with
  | some p => exact guards_of_request request run
  | none => exact guards_of_command request kept run

/-- A hard reset that reaches the part brings it under the rules, and one too short leaves it as it is (R180). -/
theorem hardReset_keeps {low : Option Nat} (run : exec (.hardReset low) s = .next t) :
    (s.Guarded → t.Guarded) ∧ (DwellSound s → DwellSound t) := by
  obtain rfl := Host.Outcome.next.inj run
  have resets : ∀ u, u = (if s.resets low then s.hardReset else s) →
      (s.Guarded → u.Guarded) ∧ (DwellSound s → DwellSound u) := by
    rintro u rfl
    split
    · exact ⟨fun _ => s.hardReset_guarded.1, fun _ => s.hardReset_guarded.2⟩
    · exact ⟨id, id⟩
  obtain ⟨guarded, dwell⟩ := resets _ rfl
  split
  · have pulse : ∀ u : State, Guards u { u with resetPulses := s.resetPulses + 1 } := fun u => .of_same rfl
    exact ⟨(pulse _).guarded ∘ guarded, (pulse _).dwell ∘ dwell⟩
  · exact ⟨guarded, dwell⟩

/-- A step with no hard reset at the front of the queue keeps the rules and a set trip latch. -/
theorem guards_of_step (kept : ∀ low rest, s.pending ≠ .hardReset low :: rest) (run : step s = .next t) : Guards s t := by
  unfold step at run
  split at run
  · obtain rfl := Host.Outcome.next.inj run
    exact .of_same rfl
  · rename_i c rest front
    exact .after (guards_of_exec (fun low same => kept low rest (same ▸ front)) run) rfl

/-- Every step keeps the rules. -/
theorem step_keeps_guarded (run : step s = .next t) : (s.Guarded → t.Guarded) ∧ (DwellSound s → DwellSound t) := by
  by_cases resets : ∃ low rest, s.pending = .hardReset low :: rest
  · obtain ⟨low, rest, front⟩ := resets
    unfold step at run
    rw [front] at run
    have taken : Guards s { s with pending := rest } := .of_same rfl
    obtain ⟨guarded, dwell⟩ := hardReset_keeps run
    exact ⟨guarded ∘ taken.guarded, dwell ∘ taken.dwell⟩
  · have kept := guards_of_step (fun low rest front => resets ⟨low, rest, front⟩) run
    exact ⟨kept.guarded, kept.dwell⟩

end

/-- Settles O52: each operation of the part keeps the rules, so every command does, and a hard reset brings them about. -/
theorem lightAndTripKept : Obligations.LightAndTripKept := by
  refine fun s => ⟨fun light timers trip t run => ?_, fun sound t run => (step_keeps_guarded run).2 sound,
    fun kept r latch t run => (guards_of_step kept run).latched r latch⟩
  exact t.guarded_iff.mp ((step_keeps_guarded run).1 (s.guarded_iff.mpr ⟨light, timers, trip⟩))

end Sys2Proof.Machine
end

