-- ==== Sys2Proof/Proofs/ThermalLevels.lean ====
section
/-! PROOFS. Zone readings, zone states and the device thermal state (R106, R108, R110). -/

namespace Sys2Proof.Machine

/-! ### The order of severity (R110) -/

theorem Thermal.le_rank_max (k : Nat) (a b : Thermal) : k ≤ (a.max b).rank ↔ k ≤ a.rank ∨ k ≤ b.rank := by
  unfold Thermal.max
  split <;> omega

theorem Thermal.le_rank_foldl_max (k : Nat) (a : Thermal) (l : List Thermal) :
    k ≤ (l.foldl Thermal.max a).rank ↔ k ≤ a.rank ∨ ∃ x ∈ l, k ≤ x.rank := by
  induction l generalizing a with
  | nil => simp
  | cons x l ih => simp [ih, Thermal.le_rank_max, or_assoc]

/-! ### Zone states (R108) -/

theorem Thresholds.of_eq_some {th : Thresholds} {level : Thermal} {x : Int} (h : th.of level = some x) :
    (level = .warm ∧ x = th.warm) ∨ (level = .hot ∧ x = th.hot) ∨ (level = .critical ∧ x = th.crit) := by
  cases level
  case normal => cases h
  all_goals simp_all [Thresholds.of]

/-- With the thresholds in order, the highest level that a temperature holds is at least one exactly when that one is held. -/
theorem le_rank_levelAt {th : Thresholds} (warm : th.warm < th.hot) (hot : th.hot < th.crit) {level : Thermal} {x : Int}
    (threshold : th.of level = some x) (below : Int) (top : Thermal) (t : Int) :
    level.rank ≤ (levelAt th below top t).rank ↔ level.rank ≤ top.rank ∧ x - below ≤ t := by
  have ranks : Thermal.normal.rank = 0 ∧ Thermal.warm.rank = 1 ∧ Thermal.hot.rank = 2 ∧ Thermal.critical.rank = 3 := by decide
  unfold levelAt
  obtain ⟨rfl, rfl⟩ | ⟨rfl, rfl⟩ | ⟨rfl, rfl⟩ := Thresholds.of_eq_some threshold
  all_goals
    split
    · omega
    · split
      · omega
      · split <;> omega

theorem le_rank_zoneState {th : Thresholds} (warm : th.warm < th.hot) (hot : th.hot < th.crit) {level : Thermal} {x : Int}
    (threshold : th.of level = some x) (present : Thermal) (t : Int) :
    level.rank ≤ (zoneState th present t).rank ↔ x ≤ t ∨ (level.rank ≤ present.rank ∧ x - th.hysteresis ≤ t) := by
  have top : level.rank ≤ Thermal.critical.rank := by cases level <;> decide
  rw [zoneState, Thermal.le_rank_max, le_rank_levelAt warm hot threshold, le_rank_levelAt warm hot threshold]
  simp [top]

/-! ### Zone readings (R106) -/

/-- The value of a LIVE record. -/
def SlotRecord.reading (r : SlotRecord) : Option Int := if r.status = .live then r.value else none

theorem SlotRecord.reading_eq_some_iff (r : SlotRecord) (t : Int) :
    r.reading = some t ↔ r.status = .live ∧ r.value = some t := by
  unfold SlotRecord.reading
  split <;> simp_all

theorem greatest_cons (x : SlotRecord) (rest : List SlotRecord) :
    greatest (x :: rest) =
      match x.reading, greatest rest with
      | none, u => u
      | some t, none => some t
      | some t, some u => some (max t u) := by
  rw [greatest, SlotRecord.reading]
  cases x.status <;> cases x.value <;> cases greatest rest <;> rfl

/-- No LIVE record holds more than the greatest value. -/
theorem le_greatest {records : List SlotRecord} {r : SlotRecord} (mem : r ∈ records) {t : Int} (reads : r.reading = some t) :
    ∃ u, greatest records = some u ∧ t ≤ u := by
  induction records with
  | nil => cases mem
  | cons x rest ih =>
    rw [greatest_cons]
    obtain rfl | later := List.mem_cons.mp mem
    · rw [reads]
      cases greatest rest with
      | none => exact ⟨t, rfl, le_rfl⟩
      | some u => exact ⟨_, rfl, le_max_left t u⟩
    · obtain ⟨u, below, le⟩ := ih later
      rw [below]
      cases x.reading with
      | none => exact ⟨u, rfl, le⟩
      | some v => exact ⟨_, rfl, le.trans (le_max_right v u)⟩

/-- The greatest value is a LIVE record's. -/
theorem exists_reading_of_greatest {records : List SlotRecord} {u : Int} (h : greatest records = some u) :
    ∃ r ∈ records, r.reading = some u := by
  induction records generalizing u with
  | nil => cases h
  | cons x rest ih =>
    rw [greatest_cons] at h
    cases read : x.reading with
    | none =>
      rw [read] at h
      obtain ⟨r, mem, reads⟩ := ih h
      exact ⟨r, List.mem_cons_of_mem x mem, reads⟩
    | some t =>
      rw [read] at h
      cases below : greatest rest with
      | none =>
        rw [below] at h
        exact ⟨x, List.mem_cons_self, read.trans h⟩
      | some v =>
        rw [below] at h
        obtain rfl : max t v = u := Option.some.inj h
        obtain highest | highest := max_choice t v
        · exact ⟨x, List.mem_cons_self, by rw [read, highest]⟩
        · obtain ⟨r, mem, reads⟩ := ih below
          exact ⟨r, List.mem_cons_of_mem x mem, by rw [reads, highest]⟩

theorem zoneReading_of_live {records : List SlotRecord} {r : SlotRecord} (mem : r ∈ records) (live : r.status = .live)
    (th : Thresholds) : zoneReading records th = (.live, greatest records) := by
  have some_ : records.any (·.status = .live) = true := List.any_eq_true.mpr ⟨r, mem, by simp [live]⟩
  rw [zoneReading, if_neg (List.ne_nil_of_mem mem), if_pos some_]

theorem zoneReading_of_no_live {records : List SlotRecord} (some_ : records ≠ []) (none_ : ∀ r ∈ records, r.status ≠ .live)
    (th : Thresholds) :
    zoneReading records th =
      if records.any (fun r => decide (r.status = .lost)) then (.lost, some th.hot) else (.absent, none) := by
  have dead : ¬ records.any (·.status = .live) = true := by simpa using none_
  rw [zoneReading, if_neg some_, if_neg dead]

theorem exists_live_of_zoneReading {records : List SlotRecord} {th : Thresholds} (h : (zoneReading records th).1 = .live) :
    ∃ r ∈ records, r.status = .live := by
  by_contra none_
  rw [not_exists] at none_
  by_cases empty : records = []
  · rw [zoneReading, if_pos empty] at h
    cases h
  · rw [zoneReading_of_no_live empty fun r mem live => none_ r ⟨mem, live⟩] at h
    split at h <;> cases h

/-! ### The device thermal state (R110) -/

theorem le_rank_fansLevel (x : PerFan Bool) {level : Thermal} (other : level ≠ .normal) :
    level.rank ≤ (fansLevel x).rank ↔
      (x.blower = true ∨ 2 ≤ stalledCount x) ∨ (level.rank ≤ 2 ∧ 0 < stalledCount x) := by
  have top : level.rank ≤ 3 := by cases level <;> decide
  have low : 0 < level.rank := by
    cases level with
    | normal => exact absurd rfl other
    | warm | hot | critical => decide
  have ranks : Thermal.normal.rank = 0 ∧ Thermal.hot.rank = 2 ∧ Thermal.critical.rank = 3 := by decide
  unfold fansLevel
  split
  · simp_all
  · split
    · simp_all
    · simp_all
      omega

theorem Tmon.le_rank_formDevice (t : Tmon) {level : Thermal} (other : level ≠ .normal) :
    level.rank ≤ t.formDevice.rank ↔
      (∃ z : Zone, (t.zones.get z).inUse = true ∧ level.rank ≤ (t.zones.get z).state.rank) ∨
      (t.stalled.blower = true ∨ 2 ≤ stalledCount t.stalled) ∨
      (level.rank ≤ 2 ∧ 0 < stalledCount t.stalled) := by
  have zones : (∃ x ∈ allZones.filterMap fun z => (t.zones.get z).level, level.rank ≤ x.rank) ↔
      ∃ z : Zone, (t.zones.get z).inUse = true ∧ level.rank ≤ (t.zones.get z).state.rank := by
    have every : ∀ z : Zone, z ∈ allZones := fun z => by cases z <;> decide
    simp [ZoneRecord.level, every]
  rw [Tmon.formDevice, Thermal.le_rank_foldl_max, zones, le_rank_fansLevel _ other, or_comm]

/-- Settles O38: each level is reached by its threshold or held by the hysteresis, and each fold is over what it reads. -/
theorem thermalLevels : Obligations.ThermalLevels := by
  refine ⟨⟨fun th present level t x warm hot threshold => le_rank_zoneState warm hot threshold present t,
    fun records th => ⟨fun none_ => if_pos none_, fun r mem t live value => ?_, fun u reads => ?_,
      fun some_ none_ => zoneReading_of_no_live some_ none_ th⟩⟩, fun t level other => t.le_rank_formDevice other⟩
  · rw [zoneReading_of_live mem live]
    exact ⟨rfl, le_greatest mem ((r.reading_eq_some_iff t).mpr ⟨live, value⟩)⟩
  · obtain ⟨r, mem, live⟩ := exists_live_of_zoneReading (congrArg Prod.fst reads)
    rw [zoneReading_of_live mem live] at reads
    obtain ⟨r, mem, value⟩ := exists_reading_of_greatest (Prod.mk.inj reads).2
    exact ⟨r, mem, (r.reading_eq_some_iff u).mp value⟩

end Sys2Proof.Machine
end

