-- ==== Sys2Proof/Proofs/TableImages.lean ====
section
/-! PROOFS. The fields of a table image, their ranges, and where an image breaks a whole-table condition first (R188 to R191,
R203). -/

namespace Sys2Proof.Machine

/-! ### The bytes of an image -/

section

variable {image : List Byte} {o : Nat}

theorem slice_one (inside : o + 1 ≤ image.length) : slice image o 1 = [image.getD o 0] := by
  rw [slice, List.drop_eq_getElem_cons inside, List.getD_eq_getElem _ _ inside]
  rfl

theorem slice_two (inside : o + 2 ≤ image.length) : slice image o 2 = [image.getD o 0, image.getD (o + 1) 0] := by
  rw [slice, List.drop_eq_getElem_cons (by omega), List.drop_eq_getElem_cons (by omega : o + 1 < image.length),
    List.getD_eq_getElem _ _ (by omega), List.getD_eq_getElem _ _ (by omega)]
  rfl

theorem unsigned8_eq (inside : o + 1 ≤ image.length) : unsigned8 image o = byteAt image o := by
  rw [unsigned8, slice_one inside]
  rfl

theorem unsigned16_eq (inside : o + 2 ≤ image.length) : unsigned16 image o = wordAt image o := by
  rw [unsigned16, slice_two inside]
  rfl

theorem leInt_one (a : Byte) : leInt [a] = if a.toNat < 128 then (a.toNat : Int) else (a.toNat : Int) - 256 := by
  have half : 2 * a.toNat < 256 ↔ a.toNat < 128 := by omega
  simp [leInt, leNat, half]

theorem leInt_two (a b : Byte) :
    leInt [a, b] =
      if a.toNat + 256 * b.toNat < 32768 then ((a.toNat + 256 * b.toNat : Nat) : Int)
      else ((a.toNat + 256 * b.toNat : Nat) : Int) - 65536 := by
  have half : 2 * (a.toNat + 256 * b.toNat) < 65536 ↔ a.toNat + 256 * b.toNat < 32768 := by omega
  simp [leInt, leNat, half]

theorem signed8_eq (inside : o + 1 ≤ image.length) :
    signed8 image o = if byteAt image o < 128 then (byteAt image o : Int) else (byteAt image o : Int) - 256 := by
  rw [signed8, slice_one inside, leInt_one]

theorem signed16_eq (inside : o + 2 ≤ image.length) : signed16 image o = intAt image o := by
  rw [signed16, slice_two inside, leInt_two]

end

/-! ### The ranges of the fields -/

theorem Table.fields_places (x : Table) : x.fields.map (fun f => (f.offset, f.size)) = x.places := by
  cases x <;> decide

section

variable {image : List Byte} {o : Nat} (least greatest : Int)

theorem good_byte (inside : o + 1 ≤ image.length) :
    FieldSpec.good ⟨o, 1, false, least, greatest⟩ image = true ↔ least ≤ byteAt image o ∧ byteAt image o ≤ greatest := by
  rw [← unsigned8_eq inside]
  simp [FieldSpec.good, FieldSpec.value, within, unsigned8]

theorem good_word (inside : o + 2 ≤ image.length) :
    FieldSpec.good ⟨o, 2, false, least, greatest⟩ image = true ↔ least ≤ wordAt image o ∧ wordAt image o ≤ greatest := by
  rw [← unsigned16_eq inside]
  simp [FieldSpec.good, FieldSpec.value, within, unsigned16]

theorem good_int (inside : o + 2 ≤ image.length) :
    FieldSpec.good ⟨o, 2, true, least, greatest⟩ image = true ↔ least ≤ intAt image o ∧ intAt image o ≤ greatest := by
  rw [← signed16_eq inside]
  simp [FieldSpec.good, FieldSpec.value, within, signed16]

theorem good_signedByte (inside : o + 1 ≤ image.length) :
    FieldSpec.good ⟨o, 1, true, -40, 40⟩ image = true ↔ byteAt image o ≤ 40 ∨ 256 - 40 ≤ byteAt image o := by
  have value : FieldSpec.value ⟨o, 1, true, -40, 40⟩ image = signed8 image o := rfl
  have small : byteAt image o < 256 := BitVec.isLt _
  rw [FieldSpec.good, value, signed8_eq inside]
  simp only [within, Bool.and_eq_true, decide_eq_true_eq]
  split <;> omega

end

theorem mem_blocks {α : Type} {n : Nat} {f : Nat → List α} {x : α} :
    x ∈ ((List.range n).map f).flatten ↔ ∃ c < n, x ∈ f c := by
  simp

/-- A field lies in its range as R188 to R191 give it. -/
theorem Table.good_iff_inRange (x : Table) {image : List Byte} {f : FieldSpec} (mem : f ∈ x.fields)
    (inside : f.offset + f.size ≤ image.length) : f.good image = true ↔ x.InRange image f.offset := by
  cases x with
  | keystone =>
    obtain ⟨n, -, rfl⟩ := List.mem_map.mp mem
    rw [good_word _ _ inside]
    dsimp only
    omega
  | curves =>
    obtain ⟨c, -, field⟩ := mem_blocks.mp mem
    obtain point | mask := List.mem_append.mp field
    · obtain ⟨k, small, point⟩ := mem_blocks.mp point
      simp only [List.mem_cons, List.not_mem_nil, or_false] at point
      obtain rfl | rfl := point
      · rw [good_int _ _ inside]
        dsimp only [Table.InRange]
        rw [if_neg (by omega), if_neg (by omega)]
      · rw [good_byte _ _ inside]
        have place : (16 * c + 3 * k + 2) % 16 = 3 * k + 2 := by omega
        dsimp only [Table.InRange]
        rw [if_neg (by omega), if_pos (by omega)]
        omega
    · obtain rfl := List.mem_singleton.mp mask
      rw [good_byte _ _ inside]
      dsimp only [Table.InRange]
      rw [if_pos (by omega)]
      omega
  | zones =>
    obtain ⟨z, -, field⟩ := mem_blocks.mp mem
    obtain threshold | rest := List.mem_append.mp field
    · obtain ⟨k, small, rfl⟩ := List.mem_map.mp threshold
      have small := List.mem_range.mp small
      have place : (11 * z + 2 * k) % 11 = 2 * k := by omega
      rw [good_int _ _ inside]
      dsimp only [Table.InRange]
      rw [if_pos (by omega)]
    · simp only [List.mem_cons, List.not_mem_nil, or_false] at rest
      obtain rfl | rfl := rest
      · rw [good_byte _ _ inside]
        dsimp only [Table.InRange]
        rw [if_neg (by omega), if_pos (by omega)]
        omega
      · rw [good_word _ _ inside]
        dsimp only [Table.InRange]
        rw [if_neg (by omega), if_neg (by omega)]
        omega
  | scan =>
    obtain ⟨j, -, field⟩ := mem_blocks.mp mem
    have small : ∀ o, byteAt image o < 256 := fun _ => BitVec.isLt _
    simp only [slotFields, List.mem_cons, List.not_mem_nil, or_false] at field
    obtain rfl | rfl | rfl | rfl | rfl := field
    · rw [good_byte _ _ inside]
      dsimp only [Table.InRange]
      rw [if_pos (by omega)]
      omega
    · rw [good_byte _ _ inside]
      dsimp only [Table.InRange]
      rw [if_neg (by omega), if_pos (by omega)]
      omega
    · rw [good_byte _ _ inside]
      dsimp only [Table.InRange]
      rw [if_neg (by omega), if_neg (by omega), if_pos (by omega)]
      have := small (5 * j + 2)
      simp only [iff_true]
      omega
    · rw [good_byte _ _ inside]
      dsimp only [Table.InRange]
      rw [if_neg (by omega), if_neg (by omega), if_neg (by omega), if_pos (by omega)]
      omega
    · rw [good_signedByte inside]
      dsimp only [Table.InRange]
      rw [if_neg (by omega), if_neg (by omega), if_neg (by omega), if_neg (by omega)]

/-! ### The first fault -/

theorem firstFault_eq_none_iff (l : List (Nat × Bool)) : firstFault l = none ↔ ∀ o, (o, false) ∉ l := by
  induction l with
  | nil => simp
  | cons c l ih =>
    obtain ⟨o, good⟩ := c
    cases good with
    | true => simp [ih]
    | false =>
      simp only [firstFault_cons, Bool.false_eq_true, if_false, reduceCtorEq, false_iff, not_forall, not_not]
      exact ⟨o, List.mem_cons_self⟩

/-- The list's offsets rise. -/
def Rising (l : List (Nat × Bool)) : Prop := l.Pairwise fun a b => a.1 < b.1

/-- Of faults in rising order the first is reported. -/
theorem firstFault_eq_some_iff {l : List (Nat × Bool)} (rising : Rising l) (o : Nat) :
    firstFault l = some o ↔ (o, false) ∈ l ∧ ∀ p < o, (p, false) ∉ l := by
  induction l with
  | nil => simp
  | cons c l ih =>
    obtain ⟨q, good⟩ := c
    obtain ⟨below, later⟩ := List.pairwise_cons.mp rising
    cases good with
    | true => simpa using ih later
    | false =>
      simp only [firstFault_cons, Bool.false_eq_true, if_false, Option.some.injEq, List.mem_cons, Prod.mk.injEq, and_true]
      constructor
      · rintro rfl
        exact ⟨.inl rfl, fun p less => not_or.mpr ⟨by omega, fun mem => by have := below _ mem; omega⟩⟩
      · rintro ⟨rfl | later, first⟩
        · rfl
        · exact absurd (.inl rfl) (first q (below _ later))

/-- Blocks of a width, each with rising offsets inside it, have rising offsets. -/
theorem rising_blocks {f : Nat → List (Nat × Bool)} (width : Nat)
    (inside : ∀ c, ∀ a ∈ f c, width * c ≤ a.1 ∧ a.1 < width * (c + 1))
    (each : ∀ c, Rising (f c)) (n : Nat) : Rising ((List.range n).map f).flatten := by
  refine List.pairwise_flatten.mpr ⟨?_, ?_⟩
  · intro l mem
    obtain ⟨c, -, rfl⟩ := List.mem_map.mp mem
    exact each c
  · refine List.pairwise_map.mpr (List.pairwise_lt_range.imp fun {c d} less a ha b hb => ?_)
    have high := (inside c a ha).2
    have low := (inside d b hb).1
    have : width * (c + 1) ≤ width * d := Nat.mul_le_mul_left _ less
    omega

theorem rising_map {n : Nat} {f : Nat → Nat × Bool} (up : ∀ i j, i < j → (f i).1 < (f j).1) : Rising ((List.range n).map f) :=
  List.pairwise_map.mpr (List.pairwise_lt_range.imp fun {i j} less => up i j less)

/-! ### The whole-table conditions -/

/-- The conditions of a curve, in the image at a place, lie in its entry and rise. -/
theorem curveConditions_rising (image : List Byte) (at_ : Nat) : Rising (curveConditions image at_) := by
  simp [Rising, curveConditions, List.range_succ]

theorem Table.conditions_rising (x : Table) (image : List Byte) : Rising (x.conditions image) := by
  cases x with
  | keystone =>
    refine List.pairwise_cons.mpr ⟨fun a mem => ?_, rising_map fun i j less => ?_⟩
    · obtain ⟨n, -, rfl⟩ := List.mem_map.mp mem
      dsimp only
      omega
    · dsimp only
      omega
  | curves =>
    refine rising_blocks (f := fun c => curveConditions image (16 * c)) 16 (fun c a mem => ?_)
      (fun c => curveConditions_rising _ _) 6
    obtain ⟨k, small, mem⟩ := mem_blocks.mp mem
    simp only [List.mem_cons, List.not_mem_nil, or_false] at mem
    obtain rfl | rfl := mem <;> dsimp only <;> omega
  | zones =>
    refine rising_blocks (f := fun z => zoneConditions image (11 * z)) 11 (fun c a mem => ?_)
      (fun z => rising_map fun i j less => ?_) 6
    · obtain ⟨k, small, rfl⟩ := List.mem_map.mp mem
      have small := List.mem_range.mp small
      dsimp only
      omega
    · dsimp only
      omega
  | scan => exact rising_map fun i j less => by dsimp only; omega

theorem mem_conditions_curves_iff (image : List Byte) (o : Nat) :
    (o, false) ∈ Table.curves.conditions image ↔ ∃ c < 6, ∃ k < 4,
      (o = 16 * c + 3 * (k + 1) ∧ signed16 image (16 * c + 3 * (k + 1)) ≤ signed16 image (16 * c + 3 * k)) ∨
        (o = 16 * c + 3 * (k + 1) + 2 ∧
          unsigned8 image (16 * c + 3 * (k + 1) + 2) < unsigned8 image (16 * c + 3 * k + 2)) := by
  simp only [Table.conditions, curveConditions, mem_blocks, List.mem_cons, List.not_mem_nil, or_false, Prod.mk.injEq,
    Bool.false_eq, decide_eq_false_iff_not, not_lt, not_le]

/-- An image breaks the condition at an offset exactly when the condition there fails. -/
theorem Table.breaks_iff (x : Table) {image : List Byte} (whole : image.length = x.length) (o : Nat) :
    x.Breaks image o ↔ (o, false) ∈ x.conditions image := by
  cases x with
  | keystone =>
    have whole : image.length = 62 := whole
    simp only [Table.Breaks, Table.conditions, keystoneConditions, List.mem_cons, List.mem_map, List.mem_range, Prod.mk.injEq,
      Bool.false_eq, decide_eq_false_iff_not, not_le, unsigned16_eq (image := image) (o := 0) (by omega)]
    refine or_congr_right (exists_congr fun n => and_congr_right fun small => ?_)
    rw [unsigned16_eq (by omega), unsigned16_eq (by omega), eq_comm]
    refine and_congr_right ?_
    rintro rfl
    rfl
  | curves =>
    have whole : image.length = 96 := whole
    rw [mem_conditions_curves_iff]
    simp only [Table.Breaks, List.mem_range]
    refine exists_congr fun c => and_congr_right fun sixth => exists_congr fun k => and_congr_right fun fourth =>
      or_congr (and_congr_right ?_) (and_congr_right ?_)
    · rintro rfl
      rw [signed16_eq (by omega), signed16_eq (by omega)]
      rfl
    · rintro rfl
      rw [unsigned8_eq (by omega), unsigned8_eq (by omega)]
      rfl
  | zones =>
    have whole : image.length = 66 := whole
    simp only [Table.Breaks, Table.conditions, zoneConditions, mem_blocks, List.mem_map, List.mem_range, Prod.mk.injEq,
      decide_eq_false_iff_not, not_lt]
    refine exists_congr fun z => and_congr_right fun sixth => exists_congr fun k => and_congr_right fun third => ?_
    rw [signed16_eq (by omega), signed16_eq (by omega), eq_comm]
    refine and_congr_right ?_
    rintro rfl
    rfl
  | scan =>
    have whole : image.length = 40 := whole
    simp only [Table.Breaks, Table.conditions, scanConditions, List.mem_map, List.mem_range, Prod.mk.injEq,
      List.all_eq_false, Bool.not_eq_true]
    refine exists_congr fun j => and_congr_right fun eighth => ?_
    rw [eq_comm]
    refine and_congr_right fun _ => exists_congr fun i => and_congr_right fun before => ?_
    rw [sameTarget, unsigned8_eq (by omega), unsigned8_eq (by omega), slice_two (by omega), slice_two (by omega)]
    simp only [Bool.not_eq_false', Bool.and_eq_true, decide_eq_true_eq, List.cons.injEq, and_true, and_assoc, byteAt,
      BitVec.toNat_inj]

theorem Table.breaks_lt (x : Table) {image : List Byte} {o : Nat} (breaks : x.Breaks image o) : o < x.length := by
  cases x with
  | keystone =>
    obtain ⟨rfl, -⟩ | ⟨n, small, rfl, -⟩ := breaks
    · decide
    · have small := List.mem_range.mp small
      dsimp only [Table.length]
      omega
  | curves =>
    obtain ⟨c, sixth, k, fourth, ⟨rfl, -⟩ | ⟨rfl, -⟩⟩ := breaks
    all_goals
      have sixth := List.mem_range.mp sixth
      have fourth := List.mem_range.mp fourth
      dsimp only [Table.length]
      omega
  | zones =>
    obtain ⟨z, sixth, k, third, rfl, -⟩ := breaks
    have sixth := List.mem_range.mp sixth
    have third := List.mem_range.mp third
    dsimp only [Table.length]
    omega
  | scan =>
    obtain ⟨j, eighth, rfl, -⟩ := breaks
    have eighth := List.mem_range.mp eighth
    dsimp only [Table.length]
    omega

/-- The first condition that an image breaks is the one reported. -/
theorem Table.firstFault_conditions (x : Table) {image : List Byte} (whole : image.length = x.length) :
    (∀ at_, firstFault (x.conditions image) = some at_ ↔ x.Breaks image at_ ∧ ∀ o < at_, ¬ x.Breaks image o) ∧
      (firstFault (x.conditions image) = none ↔ ∀ o < x.length, ¬ x.Breaks image o) := by
  refine ⟨fun at_ => ?_, ?_⟩
  · simp only [firstFault_eq_some_iff (x.conditions_rising image), x.breaks_iff whole]
  · rw [firstFault_eq_none_iff]
    constructor
    · exact fun holds o _ breaks => holds o ((x.breaks_iff whole o).mp breaks)
    · intro holds o broken
      have breaks := (x.breaks_iff whole o).mpr broken
      exact holds o (x.breaks_lt breaks) breaks

end Sys2Proof.Machine
end

