-- ==== Sys2Proof/Proofs/TableLoads.lean ====
section
/-! PROOFS. The segmented load of a table: what a segment leaves, what END_LOAD finds, and what an installation changes (R102, R183
to R185). -/

namespace Sys2Proof.Machine

/-! ### Segments -/

theorem Load.hold_kept {l : Load} (held : l.firstError.isSome = true) (cause : LoadCause) (o : Nat) : l.hold cause o = l := by
  obtain ⟨e, eq⟩ := Option.isSome_iff_exists.mp held
  rw [Load.hold, eq]

/-- An error held changes nothing else of the load, and never the first one. -/
theorem Load.hold_keeps (l : Load) (cause : LoadCause) (o : Nat) :
    (l.hold cause o).table = l.table ∧ (l.hold cause o).total = l.total ∧ (l.hold cause o).received = l.received ∧
      (l.hold cause o).image = l.image ∧ (l.firstError = none → (l.hold cause o).firstError = some (cause, o)) := by
  cases held : l.firstError <;> simp [Load.hold, held]

/-- The load with a segment placed behind what has arrived (R184). -/
def Load.placed (l : Load) (data : List Byte) : Load :=
  { l with image := l.image ++ data, received := l.received + data.length }

/-- The segment's last bytes complete a field. -/
def Load.Completes (l m : Load) (f : FieldSpec) : Prop := l.received < f.offset + f.size ∧ f.offset + f.size ≤ m.received

theorem Load.segment_outOfSequence {l : Load} {offset : Nat} (data : List Byte) (gap : offset ≠ l.received) :
    l.segment offset data = l.hold .sequence l.received := if_pos gap

theorem Load.segment_overrun {l : Load} {offset : Nat} {data : List Byte} (next : offset = l.received)
    (past : l.total < offset + data.length) : l.segment offset data = l.hold .overrun offset := by
  rw [Load.segment, if_neg (not_not.mpr next), if_pos past]

theorem Load.segment_placed {l : Load} {offset : Nat} {data : List Byte} (next : offset = l.received)
    (fits : offset + data.length ≤ l.total) :
    l.segment offset data =
      match (l.placed data).fieldFault l.received with
      | some o => (l.placed data).hold .field o
      | none => l.placed data := by
  rw [Load.segment, if_neg (not_not.mpr next), if_neg (not_lt.mpr fits)]
  rfl

/-- The fields of each table stand in rising order. -/
theorem Table.fields_rising (x : Table) : x.fields.Pairwise fun f g => f.offset < g.offset := by
  cases x <;> decide

/-- The fields that a segment completes, each with whether it is in range. -/
theorem Load.fieldFault_eq (l : Load) (data : List Byte) :
    (l.placed data).fieldFault l.received =
      firstFault ((l.table.fields.filter fun f =>
        l.received < f.offset + f.size && f.offset + f.size ≤ (l.placed data).received).map
          fun f => (f.offset, f.good (l.placed data).image)) := rfl

theorem Load.completed_rising (l : Load) (data : List Byte) :
    Rising ((l.table.fields.filter fun f =>
      l.received < f.offset + f.size && f.offset + f.size ≤ (l.placed data).received).map
        fun f => (f.offset, f.good (l.placed data).image)) :=
  List.pairwise_map.mpr (l.table.fields_rising.filter _)

/-- No field that a segment completes is at fault exactly when each is in its range. -/
theorem Load.fieldFault_none {l : Load} {data : List Byte}
    (good : ∀ f ∈ l.table.fields, l.Completes (l.placed data) f → f.good (l.placed data).image = true) :
    (l.placed data).fieldFault l.received = none := by
  rw [Load.fieldFault_eq, firstFault_eq_none_iff]
  intro o broken
  obtain ⟨f, mem, eq⟩ := List.mem_map.mp broken
  obtain ⟨mem, completed⟩ := List.mem_filter.mp mem
  simp only [Bool.and_eq_true, decide_eq_true_eq] at completed
  exact Bool.false_ne_true ((congrArg Prod.snd eq).symm.trans (good f mem completed))

/-- The first field that a segment completes out of its range is the one held. -/
theorem Load.fieldFault_some {l : Load} {data : List Byte} {f : FieldSpec} (mem : f ∈ l.table.fields)
    (completed : l.Completes (l.placed data) f) (bad : f.good (l.placed data).image = false)
    (least : ∀ g ∈ l.table.fields, l.Completes (l.placed data) g →
      g.good (l.placed data).image = false → f.offset ≤ g.offset) :
    (l.placed data).fieldFault l.received = some f.offset := by
  rw [Load.fieldFault_eq, firstFault_eq_some_iff (l.completed_rising data)]
  refine ⟨List.mem_map.mpr ⟨f, List.mem_filter.mpr ⟨mem, ?_⟩, by rw [bad]⟩, fun p below broken => ?_⟩
  · rw [Bool.and_eq_true, decide_eq_true_eq, decide_eq_true_eq]
    exact completed
  · obtain ⟨g, gmem, eq⟩ := List.mem_map.mp broken
    obtain ⟨gmem, gdone⟩ := List.mem_filter.mp gmem
    simp only [Bool.and_eq_true, decide_eq_true_eq] at gdone
    have := least g gmem gdone (congrArg Prod.snd eq)
    have := congrArg Prod.fst eq
    dsimp only at this
    omega

/-- What a segment leaves of a load, whatever becomes of it: its table, its length, and the first error. -/
theorem Load.segment_keeps (l : Load) (offset : Nat) (data : List Byte) :
    (l.segment offset data).table = l.table ∧ (l.segment offset data).total = l.total ∧
      (l.firstError.isSome = true → (l.segment offset data).firstError = l.firstError) := by
  have held (m : Load) (cause : LoadCause) (o : Nat) : (m.hold cause o).table = m.table ∧ (m.hold cause o).total = m.total ∧
      (m.firstError.isSome = true → (m.hold cause o).firstError = m.firstError) :=
    ⟨(m.hold_keeps cause o).1, (m.hold_keeps cause o).2.1, fun error => by rw [m.hold_kept error]⟩
  by_cases next : offset = l.received
  · by_cases past : l.total < offset + data.length
    · rw [Load.segment_overrun next past]
      exact held ..
    · rw [Load.segment_placed next (not_lt.mp past)]
      cases (l.placed data).fieldFault l.received with
      | none => exact ⟨rfl, rfl, fun _ => rfl⟩
      | some o => exact held (l.placed data) .field o
  · rw [Load.segment_outOfSequence data next]
    exact held ..

/-- A segment in sequence and within the table is placed and counted; the first field it completes out of range is held. -/
theorem Load.segment_places {l : Load} {offset : Nat} {data : List Byte} (next : offset = l.received)
    (fits : offset + data.length ≤ l.total) :
    (l.segment offset data).received = l.received + data.length ∧ (l.segment offset data).image = l.image ++ data ∧
      (l.firstError = none →
        ((∀ f ∈ l.table.fields, l.Completes (l.placed data) f → f.good (l.placed data).image = true) →
          (l.segment offset data).firstError = none) ∧
        (∀ f ∈ l.table.fields, l.Completes (l.placed data) f → f.good (l.placed data).image = false →
          (∀ g ∈ l.table.fields, l.Completes (l.placed data) g →
            g.good (l.placed data).image = false → f.offset ≤ g.offset) →
          (l.segment offset data).firstError = some (.field, f.offset))) := by
  have kept := (l.placed data).hold_keeps .field
  rw [Load.segment_placed next fits]
  refine ⟨?_, ?_, fun clear => ⟨fun good => ?_, fun f mem completed bad least => ?_⟩⟩
  · cases (l.placed data).fieldFault l.received with
    | none => rfl
    | some o => exact (kept o).2.2.1
  · cases (l.placed data).fieldFault l.received with
    | none => rfl
    | some o => exact (kept o).2.2.2.1
  · rw [Load.fieldFault_none good]
    exact clear
  · rw [Load.fieldFault_some mem completed bad least]
    exact (kept f.offset).2.2.2.2 clear

/-! ### The judgement of END_LOAD -/

theorem Load.report_held {l : Load} {e : LoadCause × Nat} (held : l.firstError = some e) : l.report = some e := by
  rw [Load.report, held]

theorem Load.report_short {l : Load} (clear : l.firstError = none) (short : l.received < l.total) :
    l.report = some (.short, l.received) := by
  rw [Load.report, clear]
  exact if_pos short

theorem Load.report_whole {l : Load} (clear : l.firstError = none) (whole : l.total ≤ l.received) :
    l.report = (firstFault (l.table.conditions l.image)).map fun o => (.content, o) := by
  rw [Load.report, clear]
  exact if_neg (not_lt.mpr whole)

theorem causeByte_eq (cause : LoadCause) : u8 (loadCauseCode cause) = [causeByte cause] := by cases cause <;> rfl

/-! ### An installation -/

section

variable (s : State) (x : Table) (image : List Byte)

/-- An installation counts once more, at its own table. -/
theorem State.installTable_count : (s.installTable x image).tableCount x = s.tableCount x + 1 := by cases x <;> rfl

theorem State.installTable_other {y : Table} (other : y ≠ x) :
    (s.installTable x image).tableCount y = s.tableCount y ∧ (s.installTable x image).tableImage y = s.tableImage y := by
  cases x <;> cases y <;> try exact absurd rfl other
  all_goals exact ⟨rfl, rfl⟩

/-- What an installation may change: the installed tables, their counts, and the new-table mark (R102, R185). -/
theorem State.installTable_fields :
    s.installTable x image = { s with
      ge := { s.ge with tk := (s.installTable x image).ge.tk, tkCount := (s.installTable x image).ge.tkCount },
      afc := { s.afc with floorCurves := (s.installTable x image).afc.floorCurves,
                          ceilingCurves := (s.installTable x image).afc.ceilingCurves,
                          curvesCount := (s.installTable x image).afc.curvesCount },
      tmon := { s.tmon with thresholds := (s.installTable x image).tmon.thresholds,
                            thresholdsCount := (s.installTable x image).tmon.thresholdsCount,
                            table := (s.installTable x image).tmon.table, tableCount := (s.installTable x image).tmon.tableCount,
                            newTable := if x = .scan then true else s.tmon.newTable } } := by
  cases x <;> rfl

theorem State.recompute_tableCount (y : Table) : s.recompute.tableCount y = s.tableCount y := by
  cases running : s.ge.inFlight <;> cases y <;> simp [State.recompute, running, State.tableCount, State.startComputation]

theorem State.install_eq (l : Load) :
    s.install l =
      if l.table = .keystone then (s.installTable l.table l.image).recompute else s.installTable l.table l.image := by
  rw [State.install, State.recomputeIf]
  by_cases key : l.table = .keystone <;> simp [key]

theorem State.install_count (l : Load) : (s.install l).tableCount l.table = s.tableCount l.table + 1 := by
  rw [State.install_eq]
  split
  · rw [State.recompute_tableCount, State.installTable_count]
  · exact State.installTable_count ..

end

/-! ### The requests of the load -/

theorem readTableCode_eq {code : Byte} {x : Table} (read : readTableCode code = some x) :
    (readTableCode code).isSome = true ∧ (readTableCode code).getD .keystone = x := by
  rw [read]
  exact ⟨rfl, rfl⟩

theorem tableCode_byte (l : Option Load) :
    opt8 ((l.map Load.table).map tableCode) = match l with | some l => u8 (tableCode l.table) | none => [0xFF] := by
  cases l <;> rfl

section

variable {s : State} (listens : Listens s)
include listens

/-- BEGIN_LOAD of another length is refused (R183). -/
theorem beginLoad_outOfRange {code : Byte} {x : Table} {total : Word16} (read : readTableCode code = some x)
    (other : total.toNat ≠ x.length) :
    exec (.beginLoad .control code total) s =
      .next (answered s .control 0x48 .outOfRange ([code] ++ le16 total ++ [0xFF])) := by
  obtain ⟨known, table⟩ := readTableCode_eq read
  dsimp only [exec, execBeginLoad]
  rw [request_refused (status := .outOfRange) listens (by rw [known]; rfl) (by simp [table, firstFail, controlOnly, other])]
  rfl

/-- BEGIN_LOAD of the table's length opens a load (R183). -/
theorem beginLoad_opens {code : Byte} {x : Table} {total : Word16} (read : readTableCode code = some x)
    (same : total.toNat = x.length) :
    exec (.beginLoad .control code total) s =
      .next (answered (s.setLoad (some ⟨x, x.length, 0, [], none⟩)) .control 0x48 .ok
        ([code] ++ le16 total ++ match s.cpi.load with | some l => u8 (tableCode l.table) | none => [0xFF])) := by
  obtain ⟨known, table⟩ := readTableCode_eq read
  dsimp only [exec, execBeginLoad]
  rw [request_passed listens (by rw [known]; rfl) (by simp [table, firstFail, controlOnly, same]), table, ← tableCode_byte]
  rfl

theorem beginLoad_badField (p : Port) {code : Byte} (total : Word16) (unread : readTableCode code = none) :
    exec (.beginLoad p code total) s = .next (answered s p 0x48 .badRequest [3, 0]) := by
  dsimp only [exec, execBeginLoad]
  rw [request_fault (offset := 0) listens (by rw [unread]; rfl)]
  rfl

/-- LOAD_SEGMENT without a load, or of an open one (R184). -/
theorem loadSegment_fits {offset : Word16} {data : List Byte} (fits : segmentFits data = true) :
    exec (.loadSegment .control offset data) s =
      match s.cpi.load with
      | none => .next (answered s .control 0x49 .noLoad [0, 0, 0])
      | some l =>
        .next (answered (s.setLoad (some (l.segment offset.toNat data))) .control 0x49 .accepted
          (u16 (l.segment offset.toNat data).received ++ flag (l.segment offset.toNat data).firstError.isSome)) := by
  dsimp only [exec, execLoadSegment]
  rw [takeRequest_listens listens, if_pos fits]
  cases open_ : s.cpi.load with
  | none =>
    rw [judge_refused rfl rfl, open_]
    rfl
  | some l =>
    rw [judge_passed rfl rfl, open_]
    rfl

theorem loadSegment_badLength (p : Port) (offset : Word16) {data : List Byte} (unfit : ¬ segmentFits data = true) :
    exec (.loadSegment p offset data) s = .next (answered s p 0x49 .badRequest [1, 0]) := by
  dsimp only [exec, execLoadSegment]
  rw [takeRequest_listens listens, if_neg unfit]
  rfl

theorem endLoad_noLoad (closed : s.cpi.load = none) :
    exec (.endLoad .control) s = .next (answered s .control 0x4A .noLoad [0xFF, 0, 0, 0xFF, 0, 0]) := by
  dsimp only [exec, execEndLoad]
  rw [request_refused listens rfl (by rw [closed]; rfl), closed]
  rfl

/-- END_LOAD of a load with a fault reports it and installs nothing (R185). -/
theorem endLoad_invalid {l : Load} (open_ : s.cpi.load = some l) {cause : LoadCause} {at_ : Nat}
    (report : l.report = some (cause, at_)) :
    exec (.endLoad .control) s =
      .next (answered (s.setLoad none) .control 0x4A .tableInvalid
        (u8 (tableCode l.table) ++ le16 (s.tableCount l.table) ++ [causeByte cause] ++ u16 at_)) := by
  dsimp only [exec, execEndLoad]
  rw [request_passed listens rfl (by rw [open_]; rfl)]
  simp only [open_, report, ← causeByte_eq, List.append_assoc]
  rfl

/-- END_LOAD of a load without a fault installs its table (R185, R83). -/
theorem endLoad_installs {l : Load} (open_ : s.cpi.load = some l) (report : l.report = none) :
    exec (.endLoad .control) s =
      .next (answered ((s.setLoad none).install l) .control 0x4A .ok
        (u8 (tableCode l.table) ++ le16 (s.tableCount l.table + 1) ++ [0xFF] ++ u16 0)) := by
  have count : ((s.setLoad none).install l).tableCount l.table = s.tableCount l.table + 1 :=
    ((s.setLoad none).install_count l).trans (by cases l.table <;> rfl)
  dsimp only [exec, execEndLoad]
  rw [request_passed listens rfl (by rw [open_]; rfl)]
  simp only [open_, report, State.endReply, count, List.append_assoc]
  rfl

end

theorem segmentFits_iff (data : List Byte) : segmentFits data = true ↔ 1 ≤ data.length ∧ data.length ≤ 56 := by
  simp [segmentFits]

/-- Settles O50: the tables' fields by their lists; the load by the segments' cases and END_LOAD's judgement. -/
theorem tableLoads : Obligations.TableLoads := by
  refine ⟨fun x image => ⟨x.fields_places, fun f mem inside => x.good_iff_inRange mem inside, x.firstFault_conditions⟩,
    fun s listens => ⟨fun code x total read => ⟨beginLoad_outOfRange listens read, beginLoad_opens listens read⟩,
      fun p code total => beginLoad_badField listens p total,
      fun closed => ⟨endLoad_noLoad listens closed, fun offset data filled few => ?_⟩, fun p offset data unfit => ?_,
      fun l open_ => ⟨fun offset data filled few => ?_, fun cause at_ held => ?_,
        fun clear short => ?_, fun clear whole => ⟨fun at_ broken => ?_, fun good => ?_⟩⟩⟩⟩
  · rw [loadSegment_fits listens ((segmentFits_iff data).mpr ⟨filled, few⟩), closed]
  · exact loadSegment_badLength listens p offset (by rw [segmentFits_iff]; omega)
  · obtain ⟨table, total, first⟩ := l.segment_keeps offset.toNat data
    refine ⟨l.segment offset.toNat data, ?_, table, total, first, fun gap => ?_, fun next past => ?_, fun next fits => ?_⟩
    · rw [loadSegment_fits listens ((segmentFits_iff data).mpr ⟨filled, few⟩), open_]
      rfl
    · rw [Load.segment_outOfSequence data gap]
      exact (l.hold_keeps .sequence l.received).2.2
    · rw [Load.segment_overrun next past]
      exact (l.hold_keeps .overrun offset.toNat).2.2
    · obtain ⟨received, image, field⟩ := Load.segment_places next fits
      refine ⟨received, image, fun clear => ?_⟩
      simp only [received, image]
      exact field clear
  · exact endLoad_invalid listens open_ (Load.report_held held)
  · exact endLoad_invalid listens open_ (Load.report_short clear short)
  · exact endLoad_invalid listens open_ (by rw [Load.report_whole clear whole, broken]; rfl)
  · have count (x : Table) : (s.setLoad none).tableCount x = s.tableCount x := by cases x <;> rfl
    have image (x : Table) : (s.setLoad none).tableImage x = s.tableImage x := by cases x <;> rfl
    refine ⟨((s.setLoad none).installTable_count l.table l.image).trans (by rw [count]), fun x other => ?_,
      (s.setLoad none).installTable_fields l.table l.image, ?_⟩
    · obtain ⟨counted, imaged⟩ := (s.setLoad none).installTable_other l.table l.image other
      exact ⟨counted.trans (count x), imaged.trans (image x)⟩
    · rw [endLoad_installs listens open_ (by rw [Load.report_whole clear whole, good]; rfl), State.install_eq]
      rfl

end Sys2Proof.Machine
end

