-- ==== Sys2Proof/Proofs/LightFollows.lean ====
section
/-! PROOFS. The light session behind selections and trips: what the LAU hears of the acoustic excess, and an LAU that has gone dark
(R130, R142, R150, R152). -/

namespace Sys2Proof.Machine

/-! ### Inputs that no component reads -/

/-- The LAU that has noted the ready mark and the device thermal state: no component reads either (R152). -/
def Lau.noted (l : Lau) (ready : Bool) (device : Thermal) : Lau :=
  { l with held := { l.held with ready := ready, device := device } }

section

variable (l : Lau) (ready : Bool) (device : Thermal) (now : Nat)

theorem Lau.followTarget_noted : (l.noted ready device).followTarget now = (l.followTarget now).noted ready device := by
  unfold Lau.followTarget
  have target : (l.noted ready device).target = l.target := rfl
  rw [target]
  cases l.target with
  | none => rfl
  | some t =>
    have drive : (l.noted ready device).drive = l.drive := rfl
    dsimp only
    rw [drive, apply_ite (fun m : Lau => m.noted ready device)]
    rfl

theorem Lau.form_noted : (l.noted ready device).form now = (l.form now).noted ready device :=
  Lau.followTarget_noted { l with components := l.formComponents, allowance := l.formComponents.least l.params } ready device now

theorem Lau.hearsExcess_noted (before excess : Nat) :
    (l.noted ready device).hearsExcess now before excess = (l.hearsExcess now before excess).noted ready device := by
  unfold Lau.hearsExcess
  split
  · rfl
  · rw [← Lau.form_eq_formed, ← Lau.form_eq_formed]
    exact Lau.form_noted { l with held := { l.held with excess := excess } } ready device now

end

/-! ### What the LAU hears of a selection (R130, R152) -/

theorem State.selectFans_excess (s : State) : s.selectFans.afc.excess = s.excessOf := by
  rw [State.selectFans_afc, State.excessOf_eq]
  rfl

theorem State.selectFans_lau (s : State) : s.selectFans.lau = s.lau.hearsExcess s.now s.afc.excess s.excessOf := by
  rw [← State.selectFans_excess, State.selectFans_afc, Lau.hearsExcess]
  dsimp only [State.selectFans]
  split
  · rfl
  · rw [← Lau.form_eq_formed]
    rfl

theorem Lau.hearsExcess_same (l : Lau) (now excess : Nat) : l.hearsExcess now excess excess = l := if_pos rfl

theorem Lau.form_drive_le (now : Nat) (l : Lau) : (l.form now).drive ≤ l.drive :=
  Lau.followTarget_drive_le now { l with components := l.formComponents, allowance := l.formComponents.least l.params }

/-- The LAU keeps its session levels and its applied request, and its drive does not rise. -/
structure Lau.Settles (l m : Lau) : Prop where
  levels : LevelsOnly l m
  applied : m.applied = l.applied
  drive : m.drive ≤ l.drive

namespace Lau.Settles

variable {l m n : Lau}

theorem refl (l : Lau) : l.Settles l := ⟨rfl, rfl, le_rfl⟩

theorem trans (h : l.Settles m) (g : m.Settles n) : l.Settles n :=
  ⟨h.levels.trans g.levels, g.applied.trans h.applied, g.drive.trans h.drive⟩

theorem hold (h : l.Settles m) (held : LauInputs) : l.Settles { m with held := held } :=
  h.trans ⟨rfl, rfl, le_rfl⟩

theorem form (h : l.Settles m) (now : Nat) : l.Settles (m.form now) :=
  h.trans ⟨Lau.form_levelsOnly now m, Lau.form_applied now m, Lau.form_drive_le now m⟩

theorem take (h : l.Settles m) (now : Nat) (held : LauInputs) : l.Settles (m.take now held) := (h.hold held).form now

theorem hearsExcess (h : l.Settles m) (now before excess : Nat) : l.Settles (m.hearsExcess now before excess) := by
  unfold Lau.hearsExcess
  split
  · exact h
  · rw [← Lau.form_eq_formed]
    exact h.take now _

end Lau.Settles

theorem State.formDevice_lau_settles (s : State) : s.lau.Settles s.formDevice.lau := by
  by_cases changed : s.tmon.formDevice = s.tmon.device
  · rw [s.formDevice_of_same changed]
    exact .refl _
  · have heard : s.lau.Settles s.lensTold.selectFans.lau := by
      rw [State.selectFans_lau, s.lensTold_lau]
      exact (Lau.Settles.refl _).hearsExcess _ _ _
    rw [s.formDevice_of_changed changed]
    exact heard.hold _

/-! ### An LAU that has gone dark (R142, R150) -/

theorem Lau.form_of_unlit {l : Lau} (now : Nat) (unlit : l.session.lightEn = false) :
    l.form now =
      { l with components := l.formComponents, allowance := l.formComponents.least l.params, drive := 0, slew := none } := by
  have target : Lau.target { l with components := l.formComponents, allowance := l.formComponents.least l.params } = none :=
    Lau.target_of_dark unlit
  rw [Lau.form, Lau.followTarget, target]

/-- The LAU has gone dark into a session state from what it was, whatever it holds. -/
def Lau.DarkenedTo (l : Lau) (new : Session) (m : Lau) : Prop :=
  m = { l.dark new with components := m.components, allowance := m.allowance, held := m.held }

namespace Lau.DarkenedTo

variable {l m : Lau} {new : Session}

theorem hold (h : l.DarkenedTo new m) (held : LauInputs) : l.DarkenedTo new { m with held := held } := by
  unfold Lau.DarkenedTo
  rw [h]

theorem form_eq (h : l.DarkenedTo new m) (unlit : new.lightEn = false) (now : Nat) :
    m.form now = Lau.form now { l.dark new with held := m.held } := by
  rw [h, Lau.form_of_unlit now unlit, Lau.form_of_unlit now unlit]
  rfl

theorem take_eq (h : l.DarkenedTo new m) (unlit : new.lightEn = false) (now : Nat) (held : LauInputs) :
    m.take now held = Lau.form now { l.dark new with held := held } := (h.hold held).form_eq unlit now

theorem form (h : l.DarkenedTo new m) (unlit : new.lightEn = false) (now : Nat) : l.DarkenedTo new (m.form now) := by
  rw [h.form_eq unlit now, Lau.form_of_unlit now unlit]
  rfl

theorem hearsExcess (h : l.DarkenedTo new m) (unlit : new.lightEn = false) (now before excess : Nat) :
    l.DarkenedTo new (m.hearsExcess now before excess) := by
  unfold Lau.hearsExcess
  split
  · exact h
  · rw [← Lau.form_eq_formed]
    exact (h.hold _).form unlit now

end Lau.DarkenedTo

/-- A session change to STANDBY or TRIPPED darkens the LAU. -/
theorem Lau.switch_darkens {l m : Lau} (settles : l.Settles m) (now : Nat) {new : Session}
    (new_dark : new = .standby ∨ new = .tripped) : l.DarkenedTo new (m.switch now new) := by
  obtain ⟨levels, applied, -⟩ := settles
  rw [levels, applied]
  obtain rfl | rfl := new_dark <;> rfl

end Sys2Proof.Machine
end

