-- ==== Sys2Proof/Proofs/AbsoluteTrips.lean ====
section
/-! PROOFS. A change of session state, the orientation through a lens event, and the trip that an evaluation declares (R38, R113,
R114, R142, R150). -/

namespace Sys2Proof.Machine

/-! ### A change of session state (R142) -/

section

variable (s : State) (new : Session) (cause : SessionCause)

/-- The part that has entered a session state and told of it. -/
def State.sessionTaken : State :=
  State.raise { s with lau := (s.lau.switch s.now new).form s.now } (.lightState new s.lau.session cause)

theorem State.enterSession_eq : s.enterSession new cause = (s.sessionTaken new cause).selectFans := rfl

theorem told_enterSession : Told s (s.enterSession new cause) .lightState (some (.lightState new s.lau.session cause)) :=
  (told_raise (s := { s with lau := _ }) (e := .lightState ..) (shared_lightState _ _ _)).trans_none (told_selectFans _ _)

theorem told_enterSession_of_ne {k : EventKind} (other : k ≠ .lightState) : Told s (s.enterSession new cause) k none :=
  (told_raise_of_ne (s := { s with lau := _ }) (e := .lightState ..) (Ne.symm other)).trans_none (told_selectFans _ _)

theorem State.selectFans_session : s.selectFans.lau.session = s.lau.session :=
  (congrArg Lau.session s.selectFans_levelsOnly).trans rfl

theorem State.selectFans_airInputs : s.selectFans.airInputs = s.airInputs := by
  rw [State.airInputs, State.selectFans_session, State.selectFans_now, State.selectFans_tmon]
  rfl

theorem State.enterSession_afc : (s.enterSession new cause).afc = s.afc.select (s.enterSession new cause).airInputs := by
  rw [State.enterSession_eq, State.selectFans_airInputs, State.selectFans_afc]
  rfl

theorem State.enterSession_lau :
    (s.enterSession new cause).lau = ((s.lau.switch s.now new).form s.now).hearsExcess s.now s.afc.excess
      (s.enterSession new cause).afc.excess := by
  rw [State.enterSession_eq, State.selectFans_excess, State.selectFans_lau]
  rfl

end

theorem FansOnly.trans {a b c : Afc} (h : FansOnly a b) (g : FansOnly b c) : FansOnly a c := by
  obtain ⟨h, demand⟩ := h
  obtain ⟨g, demand'⟩ := g
  refine ⟨?_, fun f => (demand' f).trans (demand f)⟩
  rw [g, h]

theorem State.selectFans_fansOnly (s : State) : FansOnly s.afc s.selectFans.afc := by
  rw [State.selectFans_afc]
  exact Afc.select_fansOnly _ _

theorem State.enterSession_fansOnly (s : State) (new : Session) (cause : SessionCause) :
    FansOnly s.afc (s.enterSession new cause).afc := by
  rw [State.enterSession_afc]
  exact Afc.select_fansOnly _ _

theorem State.formDevice_fansOnly (s : State) : FansOnly s.afc s.formDevice.afc := by
  by_cases changed : s.tmon.formDevice = s.tmon.device
  · rw [s.formDevice_of_same changed]
    exact ⟨rfl, fun _ => rfl⟩
  · rw [s.formDevice_afc changed]
    exact Afc.select_fansOnly _ _

/-! ### The orientation (R2, R37, R38) -/

theorem State.deliver_orientation (s : State) (v h : LensOut) : (s.deliver v h).irm.orientation = s.irm.orientation := by
  rw [State.deliver_irm]
  split <;> rfl

theorem State.lensEvent_orientation (s : State) (f : Axis → AxisEnv → AxisState → LensOut) :
    (s.lensEvent f).irm.orientation = s.irm.orientation := by
  obtain ⟨b, eq⟩ := s.lensEvent_eq_acted f
  rw [eq, State.recomputeIf_irm, State.deliver_orientation]
  exact State.deliver_orientation ..

theorem State.formDevice_orientation (s : State) : s.formDevice.irm.orientation = s.irm.orientation := by
  by_cases changed : s.tmon.formDevice = s.tmon.device
  · rw [s.formDevice_of_same changed]
  · rw [s.formDevice_of_changed changed]
    dsimp only
    rw [State.selectFans_irm, State.lensTold]
    split
    · exact State.lensEvent_orientation ..
    · rfl

/-! ### The trip of an evaluation (R113, R114) -/

section

variable (s : State) (z : Zone)

/-- The part with the trip latch set for a zone, which TRIP has told of. -/
def State.tripLatched : State :=
  State.raise
    { s with tmon := { s.tmon with trip := some ⟨.absolute, .zone z, (s.tmon.zones.get z).temperature⟩, dwell := none } }
    (.trip .absolute (.zone z) (s.tmon.zones.get z).temperature)

/-- The part after an ABSOLUTE trip. -/
def State.absoluteTripped : State := (s.tripLatched z).tripHalt.selectFans.enterSession .tripped .trip

theorem State.checkAbsolute_of_found {z : Zone} (clear : s.tmon.trip = none) (found : s.tmon.absoluteZone = some z) :
    s.checkAbsolute = s.absoluteTripped z := by
  rw [State.checkAbsolute, found]
  exact if_neg (by simp [clear])

theorem State.checkAbsolute_of_latched (latched : s.tmon.trip.isSome = true) : s.checkAbsolute = s := by
  unfold State.checkAbsolute
  split
  · exact if_pos latched
  · rfl

theorem State.checkAbsolute_of_none (none_ : s.tmon.absoluteZone = none) : s.checkAbsolute = s := by
  rw [State.checkAbsolute, none_]

theorem State.absoluteTripped_tmon :
    (s.absoluteTripped z).tmon =
      { s.tmon with trip := some ⟨.absolute, .zone z, (s.tmon.zones.get z).temperature⟩, dwell := none } := by
  simp [State.absoluteTripped, State.tripLatched]

theorem State.absoluteTripped_orientation : (s.absoluteTripped z).irm.orientation = s.irm.orientation := by
  rw [State.absoluteTripped, State.enterSession_irm, State.selectFans_irm]
  exact State.lensEvent_orientation ..

theorem State.absoluteTripped_axis (a : Axis) :
    ((s.absoluteTripped z).axis a).moving = false ∧ ((s.absoluteTripped z).axis a).queue = [] := by
  have lmc : (s.absoluteTripped z).lmc = ⟨(s.tripLatched z).halted .v, (s.tripLatched z).halted .h⟩ := by
    rw [State.absoluteTripped, State.enterSession_lmc, State.selectFans_lmc, State.tripHalt_lmc]
  have axis : (s.absoluteTripped z).axis a = (s.tripLatched z).halted a := by
    cases a
    · exact congrArg Lmc.v lmc
    · exact congrArg Lmc.h lmc
  rw [axis]
  refine ⟨AxisState.halt_moving _ _ _, ?_⟩
  cases moving : ((s.tripLatched z).axis a).moving with
  | true => rw [State.halted, AxisState.halt_trip_of_moving _ _ moving]
  | false => rw [State.halted, AxisState.halt_of_still _ _ _ moving]

theorem State.absoluteTripped_fansOnly : FansOnly s.afc (s.absoluteTripped z).afc := by
  have halted : (s.tripLatched z).tripHalt.afc = s.afc := State.tripHalt_afc _
  have selected := (s.tripLatched z).tripHalt.selectFans_fansOnly
  rw [halted] at selected
  exact selected.trans (State.enterSession_fansOnly _ _ _)

/-- A trip darkens the LAU into TRIPPED. -/
theorem State.absoluteTripped_darkens {l : Lau} (settles : l.Settles s.lau) :
    l.DarkenedTo .tripped (s.absoluteTripped z).lau := by
  have halted : (s.tripLatched z).tripHalt.lau = s.lau := State.tripHalt_lau _
  have selected : l.Settles (s.tripLatched z).tripHalt.selectFans.lau := by
    rw [State.selectFans_lau, halted]
    exact settles.hearsExcess _ _ _
  rw [State.absoluteTripped, State.enterSession_lau]
  exact ((Lau.switch_darkens selected _ (.inr rfl)).form rfl _).hearsExcess rfl _ _ _

end

/-! ### What both processors hear of the trip (R114, R173) -/

theorem AxisState.halt_tellsEnds (env : AxisEnv) (x : AxisState) (reason : DoneReason) : (x.halt env reason).TellsEnds := by
  unfold LensOut.TellsEnds
  rw [AxisState.halt_later, List.append_nil, AxisState.halt_events]
  intro e mem
  have kinds : x.moving = true ∧
      (e = .lensDone env.axis x.position reason ∨ x.pendingHome = true ∧ e = .homeFail env.axis x.position .cancelled) := by
    simpa [AxisState.haltEvents] using mem
  obtain ⟨-, rfl | ⟨-, rfl⟩⟩ := kinds
  · exact .inl rfl
  · exact .inr rfl

theorem told_tripHalt (s : State) {k : EventKind} (change : k ≠ .installChanged) (done : k ≠ .lensDone) (fail : k ≠ .homeFail) :
    Told s s.tripHalt k none :=
  told_lensEvent_of_spares change (fun _ env x => (x.halt_tellsEnds env _).spares done fail) fun env x =>
    (x.endIfStopped_tellsEnds env).spares done fail

/-- The kinds of event that a trip raises. -/
def tripKinds : List EventKind := [.trip, .lightState, .installChanged, .lensDone, .homeFail]

section

variable (s : State) (z : Zone)

theorem told_absoluteTripped_of_not_tripKinds {k : EventKind} (other : k ∉ tripKinds) : Told s (s.absoluteTripped z) k none := by
  simp only [tripKinds, List.mem_cons, List.not_mem_nil, or_false, not_or] at other
  obtain ⟨trip, light, change, done, fail⟩ := other
  have latched : Told s (s.tripLatched z) k none := told_raise_of_ne (s := { s with tmon := _ }) (Ne.symm trip)
  exact ((latched.trans_none (told_tripHalt _ change done fail)).trans_none (told_selectFans _ _)).trans_none
    (told_enterSession_of_ne _ _ _ light)

theorem told_absoluteTripped_trip :
    Told s (s.absoluteTripped z) .trip (some (.trip .absolute (.zone z) (s.tmon.zones.get z).temperature)) := by
  have latched : Told s (s.tripLatched z) .trip (some (.trip .absolute (.zone z) (s.tmon.zones.get z).temperature)) :=
    told_raise (s := { s with tmon := _ }) (e := .trip ..) (shared_trip _ _ _)
  exact ((latched.trans_none (told_tripHalt _ nofun nofun nofun)).trans_none (told_selectFans _ _)).trans_none
    (told_enterSession_of_ne _ _ _ nofun)

theorem told_absoluteTripped_lightState :
    Told s (s.absoluteTripped z) .lightState (some (.lightState .tripped s.lau.session .trip)) := by
  have latched : Told s (s.tripLatched z) .lightState none := told_raise_of_ne (s := { s with tmon := _ }) nofun
  have session : (s.tripLatched z).tripHalt.selectFans.lau.session = s.lau.session := by
    rw [State.selectFans_session, State.tripHalt_lau]
    rfl
  have entered := told_enterSession (s.tripLatched z).tripHalt.selectFans .tripped .trip
  rw [session] at entered
  exact ((latched.trans_none (told_tripHalt _ nofun nofun nofun)).trans_none (told_selectFans _ _)).after_none entered

end

end Sys2Proof.Machine
end

