-- ==== Sys2Proof/Proofs/EvaluationStages.lean ====
section
/-! PROOFS. The stages of the evaluation that ends a scan: the zones and the device thermal state, the trip, the dwell timer, and
the hand-over to the AFC and the LAU (R106 to R114, R123, R124, R149, R152). -/

namespace Sys2Proof.Machine

/-! ### The stages (R109) -/

/-- The part whose zones the evaluation has judged afresh. -/
def State.judged (s : State) (bus : BusCondition) : State :=
  { s with tmon := { s.tmon.evaluateZones with scan := none, bus := bus } }

/-- The part with the device thermal state formed of the zones. -/
def State.deviceJudged (s : State) (bus : BusCondition) : State := (s.judged bus).formDevice

/-- The part whose evaluation is to be handed on: a trip declared, the scan counted. -/
def State.counted (s : State) (bus : BusCondition) : State := (s.deviceJudged bus).checkAbsolute.countScan

/-- The AFC has taken the zone records. -/
def State.airJudged (s : State) : State := State.selectFans { s with afc := s.afc.evaluate s.irm.orientation s.tmon.zones }

/-- The LAU has taken the zone records behind the AFC. -/
def State.lightJudged (s : State) : State :=
  s.airJudged.lauTake { s.airJudged.lau.held with zones := s.airJudged.tmon.zones, thresholds := s.airJudged.tmon.thresholds }

theorem State.handResults_eq (s : State) : s.handResults = s.lightJudged.checkCooled := rfl

theorem State.evaluate_eq_counted (s : State) (bus : BusCondition) : s.evaluate bus = (s.counted bus).handResults :=
  s.evaluate_eq bus

theorem State.deviceJudged_trip (s : State) (bus : BusCondition) : (s.deviceJudged bus).tmon.trip = s.tmon.trip :=
  (congrArg Tmon.trip (s.judged bus).formDevice_tmon).trans rfl

/-- An evaluation declares a trip, or goes on without one. -/
theorem State.counted_cases (s : State) (bus : BusCondition) :
    (s.tmon.trip = none ∧ ∃ z, (s.deviceJudged bus).tmon.absoluteZone = some z ∧
        s.counted bus = ((s.deviceJudged bus).absoluteTripped z).countScan) ∨
      ((s.tmon.trip.isSome = true ∨ (s.deviceJudged bus).tmon.absoluteZone = none) ∧
        s.counted bus = (s.deviceJudged bus).countScan) := by
  have trip := s.deviceJudged_trip bus
  cases latch : s.tmon.trip with
  | some r =>
    refine .inr ⟨.inl rfl, ?_⟩
    rw [State.counted, State.checkAbsolute_of_latched _ (by rw [trip, latch]; rfl)]
  | none =>
    cases found : (s.deviceJudged bus).tmon.absoluteZone with
    | none => exact .inr ⟨.inr rfl, by rw [State.counted, State.checkAbsolute_of_none _ found]⟩
    | some z => exact .inl ⟨rfl, z, rfl, by rw [State.counted, State.checkAbsolute_of_found _ (trip.trans latch) found]⟩

/-! ### The TMON (R106, R108, R110, R112, R113) -/

theorem State.formDevice_dwell (s : State) :
    s.formDevice.tmon.dwell =
      if s.tmon.formDevice = s.tmon.device then s.tmon.dwell else s.tmon.dwellAfter s.now s.tmon.formDevice := by
  by_cases changed : s.tmon.formDevice = s.tmon.device
  · rw [s.formDevice_of_same changed, if_pos changed]
  · rw [s.formDevice_of_changed changed, if_neg changed]
    dsimp only
    rw [State.selectFans_tmon, State.lensTold_tmon]
    rfl

theorem State.deviceJudged_tmon (s : State) (bus : BusCondition) :
    (s.deviceJudged bus).tmon =
      { s.tmon.evaluateZones with
        scan := none, bus := bus, device := s.tmon.evaluateZones.formDevice, dwell := (s.deviceJudged bus).tmon.dwell } :=
  (s.judged bus).formDevice_tmon

section

variable (s : State) (bus : BusCondition)

/-- The device thermal state that the zones form. -/
def State.formedDevice : Thermal := s.tmon.evaluateZones.formDevice

/-- The trip latch after an evaluation (R113). -/
def State.formedTrip : Option TripRecord :=
  if s.tmon.trip.isSome then s.tmon.trip
  else (absoluteZone s.tmon.evaluateZones.zones s.tmon.thresholds).map fun z =>
    ⟨.absolute, .zone z, (s.tmon.evaluateZones.zones.get z).temperature⟩

/-- The dwell timer after an evaluation (R112, R114). -/
def State.formedDwell : Option Nat :=
  if s.tmon.trip ≠ s.formedTrip then none
  else if s.formedDevice = s.tmon.device then s.tmon.dwell
  else if s.formedDevice = .critical ∧ s.tmon.trip = none then some (s.now + 1000000 * s.tmon.dwellSeconds)
  else if s.formedDevice = .critical then s.tmon.dwell else none

theorem State.deviceJudged_dwell :
    (s.deviceJudged bus).tmon.dwell =
      if s.formedDevice = s.tmon.device then s.tmon.dwell
      else if s.formedDevice = .critical ∧ s.tmon.trip = none then some (s.now + 1000000 * s.tmon.dwellSeconds)
      else if s.formedDevice = .critical then s.tmon.dwell else none := by
  refine (s.judged bus).formDevice_dwell.trans (if_congr Iff.rfl rfl ?_)
  change (if s.formedDevice = .critical then
    if s.tmon.trip = none then some (s.now + 1000000 * s.tmon.dwellSeconds) else s.tmon.dwell else none) = _
  by_cases hot : s.formedDevice = .critical <;> simp [hot]

theorem State.deviceJudged_absoluteZone :
    (s.deviceJudged bus).tmon.absoluteZone = absoluteZone s.tmon.evaluateZones.zones s.tmon.thresholds := by
  rw [State.deviceJudged_tmon]
  rfl

/-- The TMON after an evaluation. -/
theorem State.counted_tmon :
    (s.counted bus).tmon =
      { s.tmon.evaluateZones with
        scan := none, bus := bus, device := s.formedDevice, trip := s.formedTrip, dwell := s.formedDwell,
        scanNumber := s.tmon.scanNumber + 1, ready := true } := by
  obtain ⟨clear, z, found, eq⟩ | ⟨quiet, eq⟩ := s.counted_cases bus
  · have latched : s.formedTrip = some ⟨.absolute, .zone z, (s.tmon.evaluateZones.zones.get z).temperature⟩ := by
      rw [State.formedTrip, if_neg (by simp [clear]), ← s.deviceJudged_absoluteZone bus, found]
      rfl
    have stopped : s.formedDwell = none := if_pos (by rw [latched, clear]; exact nofun)
    rw [eq, State.countScan, latched, stopped]
    dsimp only
    rw [State.absoluteTripped_tmon, State.deviceJudged_tmon]
    rfl
  · have kept : s.formedTrip = s.tmon.trip := by
      unfold State.formedTrip
      split
      · rfl
      · next clear =>
        rw [← s.deviceJudged_absoluteZone bus, quiet.resolve_left clear]
        exact (Option.not_isSome_iff_eq_none.mp clear).symm
    have timer : s.formedDwell = (s.deviceJudged bus).tmon.dwell := by
      rw [State.formedDwell, if_neg (not_not.mpr kept.symm), State.deviceJudged_dwell]
    rw [eq, State.countScan, kept, timer]
    dsimp only
    rw [State.deviceJudged_tmon]
    rfl

/-- A zone's record as the evaluation judges it (R106, R108). -/
theorem State.counted_zone (z : Zone) : (s.counted bus).tmon.zones.get z = s.tmon.evaluateZone z := by
  rw [State.counted_tmon]
  exact PerZone.get_build ..

theorem Tmon.evaluateZone_reading (t : Tmon) (z : Zone) :
    ((t.evaluateZone z).status, (t.evaluateZone z).temperature) = zoneReading (t.slotsOf z) (t.thresholds.get z) := rfl

/-- The state of a zone that reads, or NORMAL (R106, R108). -/
theorem Tmon.evaluateZone_state (t : Tmon) (z : Zone) :
    (t.evaluateZone z).state =
      match (t.evaluateZone z).inUse, (t.evaluateZone z).temperature with
      | true, some x => zoneState (t.thresholds.get z) (t.zones.get z).state x
      | _, _ => .normal := by
  dsimp only [Tmon.evaluateZone, ZoneRecord.inUse]
  generalize zoneReading (t.slotsOf z) (t.thresholds.get z) = reading
  obtain ⟨status, temperature⟩ := reading
  cases status <;> cases temperature <;> rfl

theorem Tmon.evaluateZone_unused (t : Tmon) (z : Zone) (unused : (t.evaluateZone z).inUse = false) :
    (t.evaluateZone z).state = .normal := by rw [t.evaluateZone_state, unused]

theorem Tmon.evaluateZone_used (t : Tmon) (z : Zone) {x : Int} (reads : (t.evaluateZone z).temperature = some x)
    (used : (t.evaluateZone z).inUse = true) :
    (t.evaluateZone z).state = zoneState (t.thresholds.get z) (t.zones.get z).state x := by
  rw [t.evaluateZone_state, used, reads]

end

end Sys2Proof.Machine
end

