-- ==== Sys2Proof/Proofs/EvaluationFans.lean ====
section
/-! PROOFS. What the AFC makes of an evaluation: the demand of each fan, and the selection that every way through the evaluation
ends in (R121, R123, R124, R125, R149). -/

namespace Sys2Proof.Machine

/-! ### The demand of a curve (R123) -/

theorem le_foldl_max (a : Nat) (l : List Nat) : (a ≤ l.foldl max a) ∧ ∀ b ∈ l, b ≤ l.foldl max a := by
  induction l generalizing a with
  | nil => exact ⟨le_rfl, nofun⟩
  | cons c l ih =>
    obtain ⟨start, rest⟩ := ih (max a c)
    refine ⟨(le_max_left a c).trans start, List.forall_mem_cons.mpr ⟨(le_max_right a c).trans start, rest⟩⟩

theorem foldl_max_mem (a : Nat) (l : List Nat) : l.foldl max a = a ∨ l.foldl max a ∈ l := by
  induction l generalizing a with
  | nil => exact .inl rfl
  | cons c l ih =>
    obtain start | rest := ih (max a c)
    · rw [List.foldl_cons, start]
      refine (max_choice a c).imp id fun right => ?_
      rw [right]
      exact List.mem_cons_self
    · exact .inr (List.mem_cons_of_mem _ rest)

/-- The greatest of the values of a list that is not empty is one of them. -/
theorem foldl_max_zero_mem {l : List Nat} (some_ : l ≠ []) : l.foldl max 0 ∈ l := by
  obtain zero | mem := foldl_max_mem 0 l
  · obtain ⟨b, rest, rfl⟩ := List.exists_cons_of_ne_nil some_
    have least : b ≤ _ := (le_foldl_max 0 (b :: rest)).2 b List.mem_cons_self
    rw [zero] at least ⊢
    rw [Nat.le_zero.mp least]
    exact List.mem_cons_self
  · exact mem

theorem Curve.mem_usable_iff (c : Curve) (zones : PerZone ZoneRecord) (x : Int) :
    x ∈ c.usable zones ↔
      ∃ z : Zone, (c.mask.getLsbD (zoneCode z) = true ∧ (zones.get z).inUse = true) ∧ (zones.get z).temperature = some x := by
  have all (z : Zone) : z ∈ allZones := by cases z <;> decide
  rw [Curve.usable, List.mem_filterMap]
  refine exists_congr fun z => (and_iff_right (all z)).trans ?_
  exact Option.ite_none_right_eq_some

theorem Curve.demand_eq (c : Curve) (zones : PerZone ZoneRecord) :
    c.demand zones = if c.usable zones = [] then c.last else ((c.usable zones).map c.value).foldl max 0 := by
  unfold Curve.demand
  cases c.usable zones <;> rfl

/-- A curve's demand is the greatest of its values over the usable zones, and with none its last duty. -/
theorem Curve.demand_says (c : Curve) (zones : PerZone ZoneRecord) : DemandSays c zones (c.demand zones) := by
  have mem := c.mem_usable_iff zones
  rw [c.demand_eq]
  by_cases empty : c.usable zones = []
  · have unusable (z : Zone) (x : Int) : ¬ ((c.mask.getLsbD (zoneCode z) = true ∧ (zones.get z).inUse = true) ∧
        (zones.get z).temperature = some x) := fun usable =>
      absurd ((mem x).mpr ⟨z, usable⟩) (by rw [empty]; exact List.not_mem_nil)
    rw [if_pos empty]
    exact ⟨fun z x _ usable => absurd (and_assoc.mpr usable) (unusable z x), .inr ⟨fun z x _ usable =>
      unusable z x (and_assoc.mpr usable), rfl⟩⟩
  · rw [if_neg empty]
    refine ⟨fun z x _ usable => ?_, .inl ?_⟩
    · exact (le_foldl_max _ _).2 _ (List.mem_map_of_mem ((mem x).mpr ⟨z, and_assoc.mpr usable⟩))
    · obtain ⟨x, used, value⟩ := List.mem_map.mp (foldl_max_zero_mem (mt List.map_eq_nil_iff.mp empty))
      obtain ⟨z, usable⟩ := (mem x).mp used
      exact ⟨z, by cases z <;> decide, x, usable.2, and_assoc.mp usable, value.symm⟩

/-! ### The selections of an evaluation (R124, R125, R149) -/

section

variable (s : State)

theorem State.airJudged_afc :
    s.airJudged.afc = (s.afc.evaluate s.irm.orientation s.tmon.zones).select s.airJudged.airInputs := by
  rw [State.airJudged, State.selectFans_airInputs, State.selectFans_afc]

theorem State.lightJudged_afc : s.lightJudged.afc = s.airJudged.afc := by simp [State.lightJudged]

theorem State.lightJudged_session : s.lightJudged.lau.session = s.airJudged.lau.session := by
  simp [State.lightJudged, State.lauTake, Lau.take]

theorem State.lightJudged_airInputs : s.lightJudged.airInputs = s.airJudged.airInputs := by
  rw [State.airInputs, State.lightJudged_session]
  simp [State.lightJudged, State.airInputs]

/-- A cool-down ends with an evaluation (R149). -/
def State.CoolsDown : Prop :=
  s.lightJudged.lau.session = .cooldown ∧ s.lightJudged.lau.coolMin = .elapsed ∧ s.lightJudged.lau.srcCool = true

theorem State.handResults_of_cool (cool : s.CoolsDown) : s.handResults = s.lightJudged.enterSession .standby .cooled :=
  s.handResults_eq.trans (if_pos cool)

theorem State.handResults_of_not_cool (warm : ¬ s.CoolsDown) : s.handResults = s.lightJudged :=
  s.handResults_eq.trans (if_neg warm)

/-- Whichever way the hand-over goes, the last selection stands. -/
theorem State.handResults_afc :
    ∃ a, s.handResults.afc = a.select s.handResults.airInputs ∧ FansOnly (s.afc.evaluate s.irm.orientation s.tmon.zones) a := by
  by_cases cool : s.CoolsDown
  · rw [s.handResults_of_cool cool]
    refine ⟨s.lightJudged.afc, s.lightJudged.enterSession_afc _ _, ?_⟩
    rw [State.lightJudged_afc, State.airJudged_afc]
    exact Afc.select_fansOnly _ _
  · rw [s.handResults_of_not_cool cool, State.lightJudged_afc, State.lightJudged_airInputs]
    exact ⟨_, s.airJudged_afc, rfl, fun _ => rfl⟩

end

theorem FanRecord.selectedAs_selected (x : FanRecord) (now start d : Nat) : (x.selectedAs now start d).selected = d := by
  unfold FanRecord.selectedAs
  split
  · next none_ =>
    split
    · next off => rw [off, none_]
    · exact none_.symm
  · split
    · rfl
    · split <;> rfl

section

variable (s : State) (bus : BusCondition)

theorem State.deviceJudged_orientation : (s.deviceJudged bus).irm.orientation = s.irm.orientation :=
  (s.judged bus).formDevice_orientation

theorem State.counted_orientation : (s.counted bus).irm.orientation = s.irm.orientation := by
  obtain ⟨-, z, -, eq⟩ | ⟨-, eq⟩ := s.counted_cases bus
  · rw [eq, State.countScan_irm, State.absoluteTripped_orientation, State.deviceJudged_orientation]
  · rw [eq, State.countScan_irm, State.deviceJudged_orientation]

theorem State.deviceJudged_fansOnly : FansOnly s.afc (s.deviceJudged bus).afc := (s.judged bus).formDevice_fansOnly

/-- Up to the hand-over the AFC keeps its curves and settings, and each fan its demand. -/
theorem State.counted_fansOnly : FansOnly s.afc (s.counted bus).afc := by
  obtain ⟨-, z, -, eq⟩ | ⟨-, eq⟩ := s.counted_cases bus
  · rw [eq, State.countScan_afc]
    exact (s.deviceJudged_fansOnly bus).trans ((s.deviceJudged bus).absoluteTripped_fansOnly z)
  · rw [eq, State.countScan_afc]
    exact s.deviceJudged_fansOnly bus

/-- What the AFC holds after an evaluation, and the demand and duty of each fan. -/
theorem State.evaluate_afc :
    let t := s.evaluate bus
    t.afc.zones = (s.counted bus).tmon.zones ∧ t.afc.inUse = s.irm.orientation ∧ t.afc.quiet = s.afc.quiet ∧
      ∀ f : Fan, (t.afc.fans.get f).demand = ((s.afc.curves s.irm.orientation).get f).demand (s.counted bus).tmon.zones ∧
        (t.afc.fans.get f).selected = t.dutyOf f := by
  have orientation := s.counted_orientation bus
  obtain ⟨kept, -⟩ := s.counted_fansOnly bus
  rw [s.evaluate_eq_counted]
  generalize s.counted bus = u at *
  obtain ⟨a, selected, handed⟩ := u.handResults_afc
  obtain ⟨only, -, fans⟩ := State.fans_of_selected selected
  obtain ⟨afc, demand⟩ := handed.trans only
  refine ⟨?_, ?_, ?_, fun f => ⟨?_, ?_⟩⟩
  · exact congrArg Afc.zones afc
  · exact (congrArg Afc.inUse afc).trans orientation
  · have quiet : u.afc.quiet = s.afc.quiet := (congrArg Afc.quiet kept).trans rfl
    exact (congrArg Afc.quiet afc).trans quiet
  · refine (demand f).trans ?_
    rw [orientation, kept, Afc.evaluate, PerFan.get_build]
    cases s.irm.orientation <;> rfl
  · exact (congrArg FanRecord.selected (fans f)).trans (FanRecord.selectedAs_selected _ _ _ _)

end

end Sys2Proof.Machine
end

