-- ==== Sys2Proof/Proofs/EvaluationLight.lean ====
section
/-! PROOFS. What the LAU makes of an evaluation, with a trip and without one, and what both processors hear of it (R109, R111, R113,
R114, R142, R149, R150, R152). -/

namespace Sys2Proof.Machine

/-! ### The hand-over to the LAU (R109, R149, R152) -/

theorem State.excessOf_of_unlit {s : State} (unlit : s.lau.session.lightEn = false) : s.excessOf = 0 :=
  if_neg fun ⟨_, _, _, lit⟩ => absurd (unlit.symm.trans lit) nofun

theorem State.excessOf_congr {s t : State} (afc : t.afc = s.afc) (trip : t.tmon.trip = s.tmon.trip)
    (device : t.tmon.device = s.tmon.device) (session : t.lau.session = s.lau.session) : t.excessOf = s.excessOf := by
  unfold State.excessOf
  rw [afc, trip, device, session]

section

variable (s : State)

theorem State.airJudged_now : s.airJudged.now = s.now := by simp [State.airJudged]
theorem State.airJudged_tmon : s.airJudged.tmon = s.tmon := by simp [State.airJudged]

theorem State.airJudged_session : s.airJudged.lau.session = s.lau.session := State.selectFans_session _

theorem State.airJudged_lau : s.airJudged.lau = s.lau.hearsExcess s.now s.afc.excess s.airJudged.afc.excess := by
  rw [State.airJudged, State.selectFans_excess, State.selectFans_lau]
  rfl

theorem State.lightJudged_lau :
    s.lightJudged.lau =
      s.airJudged.lau.take s.now { s.airJudged.lau.held with zones := s.tmon.zones, thresholds := s.tmon.thresholds } := by
  rw [State.lightJudged, State.airJudged_tmon, State.lauTake, State.airJudged_now]

theorem State.lightJudged_held :
    s.lightJudged.lau.held = { s.airJudged.lau.held with zones := s.tmon.zones, thresholds := s.tmon.thresholds } := by
  rw [State.lightJudged_lau, Lau.take, Lau.form_held]

theorem State.lightJudged_now : s.lightJudged.now = s.now := by simp [State.lightJudged, State.airJudged_now]

theorem State.lightJudged_settles {l : Lau} (settles : l.Settles s.lau) : l.Settles s.lightJudged.lau := by
  rw [State.lightJudged_lau, State.airJudged_lau]
  exact (settles.hearsExcess _ _ _).take _ _

/-- A cool-down that ends leaves the acoustic excess at 0, where it was (R130). -/
theorem State.handResults_excess : s.handResults.afc.excess = s.airJudged.afc.excess := by
  by_cases cool : s.CoolsDown
  · have session : s.lau.session = .cooldown := by
      rw [← s.airJudged_session, ← s.lightJudged_session]
      exact cool.1
    have before : s.airJudged.afc.excess = 0 := by
      rw [State.airJudged, State.selectFans_excess]
      exact State.excessOf_of_unlit (by rw [session]; rfl)
    rw [s.handResults_of_cool cool, State.enterSession_eq, State.selectFans_excess, before]
    exact State.excessOf_of_unlit (by simp [State.sessionTaken, Session.lightEn])
  · rw [s.handResults_of_not_cool cool, State.lightJudged_afc]

/-- The LAU whose cool-down an evaluation ends. -/
theorem State.handResults_lau_of_cool (cool : s.CoolsDown) :
    s.handResults.lau = (s.lightJudged.lau.dark .standby).form s.now := by
  have excess := s.handResults_excess
  rw [s.handResults_of_cool cool] at excess ⊢
  rw [State.enterSession_lau, excess, State.lightJudged_afc, Lau.hearsExcess_same, State.lightJudged_now]
  rfl

theorem Lau.srcCool_iff (l : Lau) : l.srcCool = true ↔ l.Cold := by
  unfold Lau.srcCool Lau.Cold
  cases l.held.zones.src.status <;> cases l.held.zones.src.temperature <;> simp

theorem Lau.cold_congr {l m : Lau} (zones : m.held.zones = l.held.zones) (params : m.params = l.params) : m.Cold ↔ l.Cold := by
  unfold Lau.Cold
  rw [zones, params]

/-- What the LAU is handed it holds, whether or not it ends a cool-down. -/
theorem State.handResults_held : s.handResults.lau.held = s.lightJudged.lau.held := by
  by_cases cool : s.CoolsDown
  · rw [s.handResults_lau_of_cool cool, Lau.form_held]
  · rw [s.handResults_of_not_cool cool]

theorem State.handResults_params : s.handResults.lau.params = s.lightJudged.lau.params := by
  by_cases cool : s.CoolsDown
  · rw [s.handResults_lau_of_cool cool, Lau.form_params]
  · rw [s.handResults_of_not_cool cool]

theorem State.coolsDown_iff :
    s.CoolsDown ↔ s.lightJudged.lau.session = .cooldown ∧ s.lightJudged.lau.coolMin = .elapsed ∧ s.handResults.lau.Cold := by
  rw [State.CoolsDown, Lau.srcCool_iff, Lau.cold_congr (congrArg LauInputs.zones s.handResults_held) s.handResults_params]

end

/-! ### The LAU behind the device thermal state (R37, R125, R130) -/

section

variable (s : State) (bus : BusCondition)

/-- The excess that the forming of the device thermal state leaves. -/
def State.firstExcess : Nat :=
  if s.formedDevice = s.tmon.device then s.afc.excess
  else State.excessOf { s with tmon := { s.tmon with device := s.formedDevice } }

/-- The device thermal state that the LAU holds behind it. -/
def State.firstHeld : Thermal := if s.formedDevice = s.tmon.device then s.lau.held.device else s.formedDevice

theorem State.judged_lensTold_excess (changed : s.formedDevice ≠ s.tmon.device) :
    (s.judged bus).lensTold.excessOf = s.firstExcess := by
  have tmon := (s.judged bus).lensTold_tmon
  rw [State.firstExcess, if_neg changed]
  exact State.excessOf_congr (s := { s with tmon := { s.tmon with device := s.formedDevice } }) (s.judged bus).lensTold_afc
    ((congrArg Tmon.trip tmon).trans rfl)
    ((congrArg Tmon.device tmon).trans rfl) (congrArg Lau.session (s.judged bus).lensTold_lau)

theorem State.deviceJudged_excess : (s.deviceJudged bus).afc.excess = s.firstExcess := by
  by_cases changed : s.formedDevice = s.tmon.device
  · rw [State.deviceJudged, (s.judged bus).formDevice_of_same changed, State.firstExcess, if_pos changed]
    rfl
  · rw [State.deviceJudged, (s.judged bus).formDevice_of_changed changed]
    dsimp only
    rw [State.selectFans_excess, s.judged_lensTold_excess bus changed]

/-- The LAU that has heard of a changed excess, if there is one, and notes the device thermal state and the ready mark. -/
theorem State.deviceJudged_lau :
    (s.deviceJudged bus).countScan.lau = (s.lau.hearsExcess s.now s.afc.excess s.firstExcess).noted true s.firstHeld := by
  by_cases changed : s.formedDevice = s.tmon.device
  · rw [State.deviceJudged, (s.judged bus).formDevice_of_same changed, State.firstExcess, State.firstHeld, if_pos changed,
      if_pos changed, Lau.hearsExcess_same]
    rfl
  · have told : (s.judged bus).lensTold.selectFans.lau = s.lau.hearsExcess s.now s.afc.excess s.firstExcess := by
      rw [State.selectFans_lau, State.lensTold_lau, State.lensTold_now, State.lensTold_afc, s.judged_lensTold_excess bus changed]
      rfl
    rw [State.deviceJudged, (s.judged bus).formDevice_of_changed changed, ← told, State.firstHeld, if_neg changed]
    rfl

theorem State.counted_now : (s.counted bus).now = s.now := by
  rw [State.counted, State.countScan_now, State.checkAbsolute_now, State.deviceJudged, State.formDevice_now]
  rfl

/-- Without a trip the LAU is the one that the hand-over reaches (R109, R125, R130, R152). -/
theorem State.lightJudged_reached (eq : s.counted bus = (s.deviceJudged bus).countScan) (clear : s.formedTrip = s.tmon.trip) :
    (s.counted bus).lightJudged.lau = lauReached s (s.evaluate bus) := by
  have tmon : (s.evaluate bus).tmon = (s.counted bus).tmon := by rw [s.evaluate_eq_counted, State.handResults_tmon]
  have excess : (s.evaluate bus).afc.excess = (s.counted bus).airJudged.afc.excess := by
    rw [s.evaluate_eq_counted, State.handResults_excess]
  have device : (s.counted bus).tmon.device = s.formedDevice := by rw [State.counted_tmon]
  have thresholds : (s.counted bus).tmon.thresholds = s.tmon.thresholds := by rw [State.counted_tmon]; rfl
  have first : State.excessOf { s with tmon := (s.counted bus).tmon } =
      State.excessOf { s with tmon := { s.tmon with device := s.formedDevice } } :=
    State.excessOf_congr (s := { s with tmon := { s.tmon with device := s.formedDevice } }) rfl
      (by rw [State.counted_tmon]; exact clear) (by rw [State.counted_tmon]) rfl
  have before : (s.counted bus).afc.excess = s.firstExcess := by rw [eq, State.countScan_afc, State.deviceJudged_excess]
  have lau : (s.counted bus).lau = (s.lau.hearsExcess s.now s.afc.excess s.firstExcess).noted true s.firstHeld := by
    rw [eq, State.deviceJudged_lau]
  unfold lauReached
  rw [tmon, excess, device, first, State.lightJudged_lau, State.airJudged_lau, lau, before, s.counted_now, thresholds,
    Lau.hearsExcess_noted, ← Lau.form_eq_formed, ← State.firstExcess, ← State.firstHeld]
  generalize Lau.hearsExcess _ s.now s.firstExcess _ = heard
  rfl

end

end Sys2Proof.Machine
end

