-- ==== Sys2Proof/Proofs/EvaluationSession.lean ====
section
/-! PROOFS. The light session through an evaluation, the lens side, and what both processors hear (R37, R38, R109, R111, R113, R114,
R142, R149, R150, R173). -/

namespace Sys2Proof.Machine

/-! ### What both processors hear (R173) -/

section

variable (s : State) (bus : BusCondition) {k : EventKind}

theorem told_countScan (k : EventKind) : Told s s.countScan k none := told_none_of_events k

theorem told_lightJudged (k : EventKind) : Told s s.lightJudged k none := by
  have air : Told s s.airJudged k none := told_selectFans { s with afc := _ } k
  exact air.trans_none (told_none_of_events k)

theorem told_handResults_of_ne (other : k ≠ .lightState) : Told s s.handResults k none := by
  by_cases cool : s.CoolsDown
  · rw [s.handResults_of_cool cool]
    exact (told_lightJudged s k).trans_none (told_enterSession_of_ne _ _ _ other)
  · rw [s.handResults_of_not_cool cool]
    exact told_lightJudged s k

theorem told_deviceJudged_of_not_formKinds (other : k ∉ formKinds) : Told s (s.deviceJudged bus) k none :=
  Told.after_none (told_none_of_events k) (told_formDevice_of_not_formKinds (s.judged bus) other)

/-- Of a kind that neither the device thermal state, the trip nor the session raises nobody hears. -/
theorem told_evaluate_of_spared (form : k ∉ formKinds) (trip : k ∉ tripKinds) (light : k ≠ .lightState) :
    Told s (s.evaluate bus) k none := by
  have counted : Told s (s.counted bus) k none := by
    obtain ⟨-, z, -, eq⟩ | ⟨-, eq⟩ := s.counted_cases bus
    · rw [eq]
      exact ((told_deviceJudged_of_not_formKinds s bus form).trans_none
        (told_absoluteTripped_of_not_tripKinds _ z trip)).trans_none (told_countScan _ k)
    · rw [eq]
      exact (told_deviceJudged_of_not_formKinds s bus form).trans_none (told_countScan _ k)
  rw [s.evaluate_eq_counted]
  exact counted.trans_none (told_handResults_of_ne _ light)

theorem State.evaluate_tmon : (s.evaluate bus).tmon = (s.counted bus).tmon := by
  rw [s.evaluate_eq_counted, State.handResults_tmon]

/-- The device thermal state is told of with its source, as the evaluation leaves them. -/
theorem thermalTold_evaluate : ThermalTold s (s.evaluate bus) := by
  have formed : ThermalTold s (s.deviceJudged bus) :=
    Told.after_none (told_none_of_events (t := s.judged bus) .thermalState) (thermalTold_formDevice (s.judged bus))
  have device : (s.deviceJudged bus).tmon.device = (s.counted bus).tmon.device := by
    rw [State.deviceJudged_tmon, State.counted_tmon]
    rfl
  have source : (s.deviceJudged bus).tmon.sourceSays = (s.counted bus).tmon.sourceSays := by
    rw [State.deviceJudged_tmon, State.counted_tmon]
    rfl
  have counted : Told (s.deviceJudged bus) (s.counted bus) .thermalState none := by
    obtain ⟨-, z, -, eq⟩ | ⟨-, eq⟩ := s.counted_cases bus
    · rw [eq]
      exact (told_absoluteTripped_of_not_tripKinds _ z (by decide)).trans_none (told_countScan _ _)
    · rw [eq]
      exact told_countScan _ _
  unfold ThermalTold at formed ⊢
  rw [device, source] at formed
  rw [State.evaluate_tmon, s.evaluate_eq_counted]
  exact (formed.trans_none counted).trans_none (told_handResults_of_ne _ nofun)

end

/-! ### The lens side (R37, R38) -/

section

variable (s : State) (bus : BusCondition)

theorem State.deviceJudged_lensFollows : LensFollows s (s.deviceJudged bus) :=
  LensFollows.of_alike (t := s.judged bus) ⟨rfl, rfl, rfl, rfl, rfl, rfl, rfl, rfl⟩ (s.judged bus).formDevice_lensFollows

/-- An evaluation that declares a trip sets the latch; one that declares none leaves it. -/
theorem State.evaluate_cases :
    (∃ z, s.tmon.trip = none ∧ (s.deviceJudged bus).tmon.absoluteZone = some z ∧
        s.counted bus = ((s.deviceJudged bus).absoluteTripped z).countScan ∧
        (s.evaluate bus).tmon.trip = some ⟨.absolute, .zone z, ((s.deviceJudged bus).tmon.zones.get z).temperature⟩) ∨
      (s.counted bus = (s.deviceJudged bus).countScan ∧ (s.evaluate bus).tmon.trip = s.tmon.trip) := by
  rw [State.evaluate_tmon]
  obtain ⟨clear, z, found, eq⟩ | ⟨-, eq⟩ := s.counted_cases bus
  · refine .inl ⟨z, clear, found, eq, ?_⟩
    rw [eq, State.countScan]
    dsimp only
    rw [State.absoluteTripped_tmon]
  · refine .inr ⟨eq, ?_⟩
    rw [eq]
    exact s.deviceJudged_trip bus

theorem State.evaluate_lens :
    ((s.evaluate bus).tmon.trip = s.tmon.trip → LensFollows s (s.evaluate bus)) ∧
      ((s.evaluate bus).tmon.trip ≠ s.tmon.trip →
        ∀ a : Axis, ((s.evaluate bus).axis a).moving = false ∧ ((s.evaluate bus).axis a).queue = []) := by
  have lmc : (s.evaluate bus).lmc = (s.counted bus).lmc := by rw [s.evaluate_eq_counted, State.handResults_lmc]
  obtain ⟨z, clear, -, eq, trip⟩ | ⟨eq, trip⟩ := s.evaluate_cases bus
  · refine ⟨fun same => absurd (trip.symm.trans (same.trans clear)) nofun, fun _ a => ?_⟩
    have axis : (s.evaluate bus).axis a = ((s.deviceJudged bus).absoluteTripped z).axis a := by
      rw [eq, State.countScan_lmc] at lmc
      cases a
      · exact congrArg Lmc.v lmc
      · exact congrArg Lmc.h lmc
    rw [axis]
    exact (s.deviceJudged bus).absoluteTripped_axis z a
  · refine ⟨fun _ => ?_, fun tripped => absurd trip tripped⟩
    have irm : (s.evaluate bus).irm = (s.deviceJudged bus).irm := by
      rw [s.evaluate_eq_counted, State.handResults_irm, eq, State.countScan_irm]
    have ge : (s.evaluate bus).ge = (s.deviceJudged bus).ge := by
      rw [s.evaluate_eq_counted, State.handResults_ge, eq, State.countScan_ge]
    have device : (s.evaluate bus).tmon.device = (s.deviceJudged bus).tmon.device := by
      rw [State.evaluate_tmon, eq]
      rfl
    have follows := s.deviceJudged_lensFollows bus
    rw [eq, State.countScan_lmc] at lmc
    unfold LensFollows at follows ⊢
    rw [irm, lmc, ge, device]
    exact follows

end

/-! ### The light session (R109, R114, R142, R149, R150) -/

section

variable (s : State) (bus : BusCondition)

/-- The LAU that a trip has darkened takes what it is handed, dark. -/
theorem State.lightJudged_of_trip {z : Zone} (eq : s.counted bus = ((s.deviceJudged bus).absoluteTripped z).countScan) :
    (s.counted bus).lightJudged.lau =
      Lau.form s.now { s.lau.dark .tripped with held := (s.counted bus).lightJudged.lau.held } := by
  have settles : s.lau.Settles (s.deviceJudged bus).lau := (s.judged bus).formDevice_lau_settles
  have dark : s.lau.DarkenedTo .tripped (s.counted bus).airJudged.lau := by
    rw [State.airJudged_lau, eq]
    exact (((s.deviceJudged bus).absoluteTripped_darkens z settles).hold _).hearsExcess rfl _ _ _
  rw [State.lightJudged_held, State.lightJudged_lau, s.counted_now]
  exact dark.take_eq rfl _ _

/-- A trip of the evaluation leaves the LAU in TRIPPED, with what it is handed behind the trip. -/
theorem State.handResults_of_trip {z : Zone} (eq : s.counted bus = ((s.deviceJudged bus).absoluteTripped z).countScan) :
    s.evaluate bus = (s.counted bus).lightJudged := by
  have warm : ¬ (s.counted bus).CoolsDown := fun ⟨session, _⟩ => by
    rw [s.lightJudged_of_trip bus eq, Lau.form_session] at session
    exact absurd session nofun
  rw [s.evaluate_eq_counted, State.handResults_of_not_cool _ warm]

/-- What both processors hear of a trip, of the session's change, and of no light fault. -/
theorem told_evaluate_of_trip {z : Zone} (eq : s.counted bus = ((s.deviceJudged bus).absoluteTripped z).countScan)
    {k : EventKind} {heard : Option Event} (form : k ∉ formKinds)
    (told : Told (s.deviceJudged bus) ((s.deviceJudged bus).absoluteTripped z) k heard) : Told s (s.evaluate bus) k heard := by
  rw [s.handResults_of_trip bus eq]
  refine Told.trans_none ?_ (told_lightJudged _ k)
  rw [eq]
  exact ((told_deviceJudged_of_not_formKinds s bus form).after_none told).trans_none (told_countScan _ k)

/-- Without a trip both processors hear of the session only what the hand-over makes of it, and of the trip nothing. -/
theorem told_counted_of_clear (eq : s.counted bus = (s.deviceJudged bus).countScan) {k : EventKind} (form : k ∉ formKinds) :
    Told s (s.counted bus) k none := by
  rw [eq]
  exact (told_deviceJudged_of_not_formKinds s bus form).trans_none (told_countScan _ k)

theorem State.counted_settles (eq : s.counted bus = (s.deviceJudged bus).countScan) : s.lau.Settles (s.counted bus).lau := by
  rw [eq]
  exact ((s.judged bus).formDevice_lau_settles).hold _

/-- Without a trip the evaluation ends a cool-down as its results say. -/
theorem State.evaluate_coolsDown_iff (eq : s.counted bus = (s.deviceJudged bus).countScan) :
    (s.counted bus).CoolsDown ↔
      s.lau.session = .cooldown ∧ s.lau.coolMin = .elapsed ∧ (s.evaluate bus).lau.Cold := by
  have levels := ((s.counted bus).lightJudged_settles (s.counted_settles bus eq)).levels
  have session : (s.counted bus).lightJudged.lau.session = s.lau.session := (congrArg Lau.session levels).trans rfl
  have coolMin : (s.counted bus).lightJudged.lau.coolMin = s.lau.coolMin := (congrArg Lau.coolMin levels).trans rfl
  rw [State.coolsDown_iff, session, coolMin, s.evaluate_eq_counted]

theorem evaluate_sessionFollows : SessionFollows s (s.evaluate bus) := by
  refine ⟨told_evaluate_of_spared s bus (by decide) (by decide) nofun, fun tripped => ?_, fun clear => ?_⟩
  · obtain ⟨z, -, -, eq, trip⟩ | ⟨-, trip⟩ := s.evaluate_cases bus
    case inr => exact absurd trip tripped
    have session : (s.deviceJudged bus).lau.session = s.lau.session :=
      (congrArg Lau.session (s.judged bus).formDevice_levelsOnly).trans rfl
    have light := told_absoluteTripped_lightState (s.deviceJudged bus) z
    rw [session] at light
    refine ⟨?_, told_evaluate_of_trip s bus eq (by decide) light, ?_⟩
    · rw [s.handResults_of_trip bus eq, ← Lau.form_eq_formed]
      exact s.lightJudged_of_trip bus eq
    · rw [trip]
      exact told_evaluate_of_trip s bus eq (by decide) (told_absoluteTripped_trip _ z)
  · obtain ⟨z, none_, -, -, trip⟩ | ⟨eq, -⟩ := s.evaluate_cases bus
    case inl => exact absurd (trip.symm.trans (clear.trans none_)) nofun
    have kept : s.formedTrip = s.tmon.trip := by
      rw [← clear, State.evaluate_tmon, State.counted_tmon]
    have reached := s.lightJudged_reached bus eq kept
    have settles := (s.counted bus).lightJudged_settles (s.counted_settles bus eq)
    have cools := s.evaluate_coolsDown_iff bus eq
    refine ⟨?_, fun cooled => ⟨?_, ?_⟩, fun warm => ?_⟩
    · rw [s.evaluate_eq_counted]
      exact (told_counted_of_clear s bus eq (by decide)).trans_none (told_handResults_of_ne _ nofun)
    · rw [← reached, ← Lau.form_eq_formed, s.evaluate_eq_counted, State.handResults_lau_of_cool _ (cools.mpr cooled),
        s.counted_now]
    · have entered := told_enterSession (s.counted bus).lightJudged .standby .cooled
      rw [(cools.mpr cooled).1] at entered
      rw [s.evaluate_eq_counted, State.handResults_of_cool _ (cools.mpr cooled)]
      exact ((told_counted_of_clear s bus eq (by decide)).trans_none (told_lightJudged _ _)).after_none entered
    · have same : s.evaluate bus = (s.counted bus).lightJudged := by
        rw [s.evaluate_eq_counted, State.handResults_of_not_cool _ (mt cools.mp warm)]
      refine ⟨by rw [← reached, same], ?_, ?_, ?_, ?_⟩
      · rw [same]
        exact settles.levels
      · rw [same]
        exact settles.applied
      · rw [same]
        exact settles.drive
      · rw [same]
        exact (told_counted_of_clear s bus eq (by decide)).trans_none (told_lightJudged _ _)

end

end Sys2Proof.Machine
end

