-- ==== Sys2Proof/Proofs/Evaluations.lean ====
section
/-! PROOFS. The evaluation that ends a scan, whole (R100, R106 to R114, R123, R124, R149, R152). -/

namespace Sys2Proof.Machine

section

variable (s : State) (bus : BusCondition)

theorem evaluate_eventsOnly : EventsOnly s (s.evaluate bus) := eventsOnly_of_fields

/-- The LAU holds what the evaluation hands on. -/
theorem State.evaluate_held :
    (s.evaluate bus).lau.held.zones = (s.counted bus).tmon.zones ∧ (s.evaluate bus).lau.held.thresholds = s.tmon.thresholds := by
  have thresholds : (s.counted bus).tmon.thresholds = s.tmon.thresholds := by rw [State.counted_tmon]; rfl
  have held : (s.evaluate bus).lau.held = { (s.counted bus).airJudged.lau.held with
      zones := (s.counted bus).tmon.zones, thresholds := (s.counted bus).tmon.thresholds } := by
    rw [s.evaluate_eq_counted, State.handResults_held, State.lightJudged_held]
  exact ⟨by rw [held], by rw [held, ← thresholds]⟩

theorem Lau.hearsExcess_held (l : Lau) (now before excess : Nat) :
    (l.hearsExcess now before excess).held.ready = l.held.ready ∧
      (l.hearsExcess now before excess).held.device = l.held.device := by
  unfold Lau.hearsExcess
  split
  · exact ⟨rfl, rfl⟩
  · rw [← Lau.form_eq_formed, Lau.form_held]
    exact ⟨rfl, rfl⟩

/-- The hand-over leaves the ready mark and the device thermal state that the LAU holds. -/
theorem State.handResults_noted :
    s.handResults.lau.held.ready = s.lau.held.ready ∧ s.handResults.lau.held.device = s.lau.held.device := by
  rw [State.handResults_held, State.lightJudged_held, State.airJudged_lau]
  exact s.lau.hearsExcess_held _ _ _

theorem State.enterSession_noted (new : Session) (cause : SessionCause) :
    (s.enterSession new cause).lau.held.device = s.lau.held.device := by
  rw [State.enterSession_lau, (Lau.hearsExcess_held _ _ _ _).2, Lau.form_held, Lau.switch_held]

theorem State.absoluteTripped_noted (z : Zone) : (s.absoluteTripped z).lau.held.device = s.lau.held.device := by
  rw [State.absoluteTripped, State.enterSession_noted, State.selectFans_lau, (Lau.hearsExcess_held _ _ _ _).2, State.tripHalt_lau]
  rfl

theorem State.countScan_noted :
    s.countScan.lau.held.ready = true ∧ s.countScan.lau.held.device = s.lau.held.device := ⟨rfl, rfl⟩

/-- A changed device thermal state reaches the LAU, and the ready mark does (R109, R111). -/
theorem State.evaluate_noted :
    (s.evaluate bus).lau.held.ready = true ∧
      ((s.evaluate bus).tmon.device ≠ s.tmon.device → (s.evaluate bus).lau.held.device = (s.evaluate bus).tmon.device) := by
  have device : (s.counted bus).tmon.device = s.formedDevice := by rw [State.counted_tmon]
  have formed : (s.deviceJudged bus).lau.held.device = s.firstHeld :=
    (s.deviceJudged bus).countScan_noted.2.symm.trans (congrArg (fun l => l.held.device) (s.deviceJudged_lau bus))
  have held : (s.counted bus).lau.held.ready = true ∧ (s.counted bus).lau.held.device = s.firstHeld := by
    obtain ⟨-, z, -, eq⟩ | ⟨-, eq⟩ := s.counted_cases bus
    · obtain ⟨ready, noted⟩ := ((s.deviceJudged bus).absoluteTripped z).countScan_noted
      rw [eq]
      exact ⟨ready, (noted.trans ((s.deviceJudged bus).absoluteTripped_noted z)).trans formed⟩
    · obtain ⟨ready, noted⟩ := (s.deviceJudged bus).countScan_noted
      rw [eq]
      exact ⟨ready, noted.trans formed⟩
  rw [State.evaluate_tmon, device, s.evaluate_eq_counted]
  obtain ⟨ready, noted⟩ := (s.counted bus).handResults_noted
  exact ⟨ready.trans held.1, fun changed => (noted.trans held.2).trans (if_neg changed)⟩

/-- The evaluation that ends a scan is the one that R109 describes. -/
theorem evaluated_evaluate : Evaluated s bus (s.evaluate bus) := by
  have tmon := (s.evaluate_tmon bus).trans (s.counted_tmon bus)
  obtain ⟨afcZones, inUse, quiet, fans⟩ := s.evaluate_afc bus
  obtain ⟨zones, thresholds⟩ := s.evaluate_held bus
  obtain ⟨ready, device⟩ := s.evaluate_noted bus
  obtain ⟨lens, tripped⟩ := s.evaluate_lens bus
  rw [← s.evaluate_tmon bus] at afcZones fans zones
  have zone (z : Zone) : (s.evaluate bus).tmon.zones.get z = s.tmon.evaluateZone z := by
    rw [State.evaluate_tmon, State.counted_zone]
  have session := evaluate_sessionFollows s bus
  refine ⟨by rw [tmon], by rw [tmon], ready, by rw [tmon], by rw [tmon], by rw [tmon]; rfl, by rw [tmon]; rfl, by rw [tmon]; rfl,
    by rw [tmon]; rfl, by rw [tmon]; rfl, by rw [tmon]; rfl, by rw [tmon]; rfl, fun z => ?reading, fun z => ?state,
    by rw [tmon]; rfl, by rw [tmon]; rfl, ?dwell, lens, fun trip => ⟨?tripped, ?dark, tripped trip⟩, afcZones, inUse, quiet,
    fun f => ⟨?demand, (fans f).2⟩, zones, thresholds, device, session, by simp, by simp, evaluate_eventsOnly s bus,
    thermalTold_evaluate s bus⟩
  case reading =>
    rw [zone, s.tmon.evaluateZone_reading, tmon]
    rfl
  case state =>
    rw [zone]
    exact ⟨s.tmon.evaluateZone_unused z, fun x => s.tmon.evaluateZone_used z⟩
  case dwell =>
    rw [tmon]
    rfl
  case tripped =>
    rw [(session.2.1 trip).1, ← Lau.form_eq_formed, Lau.form_session]
  case dark =>
    rw [(session.2.1 trip).1, ← Lau.form_eq_formed, Lau.form_of_unlit _ rfl]
  case demand =>
    rw [(fans f).1]
    cases s.irm.orientation <;> exact Curve.demand_says _ _

end

end Sys2Proof.Machine
end

