-- ==== Sys2Proof/Proofs/ScanCourse.lean ====
section
/-! PROOFS. The course of a scan: the reads and their failures, the start checks, what is driven on the Probe Bus, and the evaluation
that ends it (R98 to R101, R103, R104). -/

namespace Sys2Proof.Machine

/-! ### Slot records (R104) -/

/-- A failed read counts, and the third in a row makes the slot LOST. -/
theorem SlotRecord.finish_error (x : SlotRecord) (n : Nat) (zone : Zone) (cause : ReadCause) :
    x.finish n zone (.error cause) =
      (x.failedBy cause,
        if x.status ≠ .lost ∧ 2 ≤ x.failures then [.sensorLost n zone (some cause)] else []) := by
  unfold SlotRecord.finish SlotRecord.failedBy
  by_cases lost : x.status = .lost
  · simp [lost]
  · by_cases third : x.failures + 1 < 3
    · have early : ¬ 2 ≤ x.failures := by omega
      simp [lost, third, early]
    · have late : 2 ≤ x.failures := by omega
      simp [lost, third, late]

/-- The slot records after reads have failed one after another. -/
def Tmon.slotsFailed (t : Tmon) (slots : List Nat) (cause : ReadCause) : List SlotRecord :=
  slots.foldl (fun l n => l.set n ((t.slots.getD n .reset).failedBy cause)) t.slots

/-- The events of reads that fail one after another. -/
def Tmon.slotsLost (t : Tmon) (slots : List Nat) (cause : ReadCause) : List Event :=
  (slots.filter fun n => decide ((t.slots.getD n .reset).status ≠ .lost ∧ 2 ≤ (t.slots.getD n .reset).failures)).map fun n =>
    .sensorLost n (slotAt t.latched n).zone (some cause)

theorem State.readsFailed_eq (s : State) (slots : List Nat) (cause : ReadCause) :
    s.readsFailed slots cause =
      State.raiseAll { s with tmon := { s.tmon with slots := s.tmon.slotsFailed slots cause } } (s.tmon.slotsLost slots cause) :=
  rfl

theorem Tmon.finishRead_error (t : Tmon) (n : Nat) (cause : ReadCause) :
    t.finishRead n (.error cause) = ({ t with slots := t.slotsFailed [n] cause }, t.slotsLost [n] cause) := by
  rw [Tmon.finishRead, SlotRecord.finish_error, Tmon.slotsLost]
  dsimp only
  by_cases third : (t.slots.getD n .reset).status ≠ .lost ∧ 2 ≤ (t.slots.getD n .reset).failures
  · rw [if_pos third, List.filter_cons_of_pos (by simpa using third)]
    rfl
  · rw [if_neg third, List.filter_cons_of_neg (by simpa using third)]
    rfl

/-- The record of a slot that other reads do not name. -/
theorem getD_set_of_ne {l : List SlotRecord} {n m : Nat} (x : SlotRecord) (apart : n ≠ m) :
    (l.set n x).getD m .reset = l.getD m .reset := by
  simp [List.getD_eq_getElem?_getD, List.getElem?_set_ne apart]

/-- On a stuck bus every slot left fails once (R100). -/
theorem Tmon.failStuck_eq (t : Tmon) {slots : List Nat} (apart : slots.Nodup) :
    t.failStuck slots = ({ t with slots := t.slotsFailed slots .busStuck }, t.slotsLost slots .busStuck) := by
  induction slots generalizing t with
  | nil => rfl
  | cons n rest ih =>
    obtain ⟨new, apart⟩ := List.nodup_cons.mp apart
    have others (m : Nat) (mem : m ∈ rest) : (t.slotsFailed [n] .busStuck).getD m .reset = t.slots.getD m .reset :=
      getD_set_of_ne _ fun same => new (same ▸ mem)
    rw [Tmon.failStuck, Tmon.finishRead_error]
    dsimp only
    rw [ih _ apart]
    have records : Tmon.slotsFailed { t with slots := t.slotsFailed [n] .busStuck } rest .busStuck =
        t.slotsFailed (n :: rest) .busStuck :=
      List.foldl_ext _ _ _ fun l m mem => by rw [others m mem]
    have events : Tmon.slotsLost { t with slots := t.slotsFailed [n] .busStuck } rest .busStuck =
        t.slotsLost rest .busStuck := by
      refine congrArg (List.map _) (List.filter_congr fun m mem => ?_)
      rw [others m mem]
    have first : t.slotsLost [n] .busStuck ++ t.slotsLost rest .busStuck = t.slotsLost (n :: rest) .busStuck := by
      rw [Tmon.slotsLost, Tmon.slotsLost, Tmon.slotsLost, ← List.map_append, ← List.filter_append]
      rfl
    rw [records, events, first]

/-! ### How a scan goes on (R100, R103) -/

theorem State.nextSlot_nil (s : State) (worst : BusCondition) (bus : BusSample) :
    s.nextSlot [] worst bus = s.evaluate worst := rfl

/-- Whatever is left of a scan, it goes on with the start check or ends in its evaluation. -/
theorem scanGoesOn_nextSlot (s : State) (slots : List Nat) (worst : BusCondition) (bus : BusSample) :
    ScanGoesOn s slots worst bus (s.nextSlot slots worst bus) := by
  refine ⟨?_, fun more apart stuck => ?_, fun more clear => s.nextSlot_of_clear more worst clear⟩
  · rintro rfl
    rw [State.nextSlot_nil]
    exact evaluated_evaluate s worst
  · obtain ⟨n, rest, rfl⟩ := List.exists_cons_of_ne_nil more
    rw [State.nextSlot_cons, startCheck_eq_busFound, if_pos stuck, Tmon.failStuck_eq _ apart, ← State.readsFailed_eq]
    exact evaluated_evaluate _ .stuck

theorem Tmon.failStuck_setScan (t : Tmon) (x : Option Scan) (slots : List Nat) :
    Tmon.failStuck { t with scan := x } slots = ({ (t.failStuck slots).1 with scan := x }, (t.failStuck slots).2) := by
  induction slots generalizing t with
  | nil => rfl
  | cons n rest ih =>
    have read : Tmon.finishRead { t with scan := x } n (.error .busStuck) =
        ({ (t.finishRead n (.error .busStuck)).1 with scan := x }, (t.finishRead n (.error .busStuck)).2) := rfl
    rw [Tmon.failStuck, read, Tmon.failStuck]
    dsimp only
    rw [ih]

theorem State.raiseAll_setScan (s : State) (x : Option Scan) (es : List Event) :
    State.raiseAll { s with tmon := { s.tmon with scan := x } } es =
      { s.raiseAll es with tmon := { (s.raiseAll es).tmon with scan := x } } := by
  rw [State.raiseAll_tmon, State.raiseAll_setTmon]

/-- The scan that was in flight does not matter to how one goes on. -/
theorem State.nextSlot_setScan (s : State) (x : Option Scan) (slots : List Nat) (worst : BusCondition) (bus : BusSample) :
    State.nextSlot { s with tmon := { s.tmon with scan := x } } slots worst bus = s.nextSlot slots worst bus := by
  cases slots with
  | nil => rw [State.nextSlot_nil, State.nextSlot_nil, State.evaluate_setScan]
  | cons n rest =>
    obtain ⟨u, hu⟩ : ∃ u : State, u = { s with tmon := (s.tmon.failStuck (n :: rest)).1 } := ⟨_, rfl⟩
    have failed : ({ s with tmon := { (s.tmon.failStuck (n :: rest)).1 with scan := x } } : State) =
        { u with tmon := { u.tmon with scan := x } } := by rw [hu]
    rw [State.nextSlot_cons, State.nextSlot_cons, Tmon.failStuck_setScan]
    dsimp only
    rw [failed, State.raiseAll_setScan, State.evaluate_setScan, hu]

/-! ### The commands of a scan (R99, R101, R103, R104) -/

/-- The part whose scan has begun: the table latched, a new one's slot records reset, the next scan due (R102, R103). -/
def State.scanBegun (s : State) : State :=
  { s with
    now := max s.now (s.tmon.nextScan.getD s.now),
    tmon := { s.tmon with
      latched := s.tmon.table, newTable := false,
      slots := if s.tmon.newTable then List.replicate 8 SlotRecord.reset else s.tmon.slots,
      nextScan := some (s.tmon.nextScan.getD s.now + 100000) } }

theorem State.startScan_begun (s : State) (bus : BusSample) :
    (s.at_ (s.tmon.nextScan.getD s.now)).startScan bus = s.scanBegun.nextSlot (enabledSlots s.tmon.table) .clear bus := by
  have due : (s.at_ (s.tmon.nextScan.getD s.now)).tmon.nextScan.getD (s.at_ (s.tmon.nextScan.getD s.now)).now =
      s.tmon.nextScan.getD s.now := by
    unfold State.at_
    cases s.tmon.nextScan <;> simp
  rw [State.startScan_eq, due, ← s.scanBegun.nextSlot_setScan (some ⟨enabledSlots s.tmon.table, .clear⟩)]
  rfl

section

variable {s : State} (awake : Awake s)
include awake

theorem exec_scanStart (bus : BusSample) :
    exec (.scanStart bus) s = .next (s.scanBegun.nextSlot (enabledSlots s.tmon.table) .clear bus) := by
  rw [← State.startScan_begun]
  exact unlessReset_awake (fun s => (s.at_ (s.tmon.nextScan.getD s.now)).startScan bus) awake

theorem exec_slotReadDone (result : ReadResult) (bus : BusSample) :
    exec (.slotReadDone result bus) s = .next (s.finishSlot (readOutcome · result) bus) :=
  unlessReset_awake (fun s => s.finishSlot (readOutcome · result) bus) awake

theorem exec_probeBusTimeout (parts : Nat) (bus : BusSample) :
    exec (.probeBusTimeout ⟨parts, bus⟩) s = .next (s.finishSlot (fun _ => .error .timeout) bus) :=
  unlessReset_awake (fun s => s.finishSlot (fun _ => .error .timeout) bus) awake

end

theorem State.finishSlot_idle {s : State} (idle : s.tmon.scan = none) (outcome : Int → Except ReadCause Int) (bus : BusSample) :
    s.finishSlot outcome bus = s := by
  rw [State.finishSlot, idle]

/-- The slot of the table that the scan has latched (R103). -/
def State.scanSlot (s : State) (n : Nat) : ScanSlot := slotAt s.tmon.latched n

/-- The part whose slot has read (R104). -/
def State.slotLive (s : State) (n : Nat) (x : Int) : State :=
  { s with tmon := { s.tmon with
    slots := s.tmon.slots.set n { s.tmon.slots.getD n .reset with status := .live, value := some x, failures := 0 } } }

section

variable {s : State} {n : Nat} {rest : List Nat} {worst : BusCondition} (scan : s.tmon.scan = some ⟨n :: rest, worst⟩)
include scan

theorem State.finishSlot_scanning (outcome : Int → Except ReadCause Int) (bus : BusSample) :
    s.finishSlot outcome bus =
      (State.raiseAll { s with tmon := (s.tmon.finishRead n (outcome (s.scanSlot n).offset)).1 }
        (s.tmon.finishRead n (outcome (s.scanSlot n).offset)).2).nextSlot rest worst bus := by
  rw [State.finishSlot, scan]
  rfl

/-- A read that fails counts, and the scan goes on. -/
theorem State.finishSlot_fails {outcome : Int → Except ReadCause Int} {cause : ReadCause}
    (fails : outcome (s.scanSlot n).offset = .error cause) (bus : BusSample) :
    s.finishSlot outcome bus = (s.readsFailed [n] cause).nextSlot rest worst bus := by
  rw [State.finishSlot_scanning scan, fails, Tmon.finishRead_error, State.readsFailed_eq]

/-- A good read makes its record LIVE, with SENSOR_BACK for a LOST slot, and the scan goes on. -/
theorem State.finishSlot_reads {outcome : Int → Except ReadCause Int} {x : Int} (reads : outcome (s.scanSlot n).offset = .ok x)
    (bus : BusSample) :
    s.finishSlot outcome bus =
      State.nextSlot
        (if (s.tmon.slots.getD n .reset).status = .lost then (s.slotLive n x).raise (.sensorBack n (s.scanSlot n).zone x)
          else s.slotLive n x) rest worst bus := by
  rw [State.finishSlot_scanning scan, reads]
  dsimp only [Tmon.finishRead, SlotRecord.finish]
  split <;> rfl

end

theorem readOutcome_data_good {offset x : Int} {high low : Byte} (value : x = (high ++ low : BitVec 16).toInt / 64 + offset)
    (least : -160 ≤ x) (greatest : x ≤ 600) : readOutcome offset (.data high low) = .ok x := by
  have converts : converted high low offset = x := value.symm
  rw [readOutcome, converts]
  exact if_pos (by simp [plausible, least, greatest])

theorem readOutcome_data_range {offset x : Int} {high low : Byte} (value : x = (high ++ low : BitVec 16).toInt / 64 + offset)
    (beyond : x < -160 ∨ 600 < x) : readOutcome offset (.data high low) = .error .range := by
  have converts : converted high low offset = x := value.symm
  rw [readOutcome, converts]
  refine if_neg fun good => ?_
  simp only [plausible, Bool.and_eq_true, decide_eq_true_eq] at good
  omega

/-! ### What is driven on the Probe Bus (R98, R99, R100) -/

theorem nextCheck_eq (rest : List Nat) (bus : BusSample) :
    nextCheck rest bus =
      if rest = [] ∨ bus.scl = false ∨ bus.sda = true then []
      else match bus.freedAfter with
        | some k => if k ≤ 9 then List.replicate k .pulse ++ [.stop] else List.replicate 9 .pulse ++ [.release]
        | none => List.replicate 9 .pulse ++ [.release] := by
  cases rest with
  | nil => rfl
  | cons n rest =>
    obtain ⟨scl, sda, freed⟩ := bus
    cases scl <;> cases sda <;> rfl

section

variable {s : State} (awake : Awake s) {n : Nat} {rest : List Nat} {worst : BusCondition}
  (scan : s.tmon.scan = some ⟨n :: rest, worst⟩)
include awake scan

theorem probeBus_slotReadDone (result : ReadResult) (bus : BusSample) :
    s.probeBus (.slotReadDone result bus) = (s.scanSlot n).drives result ++ nextCheck rest bus := by
  refine (if_neg (by rw [awake]; exact nofun)).trans ?_
  rw [Tmon.ends, scan]
  rfl

theorem probeBus_probeBusTimeout (parts : Nat) (bus : BusSample) :
    s.probeBus (.probeBusTimeout ⟨parts, bus⟩) = (s.scanSlot n).drivesUntilTimeout parts ++ nextCheck rest bus := by
  refine (if_neg (by rw [awake]; exact nofun)).trans ?_
  rw [Tmon.ends, scan]
  rfl

end

/-- What a transaction has made before its STOP, when it times out (R99). -/
theorem ScanSlot.drivesUntilTimeout_eq (x : ScanSlot) {parts : Nat} (early : parts ≤ 7) :
    x.drivesUntilTimeout parts =
      [BusAct.start, .address x.address .write, .pointer x.pointer, .repeatedStart, .address x.address .read, .dataByte true,
        .dataByte false].take parts ++ [.release] := by
  have whole : x.parts = [BusAct.start, .address x.address .write, .pointer x.pointer, .repeatedStart, .address x.address .read,
      .dataByte true, .dataByte false] ++ [.stop] := rfl
  rw [ScanSlot.drivesUntilTimeout, Nat.min_eq_left early, whole, List.take_append_of_le_length early]

/-- Settles O39: each read goes on to the next slot, and the last ends in the evaluation. -/
theorem scans : Obligations.Scans := by
  intro s awake
  refine ⟨fun bus => ⟨_, exec_scanStart awake bus, scanGoesOn_nextSlot _ _ _ _⟩, fun idle result bus parts => ⟨?_, ?_⟩,
    fun n rest worst scan bus => ?_⟩
  · rw [exec_slotReadDone awake, State.finishSlot_idle idle]
  · rw [exec_probeBusTimeout awake, State.finishSlot_idle idle]
  have failed {result : ReadResult} {cause : ReadCause} (fails : readOutcome (s.scanSlot n).offset result = .error cause) :
      ∃ t, exec (.slotReadDone result bus) s = .next t ∧ ScanGoesOn (s.readsFailed [n] cause) rest worst bus t :=
    ⟨_, by rw [exec_slotReadDone awake, State.finishSlot_fails scan fails], scanGoesOn_nextSlot _ _ _ _⟩
  have driven (result : ReadResult) := probeBus_slotReadDone awake scan result bus
  rw [nextCheck_eq] at driven
  refine ⟨fun high low => ⟨fun least greatest => ⟨_, ?_, scanGoesOn_nextSlot _ _ _ _⟩, fun beyond =>
      failed (readOutcome_data_range rfl beyond)⟩, failed rfl, failed rfl, failed rfl,
    fun parts => ⟨_, ?_, scanGoesOn_nextSlot _ _ _ _⟩, fun high low => driven _, driven _, driven _, driven _,
    fun parts early => ?_⟩
  · rw [exec_slotReadDone awake, State.finishSlot_reads scan (readOutcome_data_good rfl least greatest)]
    rfl
  · rw [exec_probeBusTimeout awake, State.finishSlot_fails scan rfl]
  · rw [probeBus_probeBusTimeout awake scan, ScanSlot.drivesUntilTimeout_eq _ early, nextCheck_eq]
    rfl

end Sys2Proof.Machine
end
